-- ==== Sys2Proof/Word.lean ====
section
/-! DEFINITION. Words of the hardware: bytes and flash addresses (00_scope R11, 30_encoding R120). All quantities
are unsigned. -/

namespace Sys2Proof

/-- A byte (00_scope R11). -/
abbrev Byte := BitVec 8

/-- The `address` field of a request and every address register: 32 bits (10_state R26, 30_encoding R120). -/
abbrev Address := BitVec 32

/-- The `sectorIndex` field: 20 bits (10_state R26, 30_encoding R120). -/
abbrev SectorIndex := BitVec 20

end Sys2Proof
end

