-- ==== Sys2Proof/Config.lean ====
section
/-! DEFINITION. What is fixed for the block (00_scope R7, R8) and the free values the rules leave open.
A free value is an opaque constant: nothing can evaluate it, so a statement holds for whatever it is. -/

namespace Sys2Proof

/-- `ADDRESS_WIDTH`: 3 or 4 address bytes (00_scope R8, 10_state R20). -/
inductive AddressWidth where
  | three
  | four
  deriving DecidableEq, Repr

/-- The number of address bytes transmitted (10_state R20). -/
def AddressWidth.bytes : AddressWidth → Nat
  | .three => 3
  | .four => 4

namespace Config

/-- `DUMMY_TX`, the byte sent while receiving (00_scope R8, 30_encoding R102). -/
def dummyTx : Byte := 0xFF

/-- `BLANK`, the value of an erased byte (00_scope R7). -/
def blank : Byte := 0xFF

/-- A byte the rules leave open, one for each value of the counter `env.drawn`: a byte the device drives while the
block sends (46 R249), the open bits of a status register (46 R233). Log 10. -/
opaque freeByte : Nat → Byte

/-- A yes or no of the device that the rules leave open: the latch after a cycle (46 R239), what a status register
write does (46 R234), what an empty program does (46 R236), the flags and the cycle of a POISONED device (10_state R33).
Logs 10, 12. -/
opaque freeBool : Nat → Bool

/-- A byte of the flash array of a POISONED device: at a counter and an address (10_state R33, 60 R270). Log 12. -/
opaque freeFlash : Nat → Nat → Byte

/-- Whether the bytes of the flash array outside the page or sector in work are known after an abort: 43 R188 and
45 R213 say what they hold, 10_state R33 and 60 R287 let nothing be claimed of them, and the spec does not rule which of
the two goes before. Log 12. -/
opaque abortSparesRest : Bool

/-- How many more observations find the cycle of a POISONED device running, `none` if it never ends: at a counter
(10_state R33, 60 R270). Log 12. -/
opaque freeLatency : Nat → Option Nat

end Config
end Sys2Proof
end

