-- ==== Sys2Proof/Syntax.lean ====
section
/-! DEFINITION. The instructions: one constructor for each of the 33 rows of spec/opcode_table.json, and the two
forms in which they are presented to the machine (30_encoding R104, R120). -/

namespace Sys2Proof

/-- One row of the opcode table each. The first sixteen are the transactions of the byte transport (30_encoding
R110), the next ten the host operations (R121), then the internal raw sector read (45 R204) and the six reserved
`op` values (30 R124). `length` is the length of `data` (30 R120). -/
inductive Instr where
  /-- 0x06, format C (46 R230). -/
  | writeEnable
  /-- 0x04, format C (46 R231). -/
  | writeDisable
  /-- 0x05, format CR (46 R233). -/
  | readStatusReg1
  /-- 0x35, format CR (46 R233). -/
  | readStatusReg2
  /-- 0x15, format CR (46 R233). -/
  | readStatusReg3
  /-- 0x01, format CW (46 R234). -/
  | writeStatusReg1 (value : Byte)
  /-- 0x31, format CW (46 R234). -/
  | writeStatusReg2 (value : Byte)
  /-- 0x11, format CW (46 R234). -/
  | writeStatusReg3 (value : Byte)
  /-- 0x03, format CAR: `count` bytes read from `address` on (46 R235). -/
  | readData (address : Address) (count : Nat)
  /-- 0x02, format CAW (46 R236). -/
  | pageProgram (address : Address) (data : List Byte)
  /-- 0x20, format CA (46 R237). -/
  | sectorErase (address : Address)
  /-- 0xC7, format not in the source: `tail` is whatever follows the command byte (46 R243, log 14). -/
  | chipErase (tail : List Byte)
  /-- 0xB9, format not in the source (46 R244, log 14). -/
  | powerDown (tail : List Byte)
  /-- 0xAB, format not in the source (46 R245, log 14). -/
  | releasePowerDown (tail : List Byte)
  /-- 0x90, format not in the source (46 R246, log 15). -/
  | manufacturerDeviceID (tail : List Byte)
  /-- 0xB7, format C by the wording (46 R247, log 16). -/
  | enable4ByteAddr
  /-- op 0x1, `read(n)` (40 R142). -/
  | srRead (reg : BitVec 8)
  /-- op 0x2, `write(n, v)` (40 R143). -/
  | srWrite (reg : BitVec 8) (value : Byte)
  /-- op 0x3, `busy()` (40 R145). -/
  | srBusy
  /-- op 0x4, `waitUntilReady()` (40 R146). -/
  | srWait
  /-- op 0x5, `enable()` (41 R161). -/
  | weEnable
  /-- op 0x6, `disable()` (41 R162). -/
  | weDisable
  /-- op 0x7, `programPage(data, address, length)` (42 R172). -/
  | ppProgram (address : Address) (data : List Byte)
  /-- op 0x8, `writeAssumingBlank(data, address, length)` (43 R182). -/
  | pswWriteBlank (address : Address) (data : List Byte)
  /-- op 0x9, `eraseSector(sectorIndex)` (44 R192). -/
  | semErase (sectorIndex : SectorIndex)
  /-- op 0xA, `write(data, address, length)` (45 R200). -/
  | fweWrite (address : Address) (data : List Byte)
  /-- `readSector(sectorIndex)`, internal, no op value (45 R204). -/
  | fweReadSector (sectorIndex : SectorIndex)
  /-- op 0x0, reserved (30 R124). -/
  | reservedOp0
  /-- op 0xB, reserved (30 R124). -/
  | reservedOpB
  /-- op 0xC, reserved (30 R124). -/
  | reservedOpC
  /-- op 0xD, reserved (30 R124). -/
  | reservedOpD
  /-- op 0xE, reserved (30 R124). -/
  | reservedOpE
  /-- op 0xF, reserved (30 R124). -/
  | reservedOpF
  deriving DecidableEq, Repr

/-- The host request, a record of fields (30_encoding R120); fields an operation does not use are ignored. -/
structure Request where
  op : BitVec 4
  reg : BitVec 8
  value : BitVec 8
  address : Address
  length : BitVec 32
  sectorIndex : SectorIndex
  data : List Byte
  deriving DecidableEq, Repr

/-- What an instruction is presented as: a request at the host port, or the bytes sent between one `Select()` and
the following `Deselect()` on the transport (30_encoding R100, R120, R127: the two match spaces are distinct). -/
inductive Packet where
  | request (r : Request)
  | transaction (bytes : List Byte)
  deriving DecidableEq, Repr

end Sys2Proof
end

