-- ==== Sys2Proof/WellFormed.lean ====
section
/-! DEFINITION. Well-formed instructions: the operands an encoding can carry (30_encoding R106, R120, 20_memory R83). -/

namespace Sys2Proof

/-- The address survives `SendAddr`: with three address bytes its bits 31:24 are zero (20_memory R83). -/
def AddressWidth.fits (aw : AddressWidth) (a : Address) : Bool :=
  match aw with
  | .three => decide (a.toNat < 2 ^ 24)
  | .four => true

/-- The `length` field of a request is 32 bits (30_encoding R120). -/
def lengthFits (data : List Byte) : Bool := decide (data.length < 2 ^ 32)

/-- Well-formedness, given the address width the transport is used with. -/
def Instr.wf (aw : AddressWidth) : Instr → Bool
  | .writeEnable => true
  | .writeDisable => true
  | .readStatusReg1 => true
  | .readStatusReg2 => true
  | .readStatusReg3 => true
  | .writeStatusReg1 _ => true
  | .writeStatusReg2 _ => true
  | .writeStatusReg3 _ => true
  | .readData a _ => aw.fits a
  | .pageProgram a _ => aw.fits a
  | .sectorErase a => aw.fits a
  | .chipErase _ => true
  | .powerDown _ => true
  | .releasePowerDown _ => true
  | .manufacturerDeviceID _ => true
  | .enable4ByteAddr => true
  | .srRead _ => true
  | .srWrite _ _ => true
  | .srBusy => true
  | .srWait => true
  | .weEnable => true
  | .weDisable => true
  | .ppProgram _ data => lengthFits data
  | .pswWriteBlank _ data => lengthFits data
  | .semErase _ => true
  | .fweWrite _ data => lengthFits data
  | .fweReadSector _ => true
  | .reservedOp0 => true
  | .reservedOpB => true
  | .reservedOpC => true
  | .reservedOpD => true
  | .reservedOpE => true
  | .reservedOpF => true

end Sys2Proof
end

