-- ==== Sys2Proof/Decode.lean ====
section
/-! DEFINITION. Decoding and encoding of requests (30_encoding R120, R121, R124) and of transport transactions
(30_encoding R104, R106, R110, R128), and the opcode table's word. -/

namespace Sys2Proof

/-- Why a packet is no instruction. -/
inductive DecodeError where
  /-- A transaction of no byte: it has no command byte. -/
  | emptyTransaction
  /-- Byte 0 is none of the sixteen command bytes (30_encoding R112). -/
  | unknownCommand (command : Byte)
  /-- The bytes after byte 0 do not have the command's format (30_encoding R104). -/
  | formatMismatch (command : Byte)
  /-- The request's `data` does not hold `length` bytes (30_encoding R120). -/
  | dataLength
  deriving DecidableEq, Repr

/-! ### Host requests -/

/-- A request whose operation uses `data`: the field holds `length` bytes (30_encoding R120). -/
def Request.withData (r : Request) (f : List Byte → Instr) : Except DecodeError Instr :=
  if r.data.length = r.length.toNat then .ok (f r.data) else .error .dataLength

/-- The operation codes of 30_encoding R121, with the reserved ones of R124. -/
def decodeRequest (r : Request) : Except DecodeError Instr :=
  match r.op.toNat with
  | 0x1 => .ok (.srRead r.reg)
  | 0x2 => .ok (.srWrite r.reg r.value)
  | 0x3 => .ok .srBusy
  | 0x4 => .ok .srWait
  | 0x5 => .ok .weEnable
  | 0x6 => .ok .weDisable
  | 0x7 => r.withData (.ppProgram r.address)
  | 0x8 => r.withData (.pswWriteBlank r.address)
  | 0x9 => .ok (.semErase r.sectorIndex)
  | 0xA => r.withData (.fweWrite r.address)
  | 0xB => .ok .reservedOpB
  | 0xC => .ok .reservedOpC
  | 0xD => .ok .reservedOpD
  | 0xE => .ok .reservedOpE
  | 0xF => .ok .reservedOpF
  | _ => .ok .reservedOp0

/-! ### Transport transactions -/

/-- The address bytes, most significant first (30_encoding R106, 20_memory R66). -/
def addressBytes (aw : AddressWidth) (a : Address) : List Byte :=
  match aw with
  | .three => [a.extractLsb' 16 8, a.extractLsb' 8 8, a.extractLsb' 0 8]
  | .four => [a.extractLsb' 24 8, a.extractLsb' 16 8, a.extractLsb' 8 8, a.extractLsb' 0 8]

/-- The address at the head of `bytes` and what follows it (30_encoding R104, R105, R128). -/
def takeAddress (aw : AddressWidth) (bytes : List Byte) : Option (Address × List Byte) :=
  match aw, bytes with
  | .three, b2 :: b1 :: b0 :: rest => some ((0 : Byte) ++ b2 ++ b1 ++ b0, rest)
  | .four, b3 :: b2 :: b1 :: b0 :: rest => some (b3 ++ b2 ++ b1 ++ b0, rest)
  | _, _ => none

/-- Formats C, CR and CW: exactly `n` bytes after the command, the first of them given to `f`. -/
def decodeFixed (c : Byte) (n : Nat) (rest : List Byte) (f : Byte → Instr) : Except DecodeError Instr :=
  if rest.length = n then .ok (f (rest.headD 0)) else .error (.formatMismatch c)

/-- Formats CA, CAW and CAR: an address, then whatever `f` takes (none: the rest has not the format). -/
def decodeAddressed (aw : AddressWidth) (c : Byte) (rest : List Byte)
    (f : Address → List Byte → Option Instr) : Except DecodeError Instr :=
  match takeAddress aw rest with
  | some (a, payload) =>
    match f a payload with
    | some i => .ok i
    | none => .error (.formatMismatch c)
  | none => .error (.formatMismatch c)

/-- The decoder of the transport side (30_encoding R128): byte 0 is looked up in R110, then the address bytes, then
the payload until `Deselect()`. The filler bytes of a status read and of ReadData, which the spec knows as DUMMY_TX
only, may have any value and are dropped (DESIGN CHOICE, log 29). -/
def decodeTransaction (aw : AddressWidth) (bytes : List Byte) : Except DecodeError Instr :=
  match bytes with
  | [] => .error .emptyTransaction
  | c :: rest =>
    match c.toNat with
    | 0x06 => decodeFixed c 0 rest fun _ => .writeEnable
    | 0x04 => decodeFixed c 0 rest fun _ => .writeDisable
    | 0x05 => decodeFixed c 1 rest fun _ => .readStatusReg1
    | 0x35 => decodeFixed c 1 rest fun _ => .readStatusReg2
    | 0x15 => decodeFixed c 1 rest fun _ => .readStatusReg3
    | 0x01 => decodeFixed c 1 rest .writeStatusReg1
    | 0x31 => decodeFixed c 1 rest .writeStatusReg2
    | 0x11 => decodeFixed c 1 rest .writeStatusReg3
    | 0x03 => decodeAddressed aw c rest fun a payload => some (.readData a payload.length)
    | 0x02 => decodeAddressed aw c rest fun a payload => some (.pageProgram a payload)
    | 0x20 => decodeAddressed aw c rest fun a payload => if payload.isEmpty then some (.sectorErase a) else none
    | 0xC7 => .ok (.chipErase rest)
    | 0xB9 => .ok (.powerDown rest)
    | 0xAB => .ok (.releasePowerDown rest)
    | 0x90 => .ok (.manufacturerDeviceID rest)
    | 0xB7 => decodeFixed c 0 rest fun _ => .enable4ByteAddr
    | _ => .error (.unknownCommand c)

/-- The decoder: total on any packet. -/
def decode (aw : AddressWidth) : Packet → Except DecodeError Instr
  | .request r => decodeRequest r
  | .transaction bytes => decodeTransaction aw bytes

/-! ### Encoding -/

/-- A request with every field but `op` zero. -/
def Request.ofOp (op : BitVec 4) : Request :=
  { op := op, reg := 0, value := 0, address := 0, length := 0, sectorIndex := 0, data := [] }

/-- A request of an operation on a data buffer (30_encoding R120). -/
def Request.ofData (op : BitVec 4) (a : Address) (data : List Byte) : Request :=
  { Request.ofOp op with address := a, length := BitVec.ofNat 32 data.length, data := data }

/-- The encoding of an instruction: the request record (30_encoding R121, R124) or the bytes of the transaction
(30_encoding R104, R110). The internal raw sector read has none (30_encoding R126, R127). -/
def encode (aw : AddressWidth) : Instr → Option Packet
  | .writeEnable => some (.transaction [0x06])
  | .writeDisable => some (.transaction [0x04])
  | .readStatusReg1 => some (.transaction [0x05, Config.dummyTx])
  | .readStatusReg2 => some (.transaction [0x35, Config.dummyTx])
  | .readStatusReg3 => some (.transaction [0x15, Config.dummyTx])
  | .writeStatusReg1 v => some (.transaction [0x01, v])
  | .writeStatusReg2 v => some (.transaction [0x31, v])
  | .writeStatusReg3 v => some (.transaction [0x11, v])
  | .readData a n => some (.transaction (0x03 :: (addressBytes aw a ++ List.replicate n Config.dummyTx)))
  | .pageProgram a data => some (.transaction (0x02 :: (addressBytes aw a ++ data)))
  | .sectorErase a => some (.transaction (0x20 :: addressBytes aw a))
  | .chipErase tail => some (.transaction (0xC7 :: tail))
  | .powerDown tail => some (.transaction (0xB9 :: tail))
  | .releasePowerDown tail => some (.transaction (0xAB :: tail))
  | .manufacturerDeviceID tail => some (.transaction (0x90 :: tail))
  | .enable4ByteAddr => some (.transaction [0xB7])
  | .srRead reg => some (.request { Request.ofOp 0x1 with reg := reg })
  | .srWrite reg value => some (.request { Request.ofOp 0x2 with reg := reg, value := value })
  | .srBusy => some (.request (Request.ofOp 0x3))
  | .srWait => some (.request (Request.ofOp 0x4))
  | .weEnable => some (.request (Request.ofOp 0x5))
  | .weDisable => some (.request (Request.ofOp 0x6))
  | .ppProgram a data => some (.request (Request.ofData 0x7 a data))
  | .pswWriteBlank a data => some (.request (Request.ofData 0x8 a data))
  | .semErase si => some (.request { Request.ofOp 0x9 with sectorIndex := si })
  | .fweWrite a data => some (.request (Request.ofData 0xA a data))
  | .fweReadSector _ => none
  | .reservedOp0 => some (.request (Request.ofOp 0x0))
  | .reservedOpB => some (.request (Request.ofOp 0xB))
  | .reservedOpC => some (.request (Request.ofOp 0xC))
  | .reservedOpD => some (.request (Request.ofOp 0xD))
  | .reservedOpE => some (.request (Request.ofOp 0xE))
  | .reservedOpF => some (.request (Request.ofOp 0xF))

/-! ### The opcode table's word -/

/-- How many bytes after the command byte the shortest transaction of the command has (30_encoding R104). -/
def operandByteCount (aw : AddressWidth) (command : Byte) : Nat :=
  match command.toNat with
  | 0x05 | 0x35 | 0x15 | 0x01 | 0x31 | 0x11 => 1
  | 0x03 | 0x02 | 0x20 => aw.bytes
  | _ => 0

/-- The packet of a table word with every operand zero: a host request where the word is a 4-bit `op` value, else
the transaction whose byte 0 is the word. The values 1 to 6 stand in both match spaces of the table (30_encoding
R127); as a word they are read as the host's `op` (log 1). -/
def packetOfWord (aw : AddressWidth) (nbits w : Nat) : Packet :=
  if nbits ≤ 4 ∨ w < 16 then .request (Request.ofOp (BitVec.ofNat 4 w))
  else
    let command : Byte := BitVec.ofNat 8 w
    .transaction (command :: List.replicate (operandByteCount aw command) 0)

/-- The instruction the decoder reads from a table word, with three address bytes. -/
def decodeTableWord (nbits w : Nat) : Option Instr :=
  (decode .three (packetOfWord .three nbits w)).toOption

end Sys2Proof
end

