-- ==== Sys2Proof/Machine/State.lean ====
section
/-! DEFINITION. The state of the engine, of the device behind the transport and of their environment (10_state), as
plain data, and the state after reset (10_state R35, R36). -/

namespace Sys2Proof.Machine

/-- The DeviceDescriptor `DD` (10_state R20). -/
structure DeviceDescriptor where
  idCode : BitVec 16
  addressWidth : AddressWidth
  capacityBytes : Nat
  deriving DecidableEq, Repr

/-- The status codes of a response (30_encoding R123). -/
inductive Status where
  | ok
  | invalidRange
  | busyTimeout
  | transportFailure
  | invalidRegister
  | illegalRequest
  deriving DecidableEq, Repr

/-- The response registers `RSP` (10_state R29). -/
structure Response where
  status : Status
  result : Byte
  deriving DecidableEq, Repr

/-- A data source: the caller's buffer or the ScratchBuffer (10_state R25). -/
inductive Source where
  | caller
  | scratch
  deriving DecidableEq, Repr

/-- The working registers of `flash_write_engine` (10_state R25, R26). -/
structure FweRegs where
  address : BitVec 32
  length : BitVec 32
  pos : BitVec 32
  sectorIndex : BitVec 20
  offsetInSector : BitVec 12
  spaceInSector : BitVec 13
  chunk : BitVec 13
  eraseRequired : Bool
  deriving DecidableEq, Repr

/-- The working registers of `page_span_writer` (10_state R25, R26). -/
structure PswRegs where
  src : Source
  srcBase : BitVec 32
  addr : BitVec 32
  remaining : BitVec 32
  pos : BitVec 32
  pageRemain : BitVec 9
  n : BitVec 9
  deriving DecidableEq, Repr

/-- The working registers of `page_programmer` (10_state R25, R26). -/
structure PpRegs where
  src : Source
  srcBase : BitVec 32
  addr : BitVec 32
  len : BitVec 9
  i : BitVec 9
  deriving DecidableEq, Repr

/-- The working registers of `sector_erase_manager` (10_state R25, R26). -/
structure SemRegs where
  sectorIndex : BitVec 20
  base : BitVec 32
  deriving DecidableEq, Repr

/-- The working registers of `status_register_access` (10_state R25, R26). -/
structure SraRegs where
  reg : BitVec 8
  value : BitVec 8
  polls : Nat
  deriving DecidableEq, Repr

/-- The procedures of files 40 to 45 (10_state R28). -/
inductive Proc where
  | read
  | writeRegister
  | busy
  | waitUntilReady
  | enable
  | disable
  | programPage
  | writeAssumingBlank
  | eraseSector
  | write
  | readSector
  deriving DecidableEq, Repr

/-- The sequencer labels (40 R150, 41 R165, 42 R178, 43 R187, 44 R197, 45 R219). -/
inductive Label where
  | RD0 | RD1 | RD2 | RD3 | RD4 | RD5 | RD6
  | WR0 | WR1 | WR2 | WR3 | WR4 | WR5 | WR6
  | BZ0 | BZ1
  | WT0 | WT1 | WT2 | WT3 | WT4 | WT5
  | EN0 | EN1 | EN2 | EN3
  | DS0 | DS1 | DS2 | DS3
  | PG0 | PG1 | PG2 | PG3 | PG4 | PG5 | PG6 | PG7 | PG8 | PG9 | PG10
  | SP0 | SP1 | SP2 | SP3 | SP4 | SP5 | SP6 | SP7 | SP8
  | ER0 | ER1 | ER2 | ER3 | ER4 | ER5 | ER6 | ER7 | ER8 | ER9
  | W0 | W0c | WL | W1 | W2 | W3 | W3b | W4a | W4b | W4c | W4d | W5 | W6
  | RS0 | RS1 | RS2 | RS3 | RS4 | RS5
  deriving DecidableEq, Repr

/-- A frame of the sequencer state `SEQ` (10_state R28). -/
structure Frame where
  proc : Proc
  label : Label
  deriving DecidableEq, Repr

/-- A byte memory as a list of cells in rising order of address, none holding 0xFF: an address that is not listed
reads 0xFF (Memory.read in Machine/Memory.lean, log 6). -/
abbrev Memory := List Host.Cell

/-- The pending internal cycle `PEND` of the device (10_state R23). -/
inductive Pend where
  | none
  | program
  | erase
  | statuswrite
  deriving DecidableEq, Repr

/-- The device's three status registers (10_state R21). -/
inductive StatusReg where
  | sr1
  | sr2
  | sr3
  deriving DecidableEq, Repr

/-- The commands that take an address (30_encoding R104). -/
inductive AddressCommand where
  | readData
  | pageProgram
  | sectorErase
  deriving DecidableEq, Repr

/-- How far the device has decoded the transaction in progress (46 R232, R250, 30_encoding R128). -/
inductive Phase where
  /-- No transaction: the chip select is not asserted. -/
  | off
  /-- Selected, no byte yet. -/
  | command
  /-- WriteEnable (`true`) or WriteDisable (`false`). -/
  | latch (value : Bool)
  /-- A status register read; `done` when its byte has been driven. -/
  | statusRead (reg : StatusReg) (done : Bool)
  /-- A status register write and its payload, once received. -/
  | statusWrite (reg : StatusReg) (value : Option Byte)
  /-- `left` address bytes still to come, `acc` the value of those received. -/
  | address (command : AddressCommand) (left : Nat) (acc : Nat)
  /-- ReadData: the next byte driven is that of address `next`. -/
  | readOut (next : Nat)
  /-- PageProgram at `base`: the data bytes received, the last one first. -/
  | dataIn (base : Nat) (received : List Byte)
  /-- SectorErase at `base`. -/
  | eraseAt (base : Nat)
  /-- ManufacturerDeviceID. -/
  | identity
  /-- Enable4ByteAddr. -/
  | enable4
  /-- A command or a byte sequence to which the source gives no effect. -/
  | undefinedCommand
  deriving DecidableEq, Repr

/-- The part of `F` that an interrupted sequence leaves undefined by every rule (43 R188, 45 R213, 60 R270, log 12). -/
inductive Extent where
  | all
  | range (first count : Nat)
  deriving DecidableEq, Repr

/-- The NOR flash behind the transport (10_state R21 to R23, R31, R33). `BUSY` is `pend ≠ none` (R23); the status
register bits other than BUSY and ADS hold no value (R21). -/
structure Device where
  flash : Memory
  wel : Bool
  ads : Bool
  pend : Pend
  /-- The model's own: how many more observations find the pending cycle running; `none`: it never ends (log 9). -/
  busyFor : Option Nat
  phase : Phase
  poisoned : Bool
  /-- The model's own: which bytes of `F` are undefined by every rule while the device is POISONED; of the others it is
  open whether anything is known (log 12). -/
  lost : Extent
  /-- The device is powered down: premise `P_awake` of 70 R297 (60 R284). -/
  asleep : Bool
  /-- Some region of `F` is write-protected: premise `P_awake` of 70 R297 (20_memory R73). -/
  guarded : Bool
  deriving DecidableEq, Repr

/-- The free inputs of the model, not state of the spec (00_scope R16 "draw", log 8, log 10). -/
structure Environment where
  /-- For each later exchange failure, how many exchanges succeed before it; none after the last (60 R264). -/
  xferFail : List Nat
  /-- For each later cycle of the device, how many observations find it running, `none` if it never ends; 0 for
  every cycle after the last listed (46 R239, R240). -/
  latencies : List (Option Nat)
  /-- The next status register bytes, of which the open bits are used; free values after the last (46 R233). -/
  statusBits : List Byte
  /-- The next open yes or no of the device; free values after the last (46 R234, R236, R239). -/
  choices : List Bool
  /-- How many values have been drawn from the opaque constants of Config. -/
  drawn : Nat
  deriving DecidableEq, Repr

/-- An event on the byte transport (00_scope R12, R13). -/
inductive BusEvent where
  | select
  | xchg (tx rx : Byte)
  | deselect
  deriving DecidableEq, Repr

/-- What is presented to the machine from outside (60 R270, R280, 70 R292, R293). -/
inductive Input where
  /-- A host request, or a bare transaction on the transport. -/
  | packet (p : Packet)
  /-- The reset of the engine. -/
  | engineReset
  /-- A request or a bare transaction, and the reset of the engine in the middle of it: after so many exchanges, and,
  where a transaction begins there, after (`selected`) or before its `Select()` (70 R292, log 20). -/
  | resetDuring (exchanges : Nat) (selected : Bool) (p : Packet)
  /-- The environment has re-initialised the device, which then holds these contents, latch and mode, and is asleep or
  write-protected or not (10_state R33, 60 R270, log 12). -/
  | reinitialised (flash : Memory) (wel ads asleep guarded : Bool)
  deriving DecidableEq, Repr

/-- The state of the machine. -/
structure State where
  /-- `DD` (10_state R20). -/
  dd : DeviceDescriptor
  /-- `POLL_LIMIT`, `none` for `INF` (00_scope R8). -/
  pollLimit : Option Nat
  fwe : FweRegs
  /-- `RS.i` (10_state R25). -/
  rsI : BitVec 13
  psw : PswRegs
  pp : PpRegs
  sem : SemRegs
  sra : SraRegs
  /-- The ScratchBuffer `SB` (10_state R24). -/
  sb : Memory
  /-- `SEQ`, the top frame first (10_state R28). -/
  seq : List Frame
  /-- `ENG.busy` (10_state R27). -/
  engBusy : Bool
  /-- `CS` (10_state R32). -/
  cs : Bool
  /-- `RSP` (10_state R29). -/
  rsp : Response
  dev : Device
  env : Environment
  /-- What is presented, in order (log 20). -/
  port : List Input
  /-- The transport trace, the last event first (00_scope R13, log 24). -/
  trace : List BusEvent
  deriving DecidableEq, Repr

/-- Why a step stops with a fault. -/
inductive Fault where
  /-- A request or a transaction meets `CS = 1` or a nonempty `SEQ` although `ENG.busy = 0`: premise `P_idle` of
  70 R297 is broken and the rules give no effect. Raised by `serve` and `bareTransaction`; no run from reset reaches
  it. Safe: the model stops (log 22). -/
  | notIdle
  deriving DecidableEq, Repr

/-- Why a step is refused. -/
inductive Refusal where
  /-- An instruction without a meaning yet, raised by `exec`. Safe: the model stops. -/
  | notModelled (mnemonic : String)
  /-- The packet at the port is no instruction, raised by `step`. Safe: the model stops (30_encoding R112, log 23). -/
  | undecodable (error : DecodeError)
  deriving DecidableEq, Repr

/-- Apply `f` to the device. -/
def State.mapDev (s : State) (f : Device → Device) : State := { s with dev := f s.dev }

/-- Apply `f` to the environment. -/
def State.mapEnv (s : State) (f : Environment → Environment) : State := { s with env := f s.env }

/-- The device at reset: the launch premises of 70 R297 hold; the rest is a named value (10_state R36, log 7). -/
def Device.reset : Device :=
  { flash := [], wel := false, ads := false, pend := .none, busyFor := some 0, phase := .off, poisoned := false,
    lost := .all, asleep := false, guarded := false }

/-- The environment at reset: the default device and transport of 95_test_vectors (log 8, log 10). -/
def Environment.reset : Environment :=
  { xferFail := [], latencies := [], statusBits := List.replicate 256 0x00, choices := List.replicate 256 false,
    drawn := 0 }

/-- The machine after reset (10_state R35, 70 R291). The descriptor and POLL_LIMIT are those of 95_test_vectors
(log 3, log 4), the working registers and SB hold named values (log 5, log 6). -/
def State.reset : State :=
  { dd := { idCode := 0, addressWidth := .three, capacityBytes := 0x100000 }
    pollLimit := none
    fwe := { address := 0, length := 0, pos := 0, sectorIndex := 0, offsetInSector := 0, spaceInSector := 0,
             chunk := 0, eraseRequired := false }
    rsI := 0
    psw := { src := .caller, srcBase := 0, addr := 0, remaining := 0, pos := 0, pageRemain := 0, n := 0 }
    pp := { src := .caller, srcBase := 0, addr := 0, len := 0, i := 0 }
    sem := { sectorIndex := 0, base := 0 }
    sra := { reg := 0, value := 0, polls := 0 }
    sb := []
    seq := []
    engBusy := false
    cs := false
    rsp := { status := .ok, result := 0x00 }
    dev := Device.reset
    env := Environment.reset
    port := []
    trace := [] }

end Sys2Proof.Machine
end

