-- ==== Sys2Proof/Machine/Memory.lean ====
section
/-! DEFINITION. Byte memories: the flash array `F` and the ScratchBuffer `SB` (20_memory R60 to R63). -/

namespace Sys2Proof.Machine

/-- What an address that is not listed reads as: a blank byte (log 6). -/
def Memory.unlisted : Byte := 0xFF

/-- The byte at an address. -/
def Memory.read : Memory → Nat → Byte
  | [], _ => Memory.unlisted
  | c :: rest, a => if c.1 = a then c.2 else Memory.read rest a

/-- Write one byte, keeping the canonical form: an entry that would read as unlisted is removed. -/
def Memory.write : Memory → Nat → Byte → Memory
  | [], a, b => if b = Memory.unlisted then [] else [(a, b)]
  | c :: rest, a, b =>
    if a < c.1 then (if b = Memory.unlisted then c :: rest else (a, b) :: c :: rest)
    else if a = c.1 then (if b = Memory.unlisted then rest else (a, b) :: rest)
    else c :: Memory.write rest a b

/-- Write the bytes of a list at ascending addresses from `a` on (20_memory R62, `MemWrite`). -/
def Memory.writeList (m : Memory) (a : Nat) : List Byte → Memory
  | [] => m
  | b :: rest => Memory.writeList (m.write a b) (a + 1) rest

/-- Program the bytes of a list at ascending addresses: each byte is ANDed onto the old one (20_memory R63). -/
def Memory.program (m : Memory) (a : Nat) : List Byte → Memory
  | [] => m
  | d :: rest => Memory.program (m.write a (m.read a &&& d)) (a + 1) rest

/-- Erase: every byte of `[base, base + n)` becomes 0xFF (20_memory R63), which is no entry. -/
def Memory.erase (m : Memory) (base n : Nat) : Memory :=
  m.filter fun c => decide (c.1 < base ∨ base + n ≤ c.1)

/-- The bytes `F[a], …, F[a+n-1]` in ascending address order (20_memory R62, `MemRead`). -/
def Memory.readList (m : Memory) (a : Nat) : Nat → List Byte
  | 0 => []
  | n + 1 => m.read a :: Memory.readList m (a + 1) n

/-- The memory of `n` bytes that holds what is listed, the first entry of an address winning. -/
def Memory.ofCells (n : Nat) : Memory → Memory
  | [] => []
  | c :: rest => if c.1 < n then (Memory.ofCells n rest).write c.1 c.2 else Memory.ofCells n rest

/-- Canonical form: addresses strictly rising, no entry equal to what an unlisted address reads as. -/
def Memory.wf : Memory → Bool
  | [] => true
  | c :: rest =>
    decide (c.2 ≠ Memory.unlisted) && rest.all (fun d => decide (c.1 < d.1)) && Memory.wf rest

/-- No entry at or above `n`. -/
def Memory.below (m : Memory) (n : Nat) : Bool := m.all fun c => decide (c.1 < n)

end Sys2Proof.Machine
end

