-- ==== Sys2Proof/Machine/Flags.lean ====
section
/-! DEFINITION. The flags of the block and of the device (10_state R27): BUSY, ADS, the status register bytes they
stand in, and `FWE.eraseRequired`. WEL, CS and ENG.busy are fields of State. -/

namespace Sys2Proof.Machine

/-- `BUSY = 1` exactly when `PEND` is not `none` (10_state R23). -/
def Device.busy (d : Device) : Bool := decide (d.pend ≠ .none)

/-- The byte `open` with its bit 0 set to `b`: a status register of which only bit 0 is defined (46 R233). -/
def withBit0 (openBits : Byte) (b : Bool) : Byte := (openBits &&& 0xFE) ||| (if b then 1 else 0)

/-- Bit 0 of a byte: the busy test of R145 (30_encoding R108). -/
def bit0 (b : Byte) : Bool := b.getLsbD 0

/-- The blank scan: some byte of `SB[offset .. offset+chunk)` is not 0xFF (45 R205). -/
def blankScan (sb : Memory) (offset chunk : Nat) : Bool :=
  (List.range chunk).any fun i => decide (sb.read (offset + i) ≠ Config.blank)

/-- The result byte of a Boolean operation (10_state R29). -/
def boolResult (b : Bool) : Byte := if b then 0x01 else 0x00

/-- The number of a status code (30_encoding R123). -/
def Status.code : Status → BitVec 3
  | .ok => 0
  | .invalidRange => 1
  | .busyTimeout => 2
  | .transportFailure => 3
  | .invalidRegister => 4
  | .illegalRequest => 5

/-- The failures after which the device is POISONED (60 R266, R270). -/
def Status.poisons : Status → Bool
  | .busyTimeout => true
  | .transportFailure => true
  | .ok => false
  | .invalidRange => false
  | .invalidRegister => false
  | .illegalRequest => false

end Sys2Proof.Machine
end

