-- ==== Sys2Proof/Machine/Device.lean ====
section
/-! DEFINITION. The flash device behind the transport: the environment contract of 46_device_commands. -/

namespace Sys2Proof.Machine

/-! ### Free values (00_scope R16 "draw", log 10) -/

/-- A byte the rules leave open and nothing looks at (46 R249). -/
def State.drawByte (s : State) : Byte × State :=
  (Config.freeByte s.env.drawn, s.mapEnv fun e => { e with drawn := e.drawn + 1 })

/-- A byte of which a status register read uses the open bits (46 R233). -/
def State.drawStatusBits (s : State) : Byte × State :=
  match s.env.statusBits with
  | b :: rest => (b, s.mapEnv fun e => { e with statusBits := rest })
  | [] => s.drawByte

/-- A yes or no the rules leave open (46 R234, R236, R239). -/
def State.drawChoice (s : State) : Bool × State :=
  match s.env.choices with
  | b :: rest => (b, s.mapEnv fun e => { e with choices := rest })
  | [] => (Config.freeBool s.env.drawn, s.mapEnv fun e => { e with drawn := e.drawn + 1 })

/-- `WEL` becomes a free value (46 R239, R234, R236). -/
def State.freeWel (s : State) : State :=
  let (w, s) := s.drawChoice
  s.mapDev fun d => { d with wel := w }

/-- `ADS` becomes a free value (46 R234). -/
def State.freeAds (s : State) : State :=
  let (a, s) := s.drawChoice
  s.mapDev fun d => { d with ads := a }

/-- Whether the device is powered down becomes a free value (10_state R33). -/
def State.freeAsleep (s : State) : State :=
  let (a, s) := s.drawChoice
  s.mapDev fun d => { d with asleep := a }

/-- Whether a region is write-protected becomes a free value (46 R234, 20_memory R73, log 17). -/
def State.freeGuarded (s : State) : State :=
  let (g, s) := s.drawChoice
  s.mapDev fun d => { d with guarded := g }

/-- The device enters the cycle `p`; how long it runs is the environment's next latency (46 R240, log 8). -/
def State.startCycle (p : Pend) (s : State) : State :=
  let k := s.env.latencies.headD (some 0)
  (s.mapEnv fun e => { e with latencies := e.latencies.tail }).mapDev fun d => { d with pend := p, busyFor := k }

/-- Whether the device enters the cycle `p` or stays as it is, with no cycle, is open (46 R234, R236). -/
def State.mayStartCycle (p : Pend) (s : State) : State :=
  let (yes, s) := s.drawChoice
  if yes then s.startCycle p else s.mapDev fun d => { d with pend := .none }

/-- The cycle that two open choices stand for. -/
def pendOf : Bool → Bool → Pend
  | false, false => .none
  | false, true => .program
  | true, false => .erase
  | true, true => .statuswrite

/-- `PEND` of a POISONED device: any of its four values, and a cycle that runs does so for a free number of
observations (10_state R33, 60 R270, log 12). -/
def State.freePend (s : State) : State :=
  let (a, s) := s.drawChoice
  let (b, s) := s.drawChoice
  (s.mapEnv fun e => { e with drawn := e.drawn + 1 }).mapDev fun d =>
    { d with
      pend := pendOf a b
      busyFor := if a || b then Config.freeLatency s.env.drawn else some 0 }

/-- The device is POISONED: `WEL`, `ADS`, `PEND` and what premise `P_awake` speaks of are free values, and so is every
byte of `F`, which is read through `State.flashByte`; `x` is what no rule lets survive (10_state R33, 60 R270, R287,
log 12). -/
def State.poisonWith (x : Extent) (s : State) : State :=
  (s.mapDev fun d => { d with poisoned := true, lost := x }).freeWel.freeAds.freeAsleep.freeGuarded.freePend

/-- The device is POISONED and nothing is known of any byte of `F`. -/
def State.poison (s : State) : State := s.poisonWith .all

/-- The device is POISONED under a wait that never ends: some cycle runs and never ends (60 R285, R287, log 13). -/
def State.poisonHung (s : State) : State :=
  let (a, s) := s.poison.drawChoice
  let (b, s) := s.drawChoice
  s.mapDev fun d => { d with pend := if a then pendOf true b else .program, busyFor := none }

/-- Byte `a` is one that no rule lets survive. -/
def Extent.covers : Extent → Nat → Bool
  | .all, _ => true
  | .range first count, a => decide (first ≤ a ∧ a < first + count)

/-- Byte `a` of the flash array `F` (10_state R31). Of a POISONED device it is a free value (10_state R33, 60 R287), but
that outside the page or sector in work the contents 43 R188 and 45 R213 state are one of the possibilities left open
(log 12). -/
def State.flashByte (s : State) (a : Nat) : Byte :=
  if s.dev.poisoned && (!Config.abortSparesRest || s.dev.lost.covers a) then Config.freeFlash s.env.drawn a else s.dev.flash.read a

/-! ### The device's own step -/

/-- Completion: `PEND` becomes none and `WEL` a free value (46 R239). -/
def State.complete (s : State) : State :=
  (s.mapDev fun d => { d with pend := .none }).freeWel

/-- The device is looked at: is a cycle running? The completion step, which may occur at any moment, is taken at the
last moment that can be told from an earlier one, which is here (46 R239, R240, log 9). A POISONED device found idle
is left in a new free state. -/
def State.observe (s : State) : Bool × State :=
  match s.dev.pend, s.dev.busyFor with
  | .none, _ => (false, if s.dev.poisoned then s.poison else s)
  | _, none => (true, s)
  | _, some (k + 1) => (true, s.mapDev fun d => { d with busyFor := some k })
  | _, some 0 => (false, if s.dev.poisoned then s.poison else s.complete)

/-! ### Decoding byte by byte -/

/-- The command byte (30_encoding R110). -/
def commandPhase (aw : AddressWidth) (tx : Byte) : Phase :=
  match tx.toNat with
  | 0x06 => .latch true
  | 0x04 => .latch false
  | 0x05 => .statusRead .sr1 false
  | 0x35 => .statusRead .sr2 false
  | 0x15 => .statusRead .sr3 false
  | 0x01 => .statusWrite .sr1 none
  | 0x31 => .statusWrite .sr2 none
  | 0x11 => .statusWrite .sr3 none
  | 0x03 => .address .readData aw.bytes 0
  | 0x02 => .address .pageProgram aw.bytes 0
  | 0x20 => .address .sectorErase aw.bytes 0
  | 0x90 => .identity
  | 0xB7 => .enable4
  | _ => .undefinedCommand

/-- The address is complete. -/
def addressedPhase (c : AddressCommand) (a : Nat) : Phase :=
  match c with
  | .readData => .readOut a
  | .pageProgram => .dataIn a []
  | .sectorErase => .eraseAt a

/-- The phase after the device has received `tx` (46 R232, 30_encoding R104, R128). -/
def Phase.next (aw : AddressWidth) (tx : Byte) : Phase → Phase
  | .off => .off
  | .command => commandPhase aw tx
  | .statusRead r false => .statusRead r true
  | .statusWrite r none => .statusWrite r (some tx)
  | .address c left acc =>
    if left ≤ 1 then addressedPhase c (acc * 256 + tx.toNat) else .address c (left - 1) (acc * 256 + tx.toNat)
  | .readOut a => .readOut (a + 1)
  | .dataIn a received => .dataIn a (tx :: received)
  | .identity => .identity
  | .latch _ => .undefinedCommand
  | .statusRead _ true => .undefinedCommand
  | .statusWrite _ (some _) => .undefinedCommand
  | .eraseAt _ => .undefinedCommand
  | .enable4 => .undefinedCommand
  | .undefinedCommand => .undefinedCommand

/-! ### What the device drives -/

/-- The addressing mode of the device is the one the descriptor says (10_state R41, 46 R242). -/
def State.modeMatches (s : State) : Bool :=
  s.dev.ads == (match s.dd.addressWidth with | .three => false | .four => true)

/-- The array can be read: the mode matches and the device is not powered down (`P_mode` and `P_awake` of 70 R297). -/
def State.readable (s : State) : Bool := s.modeMatches && !s.dev.asleep

/-- The array can be programmed and erased: besides, no region is write-protected (`P_awake` of 70 R297). -/
def State.writable (s : State) : Bool := s.readable && !s.dev.guarded

/-- A status register byte: bit 0 of SR1 is BUSY, bit 0 of SR3 is ADS, the rest is free (46 R233). Of a POISONED
device ADS is free on each read (10_state R33). -/
def State.driveStatus (r : StatusReg) (s : State) : Byte × State :=
  match r with
  | .sr1 =>
    let (busy, s) := s.observe
    let (bits, s) := s.drawStatusBits
    (withBit0 bits busy, s)
  | .sr2 => s.drawStatusBits
  | .sr3 =>
    let s := if s.dev.poisoned then s.freeAds else s
    let (bits, s') := s.drawStatusBits
    (withBit0 bits s.dev.ads, s')

/-- A byte of ReadData (46 R235). A busy device, the other addressing mode, a powered-down device and an address past
the end leave the device POISONED and the byte free (46 R241, R242, 93 U11, U21, log 19). -/
def State.driveFlash (a : Nat) (s : State) : Byte × State :=
  if s.dev.poisoned then s.drawByte
  else
    let (busy, s) := s.observe
    if busy || !s.readable || decide (s.dd.capacityBytes ≤ a) then s.poison.drawByte
    else (s.dev.flash.read a, s)

/-- The byte the device drives in the exchange that begins now (46 R232, R249). -/
def State.drive (s : State) : Byte × State :=
  match s.dev.phase with
  | .statusRead r false => s.driveStatus r
  | .readOut a => s.driveFlash a
  | _ => s.drawByte

/-! ### What the device does at `Deselect()` -/

/-- A command that is defined for an idle device only: a busy one is POISONED (46 R241). -/
def State.whenIdle (f : State → State) (s : State) : State :=
  if s.dev.poisoned then s.poison
  else
    let (busy, s) := s.observe
    if busy then s.poison else f s

/-- A status register write (46 R234, log 17): `F` and BUSY's meaning stay, the rest is free, with it whether a region
is write-protected. -/
def State.actStatusWrite (r : StatusReg) (s : State) : State :=
  let s := (s.mayStartCycle .statuswrite).freeWel.freeGuarded
  match r with
  | .sr3 => s.freeAds
  | .sr1 => s
  | .sr2 => s

/-- PageProgram of `data` at `a` on an idle device (46 R236, R238, R242; beyond the page or the array 93 U11; powered
down or write-protected 93 U21, log 19). -/
def State.actProgram (a : Nat) (data : List Byte) (s : State) : State :=
  if !s.writable || !s.dev.wel || decide (256 < a % 256 + data.length)
      || decide (s.dd.capacityBytes < a + data.length) then s.poison
  else if data.isEmpty then (s.mayStartCycle .program).freeWel
  else (s.mapDev fun d => { d with flash := d.flash.program a data }).startCycle .program

/-- SectorErase at `a` on an idle device (46 R237, R238, R242; not aligned or beyond the array 93 U11; powered down or
write-protected 93 U21, log 19). -/
def State.actErase (a : Nat) (s : State) : State :=
  if !s.writable || !s.dev.wel || decide (a % 4096 ≠ 0) || decide (s.dd.capacityBytes < a + 4096) then s.poison
  else (s.mapDev fun d => { d with flash := d.flash.erase a 4096 }).startCycle .erase

/-- ReadData has ended with `a` the address after the last byte read: an address past the end of the array is
undefined also where no byte was read (46 R235, 93 U11, log 19). -/
def State.actRead (a : Nat) (s : State) : State :=
  if s.readable && decide (a ≤ s.dd.capacityBytes) then s else s.poison

/-- The device acts on the transaction that ends (46 R232). -/
def State.act (s : State) : State :=
  match s.dev.phase with
  | .off => s
  | .command => s
  | .statusRead _ true => s
  | .latch v => s.whenIdle fun s => s.mapDev fun d => { d with wel := v }
  | .statusWrite r (some _) => s.whenIdle fun s => s.actStatusWrite r
  | .readOut a => s.whenIdle fun s => s.actRead a
  | .dataIn a received => s.whenIdle fun s => s.actProgram a received.reverse
  | .eraseAt a => s.whenIdle fun s => s.actErase a
  | .identity => s.whenIdle fun s => s
  | .enable4 => s.whenIdle fun s => s.mapDev fun d => { d with ads := true }
  | .undefinedCommand => s.poison
  | .statusRead _ false => s.poison
  | .statusWrite _ none => s.poison
  | .address _ _ _ => s.poison

end Sys2Proof.Machine
end

