-- ==== Sys2Proof/Machine/Ops.lean ====
section
/-! DEFINITION. The operations every instruction is written over: the byte transport (30_encoding R100 to R106), the
sequencer (10_state R28), taking a failure and returning from a request (60 R266, R280, 10_state R29), the reset
(70 R290 to R292). -/

namespace Sys2Proof.Machine

/-! ### Procedures -/

/-- How a procedure ends other than by returning. -/
inductive Stop where
  /-- `raise E` (60 R266). -/
  | raised (e : Status)
  /-- A wait that never ends: no response (60 R285). -/
  | hung
  deriving DecidableEq, Repr

/-- A procedure of files 40 to 45. -/
abbrev M := EStateM Stop State

/-- `raise E` (00_scope R12). -/
def raise {α : Type} (e : Status) : M α := fun s => .error (.raised e) s

/-- A wait that never ends (60 R285). -/
def hang {α : Type} : M α := fun s => .error .hung s

/-- `if not b: raise E`. -/
def require (b : Bool) (e : Status) : M Unit := fun s => if b then .ok () s else .error (.raised e) s

/-- `reg <- v`: an update of the working registers (00_scope R12). -/
def assign (f : State → State) : M Unit := fun s => .ok () (f s)

/-- The label at which a procedure is entered (10_state R28). -/
def Proc.entry : Proc → Label
  | .read => .RD0
  | .writeRegister => .WR0
  | .busy => .BZ0
  | .waitUntilReady => .WT0
  | .enable => .EN0
  | .disable => .DS0
  | .programPage => .PG0
  | .writeAssumingBlank => .SP0
  | .eraseSector => .ER0
  | .write => .W0
  | .readSector => .RS0

/-- The top frame stands at `l` (10_state R28). -/
def relabel (l : Label) : List Frame → List Frame
  | [] => []
  | f :: rest => { f with label := l } :: rest

/-- The textually next label of the same procedure (10_state R28); the last label of a procedure stays. -/
def Label.next : Label → Label
  | .RD0 => .RD1 | .RD1 => .RD2 | .RD2 => .RD3 | .RD3 => .RD4 | .RD4 => .RD5 | .RD5 => .RD6 | .RD6 => .RD6
  | .WR0 => .WR1 | .WR1 => .WR2 | .WR2 => .WR3 | .WR3 => .WR4 | .WR4 => .WR5 | .WR5 => .WR6 | .WR6 => .WR6
  | .BZ0 => .BZ1 | .BZ1 => .BZ1
  | .WT0 => .WT1 | .WT1 => .WT2 | .WT2 => .WT3 | .WT3 => .WT4 | .WT4 => .WT5 | .WT5 => .WT5
  | .EN0 => .EN1 | .EN1 => .EN2 | .EN2 => .EN3 | .EN3 => .EN3
  | .DS0 => .DS1 | .DS1 => .DS2 | .DS2 => .DS3 | .DS3 => .DS3
  | .PG0 => .PG1 | .PG1 => .PG2 | .PG2 => .PG3 | .PG3 => .PG4 | .PG4 => .PG5 | .PG5 => .PG6 | .PG6 => .PG7
  | .PG7 => .PG8 | .PG8 => .PG9 | .PG9 => .PG10 | .PG10 => .PG10
  | .SP0 => .SP1 | .SP1 => .SP2 | .SP2 => .SP3 | .SP3 => .SP4 | .SP4 => .SP5 | .SP5 => .SP6 | .SP6 => .SP7
  | .SP7 => .SP8 | .SP8 => .SP8
  | .ER0 => .ER1 | .ER1 => .ER2 | .ER2 => .ER3 | .ER3 => .ER4 | .ER4 => .ER5 | .ER5 => .ER6 | .ER6 => .ER7
  | .ER7 => .ER8 | .ER8 => .ER9 | .ER9 => .ER9
  | .W0 => .W0c | .W0c => .WL | .WL => .W1 | .W1 => .W2 | .W2 => .W3 | .W3 => .W3b | .W3b => .W4a | .W4a => .W4b
  | .W4b => .W4c | .W4c => .W4d | .W4d => .W5 | .W5 => .W6 | .W6 => .W6
  | .RS0 => .RS1 | .RS1 => .RS2 | .RS2 => .RS3 | .RS3 => .RS4 | .RS4 => .RS5 | .RS5 => .RS5

/-- `goto L`: the label of the top frame becomes `L` (00_scope R12, 10_state R28). -/
def goto (l : Label) : M Unit := assign fun s => { s with seq := relabel l s.seq }

/-- `call P(args)` from the step `site`: a frame is pushed at P's first label and popped at the return, which leaves
the caller at the label after `site`; a failure leaves the stack to `abort`, a hang leaves it as it stands (10_state
R28, log 25). -/
def callAt {α : Type} (site : Label) (p : Proc) (m : M α) : M α := fun s =>
  match m { s with seq := { proc := p, label := p.entry } :: relabel site s.seq } with
  | .ok a s' => .ok a { s' with seq := relabel site.next s.seq }
  | .error e s' => .error e s'

/-! ### The byte transport -/

/-- `Select()` on a state (30_encoding R100). -/
def State.selected (s : State) : State :=
  { s.mapDev (fun d => { d with phase := .command }) with cs := true, trace := .select :: s.trace }

/-- `Deselect()` on a state: the device acts (30_encoding R100, 46 R232). -/
def State.deselected (s : State) : State :=
  { s.act.mapDev (fun d => { d with phase := .off }) with cs := false, trace := .deselect :: s.trace }

/-- An exchange that succeeds: the device drives a byte and takes `tx` in (30_encoding R101, 46 R232). -/
def State.exchanged (s : State) (tx : Byte) : Byte × State :=
  let (rx, s') := s.drive
  (rx, { s'.mapDev (fun d => { d with phase := d.phase.next s'.dd.addressWidth tx }) with
         trace := .xchg tx rx :: s'.trace })

/-- `Select()` (30_encoding R100). -/
def select : M Unit := fun s => .ok () s.selected

/-- `Deselect()` (30_encoding R100). -/
def deselect : M Unit := fun s => .ok () s.deselected

/-- `Xchg(t) -> r` (30_encoding R101): it fails when the environment says so (60 R264, log 8). -/
def xchg (tx : Byte) : M Byte := fun s =>
  match s.env.xferFail with
  | [] => let (rx, s') := s.exchanged tx
          .ok rx s'
  | 0 :: rest => .error (.raised .transportFailure) (s.mapEnv fun e => { e with xferFail := rest })
  | (n + 1) :: rest =>
    let (rx, s') := (s.mapEnv fun e => { e with xferFail := n :: rest }).exchanged tx
    .ok rx s'

/-- Send the bytes of a list and discard what is received (30_encoding R102). -/
def sendBytes : List Byte → M Unit
  | [] => pure ()
  | b :: rest => do
    let _ ← xchg b
    sendBytes rest

/-- `SendAddr(a)` (30_encoding R106). -/
def sendAddr (a : Address) : M Unit := do
  let s ← get
  sendBytes (addressBytes s.dd.addressWidth a)

/-! ### Requests: acceptance, response, failure -/

/-- The response of a request that ran to its end (10_state R29, 60 R280). -/
def respond (result : Byte) (s : State) : State :=
  { s with seq := [], engBusy := false, rsp := { status := .ok, result := result } }

/-- The device has been sent nothing but a status read since its last command, if anything. -/
def Phase.onlyStatus : Phase → Bool
  | .off | .command | .statusRead _ _ => true
  | .latch _ | .statusWrite _ _ | .address _ _ _ | .readOut _ | .dataIn _ _ | .eraseAt _ | .identity | .enable4
  | .undefinedCommand => false

/-- A request is running procedure `p`. -/
def State.runs (s : State) (p : Proc) : Bool := s.seq.any fun f => decide (f.proc = p)

/-- The part of `F` that is undefined by every rule if the sequence is interrupted now: in `write` the sector of the iteration
(45 R213), in `writeAssumingBlank` the page of the program call (43 R188), else, or if the device was sent what the
contract does not define, all of it. Of the rest nothing is claimed either (60 R287, log 12). -/
def State.inWork (s : State) : Extent :=
  if s.dev.poisoned || !s.writable || !(s.dev.phase.onlyStatus || decide (s.dev.pend = .none)) then .all
  else if s.runs .write then .range (4096 * s.fwe.sectorIndex.toNat) 4096
  else if s.runs .writeAssumingBlank then .range (256 * (s.pp.addr.toNat / 256)) 256
  else .all

/-- `raise E`, the abort (60 R266): (1) a transaction in progress is cut short, (2) every frame is dropped, (3) the
response is E, (4) BusyTimeout and TransportFailure leave the device POISONED, (5) the block is idle. The working
registers and SB keep what they hold. -/
def abort (e : Status) (s : State) : State :=
  let x := s.inWork
  let s := if s.cs then s.deselected else s
  let s := { s with seq := [], rsp := { status := e, result := 0x00 } }
  let s := if e.poisons then s.poisonWith x else s
  { s with engBusy := false }

/-- One request from its acceptance to its response (60 R280). While `ENG.busy = 1` it is not accepted: it waits, and
nothing changes. A hang leaves the block busy, with no response, and a device of which nothing is known but that a
cycle runs (60 R285, R287, log 13). -/
def serve (p : Proc) (m : M Byte) (s : State) : Host.Outcome State Fault Refusal :=
  if s.engBusy then .next s
  else if s.cs || !s.seq.isEmpty then .fault .notIdle
  else
    match m { s with engBusy := true, seq := [{ proc := p, label := p.entry }] } with
    | .ok r s' => .next (respond r s')
    | .error (.raised e) s' => .next (abort e s')
    | .error .hung s' => .next s'.poisonHung

/-- A request whose `op` is reserved: IllegalRequest, before any transport activity (30_encoding R124, 60 R265). -/
def illegalRequest (s : State) : Host.Outcome State Fault Refusal :=
  if s.engBusy then .next s
  else if s.cs || !s.seq.isEmpty then .fault .notIdle
  else .next (abort .illegalRequest { s with engBusy := true })

/-- One transaction presented to the device on the transport while the block is idle (46 R248, R293 of
70_reset_and_hazards, log 21). A failing exchange cuts it short and leaves the device POISONED (93 U20). -/
def bareTransaction (bytes : List Byte) (s : State) : Host.Outcome State Fault Refusal :=
  if s.engBusy then .next s
  else if s.cs || !s.seq.isEmpty then .fault .notIdle
  else
    match sendBytes bytes s.selected with
    | .ok _ s' => .next s'.deselected
    | .error _ s' => .next s'.deselected.poison

/-- The reset of the engine (10_state R35, 70 R291): the engine's state takes its reset values; the descriptor,
POLL_LIMIT, the device and the environment stay (10_state R36). In the middle of a request it leaves the device
POISONED (70 R292, log 20). A device that was POISONED stays so: R35's table lists the mark as clear after reset, R33
and 60 R270 keep it until the environment re-initialises the device (DESIGN CHOICE, log 20). -/
def engineReset (s : State) : State :=
  let s := if s.cs then s.deselected else s
  let s := if s.engBusy then s.poison else s
  { State.reset with
    dd := s.dd, pollLimit := s.pollLimit, dev := s.dev, env := s.env, port := s.port, trace := s.trace }

end Sys2Proof.Machine
end

