-- ==== Sys2Proof/Machine/Operands.lean ====
section
/-! DEFINITION. Operands: the checks of 30_encoding R122, the address splitter and the boundary detectors (45 R201,
R202, 43 R181), the data sources (42 R175), the command bytes that a register number selects (30_encoding R108). -/

namespace Sys2Proof.Machine

/-- The status register numbers that are accepted (40 R141). -/
def validRegister (n : BitVec 8) : Bool := decide (n = 1 ∨ n = 2 ∨ n = 3)

/-- The read command of register `n` (40 R142). -/
def readCommand (n : BitVec 8) : Byte := if n = 1 then 0x05 else if n = 2 then 0x35 else 0x15

/-- The write command of register `n` (40 R143). -/
def writeCommand (n : BitVec 8) : Byte := if n = 1 then 0x01 else if n = 2 then 0x31 else 0x11

/-- The capacity check, an exact sum (45 R220, 60 R261). -/
def withinCapacity (s : State) (address length : Nat) : Bool := decide (address + length ≤ s.dd.capacityBytes)

/-- The page check, an exact sum (42 R171). -/
def withinPage (address length : Nat) : Bool := decide (address % 256 + length ≤ 256)

/-- The `length` field of a request on `data` (30_encoding R120). -/
def lengthField (data : List Byte) : BitVec 32 := BitVec.ofNat 32 data.length

/-- `sectorIndex(a)` (20_memory R61, 45 R201). -/
def sectorIndexOf (a : Address) : SectorIndex := BitVec.ofNat 20 (a.toNat / 4096)

/-- `offsetInSector(a)` (20_memory R61, 45 R201). -/
def offsetInSectorOf (a : Address) : BitVec 12 := BitVec.ofNat 12 (a.toNat % 4096)

/-- `sectorBase(s)` (20_memory R61, 44 R191). -/
def sectorBase (si : SectorIndex) : Address := BitVec.ofNat 32 (si.toNat * 4096)

/-- Byte `PP.srcBase + PP.i` of `PP.src` (42 R172, R175). The caller's buffer holds every byte a request reads; past
its end the byte is free (log 27). -/
def sourceByte (data : List Byte) (s : State) : Byte :=
  let index := s.pp.srcBase.toNat + s.pp.i.toNat
  match s.pp.src with
  | .caller => data.getD index (Config.freeByte index)
  | .scratch => s.sb.read index

end Sys2Proof.Machine
end

