-- ==== Sys2Proof/Machine/DeviceCommands.lean ====
section
/-! DEFINITION. The sixteen command bytes as instructions: one transaction each, presented to the device on the
transport (30_encoding R104, R110, 46_device_commands). What the device does stands in Machine/Device.lean. Where the
agent receives, the byte it sends is DUMMY_TX, whatever filler the packet held (DESIGN CHOICE, log 29). -/

namespace Sys2Proof.Machine

/-- WriteEnable (46 R230). -/
def execWriteEnable (s : State) : Host.Outcome State Fault Refusal := bareTransaction [0x06] s

/-- WriteDisable (46 R231). -/
def execWriteDisable (s : State) : Host.Outcome State Fault Refusal := bareTransaction [0x04] s

/-- ReadStatusReg1 (46 R233); the filler sent is DUMMY_TX (log 29). -/
def execReadStatusReg1 (s : State) : Host.Outcome State Fault Refusal :=
  bareTransaction [0x05, Config.dummyTx] s

/-- ReadStatusReg2 (46 R233); the filler sent is DUMMY_TX (log 29). -/
def execReadStatusReg2 (s : State) : Host.Outcome State Fault Refusal :=
  bareTransaction [0x35, Config.dummyTx] s

/-- ReadStatusReg3 (46 R233); the filler sent is DUMMY_TX (log 29). -/
def execReadStatusReg3 (s : State) : Host.Outcome State Fault Refusal :=
  bareTransaction [0x15, Config.dummyTx] s

/-- WriteStatusReg1 (46 R234). -/
def execWriteStatusReg1 (value : Byte) (s : State) : Host.Outcome State Fault Refusal :=
  bareTransaction [0x01, value] s

/-- WriteStatusReg2 (46 R234). -/
def execWriteStatusReg2 (value : Byte) (s : State) : Host.Outcome State Fault Refusal :=
  bareTransaction [0x31, value] s

/-- WriteStatusReg3 (46 R234). -/
def execWriteStatusReg3 (value : Byte) (s : State) : Host.Outcome State Fault Refusal :=
  bareTransaction [0x11, value] s

/-- ReadData of `count` bytes (46 R235); the fillers sent are DUMMY_TX (log 29). -/
def execReadData (address : Address) (count : Nat) (s : State) : Host.Outcome State Fault Refusal :=
  bareTransaction (0x03 :: (addressBytes s.dd.addressWidth address ++ List.replicate count Config.dummyTx)) s

/-- PageProgram (46 R236, R238). -/
def execPageProgram (address : Address) (data : List Byte) (s : State) : Host.Outcome State Fault Refusal :=
  bareTransaction (0x02 :: (addressBytes s.dd.addressWidth address ++ data)) s

/-- SectorErase (46 R237, R238). -/
def execSectorErase (address : Address) (s : State) : Host.Outcome State Fault Refusal :=
  bareTransaction (0x20 :: addressBytes s.dd.addressWidth address) s

/-- ChipErase: the device is POISONED (46 R243, log 14). -/
def execChipErase (tail : List Byte) (s : State) : Host.Outcome State Fault Refusal :=
  bareTransaction (0xC7 :: tail) s

/-- PowerDown: the device is POISONED (46 R244, 93 U18, log 14). -/
def execPowerDown (tail : List Byte) (s : State) : Host.Outcome State Fault Refusal :=
  bareTransaction (0xB9 :: tail) s

/-- ReleasePowerDown: the device is POISONED (46 R245, 93 U18, log 14). -/
def execReleasePowerDown (tail : List Byte) (s : State) : Host.Outcome State Fault Refusal :=
  bareTransaction (0xAB :: tail) s

/-- ManufacturerDeviceID: the bytes returned are free values (46 R246, log 15). -/
def execManufacturerDeviceID (tail : List Byte) (s : State) : Host.Outcome State Fault Refusal :=
  bareTransaction (0x90 :: tail) s

/-- Enable4ByteAddr (46 R247, log 16). -/
def execEnable4ByteAddr (s : State) : Host.Outcome State Fault Refusal := bareTransaction [0xB7] s

end Sys2Proof.Machine
end

