-- ==== Sys2Proof/Machine/Sra.lean ====
section
/-! DEFINITION. status_register_access: `read`, `write`, `busy`, `waitUntilReady` (40_status_register_access). -/

namespace Sys2Proof.Machine

/-- `read(n)` (40 R142). -/
def readStatus (n : BitVec 8) : M Byte := do
  require (validRegister n) .invalidRegister
  assign fun s => { s with sra := { s.sra with reg := n } }
  select
  let _ ← xchg (readCommand n)
  let r ← xchg Config.dummyTx
  assign fun s => { s with sra := { s.sra with value := r } }
  deselect
  let s ← get
  pure s.sra.value

/-- `write(n, v)`: the bare transaction, no enable before and no wait after (40 R143, R144). -/
def writeStatus (n : BitVec 8) (v : Byte) : M Unit := do
  require (validRegister n) .invalidRegister
  assign fun s => { s with sra := { s.sra with reg := n, value := v } }
  select
  let _ ← xchg (writeCommand n)
  let _ ← xchg v
  deselect

/-- `busy()` (40 R145). -/
def busy : M Bool := do
  let b ← callAt .BZ0 .read (readStatus 1)
  pure (bit0 b)

/-- `POLL_LIMIT != INF and SRA.polls >= POLL_LIMIT` (40 R146, WT4). -/
def pollLimitReached (s : State) : Bool :=
  match s.pollLimit with
  | some n => decide (n ≤ s.sra.polls)
  | none => false

/-- The loop WT1 to WT5 (40 R146). -/
def waitLoop : Nat → M Unit
  | 0 => hang
  | fuel + 1 => do
    let b ← callAt .WT1 .busy busy
    if b then do
      assign fun s => { s with sra := { s.sra with polls := s.sra.polls + 1 } }
      let s ← get
      require (!pollLimitReached s) .busyTimeout
      goto .WT1
      waitLoop fuel
    else pure ()

/-- A number of polls after which a wait that has not ended never ends: more than POLL_LIMIT, than the polls the
running cycle outlasts, and than the exchanges before the next failure (log 13). -/
def waitFuel (s : State) : Nat :=
  s.pollLimit.getD 0 + s.dev.busyFor.getD 0 + s.env.xferFail.headD 0 + 1

/-- `waitUntilReady()` (40 R146). -/
def waitUntilReady : M Unit := do
  assign fun s => { s with sra := { s.sra with polls := 0 } }
  let s ← get
  waitLoop (waitFuel s)

/-- The block is in a wait that never ends: the device never clears `BUSY`, no exchange fails, `POLL_LIMIT` is `INF`
(60 R285). -/
def State.stuck (s : State) : Bool :=
  decide (s.dev.pend ≠ .none) && decide (s.dev.busyFor = none) && s.env.xferFail.isEmpty &&
    decide (s.pollLimit = none)

/-- One more poll of a wait that never ends, WT1 to WT5 (40 R146). -/
def pollAgain : M Unit := do
  let _ ← callAt .WT1 .busy busy
  assign fun s => { s with sra := { s.sra with polls := s.sra.polls + 1 } }
  goto .WT1

/-- A busy block goes on polling (40 R146, 60 R285). A busy block whose wait could end is none that a step leaves: it
stays as it is (log 13). -/
def spin (s : State) : State :=
  if s.stuck then
    match pollAgain s with
    | .ok _ t => t
    | .error _ t => t
  else s

/-- SR.READ (40 R142). -/
def execSrRead (reg : BitVec 8) (s : State) : Host.Outcome State Fault Refusal :=
  serve .read (readStatus reg) s

/-- SR.WRITE (40 R143). -/
def execSrWrite (reg : BitVec 8) (value : Byte) (s : State) : Host.Outcome State Fault Refusal :=
  serve .writeRegister (do writeStatus reg value; pure 0x00) s

/-- SR.BUSY (40 R145). -/
def execSrBusy (s : State) : Host.Outcome State Fault Refusal :=
  serve .busy (do let b ← busy; pure (boolResult b)) s

/-- SR.WAIT (40 R146). -/
def execSrWait (s : State) : Host.Outcome State Fault Refusal :=
  serve .waitUntilReady (do waitUntilReady; pure 0x00) s

end Sys2Proof.Machine
end

