-- ==== Sys2Proof/Machine/Weg.lean ====
section
/-! DEFINITION. write_enable_gate: `enable`, `disable` (41_write_enable_gate). -/

namespace Sys2Proof.Machine

/-- `enable()` (41 R161). -/
def enable : M Unit := do
  select
  let _ ← xchg 0x06
  deselect

/-- `disable()` (41 R162). -/
def disable : M Unit := do
  select
  let _ ← xchg 0x04
  deselect

/-- WE.ENABLE (41 R161). -/
def execWeEnable (s : State) : Host.Outcome State Fault Refusal :=
  serve .enable (do enable; pure 0x00) s

/-- WE.DISABLE (41 R162). -/
def execWeDisable (s : State) : Host.Outcome State Fault Refusal :=
  serve .disable (do disable; pure 0x00) s

end Sys2Proof.Machine
end

