-- ==== Sys2Proof/Machine/Pp.lean ====
section
/-! DEFINITION. page_programmer: `programPage` (42_page_programmer). -/

namespace Sys2Proof.Machine

/-- The data phase PG7: `count` more bytes, from `PP.i` on (42 R172). -/
def streamPage (data : List Byte) : Nat → M Unit
  | 0 => pure ()
  | count + 1 => do
    let s ← get
    let _ ← xchg (sourceByte data s)
    assign fun s => { s with pp := { s.pp with i := s.pp.i + 1 } }
    streamPage data count

/-- `programPage(data, address, length)` with its data source (42 R172). Of a length above 511, which the page check
refuses, `PP.len` keeps the low 9 bits: 10_state R26 gives the width and no rule for such a length (DESIGN CHOICE,
log 30). -/
def programPage (data : List Byte) (src : Source) (srcBase : BitVec 32) (address : Address) (length : BitVec 32) :
    M Unit := do
  assign fun s => { s with pp := { s.pp with
    addr := address, len := BitVec.ofNat 9 length.toNat, src := src, srcBase := srcBase } }
  let s ← get
  require (withinPage s.pp.addr.toNat length.toNat) .invalidRange
  require (withinCapacity s s.pp.addr.toNat length.toNat) .invalidRange
  callAt .PG3 .enable enable
  select
  let _ ← xchg 0x02
  let s ← get
  sendAddr s.pp.addr
  assign fun s => { s with pp := { s.pp with i := 0 } }
  let s ← get
  streamPage data s.pp.len.toNat
  deselect
  callAt .PG9 .waitUntilReady waitUntilReady

/-- PP.PROGRAM: the source is the caller's buffer from its first byte on (42 R172, R175). -/
def execPpProgram (address : Address) (data : List Byte) (s : State) : Host.Outcome State Fault Refusal :=
  serve .programPage (do programPage data .caller 0 address (lengthField data); pure 0x00) s

end Sys2Proof.Machine
end

