-- ==== Sys2Proof/Machine/Psw.lean ====
section
/-! DEFINITION. page_span_writer: `writeAssumingBlank` (43_page_span_writer). -/

namespace Sys2Proof.Machine

/-- One chunk, SP4 to SP7 (43 R182). -/
def spanChunk (data : List Byte) : M Unit := do
  assign fun s => { s with psw := { s.psw with
    n := BitVec.ofNat 9 (min s.psw.remaining.toNat s.psw.pageRemain.toNat) } }
  let s ← get
  callAt .SP5 .programPage
    (programPage data s.psw.src (s.psw.srcBase + s.psw.pos) s.psw.addr (BitVec.ofNat 32 s.psw.n.toNat))
  assign fun s => { s with psw := { s.psw with
    addr := s.psw.addr + BitVec.ofNat 32 s.psw.n.toNat
    pos := s.psw.pos + BitVec.ofNat 32 s.psw.n.toNat
    remaining := s.psw.remaining - BitVec.ofNat 32 s.psw.n.toNat
    pageRemain := 256 } }

/-- The loop SP3 to SP8 (43 R182, R187); every chunk has at least one byte, so `fuel` chunks are enough. -/
def spanLoop (data : List Byte) : Nat → M Unit
  | 0 => pure ()
  | fuel + 1 => do
    let s ← get
    if s.psw.remaining = 0 then pure ()
    else do
      spanChunk data
      goto .SP3
      spanLoop data fuel

/-- `writeAssumingBlank(data, address, length)` with its data source (43 R182). -/
def writeAssumingBlank (data : List Byte) (src : Source) (srcBase : BitVec 32) (address : Address)
    (length : BitVec 32) : M Unit := do
  assign fun s => { s with psw := { s.psw with
    src := src, srcBase := srcBase, addr := address, remaining := length, pos := 0 } }
  let s ← get
  require (withinCapacity s address.toNat length.toNat) .invalidRange
  assign fun s => { s with psw := { s.psw with
    pageRemain := BitVec.ofNat 9 (256 - s.psw.addr.toNat % 256) } }
  spanLoop data length.toNat

/-- PSW.WRITE_BLANK (43 R182). -/
def execPswWriteBlank (address : Address) (data : List Byte) (s : State) : Host.Outcome State Fault Refusal :=
  serve .writeAssumingBlank (do writeAssumingBlank data .caller 0 address (lengthField data); pure 0x00) s

end Sys2Proof.Machine
end

