-- ==== Sys2Proof/Machine/Sem.lean ====
section
/-! DEFINITION. sector_erase_manager: `eraseSector` (44_sector_erase_manager). -/

namespace Sys2Proof.Machine

/-- `eraseSector(sectorIndex)` (44 R192). -/
def eraseSector (sectorIndex : SectorIndex) : M Unit := do
  assign fun s => { s with sem := { sectorIndex := sectorIndex, base := sectorBase sectorIndex } }
  let s ← get
  require (withinCapacity s s.sem.base.toNat 4096) .invalidRange
  callAt .ER2 .enable enable
  callAt .ER3 .waitUntilReady waitUntilReady
  select
  let _ ← xchg 0x20
  let s ← get
  sendAddr s.sem.base
  deselect
  callAt .ER8 .waitUntilReady waitUntilReady

/-- SEM.ERASE (44 R192). -/
def execSemErase (sectorIndex : SectorIndex) (s : State) : Host.Outcome State Fault Refusal :=
  serve .eraseSector (do eraseSector sectorIndex; pure 0x00) s

end Sys2Proof.Machine
end

