-- ==== Sys2Proof/Machine/Fwe.lean ====
section
/-! DEFINITION. flash_write_engine core: `write(data, address, length)` and the internal raw sector read
(45_flash_write_engine). -/

namespace Sys2Proof.Machine

/-- The receive phase RS3: `count` more bytes, from `RS.i` on (45 R204). -/
def receiveSector : Nat → M Unit
  | 0 => pure ()
  | count + 1 => do
    let b ← xchg Config.dummyTx
    assign fun s => { s with sb := s.sb.write s.rsI.toNat b, rsI := s.rsI + 1 }
    receiveSector count

/-- `readSector(sectorIndex)` (45 R204). -/
def readSector (sectorIndex : SectorIndex) : M Unit := do
  select
  let _ ← xchg 0x03
  sendAddr (sectorBase sectorIndex)
  assign fun s => { s with rsI := 0 }
  receiveSector 4096
  deselect

/-- Step 1, the address splitter and the sector boundary detector (45 R201, R202). -/
def splitAddress (s : State) : State :=
  let space := 4096 - s.fwe.address.toNat % 4096
  { s with fwe := { s.fwe with
    sectorIndex := sectorIndexOf s.fwe.address
    offsetInSector := offsetInSectorOf s.fwe.address
    spaceInSector := BitVec.ofNat 13 space
    chunk := BitVec.ofNat 13 (min s.fwe.length.toNat space) } }

/-- Step 4b, the merge: the caller's bytes over the window in SB (45 R208). -/
def mergeWindow (data : List Byte) (s : State) : State :=
  let window := (data.drop s.fwe.pos.toNat).take s.fwe.chunk.toNat
  { s with sb := s.sb.writeList s.fwe.offsetInSector.toNat window }

/-- Step 6, the advance (45 R211). -/
def advance (s : State) : State :=
  let chunk := BitVec.ofNat 32 s.fwe.chunk.toNat
  { s with fwe := { s.fwe with
    address := s.fwe.address + chunk, pos := s.fwe.pos + chunk, length := s.fwe.length - chunk } }

/-- Steps 4a to 4d, the erase-merge path (45 R207 to R209). -/
def eraseMerge (data : List Byte) : M Unit := do
  let s ← get
  callAt .W4a .eraseSector (eraseSector s.fwe.sectorIndex)
  assign (mergeWindow data)
  let s ← get
  callAt .W4c .writeAssumingBlank (writeAssumingBlank data .scratch 0 (sectorBase s.fwe.sectorIndex) 4096)
  goto .W6

/-- `goto W5` and step 5, the direct path (45 R210). -/
def directWrite (data : List Byte) : M Unit := do
  goto .W5
  let s ← get
  callAt .W5 .writeAssumingBlank
    (writeAssumingBlank data .caller s.fwe.pos s.fwe.address (BitVec.ofNat 32 s.fwe.chunk.toNat))

/-- The branch W3b: exactly one of the two paths (45 R206). -/
def choosePath (data : List Byte) : M Unit := do
  let s ← get
  if s.fwe.eraseRequired then eraseMerge data else directWrite data

/-- One iteration, W1 to W6 (45 R200). -/
def writeIteration (data : List Byte) : M Unit := do
  assign splitAddress
  let s ← get
  callAt .W2 .readSector (readSector s.fwe.sectorIndex)
  assign fun s => { s with fwe := { s.fwe with
    eraseRequired := blankScan s.sb s.fwe.offsetInSector.toNat s.fwe.chunk.toNat } }
  choosePath data
  assign advance
  goto .WL

/-- The loop WL to W6 (45 R203); every iteration has at least one byte, so `fuel` iterations are enough. -/
def writeLoop (data : List Byte) : Nat → M Unit
  | 0 => pure ()
  | fuel + 1 => do
    let s ← get
    if s.fwe.length = 0 then pure ()
    else do
      writeIteration data
      writeLoop data fuel

/-- `write(data, address, length)` (45 R200, R220). -/
def writeFlash (data : List Byte) (address : Address) (length : BitVec 32) : M Unit := do
  assign fun s => { s with fwe := { s.fwe with address := address, length := length, pos := 0 } }
  let s ← get
  require (withinCapacity s address.toNat length.toNat) .invalidRange
  writeLoop data length.toNat

/-- FWE.WRITE (45 R200). -/
def execFweWrite (address : Address) (data : List Byte) (s : State) : Host.Outcome State Fault Refusal :=
  serve .write (do writeFlash data address (lengthField data); pure 0x00) s

/-- FWE.READ_SECTOR, the internal procedure on its own (45 R204, log 2). -/
def execFweReadSector (sectorIndex : SectorIndex) (s : State) : Host.Outcome State Fault Refusal :=
  serve .readSector (do readSector sectorIndex; pure 0x00) s

end Sys2Proof.Machine
end

