-- ==== Sys2Proof/Machine/Reserved.lean ====
section
/-! DEFINITION. The reserved `op` values: the block answers IllegalRequest (30_encoding R124, 60_exceptions R265). -/

namespace Sys2Proof.Machine

/-- op 0x0 (30_encoding R124). -/
def execReservedOp0 (s : State) : Host.Outcome State Fault Refusal := illegalRequest s

/-- op 0xB (30_encoding R124). -/
def execReservedOpB (s : State) : Host.Outcome State Fault Refusal := illegalRequest s

/-- op 0xC (30_encoding R124). -/
def execReservedOpC (s : State) : Host.Outcome State Fault Refusal := illegalRequest s

/-- op 0xD (30_encoding R124). -/
def execReservedOpD (s : State) : Host.Outcome State Fault Refusal := illegalRequest s

/-- op 0xE (30_encoding R124). -/
def execReservedOpE (s : State) : Host.Outcome State Fault Refusal := illegalRequest s

/-- op 0xF (30_encoding R124). -/
def execReservedOpF (s : State) : Host.Outcome State Fault Refusal := illegalRequest s

end Sys2Proof.Machine
end

