-- ==== Sys2Proof/Machine/Dispatch.lean ====
section
/-! DEFINITION. The meaning of every instruction: one arm for each constructor of Instr. -/

namespace Sys2Proof.Machine

def exec (i : Instr) (s : State) : Host.Outcome State Fault Refusal :=
  match i with
  | .writeEnable => Sys2Proof.Machine.execWriteEnable s
  | .writeDisable => Sys2Proof.Machine.execWriteDisable s
  | .readStatusReg1 => Sys2Proof.Machine.execReadStatusReg1 s
  | .readStatusReg2 => Sys2Proof.Machine.execReadStatusReg2 s
  | .readStatusReg3 => Sys2Proof.Machine.execReadStatusReg3 s
  | .writeStatusReg1 value => Sys2Proof.Machine.execWriteStatusReg1 value s
  | .writeStatusReg2 value => Sys2Proof.Machine.execWriteStatusReg2 value s
  | .writeStatusReg3 value => Sys2Proof.Machine.execWriteStatusReg3 value s
  | .readData address count => Sys2Proof.Machine.execReadData address count s
  | .pageProgram address data => Sys2Proof.Machine.execPageProgram address data s
  | .sectorErase address => Sys2Proof.Machine.execSectorErase address s
  | .chipErase tail => Sys2Proof.Machine.execChipErase tail s
  | .powerDown tail => Sys2Proof.Machine.execPowerDown tail s
  | .releasePowerDown tail => Sys2Proof.Machine.execReleasePowerDown tail s
  | .manufacturerDeviceID tail => Sys2Proof.Machine.execManufacturerDeviceID tail s
  | .enable4ByteAddr => Sys2Proof.Machine.execEnable4ByteAddr s
  | .srRead reg => Sys2Proof.Machine.execSrRead reg s
  | .srWrite reg value => Sys2Proof.Machine.execSrWrite reg value s
  | .srBusy => Sys2Proof.Machine.execSrBusy s
  | .srWait => Sys2Proof.Machine.execSrWait s
  | .weEnable => Sys2Proof.Machine.execWeEnable s
  | .weDisable => Sys2Proof.Machine.execWeDisable s
  | .ppProgram address data => Sys2Proof.Machine.execPpProgram address data s
  | .pswWriteBlank address data => Sys2Proof.Machine.execPswWriteBlank address data s
  | .semErase sectorIndex => Sys2Proof.Machine.execSemErase sectorIndex s
  | .fweWrite address data => Sys2Proof.Machine.execFweWrite address data s
  | .fweReadSector sectorIndex => Sys2Proof.Machine.execFweReadSector sectorIndex s
  | .reservedOp0 => Sys2Proof.Machine.execReservedOp0 s
  | .reservedOpB => Sys2Proof.Machine.execReservedOpB s
  | .reservedOpC => Sys2Proof.Machine.execReservedOpC s
  | .reservedOpD => Sys2Proof.Machine.execReservedOpD s
  | .reservedOpE => Sys2Proof.Machine.execReservedOpE s
  | .reservedOpF => Sys2Proof.Machine.execReservedOpF s

end Sys2Proof.Machine
end

