-- ==== Sys2Proof/Machine/Fetch.lean ====
section
/-! DEFINITION. What one step takes from the port (60_exceptions R280, 70_reset_and_hazards R292, log 20). -/

namespace Sys2Proof.Machine

/-- The packet is taken from the port, decoded and run. While `ENG.busy = 1` it is not accepted: it waits at the port
(60 R280) and the block goes on with its wait. -/
def runPacket (p : Packet) (rest : List Input) (s : State) : Host.Outcome State Fault Refusal :=
  if s.engBusy then .next (spin s)
  else
    match decode s.dd.addressWidth p with
    | .ok i => exec i { s with port := rest }
    | .error e => .refused (.undecodable e)

/-- The device after the environment has re-initialised it: not POISONED, idle, with the contents, the latch, the mode
and what premise `P_awake` speaks of as the environment says (60 R270, 70 R297, log 12). -/
def reinitialise (flash : Memory) (wel ads asleep guarded : Bool) (s : State) : State :=
  { s with
    dev := { flash := Memory.ofCells s.dd.capacityBytes flash, wel := wel, ads := ads, pend := .none,
             busyFor := some 0, phase := .off, poisoned := false, lost := .all, asleep := asleep,
             guarded := guarded } }

/-- The exchange after `n` successful ones does not take place; `tail` says which later exchanges fail. -/
def cutTail (n : Nat) : List Nat → List Nat
  | [] => []
  | m :: rest => (m - n) :: rest

/-- A run that started with the failures `n :: tail` to come, and has `left` of them left, was cut after `n`
exchanges. -/
def wasCut (tail left : List Nat) : Bool := decide (left.length ≤ tail.length)

/-- The failures to come after such a run, whether it was cut or ended earlier. -/
def uncut (tail left : List Nat) : List Nat :=
  if wasCut tail left then left
  else
    match left, tail with
    | n :: _, k :: rest => (n + k) :: rest
    | _, _ => tail

/-- A transport failure comes within the first `n` exchanges. -/
def failsWithin (n : Nat) : List Nat → Bool
  | [] => false
  | m :: _ => decide (m < n)

/-- The trace of a run that was cut before the first exchange of a transaction, if the cut came before its `Select()`;
any other trace stays. -/
def unselect : List BusEvent → List BusEvent
  | .deselect :: .select :: rest => rest
  | tr => tr

/-- The reset of the engine before the response of what it runs: the device is POISONED (70 R292). That this holds of a
bare transaction too, which another agent sends, is the model's choice (DESIGN CHOICE, log 20). -/
def resetBeforeResponse (s : State) : State := engineReset { s with engBusy := true }

/-- A request or a bare transaction with a reset of the engine after `n` of its exchanges: it is cut short there,
within a transaction, or before (`selected = false`) or after (`selected = true`) the `Select()` of the next; one that
makes no more exchanges meets the reset before its response. The device is left POISONED and the engine takes its reset
values (70 R292). The spec is silent on a reset during a bare transaction, which the engine does not send: the model
cuts it short in the same way (DESIGN CHOICE, log 20). -/
def resetDuringRequest (n : Nat) (selected : Bool) (i : Instr) (s : State) : Host.Outcome State Fault Refusal :=
  if failsWithin n s.env.xferFail then
    match exec i s with
    | .next t => .next (resetBeforeResponse t)
    | .fault f => .fault f
    | .refused r => .refused r
  else
    let tail := cutTail n s.env.xferFail
    match exec i (s.mapEnv fun e => { e with xferFail := n :: tail }) with
    | .next t =>
      let trace := if wasCut tail t.env.xferFail && !selected then unselect t.trace else t.trace
      .next (resetBeforeResponse
        { t.mapEnv (fun e => { e with xferFail := uncut tail e.xferFail }) with trace := trace })
    | .fault f => .fault f
    | .refused r => .refused r

/-- The packet is taken and what it asks for meets a reset (of a bare transaction: DESIGN CHOICE, log 20); while the
block is busy it waits like any packet. -/
def runInterrupted (n : Nat) (selected : Bool) (p : Packet) (rest : List Input) (s : State) :
    Host.Outcome State Fault Refusal :=
  if s.engBusy then .next (spin s)
  else
    match decode s.dd.addressWidth p with
    | .ok i => resetDuringRequest n selected i { s with port := rest }
    | .error e => .refused (.undecodable e)

/-- One step: the block, idle, waits (70 R291), and a busy one goes on with its wait (60 R285); a reset resets (70
R290); a packet is run; a re-initialisation of the device, like a packet, waits while the block has the transport.
What is presented is taken in order: a reset behind a packet or a re-initialisation that waits at a hung block is not
taken, and the block polls on. The spec does not order a reset against a waiting request (DESIGN CHOICE, log 20). -/
def stepInput (s : State) : Host.Outcome State Fault Refusal :=
  match s.port with
  | [] => .next (if s.engBusy then spin s else s)
  | .engineReset :: rest => .next (engineReset { s with port := rest })
  | .packet p :: rest => runPacket p rest s
  | .resetDuring n selected p :: rest => runInterrupted n selected p rest s
  | .reinitialised flash wel ads asleep guarded :: rest =>
    if s.engBusy then .next (spin s)
    else .next (reinitialise flash wel ads asleep guarded { s with port := rest })

/-- The state with the packet presented first. -/
def State.present (s : State) (p : Packet) : State := { s with port := .packet p :: s.port }

end Sys2Proof.Machine
end

