-- ==== Sys2Proof/Machine/Step.lean ====
section
/-! DEFINITION. One step of the machine: what the port presents next is run (Machine/Fetch.lean). -/

namespace Sys2Proof.Machine

/-- One step. -/
def step : State → Host.Outcome State Fault Refusal := fun s => stepInput s

/-- The opcode-table word, with zeros above it, presented first at the port, where `step` takes its next instruction
(log 1, log 20). -/
def State.withFetchWord (s : State) (nbits w : Nat) : State :=
  s.present (packetOfWord s.dd.addressWidth nbits w)

end Sys2Proof.Machine
end

