-- ==== Sys2Proof/Safety.lean ====
section
/-! DEFINITION. The launch premises of 70_reset_and_hazards R297, the invariant that every step keeps, and what the
statements say of the transport trace. -/

namespace Sys2Proof.Machine

/-! ### Launch premises (70 R297) -/

/-- `P_idle`: `ENG.busy = 0`, `CS = 0`, `SEQ` empty. -/
abbrev State.PIdle (s : State) : Prop := s.engBusy = false ∧ s.cs = false ∧ s.seq = []

/-- `P_ready`: the device is idle, `PEND = none`. -/
abbrev State.PReady (s : State) : Prop := s.dev.pend = .none

/-- `P_mode`: the device's addressing mode equals `ADDRESS_WIDTH`. -/
abbrev State.PMode (s : State) : Prop := s.modeMatches = true

/-- `P_awake`: the device is not powered down and no region of `F` is write-protected. -/
abbrev State.PAwake (s : State) : Prop := s.dev.asleep = false ∧ s.dev.guarded = false

/-- `P_desc`: the descriptor satisfies 00_scope R9. -/
abbrev State.PDesc (s : State) : Prop :=
  0 < s.dd.capacityBytes ∧ s.dd.capacityBytes % 4096 = 0 ∧
    s.dd.capacityBytes ≤ 2 ^ (8 * s.dd.addressWidth.bytes)

/-- `P_clean`: the device is not POISONED. -/
abbrev State.PClean (s : State) : Prop := s.dev.poisoned = false

/-- `P_xfer`: no exchange fails. -/
abbrev State.PXfer (s : State) : Prop := s.env.xferFail = []

/-- A wait on a cycle that outlasts `k` polls returns (40 R149). -/
def State.endsInTime (s : State) : Option Nat → Bool
  | none => false
  | some k =>
    match s.pollLimit with
    | none => true
    | some n => decide (k < n)

/-- `P_fair`: every later cycle of the device ends, within POLL_LIMIT polls. -/
abbrev State.PFair (s : State) : Prop := ∀ k ∈ s.env.latencies, s.endsInTime k = true

/-- `P_fair` and a POLL_LIMIT that lets the next wait return also when the latencies run out (00_scope R8:
POLL_LIMIT is at least 1). -/
abbrev State.PLimit (s : State) : Prop := ∀ n, s.pollLimit = some n → 1 ≤ n

/-- The launch premises of a request that programs or erases. -/
structure State.Launch (s : State) : Prop where
  idle : s.PIdle
  ready : s.PReady
  mode : s.PMode
  awake : s.PAwake
  desc : s.PDesc
  clean : s.PClean
  xfer : s.PXfer
  fair : s.PFair
  limit : s.PLimit

/-! ### The invariant -/

/-- Between two steps: `F` and `SB` are in canonical form and inside their address spaces (20_memory R60), no
transaction is open (10_state R32), an idle block has an empty `SEQ` (R28), and a busy one is in a wait that never
ends (60 R285). -/
structure State.Inv (s : State) : Prop where
  flash_wf : s.dev.flash.wf = true
  flash_below : s.dev.flash.below s.dd.capacityBytes = true
  sb_wf : s.sb.wf = true
  sb_below : s.sb.below 4096 = true
  deselected : s.cs = false
  phase_off : s.dev.phase = .off
  idle_seq : s.engBusy = false → s.seq = []
  busy_stuck : s.engBusy = true → s.stuck = true

/-! ### The trace -/

/-- The bytes sent in the transactions of a trace, the last transaction first; `acc` holds the bytes of the
transaction being read, in the order sent (00_scope R13, 30_encoding R100). -/
def transactionsFrom (acc : List Byte) : List BusEvent → List (List Byte)
  | [] => []
  | .xchg tx _ :: rest => transactionsFrom (tx :: acc) rest
  | .select :: rest => acc :: transactionsFrom [] rest
  | .deselect :: rest => transactionsFrom [] rest

/-- The transactions of a trace: for each, the bytes sent, in the order sent; the last transaction first. -/
def transactions (tr : List BusEvent) : List (List Byte) := transactionsFrom [] tr

/-- The command bytes of transactions (30_encoding R100: the byte sent first after `Select()`). -/
def commandBytes (txs : List (List Byte)) : List Byte := txs.filterMap List.head?

/-- The transactions among `txs` that are SectorErase commands (30_encoding R110). -/
def eraseCommands (txs : List (List Byte)) : List (List Byte) := txs.filter fun tx => decide (tx.head? = some 0x20)

/-- The transactions among `txs` that are PageProgram commands (30_encoding R110). -/
def programCommands (txs : List (List Byte)) : List (List Byte) := txs.filter fun tx => decide (tx.head? = some 0x02)

/-! ### Windows, sectors and pages -/

/-- The number of pages the span `[a, a + n)` touches (43 R186). -/
def pagesTouched (a n : Nat) : Nat := if n = 0 then 0 else (a + n - 1) / 256 - a / 256 + 1

/-- Where the program of page `j` of a span at `a` begins (43 R186). -/
def pageStart (a j : Nat) : Nat := if j = 0 then a else 256 * (a / 256 + j)

/-- How many bytes of the span `[a, a + n)` the program of page `j` carries (43 R181). -/
def pageLength (a n j : Nat) : Nat := min (a + n) (256 * (a / 256 + j + 1)) - pageStart a j

/-- The PageProgram transactions of a span of `bytes` at `a`, one for each page it touches (43 R182, R186). -/
def pagePrograms (aw : AddressWidth) (a : Nat) (bytes : List Byte) : List (List Byte) :=
  (List.range (pagesTouched a bytes.length)).map fun j =>
    0x02 :: (addressBytes aw (BitVec.ofNat 32 (pageStart a j)) ++
      (bytes.drop (pageStart a j - a)).take (pageLength a bytes.length j))

/-- The sectors the window `[a, a + n)` touches, in rising order (45 R203). -/
def sectorsTouched (a n : Nat) : List Nat :=
  if n = 0 then [] else List.range' (a / 4096) ((a + n - 1) / 4096 - a / 4096 + 1)

/-- Where the part of the window `[a, a + n)` that lies in sector `k` begins. -/
def partStart (a k : Nat) : Nat := max a (4096 * k)

/-- How many bytes of the window `[a, a + n)` lie in sector `k`. -/
def partLength (a n k : Nat) : Nat := min (a + n) (4096 * (k + 1)) - partStart a k

/-- Some byte of `[a, a + n)` is not 0xFF (45 R205). -/
def isDirty (m : Memory) (a n : Nat) : Bool := (List.range n).any fun i => decide (m.read (a + i) ≠ 0xFF)

/-- The part of the window in sector `k` is not blank: the sector is an affected one (45 R215). -/
def affected (m : Memory) (a n k : Nat) : Bool := isDirty m (partStart a k) (partLength a n k)

/-- The sectors of which the window's part is not blank (45 R215). -/
def affectedSectors (m : Memory) (a n : Nat) : List Nat := (sectorsTouched a n).filter fun k => affected m a n k

/-- The pages the window touches in sectors that are not erased (45 R216). -/
def directPages (m : Memory) (a n : Nat) : Nat :=
  (((sectorsTouched a n).filter fun k => !affected m a n k).map fun k =>
    pagesTouched (partStart a k) (partLength a n k)).sum

/-! ### Received and sent bytes -/

/-- The bytes received in a trace, in the order received. -/
def received (tr : List BusEvent) : List Byte :=
  (tr.filterMap fun e => match e with | .xchg _ rx => some rx | _ => none).reverse

/-- The bytes sent in a trace, in the order sent. -/
def sent (tr : List BusEvent) : List Byte :=
  (tr.filterMap fun e => match e with | .xchg tx _ => some tx | _ => none).reverse

/-- The instructions that the host requests: the ten operations and the reserved ones (30_encoding R121, R124). -/
def isHostRequest : Instr → Bool
  | .srRead _ | .srWrite _ _ | .srBusy | .srWait | .weEnable | .weDisable | .ppProgram _ _ | .pswWriteBlank _ _
  | .semErase _ | .fweWrite _ _ | .reservedOp0 | .reservedOpB | .reservedOpC | .reservedOpD | .reservedOpE
  | .reservedOpF => true
  | .writeEnable | .writeDisable | .readStatusReg1 | .readStatusReg2 | .readStatusReg3 | .writeStatusReg1 _
  | .writeStatusReg2 _ | .writeStatusReg3 _ | .readData _ _ | .pageProgram _ _ | .sectorErase _ | .chipErase _
  | .powerDown _ | .releasePowerDown _ | .manufacturerDeviceID _ | .enable4ByteAddr | .fweReadSector _ => false

/-- The transactions of the byte transport: the sixteen command bytes (30_encoding R110). -/
def isDeviceCommand : Instr → Bool
  | .writeEnable | .writeDisable | .readStatusReg1 | .readStatusReg2 | .readStatusReg3 | .writeStatusReg1 _
  | .writeStatusReg2 _ | .writeStatusReg3 _ | .readData _ _ | .pageProgram _ _ | .sectorErase _ | .chipErase _
  | .powerDown _ | .releasePowerDown _ | .manufacturerDeviceID _ | .enable4ByteAddr => true
  | .srRead _ | .srWrite _ _ | .srBusy | .srWait | .weEnable | .weDisable | .ppProgram _ _ | .pswWriteBlank _ _
  | .semErase _ | .fweWrite _ _ | .fweReadSector _ | .reservedOp0 | .reservedOpB | .reservedOpC | .reservedOpD
  | .reservedOpE | .reservedOpF => false

/-- The status reads, the only commands defined for a busy device (46 R241). -/
def isStatusRead : Instr → Bool
  | .readStatusReg1 | .readStatusReg2 | .readStatusReg3 => true
  | .writeEnable | .writeDisable | .writeStatusReg1 _ | .writeStatusReg2 _ | .writeStatusReg3 _ | .readData _ _
  | .pageProgram _ _ | .sectorErase _ | .chipErase _ | .powerDown _ | .releasePowerDown _
  | .manufacturerDeviceID _ | .enable4ByteAddr | .srRead _ | .srWrite _ _ | .srBusy | .srWait | .weEnable
  | .weDisable | .ppProgram _ _ | .pswWriteBlank _ _ | .semErase _ | .fweWrite _ _ | .fweReadSector _
  | .reservedOp0 | .reservedOpB | .reservedOpC | .reservedOpD | .reservedOpE | .reservedOpF => false

/-- The requests and transactions that may change the flash array (10_state R31). -/
def mayChangeFlash : Instr → Bool
  | .pageProgram _ _ | .sectorErase _ | .ppProgram _ _ | .pswWriteBlank _ _ | .semErase _ | .fweWrite _ _ => true
  | .writeEnable | .writeDisable | .readStatusReg1 | .readStatusReg2 | .readStatusReg3 | .writeStatusReg1 _
  | .writeStatusReg2 _ | .writeStatusReg3 _ | .readData _ _ | .chipErase _ | .powerDown _ | .releasePowerDown _
  | .manufacturerDeviceID _ | .enable4ByteAddr | .srRead _ | .srWrite _ _ | .srBusy | .srWait | .weEnable
  | .weDisable | .fweReadSector _ | .reservedOp0 | .reservedOpB | .reservedOpC | .reservedOpD | .reservedOpE
  | .reservedOpF => false

/-- The statuses with which a request can end (60_exceptions R276; R124 for the reserved operations). Transactions
on the transport have no response. -/
def allowedStatuses : Instr → List Status
  | .srRead _ | .srWrite _ _ => [.ok, .transportFailure, .invalidRegister]
  | .srBusy | .weEnable | .weDisable | .fweReadSector _ => [.ok, .transportFailure]
  | .srWait => [.ok, .busyTimeout, .transportFailure]
  | .ppProgram _ _ | .pswWriteBlank _ _ | .semErase _ | .fweWrite _ _ =>
    [.ok, .invalidRange, .busyTimeout, .transportFailure]
  | .reservedOp0 | .reservedOpB | .reservedOpC | .reservedOpD | .reservedOpE | .reservedOpF => [.illegalRequest]
  | .writeEnable | .writeDisable | .readStatusReg1 | .readStatusReg2 | .readStatusReg3 | .writeStatusReg1 _
  | .writeStatusReg2 _ | .writeStatusReg3 _ | .readData _ _ | .pageProgram _ _ | .sectorErase _ | .chipErase _
  | .powerDown _ | .releasePowerDown _ | .manufacturerDeviceID _ | .enable4ByteAddr => []

/-- The refusals, which fail closed (60_exceptions R267). -/
def isRefusal (e : Status) : Bool := decide (e = .invalidRange ∨ e = .invalidRegister ∨ e = .illegalRequest)

/-- The request passes the checks of 30_encoding R122 and sends at least one byte (45 R203, 43 R184). -/
def sendsSomething (s : State) : Instr → Bool
  | .srRead n | .srWrite n _ => validRegister n
  | .srBusy | .srWait | .weEnable | .weDisable => true
  | .ppProgram a data => withinPage a.toNat data.length && withinCapacity s a.toNat data.length
  | .pswWriteBlank a data | .fweWrite a data => withinCapacity s a.toNat data.length && !data.isEmpty
  | .semErase si => withinCapacity s (si.toNat * 4096) 4096
  | .writeEnable | .writeDisable | .readStatusReg1 | .readStatusReg2 | .readStatusReg3 | .writeStatusReg1 _
  | .writeStatusReg2 _ | .writeStatusReg3 _ | .readData _ _ | .pageProgram _ _ | .sectorErase _ | .chipErase _
  | .powerDown _ | .releasePowerDown _ | .manufacturerDeviceID _ | .enable4ByteAddr | .fweReadSector _
  | .reservedOp0 | .reservedOpB | .reservedOpC | .reservedOpD | .reservedOpE | .reservedOpF => false

/-- `t` is `s` after one transaction that sends `bytes`: of the engine nothing changes (46 R232). -/
structure Transacted (bytes : List Byte) (s t : State) : Prop where
  frame : t = { s with dev := t.dev, env := t.env, trace := t.trace }
  sent : transactions t.trace = bytes :: transactions s.trace
  phase : t.dev.phase = .off

/-- The device's own step is all that may have happened to the device: its cycle may have ended, with a free latch
(46 R239). -/
structure OwnStep (s t : State) : Prop where
  flash : ∀ x, t.flashByte x = s.flashByte x
  ads : t.dev.ads = s.dev.ads
  poisoned : t.dev.poisoned = s.dev.poisoned
  awake : t.dev.asleep = s.dev.asleep ∧ t.dev.guarded = s.dev.guarded
  cycle : (t.dev.pend = s.dev.pend ∧ t.dev.wel = s.dev.wel) ∨ (s.dev.pend ≠ .none ∧ t.dev.pend = .none)

/-- A safe run answers a next state. -/
def isNext {σ φ ρ : Type} : Host.Outcome σ φ ρ → Bool
  | .next _ => true
  | .fault _ => false
  | .refused _ => false

/-- The next state, if there is one. -/
def nextState? {σ φ ρ : Type} : Host.Outcome σ φ ρ → Option σ
  | .next s => some s
  | .fault _ => none
  | .refused _ => none

end Sys2Proof.Machine
end

