-- ==== Sys2Proof/Certificates/Slice0/Obligations.lean ====
section
/-! DEFINITION. The statements for the provers. -/

open Sys2Proof Sys2Proof.Machine

/-! ### Encoding -/

/-- 30_encoding R104, R106, R110, R120, R121, R124: every well-formed instruction is read back from its encoding; only
the internal raw sector read has none (R126). -/
def Obligations.EncodeDecodeRoundTrip : Prop :=
  ∀ (aw : AddressWidth) (i : Instr), i.wf aw = true →
    (∀ p, encode aw i = some p → decode aw p = .ok i) ∧
    (encode aw i = none → ∃ si, i = .fweReadSector si)

/-- 20_memory R83, 30_encoding R120: what the decoder reads is well formed, and never the internal procedure. -/
def Obligations.DecodedInstructionIsWellFormed : Prop :=
  ∀ (aw : AddressWidth) (p : Packet) (i : Instr), decode aw p = .ok i →
    i.wf aw = true ∧ ∀ si, i ≠ .fweReadSector si

/-- 30_encoding R112, log 23 (the model's choice): a byte 0 that is none of the sixteen commands is refused by name,
by the decoder and by the step. -/
def Obligations.UnknownCommandByteRefused : Prop :=
  ∀ (c : Byte) (bytes : List Byte),
    c ∉ [0x06, 0x04, 0x05, 0x35, 0x15, 0x01, 0x31, 0x11, 0x03, 0x02, 0x20, 0xC7, 0xB9, 0xAB, 0x90, (0xB7 : Byte)] →
    (∀ aw, decode aw (.transaction (c :: bytes)) = .error (.unknownCommand c)) ∧
    ∀ (s : State) (rest : List Input), s.engBusy = false → s.port = .packet (.transaction (c :: bytes)) :: rest →
      step s = .refused (.undecodable (.unknownCommand c))

/-- 30_encoding R104, R107, R110, R121: a few words written out from the spec decode to what they stand for. -/
def Obligations.WrittenWordsDecode : Prop :=
  decode .three (.transaction [0x20, 0x00, 0x10, 0x00]) = .ok (.sectorErase 0x001000) ∧
  decode .four (.transaction [0x20, 0x00, 0x12, 0x30, 0x00]) = .ok (.sectorErase 0x00123000) ∧
  decode .three (.transaction [0x02, 0x00, 0x01, 0xFE, 0x12, 0x34]) = .ok (.pageProgram 0x0001FE [0x12, 0x34]) ∧
  decode .three (.transaction [0x03, 0x00, 0x10, 0x00, 0xFF, 0xFF]) = .ok (.readData 0x001000 2) ∧
  decode .three (.transaction [0x35, 0xFF]) = .ok .readStatusReg2 ∧
  decode .three (.transaction [0x31, 0x02]) = .ok (.writeStatusReg2 0x02) ∧
  decode .three (.transaction [0x06]) = .ok .writeEnable ∧
  decode .three (.request { op := 0x5, reg := 0, value := 0, address := 0, length := 0, sectorIndex := 0,
                            data := [] }) = .ok .weEnable ∧
  decode .three (.request { op := 0x7, reg := 0, value := 0, address := 0x0001FE, length := 2, sectorIndex := 0,
                            data := [0x12, 0x34] }) = .ok (.ppProgram 0x0001FE [0x12, 0x34]) ∧
  decode .three (.request { op := 0x8, reg := 0, value := 0, address := 0x0000FE, length := 3, sectorIndex := 0,
                            data := [1, 2, 3] }) = .ok (.pswWriteBlank 0x0000FE [1, 2, 3]) ∧
  decode .three (.request { op := 0x1, reg := 2, value := 0, address := 0, length := 0, sectorIndex := 0,
                            data := [] }) = .ok (.srRead 2) ∧
  decode .three (.request { op := 0x9, reg := 0, value := 0, address := 0, length := 0, sectorIndex := 0x123,
                            data := [] }) = .ok (.semErase 0x123) ∧
  decode .three (.request { op := 0xA, reg := 0, value := 0, address := 0x001000, length := 1, sectorIndex := 0,
                            data := [0x5A] }) = .ok (.fweWrite 0x001000 [0x5A]) ∧
  decode .three (.request { op := 0xB, reg := 0, value := 0, address := 0, length := 0, sectorIndex := 0,
                            data := [] }) = .ok .reservedOpB

/-- 45 R201: the address splitter is a wiring of the address bits. -/
def Obligations.AddressSplitterIsWiring : Prop :=
  ∀ s : State,
    (splitAddress s).fwe.sectorIndex.toNat = s.fwe.address.toNat / 4096 ∧
    (splitAddress s).fwe.offsetInSector.toNat = s.fwe.address.toNat % 4096 ∧
    (splitAddress s).fwe.sectorIndex = s.fwe.address.extractLsb' 12 20 ∧
    (splitAddress s).fwe.offsetInSector = s.fwe.address.extractLsb' 0 12 ∧
    (sectorBase (splitAddress s).fwe.sectorIndex).toNat = (splitAddress s).fwe.sectorIndex.toNat * 4096 ∧
    (sectorBase (splitAddress s).fwe.sectorIndex).toNat =
      s.fwe.address.toNat - (splitAddress s).fwe.offsetInSector.toNat

/-- 45 R202: the sector boundary detector. -/
def Obligations.BoundaryDetectorSizesTheChunk : Prop :=
  ∀ (s : State) (r : FweRegs), r = (splitAddress s).fwe →
    r.spaceInSector.toNat = 4096 - r.offsetInSector.toNat ∧
    r.chunk.toNat = min r.length.toNat r.spaceInSector.toNat ∧
    1 ≤ r.spaceInSector.toNat ∧ r.spaceInSector.toNat ≤ 4096 ∧
    r.address.toNat + r.spaceInSector.toNat = 4096 * (r.address.toNat / 4096 + 1) ∧
    (r.address.toNat / 4096 < (r.address.toNat + r.length.toNat - 1) / 4096 ↔
      r.spaceInSector.toNat < r.length.toNat) ∧
    (r.spaceInSector.toNat < r.length.toNat →
      r.chunk.toNat = r.spaceInSector.toNat ∧ (r.address.toNat + r.chunk.toNat) % 4096 = 0) ∧
    (r.length.toNat ≤ r.spaceInSector.toNat → r.chunk.toNat = r.length.toNat) ∧
    (1 ≤ r.length.toNat →
      1 ≤ r.chunk.toNat ∧ r.chunk.toNat ≤ 4096 ∧ r.offsetInSector.toNat + r.chunk.toNat ≤ 4096)

/-- 20_memory R63: an erase of sector `k` sets every byte of it to 0xFF, a program of `d` at `a` ANDs `d` onto the
byte there, and neither touches another byte. -/
def Obligations.EraseSetsProgramClears : Prop :=
  ∀ m : Memory, m.wf = true →
    (∀ k x, (m.erase (4096 * k) 4096).read x = if 4096 * k ≤ x ∧ x < 4096 * k + 4096 then 0xFF else m.read x) ∧
    ∀ a d x, (m.program a [d]).read x = if x = a then m.read a &&& d else m.read x

/-! ### The machine -/

/-- 60_exceptions R280, 46 R248: when the block is idle and the packet presented first decodes to an instruction, the
step takes the packet from the port and is `exec` of that instruction. -/
def Obligations.StepRunsDecodedPacket : Prop :=
  ∀ (s : State) (p : Packet) (rest : List Input) (i : Instr), s.engBusy = false → s.port = .packet p :: rest →
    decode s.dd.addressWidth p = .ok i → step s = exec i { s with port := rest }

/-- 60_exceptions R280: while `ENG.busy = 1` a request is not accepted, not queued and not answered: it waits at the
port. What the step may change beside is what a poll of the wait under way writes (40 R146). -/
def Obligations.RequestWaitsWhileBusy : Prop :=
  ∀ s : State, s.engBusy = true →
    (∀ i, exec i s = .next s) ∧
    ∀ p rest, s.port = .packet p :: rest →
      ∃ t, step s = .next t ∧
        t = { s with sra := t.sra, seq := t.seq, cs := t.cs, env := t.env, trace := t.trace,
                     dev := { s.dev with phase := t.dev.phase } }

/-- 70 R291: after reset the block is idle and waits for a request. -/
def Obligations.ResetBlockIsIdleAndWaits : Prop :=
  State.reset.seq = [] ∧ State.reset.engBusy = false ∧ State.reset.cs = false ∧
    State.reset.rsp = { status := .ok, result := 0x00 } ∧ State.reset.dev.poisoned = false ∧
    step State.reset = .next State.reset

/-- 10_state R35, R36, 70 R292: the reset of the engine leaves the block as after power-on, the descriptor as it was, the
device as it was if the block was idle and POISONED if it fell in a request. The model's choice, log 20, is that the
reset input stands at the port, and that the device of an idle block, as it was, keeps the mark POISONED too: R35's
table lists it as clear after reset, R33 and 60 R270 keep it until the environment re-initialises the device. -/
def Obligations.EngineResetLeavesResetState : Prop :=
  ∀ (s : State) (rest : List Input), s.port = .engineReset :: rest →
    ∃ t, step s = .next t ∧ t.PIdle ∧ t.rsp = { status := .ok, result := 0x00 } ∧ t.port = rest ∧ t.dd = s.dd ∧
      t.pollLimit = s.pollLimit ∧ (s.engBusy = false → s.cs = false → t.dev = s.dev) ∧
      (s.engBusy = true → t.dev.poisoned = true)

/-- 70 R292: a reset of the engine in the middle of a request, at whatever point, leaves the block as after reset and
the device POISONED, and no exchange takes place after it. That its point is a number of exchanges, and that it does
the same in the middle of a bare transaction, is the model's choice, log 20. -/
def Obligations.ResetDuringRequestPoisons : Prop :=
  ∀ (s : State) (n : Nat) (selected : Bool) (p : Packet) (rest : List Input) (i : Instr), s.PIdle →
    s.port = .resetDuring n selected p :: rest → decode s.dd.addressWidth p = .ok i →
    ∃ t k, step s = .next t ∧ t.PIdle ∧ t.rsp = { status := .ok, result := 0x00 } ∧ t.port = rest ∧ t.dd = s.dd ∧
      t.pollLimit = s.pollLimit ∧ t.dev.poisoned = true ∧ k ≤ n ∧
      (sent t.trace).length = (sent s.trace).length + k

/-- 20_memory R60, 10_state R28, R32, 46 R250, 60 R285: every step keeps the invariant. -/
def Obligations.StepKeepsInvariant : Prop :=
  ∀ s t : State, s.Inv → step s = .next t → t.Inv

/-- 10_state R35; the contents of `F` and `SB` are the model's choice, log 6: the invariant holds after reset. -/
def Obligations.ResetMeetsInvariant : Prop := State.reset.Inv

/-- 60_exceptions R285, R280: from the invariant no step faults, and a packet that decodes gets a next state. -/
def Obligations.DecodablePacketsRun : Prop :=
  ∀ s : State, s.Inv → (∀ f, step s ≠ .fault f) ∧
    ∀ p rest i, s.port = .packet p :: rest → decode s.dd.addressWidth p = .ok i → ∃ t, step s = .next t

/-- 10_state R20: the descriptor is read-only for every operation, and so is POLL_LIMIT (00_scope R8). -/
def Obligations.DescriptorIsImmutable : Prop :=
  (∀ (i : Instr) (s t : State), exec i s = .next t → t.dd = s.dd ∧ t.pollLimit = s.pollLimit) ∧
  ∀ s t : State, step s = .next t → t.dd = s.dd ∧ t.pollLimit = s.pollLimit

/-- 10_state R33, 60 R270: nothing the block does takes the mark POISONED away; the environment's re-initialisation
does, which as an input at the port is the model's choice, log 12. That a reset of the engine keeps the mark too,
although the table of 10_state R35 lists it as clear after reset, is the model's choice, log 20. -/
def Obligations.PoisonedUntilReinitialised : Prop :=
  (∀ (i : Instr) (s t : State), exec i s = .next t → s.dev.poisoned = true → t.dev.poisoned = true) ∧
  (∀ s t : State, (∀ m w a z g rest, s.port ≠ .reinitialised m w a z g :: rest) → step s = .next t →
    s.dev.poisoned = true → t.dev.poisoned = true) ∧
  ∀ (s : State) (m : Memory) (w a z g : Bool) (rest : List Input), s.engBusy = false →
    s.port = .reinitialised m w a z g :: rest →
    ∃ t, step s = .next t ∧ t = { s with port := rest, dev := t.dev } ∧ t.PReady ∧ t.PClean ∧ t.dev.wel = w ∧
      t.dev.ads = a ∧ t.dev.asleep = z ∧ t.dev.guarded = g ∧
      (m.wf = true → m.below s.dd.capacityBytes = true → ∀ x, t.flashByte x = m.read x)

/-- 10_state R32, 60 R266, R280, R285, R287: a request or transaction that has ended leaves the block idle with the
chip select deasserted; one that has not ended is a hang, with no response, needs POLL_LIMIT = INF, and leaves a device
of which nothing is known but that it is busy. That the mark for this is POISONED is the model's choice, log 13. -/
def Obligations.EndedRequestLeavesBlockIdle : Prop :=
  ∀ (i : Instr) (s t : State), s.PIdle → exec i s = .next t →
    (t.engBusy = false → t.PIdle) ∧
    (t.engBusy = true → t.rsp = s.rsp ∧ s.pollLimit = none ∧ t.dev.poisoned = true ∧ t.dev.busy = true)

/-- 40 R148, 60 R263, R285: with a finite POLL_LIMIT every request is answered, whatever the device does. -/
def Obligations.FinitePollLimitAlwaysAnswers : Prop :=
  ∀ (i : Instr) (s : State) (n : Nat), s.PIdle → s.pollLimit = some n →
    ∃ t, exec i s = .next t ∧ t.engBusy = false

/-- 60 R276: the statuses with which each operation can end. -/
def Obligations.StatusTable : Prop :=
  ∀ (i : Instr) (s t : State), isHostRequest i = true → s.PIdle → exec i s = .next t → t.engBusy = false →
    t.rsp.status ∈ allowedStatuses i

/-- 10_state R29, 30_encoding R123: the result byte is 0x00 whenever the status is not OK and for every operation
without a result, and 0x01 or 0x00 for `busy()`. -/
def Obligations.ResultByte : Prop :=
  ∀ (i : Instr) (s t : State), isHostRequest i = true → s.PIdle → exec i s = .next t → t.engBusy = false →
    (t.rsp.status ≠ .ok → t.rsp.result = 0x00) ∧
    ((∀ n, i ≠ .srRead n) → i ≠ .srBusy → t.rsp.result = 0x00) ∧
    (i = .srBusy → t.rsp.result = 0x00 ∨ t.rsp.result = 0x01)

/-- 60 R267, R261: the refusals fail closed. The device, SB, every flag, the transport and SRA are as before; only
the response and the operand registers of the refused operation are written. -/
def Obligations.RefusalsFailClosed : Prop :=
  ∀ (i : Instr) (s t : State), isHostRequest i = true → s.PIdle → s.PDesc → exec i s = .next t →
    t.engBusy = false → isRefusal t.rsp.status = true →
    t = { s with rsp := t.rsp, fwe := t.fwe, psw := t.psw, pp := t.pp, sem := t.sem } ∧
      t.fwe.eraseRequired = s.fwe.eraseRequired ∧ ∀ x, t.flashByte x = s.flashByte x

/-- 60 R266, R270: BusyTimeout and TransportFailure leave the device POISONED, the result 0x00 and the block idle. -/
def Obligations.AbortsPoisonTheDevice : Prop :=
  ∀ (i : Instr) (s t : State), isHostRequest i = true → s.PIdle → exec i s = .next t → t.engBusy = false →
    (t.rsp.status = .busyTimeout ∨ t.rsp.status = .transportFailure) →
    t.dev.poisoned = true ∧ t.rsp.result = 0x00 ∧ t.PIdle

/-- 30_encoding R111, R112: the block sends only eleven of the command bytes, and a `write` request only five. -/
def Obligations.BlockSendsElevenCommands : Prop :=
  ∀ (i : Instr) (s t : State), isHostRequest i = true → s.PIdle → exec i s = .next t →
    ∃ txs, transactions t.trace = txs ++ transactions s.trace ∧
      (∀ c ∈ commandBytes txs, c ∈ [0x06, 0x04, 0x05, 0x35, 0x15, 0x01, 0x31, 0x11, 0x03, 0x02, (0x20 : Byte)]) ∧
      ((∃ a data, i = .fweWrite a data) → ∀ c ∈ commandBytes txs, c ∈ [0x03, 0x06, 0x05, 0x02, (0x20 : Byte)])

/-- 45 R221: no operation of the host but `write` reads or writes SB: with other contents of SB everything else is
the same, and SB stays as it is. -/
def Obligations.ScratchBufferNoninterference : Prop :=
  ∀ (i : Instr) (s : State) (m : Memory), isHostRequest i = true → (∀ a data, i ≠ .fweWrite a data) →
    nextState? (exec i { s with sb := m }) = (nextState? (exec i s)).map (fun t => { t with sb := m }) ∧
    ∀ t, exec i s = .next t → t.sb = s.sb

/-- 10_state R31: only programs and erases change the flash array. -/
def Obligations.OnlyProgramAndEraseChangeFlash : Prop :=
  ∀ (i : Instr) (s t : State), mayChangeFlash i = false → exec i s = .next t → t.dev.poisoned = false →
    ∀ x, t.flashByte x = s.flashByte x

/-- 20_memory R63, 43 R185: programming never sets a bit, whatever else happens. -/
def Obligations.ProgramsOnlyClearBits : Prop :=
  ∀ (i : Instr) (s t : State) (a : Address) (data : List Byte), s.Inv →
    i ∈ [Instr.pageProgram a data, .ppProgram a data, .pswWriteBlank a data] → exec i s = .next t →
    t.dev.poisoned = false → ∀ x, t.flashByte x &&& s.flashByte x = t.flashByte x

/-- 60 R264, R266, R268: when the first exchange of an accepted request fails, the request ends with
TransportFailure, no byte sent, the next failure still to come, the block idle and the device POISONED. -/
def Obligations.FailingFirstExchangeAborts : Prop :=
  ∀ (i : Instr) (s : State) (gaps : List Nat), s.PIdle → i.wf s.dd.addressWidth = true → sendsSomething s i = true →
    s.env.xferFail = 0 :: gaps →
    ∃ t, exec i s = .next t ∧ t.rsp = { status := .transportFailure, result := 0x00 } ∧ t.PIdle ∧
      t.dev.poisoned = true ∧ t.env.xferFail = gaps ∧ t.sb = s.sb ∧
      transactions t.trace = [] :: transactions s.trace

/-! ### The device's commands -/

/-- 46 R230, R231: WriteEnable sets and WriteDisable clears the latch of an idle device, and nothing else. -/
def Obligations.LatchCommands : Prop :=
  ∀ (i : Instr) (c : Byte) (v : Bool) (s : State),
    (i, c, v) ∈ [(Instr.writeEnable, (0x06 : Byte), true), (Instr.writeDisable, 0x04, false)] →
    s.PIdle → s.PReady → s.PClean → s.PXfer →
    ∃ t, exec i s = .next t ∧ Transacted [c] s t ∧ t.dev = { s.dev with wel := v, phase := .off } ∧
      ∀ x, t.flashByte x = s.flashByte x

/-- 46 R233, R239: a status read drives one byte, of which bit 0 of SR1 is BUSY and bit 0 of SR3 is ADS; it changes
no device state beside the device's own step. -/
def Obligations.StatusReadCommands : Prop :=
  ∀ (i : Instr) (c : Byte) (r : StatusReg) (s : State),
    (i, c, r) ∈ [(Instr.readStatusReg1, (0x05 : Byte), StatusReg.sr1), (Instr.readStatusReg2, 0x35, .sr2),
      (Instr.readStatusReg3, 0x15, .sr3)] →
    s.PIdle → s.PClean → s.PXfer →
    ∃ t v, exec i s = .next t ∧ Transacted [c, 0xFF] s t ∧ (received t.trace).getLast? = some v ∧ OwnStep s t ∧
      (r = .sr1 → bit0 v = t.dev.busy) ∧ (r = .sr3 → bit0 v = s.dev.ads)

/-- 46 R234: a status write to an idle device is one transaction; `F` stays, BUSY may only come from a status write
cycle, ADS may change only by register 3. What the register takes is open. That the power state (`asleep`) stays is
the model's choice, log 17: R234 does not say it. -/
def Obligations.StatusWriteCommands : Prop :=
  ∀ (i : Instr) (c : Byte) (r : StatusReg) (v : Byte) (s : State),
    (i, c, r) ∈ [(Instr.writeStatusReg1 v, (0x01 : Byte), StatusReg.sr1), (Instr.writeStatusReg2 v, 0x31, .sr2),
      (Instr.writeStatusReg3 v, 0x11, .sr3)] →
    s.PIdle → s.PReady → s.PClean → s.PXfer →
    ∃ t, exec i s = .next t ∧ Transacted [c, v] s t ∧ t.dev.poisoned = false ∧
      (t.dev.pend = .none ∨ t.dev.pend = .statuswrite) ∧ (r ≠ .sr3 → t.dev.ads = s.dev.ads) ∧
      t.dev.asleep = s.dev.asleep ∧
      ∀ x, t.flashByte x = s.flashByte x

/-- 46 R235, 70 R297: ReadData drives `F[a], F[a+1], …`, one byte for each exchange after the address, and changes
nothing. -/
def Obligations.ReadDataCommand : Prop :=
  ∀ (a : Address) (n : Nat) (s : State), s.dd.addressWidth.fits a = true → a.toNat + n ≤ s.dd.capacityBytes →
    s.PIdle → s.PReady → s.PClean → s.PMode → s.dev.asleep = false → s.PXfer →
    ∃ t sent, exec (.readData a n) s = .next t ∧
      Transacted (0x03 :: (addressBytes s.dd.addressWidth a ++ List.replicate n 0xFF)) s t ∧
      t.dev = { s.dev with phase := .off } ∧ (∀ x, t.flashByte x = s.flashByte x) ∧
      sent.length = 1 + s.dd.addressWidth.bytes ∧
      received t.trace = received s.trace ++ sent ++ (List.range n).map fun i => s.flashByte (a.toNat + i)

/-- 46 R236: PageProgram with the latch set, on an idle device, inside a page: each byte is ANDed onto the old one, a
program cycle begins, and nothing else changes. -/
def Obligations.PageProgramCommand : Prop :=
  ∀ (a : Address) (data : List Byte) (s : State), s.Inv → s.dd.addressWidth.fits a = true → data ≠ [] →
    a.toNat % 256 + data.length ≤ 256 → a.toNat + data.length ≤ s.dd.capacityBytes →
    s.PIdle → s.PReady → s.PClean → s.PMode → s.PAwake → s.PXfer → s.dev.wel = true →
    ∃ t, exec (.pageProgram a data) s = .next t ∧
      Transacted (0x02 :: (addressBytes s.dd.addressWidth a ++ data)) s t ∧
      t.dev = { s.dev with flash := t.dev.flash, pend := .program, busyFor := t.dev.busyFor, phase := .off } ∧
      ∀ x, t.flashByte x = if a.toNat ≤ x ∧ x < a.toNat + data.length
        then s.flashByte x &&& data.getD (x - a.toNat) 0 else s.flashByte x

/-- 46 R236, 42 R174: PageProgram without data leaves `F` as it is; the latch and the cycle afterwards are open. That
the cycle is none or program, and no other, is the model's choice, log 18: R236 and R174 call PEND a draw. -/
def Obligations.EmptyPageProgramCommand : Prop :=
  ∀ (a : Address) (s : State), s.dd.addressWidth.fits a = true → a.toNat ≤ s.dd.capacityBytes →
    s.PIdle → s.PReady → s.PClean → s.PMode → s.PAwake → s.PXfer → s.dev.wel = true →
    ∃ t, exec (.pageProgram a []) s = .next t ∧ Transacted (0x02 :: addressBytes s.dd.addressWidth a) s t ∧
      t.dev = { s.dev with wel := t.dev.wel, pend := t.dev.pend, busyFor := t.dev.busyFor, phase := .off } ∧
      (t.dev.pend = .none ∨ t.dev.pend = .program) ∧ ∀ x, t.flashByte x = s.flashByte x

/-- 46 R237: SectorErase with the latch set, on an idle device: every byte of the sector becomes 0xFF, an erase cycle
begins, and nothing else changes. -/
def Obligations.SectorEraseCommand : Prop :=
  ∀ (a : Address) (s : State), s.Inv → s.dd.addressWidth.fits a = true → a.toNat % 4096 = 0 →
    a.toNat + 4096 ≤ s.dd.capacityBytes →
    s.PIdle → s.PReady → s.PClean → s.PMode → s.PAwake → s.PXfer → s.dev.wel = true →
    ∃ t, exec (.sectorErase a) s = .next t ∧ Transacted (0x20 :: addressBytes s.dd.addressWidth a) s t ∧
      t.dev = { s.dev with flash := t.dev.flash, pend := .erase, busyFor := t.dev.busyFor, phase := .off } ∧
      ∀ x, t.flashByte x = if a.toNat ≤ x ∧ x < a.toNat + 4096 then 0xFF else s.flashByte x

/-- 46 R236, R238: a program, with data or without, or an erase that arrives with the latch clear leaves the device
POISONED. -/
def Obligations.ProgramOrEraseWithoutLatchPoisons : Prop :=
  ∀ (i : Instr) (a : Address) (data : List Byte) (s : State),
    i ∈ [Instr.pageProgram a data, .sectorErase a] → s.PIdle → s.PXfer → s.dev.wel = false → s.PReady →
    ∃ t, exec i s = .next t ∧ t.dev.poisoned = true

/-- 46 R241, 70 R308: every command but the status reads leaves a device that is still busy POISONED. -/
def Obligations.CommandsToBusyDevicePoison : Prop :=
  ∀ (i : Instr) (s : State), isDeviceCommand i = true → isStatusRead i = false → s.PIdle → s.PXfer →
    s.dev.pend ≠ .none → s.dev.busyFor ≠ some 0 → ∃ t, exec i s = .next t ∧ t.dev.poisoned = true

/-- 46 R242, 93 U12: an array command in the other addressing mode leaves the device POISONED. That one to a powered-down
device does so too, and a program or erase where a region is write-protected, is the model's choice, log 19: premise
P_awake of 70 R297 is broken and nothing is claimed (93 U21). Of ReadData where a region is protected it says nothing. -/
def Obligations.WrongAddressingModePoisons : Prop :=
  ∀ (i : Instr) (a : Address) (n : Nat) (data : List Byte) (s : State),
    ((i ∈ [Instr.readData a n, .pageProgram a data, .sectorErase a] ∧
        (s.modeMatches = false ∨ s.dev.asleep = true)) ∨
      (i ∈ [Instr.pageProgram a data, .sectorErase a] ∧ s.dev.guarded = true)) → s.PIdle → s.PXfer →
    ∃ t, exec i s = .next t ∧ t.dev.poisoned = true

/-- 46 R243 to R245, log 14 (the model's choice for PowerDown and ReleasePowerDown): the commands without an effect in
the source leave the device POISONED; the engine is as before. -/
def Obligations.CommandsWithoutEffectPoison : Prop :=
  ∀ (i : Instr) (c : Byte) (tail : List Byte) (s : State),
    (i, c) ∈ [(Instr.chipErase tail, (0xC7 : Byte)), (Instr.powerDown tail, 0xB9), (Instr.releasePowerDown tail, 0xAB)] →
    s.PIdle → s.PXfer →
    ∃ t, exec i s = .next t ∧ Transacted (c :: tail) s t ∧ t.dev.poisoned = true

/-- 46 R246, log 15 (the model's choice): ManufacturerDeviceID leaves an idle device as it is; the bytes it returns
are open. -/
def Obligations.ManufacturerDeviceIDLeavesDevice : Prop :=
  ∀ (tail : List Byte) (s : State), s.PIdle → s.PReady → s.PClean → s.PXfer →
    ∃ t, exec (.manufacturerDeviceID tail) s = .next t ∧ Transacted (0x90 :: tail) s t ∧
      t.dev = { s.dev with phase := .off } ∧ ∀ x, t.flashByte x = s.flashByte x

/-- 46 R247: the effect of Enable4ByteAddr on an idle device is ADS ← 1. -/
def Obligations.Enable4ByteAddrSetsMode : Prop :=
  ∀ s : State, s.PIdle → s.PReady → s.PClean → s.PXfer →
    ∃ t, exec .enable4ByteAddr s = .next t ∧ Transacted [0xB7] s t ∧
      t.dev = { s.dev with ads := true, phase := .off } ∧ ∀ x, t.flashByte x = s.flashByte x

/-! ### The host's operations -/

/-- 40 R142: SR.READ of register 1, 2 or 3 sends its command and one filler byte and returns the byte received. -/
def Obligations.SrReadReturnsRegister : Prop :=
  ∀ (n : BitVec 8) (c : Byte) (s : State), (n, c) ∈ [((1 : BitVec 8), (0x05 : Byte)), (2, 0x35), (3, 0x15)] →
    s.PIdle → s.PClean → s.PXfer →
    ∃ t v, exec (.srRead n) s = .next t ∧
      t = { s with sra := { s.sra with reg := n, value := v }, rsp := { status := .ok, result := v }, dev := t.dev,
                   env := t.env, trace := t.trace } ∧
      transactions t.trace = [c, 0xFF] :: transactions s.trace ∧ (received t.trace).getLast? = some v ∧
      OwnStep s t ∧ (n = 1 → bit0 v = t.dev.busy) ∧ (n = 3 → bit0 v = s.dev.ads)

/-- 40 R141, 60 R262: a register number outside 1, 2, 3 is refused with InvalidRegister; nothing is sent and no state
but the response changes. -/
def Obligations.InvalidRegisterRefused : Prop :=
  ∀ (n : BitVec 8) (v : Byte) (s : State), s.PIdle → n ≠ 1 → n ≠ 2 → n ≠ 3 →
    exec (.srRead n) s = .next { s with rsp := { status := .invalidRegister, result := 0x00 } } ∧
    exec (.srWrite n v) s = .next { s with rsp := { status := .invalidRegister, result := 0x00 } }

/-- 40 R143, R144: SR.WRITE is the one transaction, with no enable before and no wait after. That the power state
(`asleep`) stays is the model's choice, log 17: no rule says it. -/
def Obligations.SrWriteIsBareTransaction : Prop :=
  ∀ (n : BitVec 8) (c v : Byte) (s : State), (n, c) ∈ [((1 : BitVec 8), (0x01 : Byte)), (2, 0x31), (3, 0x11)] →
    s.PIdle → s.PReady → s.PClean → s.PXfer →
    ∃ t, exec (.srWrite n v) s = .next t ∧
      t = { s with sra := { s.sra with reg := n, value := v }, rsp := { status := .ok, result := 0x00 },
                   dev := t.dev, env := t.env, trace := t.trace } ∧
      transactions t.trace = [c, v] :: transactions s.trace ∧ t.dev.poisoned = false ∧
      (t.dev.pend = .none ∨ t.dev.pend = .statuswrite) ∧ (n ≠ 3 → t.dev.ads = s.dev.ads) ∧
      t.dev.asleep = s.dev.asleep ∧
      ∀ x, t.flashByte x = s.flashByte x

/-- 40 R145: SR.BUSY is true exactly when bit 0 of register 1 is set, that is while a cycle is pending (10_state
R23). -/
def Obligations.SrBusyReturnsBusy : Prop :=
  ∀ s : State, s.PIdle → s.PClean → s.PXfer →
    ∃ t v, exec .srBusy s = .next t ∧
      t = { s with sra := { s.sra with reg := 1, value := v },
                   rsp := { status := .ok, result := if t.dev.pend = .none then 0x00 else 0x01 }, dev := t.dev,
                   env := t.env, trace := t.trace } ∧
      transactions t.trace = [0x05, 0xFF] :: transactions s.trace ∧ OwnStep s t

/-- 40 R149: on a device that needs `k` further polls, SR.WAIT makes `k + 1` polls and returns if POLL_LIMIT allows,
else exactly POLL_LIMIT polls and BusyTimeout. -/
def Obligations.SrWaitPolls : Prop :=
  ∀ (s : State) (k : Nat), s.PIdle → s.PClean → s.PXfer →
    ((s.dev.pend = .none ∧ k = 0) ∨ (s.dev.pend ≠ .none ∧ s.dev.busyFor = some k)) →
    ((∀ n, s.pollLimit = some n → k < n) →
      ∃ t, exec .srWait s = .next t ∧
        t = { s with sra := { t.sra with polls := k }, rsp := { status := .ok, result := 0x00 }, dev := t.dev,
                     env := t.env, trace := t.trace } ∧
        transactions t.trace = List.replicate (k + 1) [0x05, 0xFF] ++ transactions s.trace ∧
        t.dev.pend = .none ∧ OwnStep s t) ∧
    (∀ n, s.pollLimit = some n → 1 ≤ n → n ≤ k →
      ∃ t, exec .srWait s = .next t ∧
        t = { s with sra := { t.sra with polls := n }, rsp := { status := .busyTimeout, result := 0x00 },
                     dev := t.dev, env := t.env, trace := t.trace } ∧
        transactions t.trace = List.replicate n [0x05, 0xFF] ++ transactions s.trace ∧ t.dev.poisoned = true)

/-- 60 R285, 70 R303, 40 R146: with POLL_LIMIT = INF a device that never becomes idle hangs the block: it stays busy
in the loop of the wait, there is no response, and every later step but a reset is one more poll, whatever is presented.
How many polls the first step shows is the model's choice, log 13, and so is that a reset behind an input that waits is
not taken, log 20. -/
def Obligations.SrWaitHangsOnStuckDevice : Prop :=
  (∀ s : State, s.PIdle → s.PXfer → s.pollLimit = none → s.dev.pend ≠ .none → s.dev.busyFor = none →
    ∃ t k, exec .srWait s = .next t ∧ t.engBusy = true ∧ t.stuck = true ∧ t.rsp = s.rsp ∧ t.dev.busy = true ∧
      t.seq = [{ proc := .waitUntilReady, label := .WT1 }] ∧
      transactions t.trace = List.replicate (k + 1) [0x05, 0xFF] ++ transactions s.trace) ∧
  ∀ t : State, t.engBusy = true → t.stuck = true → (∀ rest, t.port ≠ .engineReset :: rest) →
    ∃ u, step t = .next u ∧ u.engBusy = true ∧ u.stuck = true ∧ u.rsp = t.rsp ∧ u.port = t.port ∧
      u.dev.busy = true ∧ transactions u.trace = [0x05, 0xFF] :: transactions t.trace

/-- 41 R161, R162: WE.ENABLE and WE.DISABLE send one byte each and set or clear the latch of an idle device. -/
def Obligations.GateSetsAndClearsLatch : Prop :=
  ∀ (i : Instr) (c : Byte) (v : Bool) (s : State),
    (i, c, v) ∈ [(Instr.weEnable, (0x06 : Byte), true), (Instr.weDisable, 0x04, false)] →
    s.PIdle → s.PReady → s.PClean → s.PXfer →
    ∃ t, exec i s = .next t ∧
      t = { s with rsp := { status := .ok, result := 0x00 }, dev := { s.dev with wel := v, phase := .off },
                   env := t.env, trace := t.trace } ∧
      transactions t.trace = [c] :: transactions s.trace ∧ ∀ x, t.flashByte x = s.flashByte x

/-- 42 R172, R177: PP.PROGRAM inside a page and the array, under the launch premises, ends with OK: one WriteEnable,
one PageProgram of `1 + ADDRESS_WIDTH + length` bytes, one poll more than read busy, and each byte ANDed onto the
old one. -/
def Obligations.PpProgramResult : Prop :=
  ∀ (a : Address) (data : List Byte) (s : State), s.Inv → s.Launch → data ≠ [] →
    a.toNat % 256 + data.length ≤ 256 → a.toNat + data.length ≤ s.dd.capacityBytes →
    ∃ k t, s.env.latencies.headD (some 0) = some k ∧ exec (.ppProgram a data) s = .next t ∧
      t = { s with pp := t.pp, sra := t.sra, rsp := { status := .ok, result := 0x00 }, env := t.env,
                   trace := t.trace, dev := { s.dev with flash := t.dev.flash, wel := t.dev.wel,
                                                         busyFor := t.dev.busyFor } } ∧
      t.pp.src = .caller ∧ t.pp.srcBase = 0 ∧ t.pp.addr = a ∧ t.pp.len.toNat = data.length ∧
      transactions t.trace = List.replicate (k + 1) [0x05, 0xFF] ++
        [0x02 :: (addressBytes s.dd.addressWidth a ++ data), [0x06]] ++ transactions s.trace ∧
      ∀ x, t.flashByte x = if a.toNat ≤ x ∧ x < a.toNat + data.length
        then s.flashByte x &&& data.getD (x - a.toNat) 0 else s.flashByte x

/-- 42 R174: PP.PROGRAM of no byte sends the enable, a PageProgram with the address alone and the polls, and leaves
`F` as it is. -/
def Obligations.PpProgramOfNothing : Prop :=
  ∀ (a : Address) (s : State), s.Inv → s.Launch → a.toNat ≤ s.dd.capacityBytes →
    ∃ k t, exec (.ppProgram a []) s = .next t ∧
      t = { s with pp := t.pp, sra := t.sra, rsp := { status := .ok, result := 0x00 }, env := t.env,
                   trace := t.trace, dev := { s.dev with wel := t.dev.wel, busyFor := t.dev.busyFor } } ∧
      transactions t.trace = List.replicate (k + 1) [0x05, 0xFF] ++
        [0x02 :: addressBytes s.dd.addressWidth a, [0x06]] ++ transactions s.trace ∧
      ∀ x, t.flashByte x = s.flashByte x

/-- 42 R171, R173: PP.PROGRAM across a page boundary or past the end of the array is refused with InvalidRange;
nothing is sent. -/
def Obligations.PpProgramRefused : Prop :=
  ∀ (a : Address) (data : List Byte) (s : State), s.PIdle → data.length < 2 ^ 32 →
    (256 < a.toNat % 256 + data.length ∨ s.dd.capacityBytes < a.toNat + data.length) →
    ∃ r, exec (.ppProgram a data) s = .next { s with pp := r, rsp := { status := .invalidRange, result := 0x00 } }

/-- 43 R181, R182, R185, R186: PSW.WRITE_BLANK inside the array, under the launch premises, ends with OK: one program
for each page the span touches, sized by the page boundaries, in rising order, each with its WriteEnable, and each
byte ANDed onto the old one. -/
def Obligations.PswWriteBlankResult : Prop :=
  ∀ (a : Address) (data : List Byte) (s : State), s.Inv → s.Launch → data.length < 2 ^ 32 →
    a.toNat + data.length ≤ s.dd.capacityBytes →
    ∃ t txs, exec (.pswWriteBlank a data) s = .next t ∧
      t = { s with psw := t.psw, pp := t.pp, sra := t.sra, rsp := { status := .ok, result := 0x00 }, env := t.env,
                   trace := t.trace, dev := { s.dev with flash := t.dev.flash, wel := t.dev.wel,
                                                         busyFor := t.dev.busyFor } } ∧
      transactions t.trace = txs ++ transactions s.trace ∧
      programCommands txs = (pagePrograms s.dd.addressWidth a.toNat data).reverse ∧
      (commandBytes txs).count 0x06 = pagesTouched a.toNat data.length ∧
      (∀ c ∈ commandBytes txs, c ∈ [0x06, 0x02, (0x05 : Byte)]) ∧
      ∀ x, t.flashByte x = if a.toNat ≤ x ∧ x < a.toNat + data.length
        then s.flashByte x &&& data.getD (x - a.toNat) 0 else s.flashByte x

/-- 43 R184, 45 R203: PSW.WRITE_BLANK and FWE.WRITE of no byte whose address is not past the end send nothing and change
no state but the operand registers and the response. -/
def Obligations.ZeroLengthSpanSendsNothing : Prop :=
  ∀ (a : Address) (s : State), s.PIdle → a.toNat ≤ s.dd.capacityBytes →
    (∃ r, exec (.pswWriteBlank a []) s = .next { s with psw := r, rsp := { status := .ok, result := 0x00 } }) ∧
    exec (.fweWrite a []) s =
      .next { s with fwe := { s.fwe with address := a, length := 0, pos := 0 },
                     rsp := { status := .ok, result := 0x00 } }

/-- 43 R183, 44 R193, 45 R220, 60 R261: a span or a sector past the end of the array is refused with InvalidRange,
whatever the length; nothing is sent. -/
def Obligations.PastTheEndRefused : Prop :=
  ∀ (a : Address) (data : List Byte) (si : SectorIndex) (s : State), s.PIdle → data.length < 2 ^ 32 →
    (s.dd.capacityBytes < a.toNat + data.length →
      (∃ r, exec (.pswWriteBlank a data) s =
        .next { s with psw := r, rsp := { status := .invalidRange, result := 0x00 } }) ∧
      (∃ r : FweRegs, exec (.fweWrite a data) s =
        .next { s with fwe := { r with eraseRequired := s.fwe.eraseRequired },
                       rsp := { status := .invalidRange, result := 0x00 } })) ∧
    (s.dd.capacityBytes < si.toNat * 4096 + 4096 →
      ∃ r, exec (.semErase si) s = .next { s with sem := r, rsp := { status := .invalidRange, result := 0x00 } })

/-- 44 R192, R196: SEM.ERASE of a sector of the array, under the launch premises, ends with OK: one WriteEnable, one
poll, one SectorErase of the sector's base, one poll more than read busy; every byte of the sector is 0xFF and every
other byte as it was; SB is not touched. -/
def Obligations.SemEraseResult : Prop :=
  ∀ (si : SectorIndex) (s : State), s.Inv → s.Launch → si.toNat * 4096 + 4096 ≤ s.dd.capacityBytes →
    ∃ k t, s.env.latencies.headD (some 0) = some k ∧ exec (.semErase si) s = .next t ∧
      t = { s with sem := { sectorIndex := si, base := sectorBase si }, sra := t.sra,
                   rsp := { status := .ok, result := 0x00 }, env := t.env, trace := t.trace,
                   dev := { s.dev with flash := t.dev.flash, wel := t.dev.wel, busyFor := t.dev.busyFor } } ∧
      transactions t.trace = List.replicate (k + 1) [0x05, 0xFF] ++
        [0x20 :: addressBytes s.dd.addressWidth (sectorBase si), [0x05, 0xFF], [0x06]] ++ transactions s.trace ∧
      ∀ x, t.flashByte x = if si.toNat * 4096 ≤ x ∧ x < si.toNat * 4096 + 4096 then 0xFF else s.flashByte x

/-- 45 R214: FWE.WRITE inside the array, under the launch premises, ends with OK, and then the window holds the
caller's bytes and every other byte of the array is as it was. -/
def Obligations.FweWriteResult : Prop :=
  ∀ (a : Address) (data : List Byte) (s : State), s.Inv → s.Launch → data.length < 2 ^ 32 →
    a.toNat + data.length ≤ s.dd.capacityBytes →
    ∃ t, exec (.fweWrite a data) s = .next t ∧
      t = { s with fwe := t.fwe, rsI := t.rsI, psw := t.psw, pp := t.pp, sem := t.sem, sra := t.sra, sb := t.sb,
                   rsp := { status := .ok, result := 0x00 }, env := t.env, trace := t.trace,
                   dev := { s.dev with flash := t.dev.flash, wel := t.dev.wel, busyFor := t.dev.busyFor } } ∧
      ∀ x, t.flashByte x = if a.toNat ≤ x ∧ x < a.toNat + data.length
        then data.getD (x - a.toNat) 0 else s.flashByte x

/-- 45 R215: the SectorErase commands of a `write` that ends with OK are one for each sector whose part of the window
was not blank before, in rising order, and no other. -/
def Obligations.FweWriteErasesAffectedSectors : Prop :=
  ∀ (a : Address) (data : List Byte) (s : State), s.Inv → s.Launch → data.length < 2 ^ 32 →
    a.toNat + data.length ≤ s.dd.capacityBytes →
    ∃ t txs, exec (.fweWrite a data) s = .next t ∧ t.rsp.status = .ok ∧
      transactions t.trace = txs ++ transactions s.trace ∧
      eraseCommands txs = ((affectedSectors s.dev.flash a.toNat data.length).map fun k =>
        0x20 :: addressBytes s.dd.addressWidth (BitVec.ofNat 32 (4096 * k))).reverse ∧
      (affectedSectors s.dev.flash a.toNat data.length).Nodup ∧
      ∀ k, k ∈ affectedSectors s.dev.flash a.toNat data.length ↔
        ∃ x, a.toNat ≤ x ∧ x < a.toNat + data.length ∧ x / 4096 = k ∧ s.flashByte x ≠ 0xFF

/-- 45 R216: the command counts of a `write` that ends with OK, with `S` the sectors touched, `E` those erased and
`P` the pages the window touches in the others. -/
def Obligations.FweWriteCommandCounts : Prop :=
  ∀ (a : Address) (data : List Byte) (s : State) (S E P : Nat), s.Inv → s.Launch → data.length < 2 ^ 32 →
    a.toNat + data.length ≤ s.dd.capacityBytes → S = (sectorsTouched a.toNat data.length).length →
    E = (affectedSectors s.dev.flash a.toNat data.length).length → P = directPages s.dev.flash a.toNat data.length →
    ∃ t txs, exec (.fweWrite a data) s = .next t ∧ t.rsp.status = .ok ∧
      transactions t.trace = txs ++ transactions s.trace ∧
      (commandBytes txs).count 0x03 = S ∧ (commandBytes txs).count 0x20 = E ∧
      (commandBytes txs).count 0x02 = 16 * E + P ∧ (commandBytes txs).count 0x06 = E + 16 * E + P ∧
      2 * E + 16 * E + P ≤ (commandBytes txs).count 0x05 ∧
      ∀ c ∈ commandBytes txs, c ∈ [0x03, 0x06, 0x05, 0x02, (0x20 : Byte)]

/-- 45 R204: the raw sector read fills SB with the 4096 bytes of the sector and changes no device state. That it ends
with a response is the model's choice, log 2. -/
def Obligations.ReadSectorFillsScratchBuffer : Prop :=
  ∀ (si : SectorIndex) (s : State), s.Inv → s.Launch → si.toNat * 4096 + 4096 ≤ s.dd.capacityBytes →
    ∃ t, exec (.fweReadSector si) s = .next t ∧
      t = { s with rsI := t.rsI, sb := t.sb, rsp := { status := .ok, result := 0x00 }, env := t.env,
                   trace := t.trace } ∧
      transactions t.trace =
        (0x03 :: (addressBytes s.dd.addressWidth (sectorBase si) ++ List.replicate 4096 0xFF)) ::
          transactions s.trace ∧
      (∀ i, i < 4096 → t.sb.read i = s.flashByte (si.toNat * 4096 + i)) ∧ ∀ x, t.flashByte x = s.flashByte x

/-- 30_encoding R124: a request whose `op` is 0x0 or 0xB to 0xF is refused: no transport activity and no state change
but the response, IllegalRequest and 0x00. -/
def Obligations.ReservedOperationsRefused : Prop :=
  (∀ (aw : AddressWidth) (r : Request), (r.op = 0x0 ∨ 0xB ≤ r.op.toNat) →
    ∃ i, decode aw (.request r) = .ok i ∧
      i ∈ [Instr.reservedOp0, .reservedOpB, .reservedOpC, .reservedOpD, .reservedOpE, .reservedOpF]) ∧
  ∀ (i : Instr) (s : State),
    i ∈ [Instr.reservedOp0, .reservedOpB, .reservedOpC, .reservedOpD, .reservedOpE, .reservedOpF] → s.PIdle →
    exec i s = .next { s with rsp := { status := .illegalRequest, result := 0x00 } }
end

