-- ==== Sys2Proof/Laws/State.lean ====
section
/-! SUPPORT. One lemma for each field of State under each of its two updates. -/

namespace Sys2Proof.Machine

variable (s : State) (f : Device → Device) (g : Environment → Environment)

@[simp] theorem State.mapDev_dd : (s.mapDev f).dd = s.dd := rfl
@[simp] theorem State.mapDev_pollLimit : (s.mapDev f).pollLimit = s.pollLimit := rfl
@[simp] theorem State.mapDev_fwe : (s.mapDev f).fwe = s.fwe := rfl
@[simp] theorem State.mapDev_rsI : (s.mapDev f).rsI = s.rsI := rfl
@[simp] theorem State.mapDev_psw : (s.mapDev f).psw = s.psw := rfl
@[simp] theorem State.mapDev_pp : (s.mapDev f).pp = s.pp := rfl
@[simp] theorem State.mapDev_sem : (s.mapDev f).sem = s.sem := rfl
@[simp] theorem State.mapDev_sra : (s.mapDev f).sra = s.sra := rfl
@[simp] theorem State.mapDev_sb : (s.mapDev f).sb = s.sb := rfl
@[simp] theorem State.mapDev_seq : (s.mapDev f).seq = s.seq := rfl
@[simp] theorem State.mapDev_engBusy : (s.mapDev f).engBusy = s.engBusy := rfl
@[simp] theorem State.mapDev_cs : (s.mapDev f).cs = s.cs := rfl
@[simp] theorem State.mapDev_rsp : (s.mapDev f).rsp = s.rsp := rfl
@[simp] theorem State.mapDev_dev : (s.mapDev f).dev = f s.dev := rfl
@[simp] theorem State.mapDev_env : (s.mapDev f).env = s.env := rfl
@[simp] theorem State.mapDev_port : (s.mapDev f).port = s.port := rfl
@[simp] theorem State.mapDev_trace : (s.mapDev f).trace = s.trace := rfl
@[simp] theorem State.mapEnv_dd : (s.mapEnv g).dd = s.dd := rfl
@[simp] theorem State.mapEnv_pollLimit : (s.mapEnv g).pollLimit = s.pollLimit := rfl
@[simp] theorem State.mapEnv_fwe : (s.mapEnv g).fwe = s.fwe := rfl
@[simp] theorem State.mapEnv_rsI : (s.mapEnv g).rsI = s.rsI := rfl
@[simp] theorem State.mapEnv_psw : (s.mapEnv g).psw = s.psw := rfl
@[simp] theorem State.mapEnv_pp : (s.mapEnv g).pp = s.pp := rfl
@[simp] theorem State.mapEnv_sem : (s.mapEnv g).sem = s.sem := rfl
@[simp] theorem State.mapEnv_sra : (s.mapEnv g).sra = s.sra := rfl
@[simp] theorem State.mapEnv_sb : (s.mapEnv g).sb = s.sb := rfl
@[simp] theorem State.mapEnv_seq : (s.mapEnv g).seq = s.seq := rfl
@[simp] theorem State.mapEnv_engBusy : (s.mapEnv g).engBusy = s.engBusy := rfl
@[simp] theorem State.mapEnv_cs : (s.mapEnv g).cs = s.cs := rfl
@[simp] theorem State.mapEnv_rsp : (s.mapEnv g).rsp = s.rsp := rfl
@[simp] theorem State.mapEnv_dev : (s.mapEnv g).dev = s.dev := rfl
@[simp] theorem State.mapEnv_env : (s.mapEnv g).env = g s.env := rfl
@[simp] theorem State.mapEnv_port : (s.mapEnv g).port = s.port := rfl
@[simp] theorem State.mapEnv_trace : (s.mapEnv g).trace = s.trace := rfl

/-- Two updates of the device are one. -/
theorem State.mapDev_mapDev (h : Device → Device) : (s.mapDev f).mapDev h = s.mapDev fun d => h (f d) := rfl

/-- Two updates of the environment are one. -/
theorem State.mapEnv_mapEnv (h : Environment → Environment) : (s.mapEnv g).mapEnv h = s.mapEnv fun e => h (g e) := rfl

end Sys2Proof.Machine
end

