-- ==== Sys2Proof/Laws/Memory.lean ====
section
/-! SUPPORT. The laws of byte memories: read after write, the canonical form, program and erase (20_memory R62, R63). -/

namespace Sys2Proof.Machine

/-- Every entry lies above `a`. -/
def Memory.above (m : Memory) (a : Nat) : Bool := m.all fun c => decide (a < c.1)

theorem Memory.wf_cons {c : Host.Cell} {m : Memory} :
    Memory.wf (c :: m) = true ↔ c.2 ≠ Memory.unlisted ∧ Memory.above m c.1 = true ∧ Memory.wf m = true := by
  simp [Memory.wf, Memory.above, and_assoc]

theorem Memory.above_cons {c : Host.Cell} {m : Memory} {a : Nat} :
    Memory.above (c :: m) a = true ↔ a < c.1 ∧ Memory.above m a = true := by
  simp [Memory.above]

theorem Memory.below_cons {c : Host.Cell} {m : Memory} {n : Nat} :
    Memory.below (c :: m) n = true ↔ c.1 < n ∧ Memory.below m n = true := by
  simp [Memory.below]

@[simp] theorem Memory.wf_nil : Memory.wf [] = true := rfl
@[simp] theorem Memory.above_nil (a : Nat) : Memory.above [] a = true := rfl
@[simp] theorem Memory.below_nil (n : Nat) : Memory.below [] n = true := rfl
@[simp] theorem Memory.read_nil (a : Nat) : Memory.read [] a = Memory.unlisted := rfl

theorem Memory.above_mono {m : Memory} {a b : Nat} (h : m.above b = true) (hab : a ≤ b) : m.above a = true := by
  simp only [Memory.above, List.all_eq_true, decide_eq_true_eq] at *
  exact fun c hc => lt_of_le_of_lt hab (h c hc)

/-- An address below every entry is not listed. -/
theorem Memory.read_of_above {m : Memory} {a : Nat} (h : m.above a = true) : m.read a = Memory.unlisted := by
  induction m with
  | nil => rfl
  | cons c m ih =>
    rw [Memory.above_cons] at h
    rw [Memory.read, if_neg (by omega), ih h.2]

/-- An address at or past the bound is not listed. -/
theorem Memory.read_of_below {m : Memory} {n a : Nat} (h : m.below n = true) (ha : n ≤ a) :
    m.read a = Memory.unlisted := by
  induction m with
  | nil => rfl
  | cons c m ih =>
    rw [Memory.below_cons] at h
    rw [Memory.read, if_neg (by omega), ih h.2]

theorem Memory.above_write {m : Memory} {a x : Nat} {b : Byte} (h : m.above x = true) (hx : x < a) :
    (m.write a b).above x = true := by
  induction m with
  | nil => simp only [Memory.write]; split <;> simp [Memory.above, hx]
  | cons c m ih =>
    rw [Memory.above_cons] at h
    simp only [Memory.write]
    split_ifs <;> simp [Memory.above_cons, h, hx, ih h.2]

/-- A write stays below a bound that the address meets. -/
theorem Memory.below_write {m : Memory} {a n : Nat} {b : Byte} (h : m.below n = true) (ha : a < n) :
    (m.write a b).below n = true := by
  induction m with
  | nil => simp only [Memory.write]; split <;> simp [Memory.below, ha]
  | cons c m ih =>
    rw [Memory.below_cons] at h
    simp only [Memory.write]
    split_ifs <;> simp [Memory.below_cons, h, ha, ih h.2]

/-- A write keeps the canonical form. -/
theorem Memory.wf_write {m : Memory} {a : Nat} {b : Byte} (h : m.wf = true) : (m.write a b).wf = true := by
  induction m with
  | nil =>
    simp only [Memory.write]
    split_ifs with hb
    · rfl
    · simp [Memory.wf, hb]
  | cons c m ih =>
    have h' := Memory.wf_cons.1 h
    simp only [Memory.write]
    split_ifs with h1 hb h2 hb
    · exact h
    · refine Memory.wf_cons.2 ⟨hb, Memory.above_cons.2 ⟨h1, ?_⟩, h⟩
      exact Memory.above_mono h'.2.1 (by simpa using Nat.le_of_lt h1)
    · exact h'.2.2
    · subst h2; exact Memory.wf_cons.2 ⟨hb, h'.2.1, h'.2.2⟩
    · exact Memory.wf_cons.2 ⟨h'.1, Memory.above_write h'.2.1 (by omega), ih h'.2.2⟩

/-- Reading after a write: the written byte at its address, the old one everywhere else. -/
theorem Memory.read_write {m : Memory} {a x : Nat} {b : Byte} (h : m.wf = true) :
    (m.write a b).read x = if x = a then b else m.read x := by
  induction m with
  | nil =>
    simp only [Memory.write]
    split_ifs with hb hx hx
    · simp [hb]
    · rfl
    · simp [Memory.read, hx]
    · simp [Memory.read, Ne.symm hx]
  | cons c m ih =>
    have h' := Memory.wf_cons.1 h
    have hx0 : ∀ y, y ≤ c.1 → Memory.read m y = Memory.unlisted := fun y hy =>
      Memory.read_of_above (Memory.above_mono h'.2.1 hy)
    simp only [Memory.write]
    split_ifs with h1 hb hx hx h2 hb hx hx hx
    · subst hx; rw [Memory.read, if_neg (by omega), hx0 _ (by omega), hb]
    · rfl
    · subst hx; simp [Memory.read]
    · simp [Memory.read, Ne.symm hx]
    · subst hx; rw [hb]; exact hx0 _ (by omega)
    · rw [Memory.read, if_neg (by omega)]
    · subst hx; simp [Memory.read]
    · subst h2; simp [Memory.read, Ne.symm hx]
    · subst hx; rw [Memory.read, if_neg (by omega), ih h'.2.2, if_pos rfl]
    · rw [Memory.read, Memory.read, ih h'.2.2, if_neg hx]

theorem Memory.wf_writeList {m : Memory} {a : Nat} {bs : List Byte} (h : m.wf = true) :
    (m.writeList a bs).wf = true := by
  induction bs generalizing m a with
  | nil => exact h
  | cons b bs ih => exact ih (Memory.wf_write h)

theorem Memory.below_writeList {m : Memory} {a n : Nat} {bs : List Byte} (h : m.below n = true)
    (ha : a + bs.length ≤ n) : (m.writeList a bs).below n = true := by
  induction bs generalizing m a with
  | nil => exact h
  | cons b bs ih =>
    simp only [List.length_cons] at ha
    exact ih (Memory.below_write h (by omega)) (by omega)

/-- Reading after a list of bytes is written at `a`. -/
theorem Memory.read_writeList {m : Memory} {a x : Nat} {bs : List Byte} (h : m.wf = true) :
    (m.writeList a bs).read x = if a ≤ x ∧ x < a + bs.length then bs.getD (x - a) 0 else m.read x := by
  induction bs generalizing m a with
  | nil => rw [if_neg (by simp)]; rfl
  | cons b bs ih =>
    rw [Memory.writeList, ih (Memory.wf_write h), Memory.read_write h]
    simp only [List.length_cons]
    by_cases hx : x = a
    · subst hx; rw [if_neg (by omega), if_pos rfl, if_pos (by omega)]; simp
    · by_cases hin : a + 1 ≤ x ∧ x < a + 1 + bs.length
      · rw [if_pos hin, if_pos (by omega)]
        obtain ⟨k, rfl⟩ : ∃ k, x = a + 1 + k := ⟨x - (a + 1), by omega⟩
        rw [show a + 1 + k - (a + 1) = k by omega, show a + 1 + k - a = k + 1 by omega]; simp
      · rw [if_neg hin, if_neg hx, if_neg (by omega)]

theorem Memory.wf_ofCells (n : Nat) (m : Memory) : (Memory.ofCells n m).wf = true := by
  induction m with
  | nil => rfl
  | cons c rest ih =>
    simp only [Memory.ofCells]
    split
    · exact Memory.wf_write ih
    · exact ih

theorem Memory.below_ofCells (n : Nat) (m : Memory) : (Memory.ofCells n m).below n = true := by
  induction m with
  | nil => rfl
  | cons c rest ih =>
    simp only [Memory.ofCells]
    split
    · exact Memory.below_write ih ‹_›
    · exact ih

theorem Memory.wf_program {m : Memory} {a : Nat} {ds : List Byte} (h : m.wf = true) :
    (m.program a ds).wf = true := by
  induction ds generalizing m a with
  | nil => exact h
  | cons d ds ih => exact ih (Memory.wf_write h)

theorem Memory.below_program {m : Memory} {a n : Nat} {ds : List Byte} (h : m.below n = true)
    (ha : a + ds.length ≤ n) : (m.program a ds).below n = true := by
  induction ds generalizing m a with
  | nil => exact h
  | cons b bs ih =>
    simp only [List.length_cons] at ha
    exact ih (Memory.below_write h (by omega)) (by omega)

/-- Reading after a program: the old byte AND the data byte (20_memory R63). -/
theorem Memory.read_program {m : Memory} {a x : Nat} {ds : List Byte} (h : m.wf = true) :
    (m.program a ds).read x =
      if a ≤ x ∧ x < a + ds.length then m.read x &&& ds.getD (x - a) 0 else m.read x := by
  induction ds generalizing m a with
  | nil => rw [if_neg (by simp)]; rfl
  | cons d ds ih =>
    rw [Memory.program, ih (Memory.wf_write h), Memory.read_write h]
    simp only [List.length_cons]
    by_cases hx : x = a
    · subst hx; rw [if_neg (by omega), if_pos rfl, if_pos (by omega)]; simp
    · rw [if_neg hx]
      by_cases hin : a + 1 ≤ x ∧ x < a + 1 + ds.length
      · rw [if_pos hin, if_pos (by omega)]
        obtain ⟨k, rfl⟩ : ∃ k, x = a + 1 + k := ⟨x - (a + 1), by omega⟩
        rw [show a + 1 + k - (a + 1) = k by omega, show a + 1 + k - a = k + 1 by omega]; simp
      · rw [if_neg hin, if_neg (by omega)]

theorem Memory.above_erase {m : Memory} {a base n : Nat} (h : m.above a = true) :
    (m.erase base n).above a = true := by
  simp only [Memory.above, Memory.erase, List.all_eq_true, List.mem_filter, decide_eq_true_eq] at *
  exact fun c hc => h c hc.1

theorem Memory.below_erase {m : Memory} {k base n : Nat} (h : m.below k = true) :
    (m.erase base n).below k = true := by
  simp only [Memory.below, Memory.erase, List.all_eq_true, List.mem_filter, decide_eq_true_eq] at *
  exact fun c hc => h c hc.1

theorem Memory.erase_cons {c : Host.Cell} {m : Memory} {base n : Nat} :
    Memory.erase (c :: m) base n =
      if c.1 < base ∨ base + n ≤ c.1 then c :: m.erase base n else m.erase base n := by
  simp only [Memory.erase, List.filter_cons, decide_eq_true_eq]

theorem Memory.wf_erase {m : Memory} {base n : Nat} (h : m.wf = true) : (m.erase base n).wf = true := by
  induction m with
  | nil => rfl
  | cons c m ih =>
    have h' := Memory.wf_cons.1 h
    rw [Memory.erase_cons]
    split_ifs
    · exact Memory.wf_cons.2 ⟨h'.1, Memory.above_erase h'.2.1, ih h'.2.2⟩
    · exact ih h'.2.2

/-- Reading after an erase: 0xFF in the range, the old byte outside it (20_memory R63). -/
theorem Memory.read_erase {m : Memory} {base n x : Nat} :
    (m.erase base n).read x = if base ≤ x ∧ x < base + n then 0xFF else m.read x := by
  induction m with
  | nil => simp [Memory.erase, Memory.unlisted]
  | cons c m ih =>
    rw [Memory.erase_cons]
    by_cases hc : c.1 < base ∨ base + n ≤ c.1
    · rw [if_pos hc, Memory.read, Memory.read, ih]
      split_ifs <;> first | rfl | omega
    · rw [if_neg hc, ih, Memory.read]
      by_cases hin : base ≤ x ∧ x < base + n
      · simp [hin]
      · rw [if_neg hin, if_neg hin, if_neg (by omega)]

/-- Two memories in canonical form that read the same are the same data. -/
theorem Memory.ext_of_wf {m m' : Memory} (h : m.wf = true) (h' : m'.wf = true)
    (hr : ∀ a, m.read a = m'.read a) : m = m' := by
  induction m generalizing m' with
  | nil =>
    cases m' with
    | nil => rfl
    | cons c m' =>
      have := hr c.1
      simp only [Memory.read, if_pos] at this
      exact absurd this.symm (Memory.wf_cons.1 h').1
  | cons c m ih =>
    have hc := Memory.wf_cons.1 h
    cases m' with
    | nil =>
      have := hr c.1
      simp only [Memory.read, if_pos] at this
      exact absurd this hc.1
    | cons d m' =>
      have hd := Memory.wf_cons.1 h'
      have key : c.1 = d.1 := by
        rcases Nat.lt_trichotomy c.1 d.1 with hlt | heq | hgt
        · have := hr c.1
          rw [Memory.read, if_pos rfl, Memory.read, if_neg (by omega),
            Memory.read_of_above (Memory.above_mono hd.2.1 (by omega))] at this
          exact absurd this hc.1
        · exact heq
        · have := hr d.1
          rw [Memory.read, if_neg (by omega), Memory.read_of_above (Memory.above_mono hc.2.1 (by omega)),
            Memory.read, if_pos rfl] at this
          exact absurd this.symm hd.1
      have hv : c.2 = d.2 := by
        have := hr c.1
        rwa [Memory.read, if_pos rfl, Memory.read, if_pos key.symm] at this
      have hcd : c = d := Prod.ext key hv
      subst hcd
      congr 1
      refine ih hc.2.2 hd.2.2 fun a => ?_
      by_cases ha : c.1 = a
      · subst ha
        rw [Memory.read_of_above hc.2.1, Memory.read_of_above hd.2.1]
      · have := hr a
        rwa [Memory.read, if_neg ha, Memory.read, if_neg ha] at this

/-- The length of a list of bytes read. -/
@[simp] theorem Memory.length_readList (m : Memory) (a n : Nat) : (m.readList a n).length = n := by
  induction n generalizing a with
  | zero => rfl
  | succ n ih => simp [Memory.readList, ih]

/-- Byte `i` of a list of bytes read is the byte of address `a + i`. -/
theorem Memory.getD_readList (m : Memory) (a n i : Nat) (h : i < n) (x : Byte) :
    (m.readList a n).getD i x = m.read (a + i) := by
  induction n generalizing a i with
  | zero => omega
  | succ n ih =>
    cases i with
    | zero => rfl
    | succ i =>
      rw [Memory.readList, List.getD_cons_succ, ih _ _ (by omega), show a + 1 + i = a + (i + 1) by omega]

end Sys2Proof.Machine
end

