-- ==== Sys2Proof/Laws/Monad.lean ====
section
/-! SUPPORT. How procedures run: one equation for each building block, and the rule that carries a relation between
the state before and the state after through a procedure, however it ends. -/

namespace Sys2Proof.Machine

section Run
variable {α β : Type} (s : State)

/-- A bind runs its second part where the first returned. -/
theorem run_bind (m : M α) (f : α → M β) :
    (m >>= f) s = match m s with
      | .ok a s' => f a s'
      | .error e s' => .error e s' := by
  change EStateM.bind m f s = _
  unfold EStateM.bind
  cases m s <;> rfl

/-- A bind whose first part returns. -/
theorem run_bind_ok {m : M α} {f : α → M β} {s : State} {a : α} {s' : State} (h : m s = .ok a s') :
    (m >>= f) s = f a s' := by rw [run_bind, h]

/-- A bind whose first part stops. -/
theorem run_bind_error {m : M α} {f : α → M β} {s : State} {e : Stop} {s' : State} (h : m s = .error e s') :
    (m >>= f) s = .error e s' := by rw [run_bind, h]

/-- A bind that returns: both parts did. -/
theorem run_bind_eq_ok {m : M α} {f : α → M β} {s u : State} {b : β} :
    (m >>= f) s = .ok b u ↔ ∃ a t, m s = .ok a t ∧ f a t = .ok b u := by
  rw [run_bind]
  cases m s <;> simp

/-- A bind that stops: one of its parts did. -/
theorem run_bind_eq_error {m : M α} {f : α → M β} {s u : State} {e : Stop} :
    (m >>= f) s = .error e u ↔ m s = .error e u ∨ ∃ a t, m s = .ok a t ∧ f a t = .error e u := by
  rw [run_bind]
  cases m s <;> simp

@[simp] theorem run_pure (a : α) : (pure a : M α) s = .ok a s := rfl
@[simp] theorem run_get : (get : M State) s = .ok s s := rfl
@[simp] theorem run_assign (f : State → State) : assign f s = .ok () (f s) := rfl
@[simp] theorem run_goto (l : Label) : goto l s = .ok () { s with seq := relabel l s.seq } := rfl
@[simp] theorem run_raise (e : Status) : (raise e : M α) s = .error (.raised e) s := rfl
@[simp] theorem run_hang : (hang : M α) s = .error .hung s := rfl
@[simp] theorem run_select : select s = .ok () s.selected := rfl
@[simp] theorem run_deselect : deselect s = .ok () s.deselected := rfl

@[simp] theorem run_get_bind (f : State → M β) : ((get : M State) >>= f) s = f s s := rfl
@[simp] theorem run_pure_bind (a : α) (f : α → M β) : ((pure a : M α) >>= f) s = f a s := rfl
@[simp] theorem run_assign_bind (g : State → State) (f : Unit → M β) : (assign g >>= f) s = f () (g s) := rfl
@[simp] theorem run_goto_bind (l : Label) (f : Unit → M β) :
    (goto l >>= f) s = f () { s with seq := relabel l s.seq } := rfl
@[simp] theorem run_select_bind (f : Unit → M β) : (select >>= f) s = f () s.selected := rfl
@[simp] theorem run_deselect_bind (f : Unit → M β) : (deselect >>= f) s = f () s.deselected := rfl

/-- A check that passes. -/
theorem run_require_true {b : Bool} {e : Status} (h : b = true) : require b e s = .ok () s := by simp [require, h]

/-- A check that fails. -/
theorem run_require_false {b : Bool} {e : Status} (h : b = false) : require b e s = .error (.raised e) s := by
  simp [require, h]

/-- A call that returns. -/
theorem run_callAt_ok {site : Label} {p : Proc} {m : M α} {a : α} {s' : State}
    (h : m { s with seq := { proc := p, label := p.entry } :: relabel site s.seq } = .ok a s') :
    callAt site p m s = .ok a { s' with seq := relabel site.next s.seq } := by simp [callAt, h]

/-- A call that stops. -/
theorem run_callAt_error {site : Label} {p : Proc} {m : M α} {e : Stop} {s' : State}
    (h : m { s with seq := { proc := p, label := p.entry } :: relabel site s.seq } = .error e s') :
    callAt site p m s = .error e s' := by simp [callAt, h]

/-- A call that returns: its procedure did. -/
theorem run_callAt_eq_ok {site : Label} {p : Proc} {m : M α} {s u : State} {a : α} :
    callAt site p m s = .ok a u ↔
      ∃ t, m { s with seq := { proc := p, label := p.entry } :: relabel site s.seq } = .ok a t ∧
        u = { t with seq := relabel site.next s.seq } := by
  unfold callAt
  cases m _ <;> simp [eq_comm]

/-- A call that stops: its procedure did. -/
theorem run_callAt_eq_error {site : Label} {p : Proc} {m : M α} {s u : State} {e : Stop} :
    callAt site p m s = .error e u ↔
      m { s with seq := { proc := p, label := p.entry } :: relabel site s.seq } = .error e u := by
  unfold callAt
  cases m _ <;> simp

end Run

/-- The state in which a procedure ends. -/
def endState {α : Type} : EStateM.Result Stop State α → State
  | .ok _ s => s
  | .error _ s => s

@[simp] theorem endState_ok {α : Type} (a : α) (s : State) : endState (.ok a s) = s := rfl
@[simp] theorem endState_error {α : Type} (e : Stop) (s : State) :
    endState (.error e s : EStateM.Result Stop State α) = s := rfl

/-- `R` holds between the state in which `m` starts and the one in which it ends. -/
def Keeps {α : Type} (R : State → State → Prop) (m : M α) : Prop := ∀ s, R s (endState (m s))

/-- A relation that every transport event, every draw and every move of the sequencer respects. -/
structure BusFrame (R : State → State → Prop) : Prop where
  refl : ∀ s, R s s
  trans : ∀ {s t u}, R s t → R t u → R s u
  select : ∀ s : State, R s s.selected
  deselect : ∀ s : State, R s s.deselected
  exchange : ∀ (s : State) tx, R s (s.exchanged tx).2
  gaps : ∀ (s : State) l, R s (s.mapEnv fun e => { e with xferFail := l })
  frames : ∀ (s : State) q, R s { s with seq := q }

section Rules
variable {α β : Type} {R : State → State → Prop}

theorem keeps_pure (h : BusFrame R) (a : α) : Keeps R (pure a : M α) := fun s => h.refl s

theorem keeps_get (h : BusFrame R) : Keeps R (get : M State) := fun s => h.refl s

theorem keeps_hang (h : BusFrame R) : Keeps R (hang : M α) := fun s => h.refl s

theorem keeps_select (h : BusFrame R) : Keeps R select := fun s => h.select s

theorem keeps_deselect (h : BusFrame R) : Keeps R deselect := fun s => h.deselect s

theorem keeps_assign {f : State → State} (hf : ∀ s, R s (f s)) : Keeps R (assign f) := fun s => hf s

theorem keeps_goto (h : BusFrame R) (l : Label) : Keeps R (goto l) := fun s => h.frames s _

theorem keeps_require (h : BusFrame R) (b : Bool) (e : Status) : Keeps R (require b e) := by
  intro s; unfold require; split <;> exact h.refl s

/-- After the first part, the second part runs in the state the first left. -/
theorem keeps_bind (h : BusFrame R) {m : M α} {f : α → M β} (hm : Keeps R m) (hf : ∀ a, Keeps R (f a)) :
    Keeps R (m >>= f) := by
  intro s
  have := hm s
  rw [run_bind]
  cases hms : m s with
  | ok a s' => rw [hms] at this; exact h.trans this (hf a s')
  | error e s' => rw [hms] at this; exact this

/-- A read of the state and a continuation that may use what the state says. -/
theorem keeps_get_bind {f : State → M β} (hf : ∀ s, R s (endState (f s s))) : Keeps R (get >>= f) := fun s => hf s

theorem keeps_ite {c : Prop} [Decidable c] {m m' : M α} (hm : Keeps R m) (hm' : Keeps R m') :
    Keeps R (if c then m else m') := by split <;> assumption

theorem keeps_callAt (h : BusFrame R) {site : Label} {p : Proc} {m : M α} (hm : Keeps R m) :
    Keeps R (callAt site p m) := by
  intro s
  have h1 := h.frames s ({ proc := p, label := p.entry } :: relabel site s.seq)
  have h2 := hm { s with seq := { proc := p, label := p.entry } :: relabel site s.seq }
  unfold callAt
  split <;> rename_i heq <;> rw [heq] at h2
  · exact h.trans (h.trans h1 h2) (h.frames _ _)
  · exact h.trans h1 h2

theorem keeps_xchg (h : BusFrame R) (tx : Byte) : Keeps R (xchg tx) := by
  intro s
  unfold xchg
  split
  · exact h.exchange s tx
  · exact h.gaps s _
  · exact h.trans (h.gaps s _) (h.exchange _ tx)

theorem keeps_sendBytes (h : BusFrame R) (bs : List Byte) : Keeps R (sendBytes bs) := by
  induction bs with
  | nil => exact keeps_pure h ()
  | cons b bs ih => exact keeps_bind h (keeps_xchg h b) fun _ => ih

theorem keeps_sendAddr (h : BusFrame R) (a : Address) : Keeps R (sendAddr a) :=
  keeps_bind h (keeps_get h) fun _ => keeps_sendBytes h _

end Rules

/-! ### The procedures -/

section Procedures
variable {R : State → State → Prop}

/-- What the procedures of SRA may do beside transport events. -/
def AllowsSra (R : State → State → Prop) : Prop := ∀ (s : State) r, R s { s with sra := r }

/-- What `programPage` may do beside. -/
def AllowsPp (R : State → State → Prop) : Prop := ∀ (s : State) r, R s { s with pp := r }

/-- What `writeAssumingBlank` may do beside. -/
def AllowsPsw (R : State → State → Prop) : Prop := ∀ (s : State) r, R s { s with psw := r }

/-- What `eraseSector` may do beside. -/
def AllowsSem (R : State → State → Prop) : Prop := ∀ (s : State) r, R s { s with sem := r }

/-- What `write` may do beside. -/
def AllowsFwe (R : State → State → Prop) : Prop := ∀ (s : State) r, R s { s with fwe := r }

/-- What the raw sector read may do beside: write SB and count. -/
def AllowsReceive (R : State → State → Prop) : Prop :=
  ∀ (s : State) b i, s.rsI.toNat < 4096 → R s { s with sb := s.sb.write s.rsI.toNat b, rsI := i }

theorem keeps_readStatus (h : BusFrame R) (hs : AllowsSra R) (n : BitVec 8) : Keeps R (readStatus n) :=
  keeps_bind h (keeps_require h _ _) fun _ =>
  keeps_bind h (keeps_assign fun s => hs s _) fun _ =>
  keeps_bind h (keeps_select h) fun _ =>
  keeps_bind h (keeps_xchg h _) fun _ =>
  keeps_bind h (keeps_xchg h _) fun _ =>
  keeps_bind h (keeps_assign fun s => hs s _) fun _ =>
  keeps_bind h (keeps_deselect h) fun _ =>
  keeps_bind h (keeps_get h) fun _ => keeps_pure h _

theorem keeps_writeStatus (h : BusFrame R) (hs : AllowsSra R) (n : BitVec 8) (v : Byte) :
    Keeps R (writeStatus n v) :=
  keeps_bind h (keeps_require h _ _) fun _ =>
  keeps_bind h (keeps_assign fun s => hs s _) fun _ =>
  keeps_bind h (keeps_select h) fun _ =>
  keeps_bind h (keeps_xchg h _) fun _ =>
  keeps_bind h (keeps_xchg h _) fun _ => keeps_deselect h

theorem keeps_busy (h : BusFrame R) (hs : AllowsSra R) : Keeps R busy :=
  keeps_bind h (keeps_callAt h (keeps_readStatus h hs 1)) fun _ => keeps_pure h _

theorem keeps_waitLoop (h : BusFrame R) (hs : AllowsSra R) (fuel : Nat) : Keeps R (waitLoop fuel) := by
  induction fuel with
  | zero => exact keeps_hang h
  | succ fuel ih =>
    refine keeps_bind h (keeps_callAt h (keeps_busy h hs)) fun b => ?_
    refine keeps_ite ?_ (keeps_pure h ())
    exact keeps_bind h (keeps_assign fun s => hs s _) fun _ =>
      keeps_bind h (keeps_get h) fun _ => keeps_bind h (keeps_require h _ _) fun _ =>
        keeps_bind h (keeps_goto h _) fun _ => ih

theorem keeps_waitUntilReady (h : BusFrame R) (hs : AllowsSra R) : Keeps R waitUntilReady :=
  keeps_bind h (keeps_assign fun s => hs s _) fun _ =>
  keeps_bind h (keeps_get h) fun _ => keeps_waitLoop h hs _

theorem keeps_enable (h : BusFrame R) : Keeps R enable :=
  keeps_bind h (keeps_select h) fun _ => keeps_bind h (keeps_xchg h _) fun _ => keeps_deselect h

theorem keeps_disable (h : BusFrame R) : Keeps R disable :=
  keeps_bind h (keeps_select h) fun _ => keeps_bind h (keeps_xchg h _) fun _ => keeps_deselect h

theorem keeps_streamPage (h : BusFrame R) (hp : AllowsPp R) (data : List Byte) (count : Nat) :
    Keeps R (streamPage data count) := by
  induction count with
  | zero => exact keeps_pure h ()
  | succ count ih =>
    exact keeps_bind h (keeps_get h) fun _ => keeps_bind h (keeps_xchg h _) fun _ =>
      keeps_bind h (keeps_assign fun s => hp s _) fun _ => ih

theorem keeps_programPage (h : BusFrame R) (hs : AllowsSra R) (hp : AllowsPp R) (data : List Byte) (src : Source)
    (b : BitVec 32) (a : Address) (l : BitVec 32) : Keeps R (programPage data src b a l) :=
  keeps_bind h (keeps_assign fun s => hp s _) fun _ =>
  keeps_bind h (keeps_get h) fun _ =>
  keeps_bind h (keeps_require h _ _) fun _ =>
  keeps_bind h (keeps_require h _ _) fun _ =>
  keeps_bind h (keeps_callAt h (keeps_enable h)) fun _ =>
  keeps_bind h (keeps_select h) fun _ =>
  keeps_bind h (keeps_xchg h _) fun _ =>
  keeps_bind h (keeps_get h) fun _ =>
  keeps_bind h (keeps_sendAddr h _) fun _ =>
  keeps_bind h (keeps_assign fun s => hp s _) fun _ =>
  keeps_bind h (keeps_get h) fun _ =>
  keeps_bind h (keeps_streamPage h hp data _) fun _ =>
  keeps_bind h (keeps_deselect h) fun _ => keeps_callAt h (keeps_waitUntilReady h hs)

theorem keeps_spanChunk (h : BusFrame R) (hs : AllowsSra R) (hp : AllowsPp R) (hw : AllowsPsw R)
    (data : List Byte) : Keeps R (spanChunk data) :=
  keeps_bind h (keeps_assign fun s => hw s _) fun _ =>
  keeps_bind h (keeps_get h) fun _ =>
  keeps_bind h (keeps_callAt h (keeps_programPage h hs hp data _ _ _ _)) fun _ => keeps_assign fun s => hw s _

theorem keeps_spanLoop (h : BusFrame R) (hs : AllowsSra R) (hp : AllowsPp R) (hw : AllowsPsw R)
    (data : List Byte) (fuel : Nat) : Keeps R (spanLoop data fuel) := by
  induction fuel with
  | zero => exact keeps_pure h ()
  | succ fuel ih =>
    refine keeps_bind h (keeps_get h) fun _ => keeps_ite (keeps_pure h ()) ?_
    exact keeps_bind h (keeps_spanChunk h hs hp hw data) fun _ => keeps_bind h (keeps_goto h _) fun _ => ih

theorem keeps_writeAssumingBlank (h : BusFrame R) (hs : AllowsSra R) (hp : AllowsPp R) (hw : AllowsPsw R)
    (data : List Byte) (src : Source) (b : BitVec 32) (a : Address) (l : BitVec 32) :
    Keeps R (writeAssumingBlank data src b a l) :=
  keeps_bind h (keeps_assign fun s => hw s _) fun _ =>
  keeps_bind h (keeps_get h) fun _ =>
  keeps_bind h (keeps_require h _ _) fun _ =>
  keeps_bind h (keeps_assign fun s => hw s _) fun _ => keeps_spanLoop h hs hp hw data _

theorem keeps_eraseSector (h : BusFrame R) (hs : AllowsSra R) (he : AllowsSem R) (si : SectorIndex) :
    Keeps R (eraseSector si) :=
  keeps_bind h (keeps_assign fun s => he s _) fun _ =>
  keeps_bind h (keeps_get h) fun _ =>
  keeps_bind h (keeps_require h _ _) fun _ =>
  keeps_bind h (keeps_callAt h (keeps_enable h)) fun _ =>
  keeps_bind h (keeps_callAt h (keeps_waitUntilReady h hs)) fun _ =>
  keeps_bind h (keeps_select h) fun _ =>
  keeps_bind h (keeps_xchg h _) fun _ =>
  keeps_bind h (keeps_get h) fun _ =>
  keeps_bind h (keeps_sendAddr h _) fun _ =>
  keeps_bind h (keeps_deselect h) fun _ => keeps_callAt h (keeps_waitUntilReady h hs)

end Procedures

end Sys2Proof.Machine
end

