-- ==== Sys2Proof/Laws/Device.lean ====
section
/-! SUPPORT. What the device and the transport leave alone: every operation of Machine/Device.lean changes the device
and the environment only, and a transport event also `CS` and the trace. -/

namespace Sys2Proof.Machine

/-- `t` differs from `s` in the device and the draws only. -/
def OnlyDevice (s t : State) : Prop :=
  t = { s with dev := t.dev, env := { t.env with xferFail := s.env.xferFail } }

theorem OnlyDevice.refl (s : State) : OnlyDevice s s := rfl

theorem OnlyDevice.trans {s t u : State} (h : OnlyDevice s t) (h' : OnlyDevice t u) : OnlyDevice s u := by
  unfold OnlyDevice at *; rw [h', h]

theorem onlyDevice_mapDev (s : State) (f : Device → Device) : OnlyDevice s (s.mapDev f) := rfl

theorem onlyDevice_drawByte (s : State) : OnlyDevice s s.drawByte.2 := rfl

theorem onlyDevice_drawStatusBits (s : State) : OnlyDevice s s.drawStatusBits.2 := by
  unfold State.drawStatusBits; split <;> rfl

theorem onlyDevice_drawChoice (s : State) : OnlyDevice s s.drawChoice.2 := by
  unfold State.drawChoice; split <;> rfl

theorem onlyDevice_freeWel (s : State) : OnlyDevice s s.freeWel :=
  (onlyDevice_drawChoice s).trans rfl

theorem onlyDevice_freeAds (s : State) : OnlyDevice s s.freeAds :=
  (onlyDevice_drawChoice s).trans rfl

theorem onlyDevice_startCycle (p : Pend) (s : State) : OnlyDevice s (s.startCycle p) := rfl

theorem onlyDevice_mayStartCycle (p : Pend) (s : State) : OnlyDevice s (s.mayStartCycle p) := by
  refine (onlyDevice_drawChoice s).trans ?_
  simp only [State.mayStartCycle]
  split <;> rfl

theorem onlyDevice_freeAsleep (s : State) : OnlyDevice s s.freeAsleep :=
  (onlyDevice_drawChoice s).trans rfl

theorem onlyDevice_freeGuarded (s : State) : OnlyDevice s s.freeGuarded :=
  (onlyDevice_drawChoice s).trans rfl

theorem onlyDevice_freePend (s : State) : OnlyDevice s s.freePend :=
  (onlyDevice_drawChoice s).trans ((onlyDevice_drawChoice _).trans rfl)

theorem onlyDevice_poisonWith (x : Extent) (s : State) : OnlyDevice s (s.poisonWith x) :=
  (onlyDevice_mapDev s _).trans
    ((onlyDevice_freeWel _).trans ((onlyDevice_freeAds _).trans ((onlyDevice_freeAsleep _).trans
      ((onlyDevice_freeGuarded _).trans (onlyDevice_freePend _)))))

theorem onlyDevice_poison (s : State) : OnlyDevice s s.poison := onlyDevice_poisonWith .all s

theorem onlyDevice_poisonHung (s : State) : OnlyDevice s s.poisonHung :=
  (onlyDevice_poison s).trans ((onlyDevice_drawChoice _).trans ((onlyDevice_drawChoice _).trans rfl))

theorem onlyDevice_complete (s : State) : OnlyDevice s s.complete :=
  (onlyDevice_mapDev s _).trans (onlyDevice_freeWel _)

theorem onlyDevice_observe (s : State) : OnlyDevice s s.observe.2 := by
  have := onlyDevice_poison s
  have := onlyDevice_complete s
  unfold State.observe
  split <;> (try split) <;> first | assumption | rfl

theorem onlyDevice_driveStatus (r : StatusReg) (s : State) : OnlyDevice s (s.driveStatus r).2 := by
  cases r
  · exact (onlyDevice_observe s).trans (onlyDevice_drawStatusBits _)
  · exact onlyDevice_drawStatusBits s
  · simp only [State.driveStatus]
    split
    · exact (onlyDevice_freeAds s).trans (onlyDevice_drawStatusBits _)
    · exact onlyDevice_drawStatusBits s

theorem onlyDevice_driveFlash (a : Nat) (s : State) : OnlyDevice s (s.driveFlash a).2 := by
  unfold State.driveFlash
  split
  · rfl
  · refine (onlyDevice_observe s).trans ?_
    simp only
    split
    · exact (onlyDevice_poison _).trans (onlyDevice_drawByte _)
    · rfl

theorem onlyDevice_drive (s : State) : OnlyDevice s s.drive.2 := by
  unfold State.drive
  split
  · exact onlyDevice_driveStatus _ s
  · exact onlyDevice_driveFlash _ s
  · rfl

theorem onlyDevice_whenIdle {f : State → State} (hf : ∀ t, OnlyDevice t (f t)) (s : State) :
    OnlyDevice s (s.whenIdle f) := by
  unfold State.whenIdle
  split
  · exact onlyDevice_poison s
  · refine (onlyDevice_observe s).trans ?_
    simp only
    split
    · exact onlyDevice_poison _
    · exact hf _

theorem onlyDevice_actStatusWrite (r : StatusReg) (s : State) : OnlyDevice s (s.actStatusWrite r) := by
  refine (onlyDevice_mayStartCycle .statuswrite s).trans
    ((onlyDevice_freeWel _).trans ((onlyDevice_freeGuarded _).trans ?_))
  cases r
  · rfl
  · rfl
  · exact onlyDevice_freeAds _

theorem onlyDevice_actProgram (a : Nat) (data : List Byte) (s : State) : OnlyDevice s (s.actProgram a data) := by
  unfold State.actProgram
  split
  · exact onlyDevice_poison s
  · split
    · exact (onlyDevice_mayStartCycle _ s).trans (onlyDevice_freeWel _)
    · rfl

theorem onlyDevice_actErase (a : Nat) (s : State) : OnlyDevice s (s.actErase a) := by
  unfold State.actErase
  split
  · exact onlyDevice_poison s
  · rfl

theorem onlyDevice_actRead (a : Nat) (s : State) : OnlyDevice s (s.actRead a) := by
  unfold State.actRead
  split
  · rfl
  · exact onlyDevice_poison s

theorem onlyDevice_act (s : State) : OnlyDevice s s.act := by
  unfold State.act
  split <;>
    first
    | rfl
    | exact onlyDevice_poison s
    | (refine onlyDevice_whenIdle (fun t => ?_) s
       first
       | rfl
       | exact onlyDevice_actStatusWrite _ t
       | exact onlyDevice_actProgram _ _ t
       | exact onlyDevice_actErase _ t
       | exact onlyDevice_actRead _ t)

/-! ### Transport events -/

/-- `t` differs from `s` in the device, the environment, `CS` and the trace only. -/
def OnlyBus (s t : State) : Prop := t = { s with dev := t.dev, env := t.env, cs := t.cs, trace := t.trace }

theorem OnlyBus.refl (s : State) : OnlyBus s s := rfl

theorem OnlyBus.trans {s t u : State} (h : OnlyBus s t) (h' : OnlyBus t u) : OnlyBus s u := by
  unfold OnlyBus at *; rw [h', h]

theorem OnlyDevice.onlyBus {s t : State} (h : OnlyDevice s t) : OnlyBus s t := by
  unfold OnlyDevice at h; unfold OnlyBus; rw [h]

theorem onlyBus_selected (s : State) : OnlyBus s s.selected := rfl

theorem onlyBus_deselected (s : State) : OnlyBus s s.deselected :=
  (onlyDevice_act s).onlyBus.trans rfl

theorem onlyBus_exchanged (s : State) (tx : Byte) : OnlyBus s (s.exchanged tx).2 :=
  (onlyDevice_drive s).onlyBus.trans rfl

section Fields
variable (s : State) (tx : Byte)

@[simp] theorem State.selected_dd : s.selected.dd = s.dd := rfl
@[simp] theorem State.selected_pollLimit : s.selected.pollLimit = s.pollLimit := rfl
@[simp] theorem State.selected_fwe : s.selected.fwe = s.fwe := rfl
@[simp] theorem State.selected_rsI : s.selected.rsI = s.rsI := rfl
@[simp] theorem State.selected_psw : s.selected.psw = s.psw := rfl
@[simp] theorem State.selected_pp : s.selected.pp = s.pp := rfl
@[simp] theorem State.selected_sem : s.selected.sem = s.sem := rfl
@[simp] theorem State.selected_sra : s.selected.sra = s.sra := rfl
@[simp] theorem State.selected_sb : s.selected.sb = s.sb := rfl
@[simp] theorem State.selected_seq : s.selected.seq = s.seq := rfl
@[simp] theorem State.selected_engBusy : s.selected.engBusy = s.engBusy := rfl
@[simp] theorem State.selected_rsp : s.selected.rsp = s.rsp := rfl
@[simp] theorem State.selected_port : s.selected.port = s.port := rfl
@[simp] theorem State.deselected_dd : s.deselected.dd = s.dd := by rw [onlyBus_deselected s]
@[simp] theorem State.deselected_pollLimit : s.deselected.pollLimit = s.pollLimit := by rw [onlyBus_deselected s]
@[simp] theorem State.deselected_fwe : s.deselected.fwe = s.fwe := by rw [onlyBus_deselected s]
@[simp] theorem State.deselected_rsI : s.deselected.rsI = s.rsI := by rw [onlyBus_deselected s]
@[simp] theorem State.deselected_psw : s.deselected.psw = s.psw := by rw [onlyBus_deselected s]
@[simp] theorem State.deselected_pp : s.deselected.pp = s.pp := by rw [onlyBus_deselected s]
@[simp] theorem State.deselected_sem : s.deselected.sem = s.sem := by rw [onlyBus_deselected s]
@[simp] theorem State.deselected_sra : s.deselected.sra = s.sra := by rw [onlyBus_deselected s]
@[simp] theorem State.deselected_sb : s.deselected.sb = s.sb := by rw [onlyBus_deselected s]
@[simp] theorem State.deselected_seq : s.deselected.seq = s.seq := by rw [onlyBus_deselected s]
@[simp] theorem State.deselected_engBusy : s.deselected.engBusy = s.engBusy := by rw [onlyBus_deselected s]
@[simp] theorem State.deselected_rsp : s.deselected.rsp = s.rsp := by rw [onlyBus_deselected s]
@[simp] theorem State.deselected_port : s.deselected.port = s.port := by rw [onlyBus_deselected s]
@[simp] theorem State.exchanged_dd : (s.exchanged tx).2.dd = s.dd := by rw [onlyBus_exchanged s tx]
@[simp] theorem State.exchanged_pollLimit : (s.exchanged tx).2.pollLimit = s.pollLimit := by rw [onlyBus_exchanged s tx]
@[simp] theorem State.exchanged_fwe : (s.exchanged tx).2.fwe = s.fwe := by rw [onlyBus_exchanged s tx]
@[simp] theorem State.exchanged_rsI : (s.exchanged tx).2.rsI = s.rsI := by rw [onlyBus_exchanged s tx]
@[simp] theorem State.exchanged_psw : (s.exchanged tx).2.psw = s.psw := by rw [onlyBus_exchanged s tx]
@[simp] theorem State.exchanged_pp : (s.exchanged tx).2.pp = s.pp := by rw [onlyBus_exchanged s tx]
@[simp] theorem State.exchanged_sem : (s.exchanged tx).2.sem = s.sem := by rw [onlyBus_exchanged s tx]
@[simp] theorem State.exchanged_sra : (s.exchanged tx).2.sra = s.sra := by rw [onlyBus_exchanged s tx]
@[simp] theorem State.exchanged_sb : (s.exchanged tx).2.sb = s.sb := by rw [onlyBus_exchanged s tx]
@[simp] theorem State.exchanged_seq : (s.exchanged tx).2.seq = s.seq := by rw [onlyBus_exchanged s tx]
@[simp] theorem State.exchanged_engBusy : (s.exchanged tx).2.engBusy = s.engBusy := by rw [onlyBus_exchanged s tx]
@[simp] theorem State.exchanged_rsp : (s.exchanged tx).2.rsp = s.rsp := by rw [onlyBus_exchanged s tx]
@[simp] theorem State.exchanged_port : (s.exchanged tx).2.port = s.port := by rw [onlyBus_exchanged s tx]
@[simp] theorem State.act_dd : s.act.dd = s.dd := by rw [onlyDevice_act s]
@[simp] theorem State.act_pollLimit : s.act.pollLimit = s.pollLimit := by rw [onlyDevice_act s]
@[simp] theorem State.act_fwe : s.act.fwe = s.fwe := by rw [onlyDevice_act s]
@[simp] theorem State.act_rsI : s.act.rsI = s.rsI := by rw [onlyDevice_act s]
@[simp] theorem State.act_psw : s.act.psw = s.psw := by rw [onlyDevice_act s]
@[simp] theorem State.act_pp : s.act.pp = s.pp := by rw [onlyDevice_act s]
@[simp] theorem State.act_sem : s.act.sem = s.sem := by rw [onlyDevice_act s]
@[simp] theorem State.act_sra : s.act.sra = s.sra := by rw [onlyDevice_act s]
@[simp] theorem State.act_sb : s.act.sb = s.sb := by rw [onlyDevice_act s]
@[simp] theorem State.act_seq : s.act.seq = s.seq := by rw [onlyDevice_act s]
@[simp] theorem State.act_engBusy : s.act.engBusy = s.engBusy := by rw [onlyDevice_act s]
@[simp] theorem State.act_rsp : s.act.rsp = s.rsp := by rw [onlyDevice_act s]
@[simp] theorem State.act_port : s.act.port = s.port := by rw [onlyDevice_act s]
@[simp] theorem State.act_cs : s.act.cs = s.cs := by rw [onlyDevice_act s]
@[simp] theorem State.act_trace : s.act.trace = s.trace := by rw [onlyDevice_act s]
@[simp] theorem State.poison_dd : s.poison.dd = s.dd := by rw [onlyDevice_poison s]
@[simp] theorem State.poison_pollLimit : s.poison.pollLimit = s.pollLimit := by rw [onlyDevice_poison s]
@[simp] theorem State.poison_fwe : s.poison.fwe = s.fwe := by rw [onlyDevice_poison s]
@[simp] theorem State.poison_rsI : s.poison.rsI = s.rsI := by rw [onlyDevice_poison s]
@[simp] theorem State.poison_psw : s.poison.psw = s.psw := by rw [onlyDevice_poison s]
@[simp] theorem State.poison_pp : s.poison.pp = s.pp := by rw [onlyDevice_poison s]
@[simp] theorem State.poison_sem : s.poison.sem = s.sem := by rw [onlyDevice_poison s]
@[simp] theorem State.poison_sra : s.poison.sra = s.sra := by rw [onlyDevice_poison s]
@[simp] theorem State.poison_sb : s.poison.sb = s.sb := by rw [onlyDevice_poison s]
@[simp] theorem State.poison_seq : s.poison.seq = s.seq := by rw [onlyDevice_poison s]
@[simp] theorem State.poison_engBusy : s.poison.engBusy = s.engBusy := by rw [onlyDevice_poison s]
@[simp] theorem State.poison_rsp : s.poison.rsp = s.rsp := by rw [onlyDevice_poison s]
@[simp] theorem State.poison_port : s.poison.port = s.port := by rw [onlyDevice_poison s]
@[simp] theorem State.poison_cs : s.poison.cs = s.cs := by rw [onlyDevice_poison s]
@[simp] theorem State.poison_trace : s.poison.trace = s.trace := by rw [onlyDevice_poison s]
@[simp] theorem State.poisonWith_dd (x : Extent) : (s.poisonWith x).dd = s.dd := by rw [onlyDevice_poisonWith x s]
@[simp] theorem State.poisonWith_pollLimit (x : Extent) : (s.poisonWith x).pollLimit = s.pollLimit := by rw [onlyDevice_poisonWith x s]
@[simp] theorem State.poisonWith_fwe (x : Extent) : (s.poisonWith x).fwe = s.fwe := by rw [onlyDevice_poisonWith x s]
@[simp] theorem State.poisonWith_rsI (x : Extent) : (s.poisonWith x).rsI = s.rsI := by rw [onlyDevice_poisonWith x s]
@[simp] theorem State.poisonWith_psw (x : Extent) : (s.poisonWith x).psw = s.psw := by rw [onlyDevice_poisonWith x s]
@[simp] theorem State.poisonWith_pp (x : Extent) : (s.poisonWith x).pp = s.pp := by rw [onlyDevice_poisonWith x s]
@[simp] theorem State.poisonWith_sem (x : Extent) : (s.poisonWith x).sem = s.sem := by rw [onlyDevice_poisonWith x s]
@[simp] theorem State.poisonWith_sra (x : Extent) : (s.poisonWith x).sra = s.sra := by rw [onlyDevice_poisonWith x s]
@[simp] theorem State.poisonWith_sb (x : Extent) : (s.poisonWith x).sb = s.sb := by rw [onlyDevice_poisonWith x s]
@[simp] theorem State.poisonWith_seq (x : Extent) : (s.poisonWith x).seq = s.seq := by rw [onlyDevice_poisonWith x s]
@[simp] theorem State.poisonWith_engBusy (x : Extent) : (s.poisonWith x).engBusy = s.engBusy := by rw [onlyDevice_poisonWith x s]
@[simp] theorem State.poisonWith_rsp (x : Extent) : (s.poisonWith x).rsp = s.rsp := by rw [onlyDevice_poisonWith x s]
@[simp] theorem State.poisonWith_port (x : Extent) : (s.poisonWith x).port = s.port := by rw [onlyDevice_poisonWith x s]
@[simp] theorem State.poisonWith_cs (x : Extent) : (s.poisonWith x).cs = s.cs := by rw [onlyDevice_poisonWith x s]
@[simp] theorem State.poisonWith_trace (x : Extent) : (s.poisonWith x).trace = s.trace := by rw [onlyDevice_poisonWith x s]
@[simp] theorem State.poisonHung_dd : s.poisonHung.dd = s.dd := by rw [onlyDevice_poisonHung s]
@[simp] theorem State.poisonHung_pollLimit : s.poisonHung.pollLimit = s.pollLimit := by rw [onlyDevice_poisonHung s]
@[simp] theorem State.poisonHung_fwe : s.poisonHung.fwe = s.fwe := by rw [onlyDevice_poisonHung s]
@[simp] theorem State.poisonHung_rsI : s.poisonHung.rsI = s.rsI := by rw [onlyDevice_poisonHung s]
@[simp] theorem State.poisonHung_psw : s.poisonHung.psw = s.psw := by rw [onlyDevice_poisonHung s]
@[simp] theorem State.poisonHung_pp : s.poisonHung.pp = s.pp := by rw [onlyDevice_poisonHung s]
@[simp] theorem State.poisonHung_sem : s.poisonHung.sem = s.sem := by rw [onlyDevice_poisonHung s]
@[simp] theorem State.poisonHung_sra : s.poisonHung.sra = s.sra := by rw [onlyDevice_poisonHung s]
@[simp] theorem State.poisonHung_sb : s.poisonHung.sb = s.sb := by rw [onlyDevice_poisonHung s]
@[simp] theorem State.poisonHung_seq : s.poisonHung.seq = s.seq := by rw [onlyDevice_poisonHung s]
@[simp] theorem State.poisonHung_engBusy : s.poisonHung.engBusy = s.engBusy := by rw [onlyDevice_poisonHung s]
@[simp] theorem State.poisonHung_rsp : s.poisonHung.rsp = s.rsp := by rw [onlyDevice_poisonHung s]
@[simp] theorem State.poisonHung_port : s.poisonHung.port = s.port := by rw [onlyDevice_poisonHung s]
@[simp] theorem State.poisonHung_cs : s.poisonHung.cs = s.cs := by rw [onlyDevice_poisonHung s]
@[simp] theorem State.poisonHung_trace : s.poisonHung.trace = s.trace := by rw [onlyDevice_poisonHung s]
@[simp] theorem State.observe_dd : s.observe.2.dd = s.dd := by rw [onlyDevice_observe s]
@[simp] theorem State.observe_pollLimit : s.observe.2.pollLimit = s.pollLimit := by rw [onlyDevice_observe s]
@[simp] theorem State.observe_fwe : s.observe.2.fwe = s.fwe := by rw [onlyDevice_observe s]
@[simp] theorem State.observe_rsI : s.observe.2.rsI = s.rsI := by rw [onlyDevice_observe s]
@[simp] theorem State.observe_psw : s.observe.2.psw = s.psw := by rw [onlyDevice_observe s]
@[simp] theorem State.observe_pp : s.observe.2.pp = s.pp := by rw [onlyDevice_observe s]
@[simp] theorem State.observe_sem : s.observe.2.sem = s.sem := by rw [onlyDevice_observe s]
@[simp] theorem State.observe_sra : s.observe.2.sra = s.sra := by rw [onlyDevice_observe s]
@[simp] theorem State.observe_sb : s.observe.2.sb = s.sb := by rw [onlyDevice_observe s]
@[simp] theorem State.observe_seq : s.observe.2.seq = s.seq := by rw [onlyDevice_observe s]
@[simp] theorem State.observe_engBusy : s.observe.2.engBusy = s.engBusy := by rw [onlyDevice_observe s]
@[simp] theorem State.observe_rsp : s.observe.2.rsp = s.rsp := by rw [onlyDevice_observe s]
@[simp] theorem State.observe_port : s.observe.2.port = s.port := by rw [onlyDevice_observe s]
@[simp] theorem State.observe_cs : s.observe.2.cs = s.cs := by rw [onlyDevice_observe s]
@[simp] theorem State.observe_trace : s.observe.2.trace = s.trace := by rw [onlyDevice_observe s]
@[simp] theorem State.drive_dd : s.drive.2.dd = s.dd := by rw [onlyDevice_drive s]
@[simp] theorem State.drive_pollLimit : s.drive.2.pollLimit = s.pollLimit := by rw [onlyDevice_drive s]
@[simp] theorem State.drive_fwe : s.drive.2.fwe = s.fwe := by rw [onlyDevice_drive s]
@[simp] theorem State.drive_rsI : s.drive.2.rsI = s.rsI := by rw [onlyDevice_drive s]
@[simp] theorem State.drive_psw : s.drive.2.psw = s.psw := by rw [onlyDevice_drive s]
@[simp] theorem State.drive_pp : s.drive.2.pp = s.pp := by rw [onlyDevice_drive s]
@[simp] theorem State.drive_sem : s.drive.2.sem = s.sem := by rw [onlyDevice_drive s]
@[simp] theorem State.drive_sra : s.drive.2.sra = s.sra := by rw [onlyDevice_drive s]
@[simp] theorem State.drive_sb : s.drive.2.sb = s.sb := by rw [onlyDevice_drive s]
@[simp] theorem State.drive_seq : s.drive.2.seq = s.seq := by rw [onlyDevice_drive s]
@[simp] theorem State.drive_engBusy : s.drive.2.engBusy = s.engBusy := by rw [onlyDevice_drive s]
@[simp] theorem State.drive_rsp : s.drive.2.rsp = s.rsp := by rw [onlyDevice_drive s]
@[simp] theorem State.drive_port : s.drive.2.port = s.port := by rw [onlyDevice_drive s]
@[simp] theorem State.drive_cs : s.drive.2.cs = s.cs := by rw [onlyDevice_drive s]
@[simp] theorem State.drive_trace : s.drive.2.trace = s.trace := by rw [onlyDevice_drive s]

@[simp] theorem State.act_xferFail : s.act.env.xferFail = s.env.xferFail := by rw [onlyDevice_act s]
@[simp] theorem State.poison_xferFail : s.poison.env.xferFail = s.env.xferFail := by rw [onlyDevice_poison s]
@[simp] theorem State.poisonHung_xferFail : s.poisonHung.env.xferFail = s.env.xferFail := by rw [onlyDevice_poisonHung s]
@[simp] theorem State.observe_xferFail : s.observe.2.env.xferFail = s.env.xferFail := by rw [onlyDevice_observe s]
@[simp] theorem State.drive_xferFail : s.drive.2.env.xferFail = s.env.xferFail := by rw [onlyDevice_drive s]
@[simp] theorem State.poisonWith_xferFail (x : Extent) : (s.poisonWith x).env.xferFail = s.env.xferFail := by
  rw [onlyDevice_poisonWith x s]
@[simp] theorem State.selected_xferFail : s.selected.env.xferFail = s.env.xferFail := rfl
@[simp] theorem State.deselected_xferFail : s.deselected.env.xferFail = s.env.xferFail := State.act_xferFail s
@[simp] theorem State.exchanged_xferFail : (s.exchanged tx).2.env.xferFail = s.env.xferFail := State.drive_xferFail s

@[simp] theorem State.selected_cs : s.selected.cs = true := rfl
@[simp] theorem State.deselected_cs : s.deselected.cs = false := rfl
@[simp] theorem State.exchanged_cs : (s.exchanged tx).2.cs = s.cs := by
  simp only [State.exchanged, State.mapDev_cs, State.drive_cs]
@[simp] theorem State.selected_trace : s.selected.trace = .select :: s.trace := rfl
@[simp] theorem State.deselected_trace : s.deselected.trace = .deselect :: s.trace := rfl
@[simp] theorem State.exchanged_trace :
    (s.exchanged tx).2.trace = .xchg tx (s.exchanged tx).1 :: s.trace := by
  simp only [State.exchanged, State.drive_trace]
@[simp] theorem State.deselected_phase : s.deselected.dev.phase = .off := rfl
@[simp] theorem State.selected_phase : s.selected.dev.phase = .command := rfl

end Fields

/-! ### The flash array read -/

/-- `F` of a device that is not POISONED is what it holds (10_state R31). -/
theorem State.flashByte_clean {s : State} (h : s.dev.poisoned = false) (a : Nat) : s.flashByte a = s.dev.flash.read a := by
  simp [State.flashByte, h]

/-- Nothing is known of a byte that no rule lets survive (10_state R33). -/
theorem State.flashByte_lost {s : State} {a : Nat} (h : s.dev.poisoned = true) (hx : s.dev.lost.covers a = true) :
    s.flashByte a = Config.freeFlash s.env.drawn a := by
  simp [State.flashByte, h, hx]

/-- Where 43 R188 and 45 R213 go before 60 R287, a byte outside the page or sector in work is what it holds. -/
theorem State.flashByte_spared {s : State} {a : Nat} (h : Config.abortSparesRest = true)
    (hx : s.dev.lost.covers a = false) : s.flashByte a = s.dev.flash.read a := by
  simp [State.flashByte, h, hx]

end Sys2Proof.Machine
end

