-- ==== Sys2Proof/Laws/Write.lean ====
section
/-! SUPPORT. The same rule for the raw sector read and for `write`, whose accesses to SB stay below 4096. -/

namespace Sys2Proof.Machine

/-- A field that transport events and the sequencer leave alone. -/
theorem busFrame_field {β : Type} (F : State → β) (h : ∀ s t, OnlyBus s t → F t = F s)
    (hq : ∀ (s : State) q, F { s with seq := q } = F s) : BusFrame fun x y => F y = F x where
  refl _ := rfl
  trans h1 h2 := h2.trans h1
  select s := h _ _ (onlyBus_selected s)
  deselect s := h _ _ (onlyBus_deselected s)
  exchange s tx := h _ _ (onlyBus_exchanged s tx)
  gaps _ _ := h _ _ rfl
  frames s q := hq s q

theorem busFrame_fwe : BusFrame fun s t => t.fwe = s.fwe :=
  busFrame_field _ (fun _ _ h => by rw [h]) fun _ _ => rfl

theorem busFrame_rsI : BusFrame fun s t => t.rsI = s.rsI :=
  busFrame_field _ (fun _ _ h => by rw [h]) fun _ _ => rfl

theorem busFrame_dd : BusFrame fun s t => t.dd = s.dd :=
  busFrame_field _ (fun _ _ h => by rw [h]) fun _ _ => rfl

/-- `R` holds from every start state that meets `P`. -/
def KeepsFrom {α : Type} (P : State → Prop) (R : State → State → Prop) (m : M α) : Prop :=
  ∀ s, P s → R s (endState (m s))

section Rules
variable {α β : Type} {P Q : State → Prop} {R : State → State → Prop}

theorem Keeps.keepsFrom {m : M α} (h : Keeps R m) : KeepsFrom P R m := fun s _ => h s

/-- The second part starts where the first returned, in a state that meets `Q`. -/
theorem keepsFrom_bind (h : BusFrame R) {m : M α} {f : α → M β} (hm : KeepsFrom P R m)
    (hq : ∀ s a s', P s → m s = .ok a s' → Q s') (hf : ∀ a, KeepsFrom Q R (f a)) :
    KeepsFrom P R (m >>= f) := by
  intro s hs
  have h1 := hm s hs
  rw [run_bind]
  cases hms : m s with
  | ok a s' => rw [hms] at h1; exact h.trans h1 (hf a s' (hq s a s' hs hms))
  | error e s' => rw [hms] at h1; exact h1

/-- A procedure that keeps a field keeps what a call of it returns to. -/
theorem Keeps.of_ok {F : State → β} {m : M α} (h : Keeps (fun s t => F t = F s) m) {s s' : State} {a : α}
    (hs : m s = .ok a s') : F s' = F s := by
  have := h s
  rwa [hs] at this

theorem keeps_receiveSector (h : BusFrame R) (hr : AllowsReceive R) (count : Nat) :
    KeepsFrom (fun s => s.rsI.toNat + count ≤ 4096) R (receiveSector count) := by
  induction count with
  | zero => exact (keeps_pure h ()).keepsFrom
  | succ count ih =>
    refine keepsFrom_bind (Q := fun s => s.rsI.toNat + (count + 1) ≤ 4096) h (keeps_xchg h _).keepsFrom ?_ fun b => ?_
    · intro s a s' hs hx
      rw [(keeps_xchg busFrame_rsI _).of_ok (F := State.rsI) hx]; exact hs
    · intro s hs
      rw [run_assign_bind]
      refine h.trans (hr s b _ (by omega)) (ih _ ?_)
      have : (s.rsI + 1).toNat = s.rsI.toNat + 1 := by
        rw [BitVec.toNat_add]; simp; omega
      simp only [this]; omega

theorem keeps_readSector (h : BusFrame R) (hr : AllowsReceive R) (hi : ∀ (s : State) i, R s { s with rsI := i })
    (si : SectorIndex) : Keeps R (readSector si) := by
  refine keeps_bind h (keeps_select h) fun _ => keeps_bind h (keeps_xchg h _) fun _ =>
    keeps_bind h (keeps_sendAddr h _) fun _ => ?_
  intro s
  rw [run_assign_bind]
  refine h.trans (hi s 0) ?_
  exact keepsFrom_bind (P := fun s => s.rsI.toNat + 4096 ≤ 4096) (Q := fun _ => True) h
    (keeps_receiveSector h hr 4096) (fun _ _ _ _ _ => trivial) (fun _ => (keeps_deselect h).keepsFrom) _ (by simp)

/-- What the merge may do: write SB inside its 4096 bytes. -/
def AllowsMerge (R : State → State → Prop) : Prop :=
  ∀ (s : State) a bs, a + bs.length ≤ 4096 → R s { s with sb := s.sb.writeList a bs }

/-- The window of an iteration lies in its sector (45 R202). -/
def State.windowFits (s : State) : Prop := s.fwe.offsetInSector.toNat + s.fwe.chunk.toNat ≤ 4096

theorem windowFits_splitAddress (s : State) : (splitAddress s).windowFits := by
  simp only [State.windowFits, splitAddress, offsetInSectorOf, BitVec.toNat_ofNat]
  omega

variable (h : BusFrame R) (hs : AllowsSra R) (hp : AllowsPp R) (hw : AllowsPsw R) (he : AllowsSem R)
  (hf : AllowsFwe R) (hr : AllowsReceive R) (hi : ∀ (s : State) i, R s { s with rsI := i }) (hm : AllowsMerge R)

include h hs hp hw in
theorem keeps_directWrite (data : List Byte) : Keeps R (directWrite data) :=
  keeps_bind h (keeps_goto h _) fun _ =>
  keeps_bind h (keeps_get h) fun _ => keeps_callAt h (keeps_writeAssumingBlank h hs hp hw data _ _ _ _)

include h hs hp hw he hm in
theorem keeps_eraseMerge (data : List Byte) : KeepsFrom State.windowFits R (eraseMerge data) := by
  refine keepsFrom_bind (Q := State.windowFits) h (keeps_get h).keepsFrom ?_ fun s0 => ?_
  · intro s a s' hs hx; cases hx; exact hs
  refine keepsFrom_bind (Q := State.windowFits) h
    (keeps_callAt h (keeps_eraseSector h hs he _)).keepsFrom ?_ fun _ => ?_
  · intro s a s' hs hx
    have hx' : s'.fwe = s.fwe := (keeps_callAt busFrame_fwe (keeps_eraseSector busFrame_fwe
      (fun _ _ => rfl) (fun _ _ => rfl) _)).of_ok (F := State.fwe) hx
    simpa only [State.windowFits, hx'] using hs
  intro s hs'
  rw [run_assign_bind, run_get_bind]
  refine h.trans ?_ (keeps_bind h (keeps_callAt h (keeps_writeAssumingBlank h hs hp hw data _ _ _ _))
    (fun _ => keeps_goto h _) _)
  refine hm s _ _ ?_
  have : ((data.drop s.fwe.pos.toNat).take s.fwe.chunk.toNat).length ≤ s.fwe.chunk.toNat := List.length_take_le _ _
  unfold State.windowFits at hs'
  omega

include h hs hp hw he hm in
theorem keeps_choosePath (data : List Byte) : KeepsFrom State.windowFits R (choosePath data) := by
  intro s hs'
  unfold choosePath
  rw [run_get_bind]
  split
  · exact keeps_eraseMerge h hs hp hw he hm data s hs'
  · exact keeps_directWrite h hs hp hw data s

include h hs hp hw he hf hr hi hm in
theorem keeps_writeIteration (data : List Byte) : Keeps R (writeIteration data) := by
  intro s
  unfold writeIteration
  rw [run_assign_bind]
  refine h.trans (hf s (splitAddress s).fwe) ?_
  have hfit := windowFits_splitAddress s
  change R (splitAddress s) _
  generalize splitAddress s = s0 at hfit ⊢
  rw [run_get_bind]
  refine keepsFrom_bind (P := State.windowFits) (Q := State.windowFits) h
    (keeps_callAt h (keeps_readSector h hr hi _)).keepsFrom ?_ (fun _ => ?_) s0 hfit
  · intro s a s' hs hx
    have hx' : s'.fwe = s.fwe := (keeps_callAt busFrame_fwe (keeps_readSector busFrame_fwe
      (fun _ _ _ _ => rfl) (fun _ _ => rfl) _)).of_ok (F := State.fwe) hx
    simpa only [State.windowFits, hx'] using hs
  intro s hs'
  rw [run_assign_bind]
  refine h.trans (hf s { s.fwe with
    eraseRequired := blankScan s.sb s.fwe.offsetInSector.toNat s.fwe.chunk.toNat }) ?_
  exact keepsFrom_bind (P := State.windowFits) (Q := fun _ => True) h
    (keeps_choosePath h hs hp hw he hm data) (fun _ _ _ _ _ => trivial)
    (fun _ => (keeps_bind h (keeps_assign fun s => hf s _) fun _ => keeps_goto h _).keepsFrom) _ hs'

include h hs hp hw he hf hr hi hm in
theorem keeps_writeLoop (data : List Byte) (fuel : Nat) : Keeps R (writeLoop data fuel) := by
  induction fuel with
  | zero => exact keeps_pure h ()
  | succ fuel ih =>
    refine keeps_bind h (keeps_get h) fun _ => keeps_ite (keeps_pure h ()) ?_
    exact keeps_bind h (keeps_writeIteration h hs hp hw he hf hr hi hm data) fun _ => ih

include h hs hp hw he hf hr hi hm in
theorem keeps_writeFlash (data : List Byte) (a : Address) (l : BitVec 32) : Keeps R (writeFlash data a l) :=
  keeps_bind h (keeps_assign fun s => hf s _) fun _ =>
  keeps_bind h (keeps_get h) fun _ =>
  keeps_bind h (keeps_require h _ _) fun _ => keeps_writeLoop h hs hp hw he hf hr hi hm data _

end Rules

/-! ### Requests and bare transactions -/

/-- What a request that is answered can do: it waits, or its procedure ran from acceptance to the response, to an
abort, or into a hang. -/
theorem serve_next {p : Proc} {m : M Byte} {s t : State} (h : serve p m s = .next t) :
    (s.engBusy = true ∧ t = s) ∨
    (s.PIdle ∧
      ((∃ r s', m { s with engBusy := true, seq := [{ proc := p, label := p.entry }] } = .ok r s' ∧
          t = respond r s') ∨
       (∃ e s', m { s with engBusy := true, seq := [{ proc := p, label := p.entry }] } = .error (.raised e) s' ∧
          t = abort e s') ∨
       (∃ s', m { s with engBusy := true, seq := [{ proc := p, label := p.entry }] } = .error .hung s' ∧
          t = s'.poisonHung))) := by
  unfold serve at h
  split at h
  · rename_i hb; exact .inl ⟨hb, by injection h with h; exact h.symm⟩
  · rename_i hb
    split at h
    · cases h
    · rename_i hc
      have hidle : s.PIdle := by
        simp only [Bool.not_eq_true] at hb
        simp only [Bool.or_eq_true, Bool.not_eq_true', not_or, Bool.not_eq_true, Bool.not_eq_false,
          List.isEmpty_iff] at hc
        exact ⟨hb, hc.1, hc.2⟩
      refine .inr ⟨hidle, ?_⟩
      split at h <;> rename_i hm <;> injection h with h <;> subst h
      · exact .inl ⟨_, _, hm, rfl⟩
      · exact .inr (.inl ⟨_, _, hm, rfl⟩)
      · exact .inr (.inr ⟨_, hm, rfl⟩)

/-- An idle block accepts the request. -/
theorem serve_idle {p : Proc} {m : M Byte} {s : State} (h : s.PIdle) :
    serve p m s =
      match m { s with engBusy := true, seq := [{ proc := p, label := p.entry }] } with
      | .ok r s' => .next (respond r s')
      | .error (.raised e) s' => .next (abort e s')
      | .error .hung s' => .next s'.poisonHung := by
  obtain ⟨h1, h2, h3⟩ := h
  simp only [serve, h1, h2, h3, Bool.false_eq_true, if_false, List.isEmpty_nil, Bool.not_true, Bool.or_self] <;>
    (generalize m _ = r
     rcases r with ⟨r, s'⟩ | ⟨_ | _, s'⟩ <;> rfl)

/-- A busy block leaves the request at the port (60 R280). -/
theorem serve_busy {p : Proc} {m : M Byte} {s : State} (h : s.engBusy = true) : serve p m s = .next s := by
  simp [serve, h]

/-- A request that runs to its end. -/
theorem serve_ok {p : Proc} {m : M Byte} {s s' : State} {r : Byte} (h : s.PIdle)
    (hm : m { s with engBusy := true, seq := [{ proc := p, label := p.entry }] } = .ok r s') :
    serve p m s = .next (respond r s') := by rw [serve_idle h, hm]

/-- A request that fails. -/
theorem serve_raised {p : Proc} {m : M Byte} {s s' : State} {e : Status} (h : s.PIdle)
    (hm : m { s with engBusy := true, seq := [{ proc := p, label := p.entry }] } = .error (.raised e) s') :
    serve p m s = .next (abort e s') := by rw [serve_idle h, hm]

/-- A bare transaction on an idle block. -/
theorem bareTransaction_idle {bs : List Byte} {s : State} (h : s.PIdle) :
    bareTransaction bs s =
      match sendBytes bs s.selected with
      | .ok _ s' => .next s'.deselected
      | .error _ s' => .next s'.deselected.poison := by
  obtain ⟨h1, h2, h3⟩ := h
  simp only [bareTransaction, h1, h2, h3, Bool.false_eq_true, if_false, List.isEmpty_nil, Bool.not_true,
    Bool.or_self] <;>
    (rcases sendBytes bs s.selected with ⟨r, s'⟩ | ⟨e, s'⟩ <;> rfl)

/-- A reserved operation on an idle block (30_encoding R124). -/
theorem illegalRequest_idle {s : State} (h : s.PIdle) :
    illegalRequest s = .next { s with rsp := { status := .illegalRequest, result := 0x00 } } := by
  obtain ⟨h1, h2, h3⟩ := h
  simp only [illegalRequest, h1, h2, h3, abort, Status.poisons]
  cases s
  simp_all

end Sys2Proof.Machine
end

