-- ==== Sys2Proof/Laws/Transport.lean ====
section
/-! SUPPORT. Transactions when no exchange fails: what they send, in which phase they leave the device's decode, and
what the device then does (30_encoding R100 to R106, 46 R230 to R237). -/

namespace Sys2Proof.Machine

/-! ### Traces -/

/-- The trace grew by the whole transactions `txs`, the last one first. -/
def Sends (txs : List (List Byte)) (s t : State) : Prop :=
  ∃ new, t.trace = new ++ s.trace ∧ (new = [] ∨ new.getLast? = some .select) ∧ transactions new = txs

theorem transactionsFrom_append {new : List BusEvent} (old : List BusEvent) (acc : List Byte)
    (h : new.getLast? = some .select) :
    transactionsFrom acc (new ++ old) = transactionsFrom acc new ++ transactions old := by
  induction new generalizing acc with
  | nil => cases h
  | cons e new ih =>
    cases new with
    | nil =>
      have : e = .select := by simpa using h
      subst this
      simp [transactionsFrom, transactions]
    | cons e' new =>
      have h' : (e' :: new).getLast? = some .select := by rwa [List.getLast?_cons_cons] at h
      cases e <;> simp only [List.cons_append, transactionsFrom] <;>
        simp only [List.cons_append] at ih <;> rw [ih _ h']

theorem transactions_append {new : List BusEvent} (old : List BusEvent)
    (h : new = [] ∨ new.getLast? = some .select) :
    transactions (new ++ old) = transactions new ++ transactions old := by
  rcases h with rfl | h
  · rfl
  · exact transactionsFrom_append old [] h

theorem Sends.refl (s : State) : Sends [] s s := ⟨[], rfl, .inl rfl, rfl⟩

theorem Sends.of_trace {s t : State} (h : t.trace = s.trace) : Sends [] s t := ⟨[], by simpa using h, .inl rfl, rfl⟩

theorem Sends.trans {c₁ c₂ : List (List Byte)} {s t u : State} (h₁ : Sends c₁ s t) (h₂ : Sends c₂ t u) :
    Sends (c₂ ++ c₁) s u := by
  obtain ⟨n₁, ht, hl₁, rfl⟩ := h₁
  obtain ⟨n₂, hu, hl₂, rfl⟩ := h₂
  refine ⟨n₂ ++ n₁, by rw [hu, ht, List.append_assoc], ?_, transactions_append _ hl₂⟩
  rcases hl₁ with rfl | hl₁
  · simpa using hl₂
  · right; rw [List.getLast?_append, hl₁]; rfl

/-- The transactions of the whole trace. -/
theorem Sends.transactions_eq {c : List (List Byte)} {s t : State} (h : Sends c s t) :
    transactions t.trace = c ++ transactions s.trace := by
  obtain ⟨n, ht, hl, rfl⟩ := h
  rw [ht, transactions_append _ hl]

/-- The fields of the trace only. -/
theorem Sends.congr {c : List (List Byte)} {s t s' t' : State} (h : Sends c s t) (hs : s'.trace = s.trace)
    (ht : t'.trace = t.trace) : Sends c s' t' := by
  obtain ⟨new, h1, h2, h3⟩ := h
  exact ⟨new, by rw [ht, hs, h1], h2, h3⟩

/-! ### Bytes the device only takes in -/

/-- A phase in which the byte driven is one nothing looks at (46 R249). -/
def Phase.sink : Phase → Bool
  | .statusRead _ false => false
  | .readOut _ => false
  | _ => true

/-- An exchange whose received byte nothing looks at. -/
def State.pushed (s : State) (tx : Byte) : State :=
  { s with
    dev := { s.dev with phase := s.dev.phase.next s.dd.addressWidth tx }
    env := { s.env with drawn := s.env.drawn + 1 }
    trace := .xchg tx (Config.freeByte s.env.drawn) :: s.trace }

theorem exchanged_sink {s : State} (h : s.dev.phase.sink = true) (tx : Byte) :
    s.exchanged tx = (Config.freeByte s.env.drawn, s.pushed tx) := by
  have hd : s.drive = s.drawByte := by
    unfold State.drive
    split <;> rename_i hp <;> simp_all [Phase.sink]
  simp only [State.exchanged, hd]
  rfl

theorem xchg_ok {s : State} (hx : s.PXfer) (tx : Byte) :
    xchg tx s = .ok (s.exchanged tx).1 (s.exchanged tx).2 := by
  unfold xchg
  rw [hx]

theorem xchg_sink {s : State} (hx : s.PXfer) (h : s.dev.phase.sink = true) (tx : Byte) :
    xchg tx s = .ok (Config.freeByte s.env.drawn) (s.pushed tx) := by
  rw [xchg_ok hx, exchanged_sink h]

/-- The trace of bytes sent, the received ones free. -/
def pushTrace : Nat → List Byte → List BusEvent → List BusEvent
  | _, [], tr => tr
  | d, b :: bs, tr => pushTrace (d + 1) bs (.xchg b (Config.freeByte d) :: tr)

/-- The phase after a list of bytes. -/
def Phase.after (aw : AddressWidth) (p : Phase) (bs : List Byte) : Phase :=
  bs.foldl (fun p b => p.next aw b) p

/-- A list of bytes taken in. -/
def State.pushedAll (s : State) (bs : List Byte) : State :=
  { s with
    dev := { s.dev with phase := s.dev.phase.after s.dd.addressWidth bs }
    env := { s.env with drawn := s.env.drawn + bs.length }
    trace := pushTrace s.env.drawn bs s.trace }

theorem pushedAll_cons (s : State) (b : Byte) (bs : List Byte) :
    s.pushedAll (b :: bs) = (s.pushed b).pushedAll bs := by
  simp only [State.pushedAll, State.pushed, pushTrace, Phase.after, List.foldl_cons, List.length_cons,
    Nat.add_assoc, Nat.add_comm bs.length 1]

/-- Every phase a list of bytes is sent in is a sink. -/
def Phase.sinks (aw : AddressWidth) : Phase → List Byte → Bool
  | _, [] => true
  | p, b :: bs => p.sink && Phase.sinks aw (p.next aw b) bs

/-- Bytes sent into sinks: nothing fails, and the device has taken them in. -/
theorem sendBytes_sink {s : State} {bs : List Byte} (hx : s.PXfer)
    (h : s.dev.phase.sinks s.dd.addressWidth bs = true) : sendBytes bs s = .ok () (s.pushedAll bs) := by
  induction bs generalizing s with
  | nil => rfl
  | cons b bs ih =>
    rw [Phase.sinks, Bool.and_eq_true] at h
    rw [sendBytes, run_bind_ok (xchg_sink hx h.1 b), pushedAll_cons]
    exact ih hx h.2

theorem pushTrace_append (d : Nat) (bs : List Byte) (tr : List BusEvent) :
    pushTrace d bs tr = pushTrace d bs [] ++ tr := by
  induction bs generalizing d tr with
  | nil => rfl
  | cons b bs ih => rw [pushTrace, ih, pushTrace, ih (d + 1) [_]]; simp

theorem Phase.after_append (aw : AddressWidth) (p : Phase) (xs ys : List Byte) :
    p.after aw (xs ++ ys) = (p.after aw xs).after aw ys := by simp [Phase.after]

theorem Phase.sinks_append (aw : AddressWidth) (p : Phase) (xs ys : List Byte) :
    p.sinks aw (xs ++ ys) = (p.sinks aw xs && (p.after aw xs).sinks aw ys) := by
  induction xs generalizing p with
  | nil => simp [Phase.sinks, Phase.after]
  | cons x xs ih => simp [Phase.sinks, Phase.after, ih, Bool.and_assoc]

/-! ### Address bytes -/

theorem addressBytes_sinks (aw : AddressWidth) (c : AddressCommand) (a : Address) :
    (Phase.address c aw.bytes 0).sinks aw (addressBytes aw a) = true := by
  cases aw <;> cases c <;> simp [addressBytes, AddressWidth.bytes, Phase.sinks, Phase.sink, Phase.next]

/-- The device assembles the address it was sent (30_encoding R106): all of it with four bytes, its low 24 bits with
three. -/
theorem addressBytes_after (aw : AddressWidth) (c : AddressCommand) (a : Address) :
    (Phase.address c aw.bytes 0).after aw (addressBytes aw a) =
      addressedPhase c (a.toNat % 2 ^ (8 * aw.bytes)) := by
  have h := a.isLt
  cases aw <;>
    simp [addressBytes, AddressWidth.bytes, Phase.after, Phase.next, BitVec.extractLsb'_toNat,
      Nat.shiftRight_eq_div_pow] <;> congr 1 <;> omega

/-- The address the device sees is the one sent, if it fits the transmitted bytes (20_memory R83). -/
theorem addressBytes_after_of_lt {aw : AddressWidth} {a : Address} (c : AddressCommand)
    (h : a.toNat < 2 ^ (8 * aw.bytes)) :
    (Phase.address c aw.bytes 0).after aw (addressBytes aw a) = addressedPhase c a.toNat := by
  rw [addressBytes_after, Nat.mod_eq_of_lt h]

theorem dataIn_sinks (aw : AddressWidth) (a : Nat) (r ds : List Byte) : (Phase.dataIn a r).sinks aw ds = true := by
  induction ds generalizing r with
  | nil => rfl
  | cons d ds ih => simp [Phase.sinks, Phase.sink, Phase.next, ih]

theorem dataIn_after (aw : AddressWidth) (a : Nat) (r ds : List Byte) :
    (Phase.dataIn a r).after aw ds = .dataIn a (ds.reverse ++ r) := by
  induction ds generalizing r with
  | nil => rfl
  | cons d ds ih =>
    simp only [Phase.after, List.foldl_cons, Phase.next] at *
    rw [ih]; simp

/-! ### Draws -/

section Draws
variable (s : State) (p : Pend)

@[simp] theorem drawByte_dev : s.drawByte.2.dev = s.dev := rfl
@[simp] theorem drawByte_xferFail : s.drawByte.2.env.xferFail = s.env.xferFail := rfl
@[simp] theorem drawByte_latencies : s.drawByte.2.env.latencies = s.env.latencies := rfl

@[simp] theorem drawStatusBits_dev : s.drawStatusBits.2.dev = s.dev := by
  unfold State.drawStatusBits; split <;> rfl
@[simp] theorem drawStatusBits_xferFail : s.drawStatusBits.2.env.xferFail = s.env.xferFail := by
  unfold State.drawStatusBits; split <;> rfl
@[simp] theorem drawStatusBits_latencies : s.drawStatusBits.2.env.latencies = s.env.latencies := by
  unfold State.drawStatusBits; split <;> rfl

@[simp] theorem drawChoice_dev : s.drawChoice.2.dev = s.dev := by
  unfold State.drawChoice; split <;> rfl
@[simp] theorem drawChoice_xferFail : s.drawChoice.2.env.xferFail = s.env.xferFail := by
  unfold State.drawChoice; split <;> rfl
@[simp] theorem drawChoice_latencies : s.drawChoice.2.env.latencies = s.env.latencies := by
  unfold State.drawChoice; split <;> rfl

/-- Only `WEL` is drawn. -/
theorem freeWel_dev : s.freeWel.dev = { s.dev with wel := s.drawChoice.1 } := by
  simp [State.freeWel]
theorem freeWel_env : s.freeWel.env = s.drawChoice.2.env := rfl

/-- Only `ADS` is drawn. -/
theorem freeAds_dev : s.freeAds.dev = { s.dev with ads := s.drawChoice.1 } := by
  simp [State.freeAds]
theorem freeAds_env : s.freeAds.env = s.drawChoice.2.env := rfl

/-- Only that the device is powered down is drawn. -/
theorem freeAsleep_dev : s.freeAsleep.dev = { s.dev with asleep := s.drawChoice.1 } := by
  simp [State.freeAsleep]

/-- Only that a region is protected is drawn. -/
theorem freeGuarded_dev : s.freeGuarded.dev = { s.dev with guarded := s.drawChoice.1 } := by
  simp [State.freeGuarded]

/-- Only `PEND` and the length of its cycle are drawn. -/
theorem freePend_dev : s.freePend.dev = { s.dev with pend := s.freePend.dev.pend, busyFor := s.freePend.dev.busyFor } := by
  simp [State.freePend]

/-- `PEND` is `p` or none; of the rest of the device only the length of the cycle changes. -/
theorem mayStartCycle_dev :
    (s.mayStartCycle p).dev = { s.dev with pend := p, busyFor := s.env.latencies.headD (some 0) } ∨
    (s.mayStartCycle p).dev = { s.dev with pend := .none } := by
  simp only [State.mayStartCycle]
  split
  · left; simp [State.startCycle]
  · right; simp

theorem mayStartCycle_poisoned : (s.mayStartCycle p).dev.poisoned = s.dev.poisoned := by
  rcases mayStartCycle_dev s p with h | h <;> rw [h]

theorem mayStartCycle_flash : (s.mayStartCycle p).dev.flash = s.dev.flash := by
  rcases mayStartCycle_dev s p with h | h <;> rw [h]

theorem complete_dev :
    s.complete.dev = { s.dev with pend := .none, wel := (s.mapDev fun d => { d with pend := .none }).drawChoice.1 } := by
  simp [State.complete, freeWel_dev]

end Draws

/-- Of two labels written one after the other the second stays. -/
@[simp] theorem relabel_relabel (l l' : Label) (q : List Frame) : relabel l (relabel l' q) = relabel l q := by
  cases q <;> rfl

/-! ### What an idle device does -/

theorem State.readable_iff (s : State) : s.readable = true ↔ s.PMode ∧ s.dev.asleep = false := by
  simp [State.readable, State.PMode]

/-- The premises on the array of a request that programs or erases (70 R297). -/
theorem State.writable_iff (s : State) : s.writable = true ↔ s.PMode ∧ s.PAwake := by
  simp [State.writable, State.readable_iff, State.PAwake, and_assoc]

theorem whenIdle_ready {s : State} (f : State → State) (hc : s.PClean) (hr : s.PReady) : s.whenIdle f = f s := by
  unfold State.PClean at hc
  unfold State.PReady at hr
  simp [State.whenIdle, State.observe, hc, hr]

/-- What poisoning leaves of the device: its flash cells, the transaction, and the extent of the loss. -/
theorem poisonWith_dev (x : Extent) (s : State) :
    (s.poisonWith x).dev = { (s.poisonWith x).dev with
      flash := s.dev.flash, phase := s.dev.phase, poisoned := true, lost := x } := by
  simp only [State.poisonWith]
  rw [freePend_dev, freeGuarded_dev, freeAsleep_dev, freeAds_dev, freeWel_dev]
  rfl

@[simp] theorem poisonWith_poisoned (x : Extent) (s : State) : (s.poisonWith x).dev.poisoned = true := by
  rw [poisonWith_dev]

@[simp] theorem poisonWith_phase (x : Extent) (s : State) : (s.poisonWith x).dev.phase = s.dev.phase := by
  rw [poisonWith_dev]

@[simp] theorem poisonWith_flash (x : Extent) (s : State) : (s.poisonWith x).dev.flash = s.dev.flash := by
  rw [poisonWith_dev]

@[simp] theorem poisonWith_lost (x : Extent) (s : State) : (s.poisonWith x).dev.lost = x := by
  rw [poisonWith_dev]

@[simp] theorem poison_poisoned (s : State) : s.poison.dev.poisoned = true := poisonWith_poisoned .all s

/-- A hang leaves the device POISONED, its flash cells and the transaction as they are, and a cycle that never ends
(60 R287). -/
theorem poisonHung_dev (s : State) :
    s.poisonHung.dev.poisoned = true ∧ s.poisonHung.dev.flash = s.dev.flash ∧
      s.poisonHung.dev.phase = s.dev.phase ∧ s.poisonHung.dev.pend ≠ .none ∧ s.poisonHung.dev.busyFor = none := by
  simp only [State.poisonHung, State.mapDev_dev, drawChoice_dev]
  refine ⟨poison_poisoned s, poisonWith_flash .all s, poisonWith_phase .all s, ?_, trivial⟩
  split
  · cases s.poison.drawChoice.2.drawChoice.1 <;> simp [pendOf]
  · simp

/-- After a hang the block is in a wait that never ends, if it was in one that no failure and no limit ends. -/
theorem poisonHung_stuck {s : State} (hx : s.env.xferFail = []) (hl : s.pollLimit = none) :
    s.poisonHung.stuck = true := by
  obtain ⟨-, -, -, hp, hb⟩ := poisonHung_dev s
  simp [State.stuck, hp, hb, hx, hl]

end Sys2Proof.Machine
end

