-- ==== Sys2Proof/Laws/Wait.lean ====
section
/-! SUPPORT. What `enable`, `disable`, one poll and `waitUntilReady` do when no exchange fails (40 R142 to R149,
41 R161, R162). -/

namespace Sys2Proof.Machine

/-! ### One transaction in the trace -/

/-- An exchange. -/
def BusEvent.isXchg : BusEvent → Bool
  | .xchg _ _ => true
  | .select => false
  | .deselect => false

/-- The bytes sent in exchanges, the last one first in the trace. -/
def bytesSent (evs : List BusEvent) : List Byte :=
  (evs.filterMap fun e => match e with | .xchg tx _ => some tx | .select => none | .deselect => none).reverse

theorem transactionsFrom_exchanges {evs : List BusEvent} (h : ∀ e ∈ evs, e.isXchg = true) (acc : List Byte) :
    transactionsFrom acc (evs ++ [.select]) = [bytesSent evs ++ acc] := by
  induction evs generalizing acc with
  | nil => rfl
  | cons e evs ih =>
    have he := h e (by simp)
    have ih := ih fun e he => h e (by simp [he])
    cases e with
    | select => cases he
    | deselect => cases he
    | xchg tx rx => rw [List.cons_append, transactionsFrom, ih]; simp [bytesSent]

/-- One transaction of exchanges (30_encoding R100). -/
theorem Sends.transaction {s t : State} {evs : List BusEvent} {bs : List Byte} (h : ∀ e ∈ evs, e.isXchg = true)
    (hb : bytesSent evs = bs) (ht : t.trace = .deselect :: (evs ++ .select :: s.trace)) : Sends [bs] s t := by
  refine ⟨.deselect :: (evs ++ [.select]), by simp [ht], .inr ?_, ?_⟩
  · rw [← List.cons_append, List.getLast?_append]; rfl
  · rw [transactions, transactionsFrom, transactionsFrom_exchanges h, hb, List.append_nil]

theorem bytesSent_append (xs ys : List BusEvent) : bytesSent (xs ++ ys) = bytesSent ys ++ bytesSent xs := by
  simp [bytesSent]

theorem pushTrace_isXchg (d : Nat) (bs : List Byte) : ∀ e ∈ pushTrace d bs [], e.isXchg = true := by
  induction bs generalizing d with
  | nil => intro e he; cases he
  | cons b bs ih =>
    intro e he
    rw [pushTrace, pushTrace_append] at he
    rcases List.mem_append.1 he with he | he
    · exact ih _ e he
    · simp only [List.mem_singleton] at he; subst he; rfl

theorem bytesSent_pushTrace (d : Nat) (bs : List Byte) : bytesSent (pushTrace d bs []) = bs := by
  induction bs generalizing d with
  | nil => rfl
  | cons b bs ih => rw [pushTrace, pushTrace_append, bytesSent_append, ih]; rfl

/-! ### The command byte and the act -/

section Commands
variable (aw : AddressWidth)

theorem next_writeEnable : Phase.next aw 0x06 .command = .latch true := rfl
theorem next_writeDisable : Phase.next aw 0x04 .command = .latch false := rfl
theorem next_readStatusReg1 : Phase.next aw 0x05 .command = .statusRead .sr1 false := rfl
theorem next_readStatusReg2 : Phase.next aw 0x35 .command = .statusRead .sr2 false := rfl
theorem next_readStatusReg3 : Phase.next aw 0x15 .command = .statusRead .sr3 false := rfl
theorem next_writeStatusReg1 : Phase.next aw 0x01 .command = .statusWrite .sr1 none := rfl
theorem next_writeStatusReg2 : Phase.next aw 0x31 .command = .statusWrite .sr2 none := rfl
theorem next_writeStatusReg3 : Phase.next aw 0x11 .command = .statusWrite .sr3 none := rfl
theorem next_readData : Phase.next aw 0x03 .command = .address .readData aw.bytes 0 := rfl
theorem next_pageProgram : Phase.next aw 0x02 .command = .address .pageProgram aw.bytes 0 := rfl
theorem next_sectorErase : Phase.next aw 0x20 .command = .address .sectorErase aw.bytes 0 := rfl
theorem next_chipErase : Phase.next aw 0xC7 .command = .undefinedCommand := rfl
theorem next_powerDown : Phase.next aw 0xB9 .command = .undefinedCommand := rfl
theorem next_releasePowerDown : Phase.next aw 0xAB .command = .undefinedCommand := rfl
theorem next_manufacturerDeviceID : Phase.next aw 0x90 .command = .identity := rfl
theorem next_enable4ByteAddr : Phase.next aw 0xB7 .command = .enable4 := rfl

end Commands

/-- The end of a transaction, once the device's act is known. -/
theorem deselected_of_act {s u : State} (h : s.act = u) :
    s.deselected =
      { u with cs := false, dev := { u.dev with phase := .off }, trace := .deselect :: s.trace } := by
  subst h; rfl

theorem act_latch {s : State} {v : Bool} (h : s.dev.phase = .latch v) :
    s.act = s.whenIdle fun s => s.mapDev fun d => { d with wel := v } := by unfold State.act; rw [h]

theorem act_statusRead_done {s : State} {r : StatusReg} (h : s.dev.phase = .statusRead r true) : s.act = s := by
  unfold State.act; rw [h]

theorem act_readOut {s : State} {a : Nat} (h : s.dev.phase = .readOut a) :
    s.act = s.whenIdle fun s => s.actRead a := by unfold State.act; rw [h]

theorem act_dataIn {s : State} {a : Nat} {r : List Byte} (h : s.dev.phase = .dataIn a r) :
    s.act = s.whenIdle fun s => s.actProgram a r.reverse := by unfold State.act; rw [h]

theorem act_eraseAt {s : State} {a : Nat} (h : s.dev.phase = .eraseAt a) :
    s.act = s.whenIdle fun s => s.actErase a := by unfold State.act; rw [h]

/-! ### The latch commands -/

/-- The state after a one byte transaction whose only effect on the device is `d`. -/
def State.sentOne (s : State) (c : Byte) (d : Device) : State :=
  { s with
    cs := false
    dev := { d with phase := .off }
    env := { s.env with drawn := s.env.drawn + 1 }
    trace := .deselect :: .xchg c (Config.freeByte s.env.drawn) :: .select :: s.trace }

theorem sentOne_sends (s : State) (c : Byte) (d : Device) : Sends [[c]] s (s.sentOne c d) :=
  Sends.transaction (evs := [.xchg c (Config.freeByte s.env.drawn)])
    (fun e he => by simp only [List.mem_singleton] at he; subst he; rfl) rfl rfl

/-- `enable()` on an idle device sets the latch (41 R161, 46 R230). -/
theorem enable_ok {s : State} (hx : s.PXfer) (hc : s.PClean) (hr : s.PReady) :
    enable s = .ok () (s.sentOne 0x06 { s.dev with wel := true }) := by
  have h1 : xchg 0x06 s.selected = .ok (Config.freeByte s.env.drawn) (s.selected.pushed 0x06) :=
    xchg_sink (s := s.selected) hx rfl 0x06
  unfold enable
  rw [run_select_bind, run_bind_ok h1, run_deselect]
  have hp : (s.selected.pushed 0x06).dev.phase = .latch true := next_writeEnable s.dd.addressWidth
  have h2 : (s.selected.pushed 0x06).act = (s.selected.pushed 0x06).mapDev fun d => { d with wel := true } := by
    rw [act_latch hp]; exact whenIdle_ready _ hc hr
  rw [deselected_of_act h2]
  simp only [State.sentOne, State.pushed, State.selected, State.mapDev]

/-- A call of `enable` on an idle device. -/
theorem callEnable_ok {s : State} (site : Label) (hx : s.PXfer) (hc : s.PClean) (hr : s.PReady) :
    callAt site .enable enable s =
      .ok () { s.sentOne 0x06 { s.dev with wel := true } with seq := relabel site.next s.seq } := by
  rw [run_callAt_ok s (enable_ok (s := { s with seq := { proc := .enable, label := .EN0 } :: relabel site s.seq })
    hx hc hr)]
  rfl

/-- `disable()` on an idle device clears the latch (41 R162, 46 R231). -/
theorem disable_ok {s : State} (hx : s.PXfer) (hc : s.PClean) (hr : s.PReady) :
    disable s = .ok () (s.sentOne 0x04 { s.dev with wel := false }) := by
  have h1 : xchg 0x04 s.selected = .ok (Config.freeByte s.env.drawn) (s.selected.pushed 0x04) :=
    xchg_sink (s := s.selected) hx rfl 0x04
  unfold disable
  rw [run_select_bind, run_bind_ok h1, run_deselect]
  have hp : (s.selected.pushed 0x04).dev.phase = .latch false := next_writeDisable s.dd.addressWidth
  have h2 : (s.selected.pushed 0x04).act = (s.selected.pushed 0x04).mapDev fun d => { d with wel := false } := by
    rw [act_latch hp]; exact whenIdle_ready _ hc hr
  rw [deselected_of_act h2]
  simp only [State.sentOne, State.pushed, State.selected, State.mapDev]

/-! ### One poll -/

/-- What a look at a device that is not POISONED answers and leaves, `w` the latch after a cycle that ends
(46 R239, R240). -/
def Device.looked (d : Device) (w : Bool) : Bool × Device :=
  match d.pend, d.busyFor with
  | .none, _ => (false, d)
  | _, none => (true, d)
  | _, some (k + 1) => (true, { d with busyFor := some k })
  | _, some 0 => (false, { d with pend := .none, wel := w })

theorem looked_idle {d : Device} (w : Bool) (h : d.pend = .none) : d.looked w = (false, d) := by
  simp [Device.looked, h]

theorem looked_ends {d : Device} (w : Bool) (h : d.pend ≠ .none) (hk : d.busyFor = some 0) :
    d.looked w = (false, { d with pend := .none, wel := w }) := by
  unfold Device.looked; rw [hk]; cases hp : d.pend <;> first | exact absurd hp h | rfl

theorem looked_runs {d : Device} (w : Bool) {k : Nat} (h : d.pend ≠ .none) (hk : d.busyFor = some (k + 1)) :
    d.looked w = (true, { d with busyFor := some k }) := by
  unfold Device.looked; rw [hk]; cases hp : d.pend <;> first | exact absurd hp h | rfl

theorem looked_stuck {d : Device} (w : Bool) (h : d.pend ≠ .none) (hk : d.busyFor = none) :
    d.looked w = (true, d) := by
  unfold Device.looked; rw [hk]; cases hp : d.pend <;> first | exact absurd hp h | rfl

/-- A look at the device draws nothing but the latch after a cycle: it is not POISONED, or its cycle never ends. -/
def Device.steady (d : Device) : Prop := d.poisoned = false ∨ (d.pend ≠ .none ∧ d.busyFor = none)

/-- A look at a device. -/
theorem observe_looked {s : State} (hc : s.dev.steady) :
    ∃ w, s.observe.1 = (s.dev.looked w).1 ∧ s.observe.2.dev = (s.dev.looked w).2 ∧
      s.observe.2.env.xferFail = s.env.xferFail ∧ s.observe.2.env.latencies = s.env.latencies := by
  refine ⟨(s.mapDev fun d => { d with pend := .none }).drawChoice.1, ?_⟩
  unfold State.observe Device.looked
  rcases hc with hc' | ⟨h1, h2⟩
  · cases hp : s.dev.pend <;> cases hb : s.dev.busyFor with
    | none => simp [hc']
    | some k => cases k <;> simp [hc', hp, hb, State.complete, freeWel_dev, freeWel_env]
  · rw [h2]
    cases hp : s.dev.pend <;> first | exact absurd hp h1 | simp

/-- `read(1)` at any moment: the answer is a look at the device, and nothing else of the device changes
(40 R142, 46 R233). -/
theorem readStatus_one {s : State} (hx : s.PXfer) (hc : s.dev.steady) :
    ∃ (w : Bool) (v : Byte) (t : State), readStatus 1 s = .ok v t ∧ bit0 v = (s.dev.looked w).1 ∧
      t = { s with sra := { s.sra with reg := 1, value := v }, env := t.env, trace := t.trace, cs := false,
                   dev := { (s.dev.looked w).2 with phase := .off } } ∧
      t.env.xferFail = [] ∧ t.env.latencies = s.env.latencies ∧ Sends [[0x05, 0xFF]] s t := by
  let s1 : State := { s with sra := { s.sra with reg := 1 } }
  have h1 : xchg 0x05 s1.selected = .ok (Config.freeByte s.env.drawn) (s1.selected.pushed 0x05) :=
    xchg_sink (s := s1.selected) hx rfl 0x05
  let s2 : State := s1.selected.pushed 0x05
  obtain ⟨w, ho, hd, hxf, hl⟩ := observe_looked (s := s2) hc
  have hphase : s2.dev.phase = .statusRead .sr1 false := next_readStatusReg1 s.dd.addressWidth
  have hlook : ∀ (d : Device) (p : Phase), ({ d with phase := p }.looked w) =
      ((d.looked w).1, { (d.looked w).2 with phase := p }) := by
    intro d p
    unfold Device.looked
    cases hp : d.pend <;> cases hb : d.busyFor with
    | none => simp [hp, hb]
    | some k => cases k <;> simp [hp, hb]
  have hs2 : s2.dev = { s.dev with phase := .statusRead .sr1 false } := by
    rw [← hphase]; rfl
  rw [hs2, hlook] at ho hd
  have hdrive : s2.drive = (withBit0 s2.observe.2.drawStatusBits.1 s2.observe.1, s2.observe.2.drawStatusBits.2) := by
    unfold State.drive; rw [hphase]; rfl
  have h2 : xchg Config.dummyTx s2 = .ok (s2.exchanged Config.dummyTx).1 (s2.exchanged Config.dummyTx).2 :=
    xchg_ok (s := s2) hx _
  have hv : (s2.exchanged Config.dummyTx).1 = withBit0 s2.observe.2.drawStatusBits.1 s2.observe.1 := by
    simp only [State.exchanged, hdrive]
  have hdev : (s2.exchanged Config.dummyTx).2.dev =
      { (s.dev.looked w).2 with phase := .statusRead .sr1 true } := by
    simp only [State.exchanged, hdrive, State.mapDev_dev, drawStatusBits_dev, hd]
    rfl
  have henv : (s2.exchanged Config.dummyTx).2.env = s2.observe.2.drawStatusBits.2.env := by
    simp only [State.exchanged, hdrive, State.mapDev_env]
  generalize hv' : (s2.exchanged Config.dummyTx).1 = v at *
  let s3 : State := { (s2.exchanged Config.dummyTx).2 with
    sra := { (s2.exchanged Config.dummyTx).2.sra with value := v } }
  have e3 : s3.dev = { (s.dev.looked w).2 with phase := .statusRead .sr1 true } := hdev
  have hact : s3.act = s3 := by
    unfold State.act
    rw [e3]
  have e1 : s3.deselected = { s3 with cs := false, dev := { s3.dev with phase := .off },
                                      trace := .deselect :: s3.trace } := by
    unfold State.deselected; rw [hact]; rfl
  refine ⟨w, v, s3.deselected, ?_, ?_, ?_, ?_, ?_, ?_⟩
  · unfold readStatus
    rw [run_bind_ok (run_require_true (b := validRegister 1) (e := .invalidRegister) s rfl), run_assign_bind,
      run_select_bind]
    change (xchg 0x05 >>= _) s1.selected = _
    rw [run_bind_ok h1]
    change (xchg Config.dummyTx >>= _) s2 = _
    rw [run_bind_ok h2, run_assign_bind, run_deselect_bind, run_get_bind, run_pure, State.deselected_sra]
  · rw [hv, ← ho]
    cases s2.observe.1 <;> simp [bit0, withBit0]
  · have hb := onlyBus_exchanged s2 Config.dummyTx
    rw [e1, e3]
    simp only [s3]
    rw [hb]
    rfl
  · rw [e1]
    change (s2.exchanged Config.dummyTx).2.env.xferFail = _
    rw [henv, drawStatusBits_xferFail, hxf]
    exact hx
  · rw [e1]
    change (s2.exchanged Config.dummyTx).2.env.latencies = _
    rw [henv, drawStatusBits_latencies, hl]
    rfl
  · refine Sends.transaction (evs := [.xchg Config.dummyTx v, .xchg 0x05 (Config.freeByte s.env.drawn)])
      (fun e he => ?_) rfl ?_
    · simp only [List.mem_cons, List.not_mem_nil, or_false] at he
      rcases he with rfl | rfl <;> rfl
    rw [State.deselected_trace]
    change BusEvent.deselect :: (s2.exchanged Config.dummyTx).2.trace = _
    rw [State.exchanged_trace, hv']
    rfl

/-- `t` is `s` after one poll that left the device `d` and the top frame at `l`. -/
structure Polled (l : Label) (d : Device) (s t : State) : Prop where
  frame : t = { s with sra := t.sra, env := t.env, trace := t.trace, cs := false, seq := relabel l s.seq,
                       dev := { d with phase := .off } }
  polls : t.sra.polls = s.sra.polls
  xfer : t.PXfer
  latencies : t.env.latencies = s.env.latencies
  sends : Sends [[0x05, 0xFF]] s t

/-- `busy()` (40 R145). -/
theorem busy_ok {s : State} (hx : s.PXfer) (hc : s.dev.steady) :
    ∃ w t, busy s = .ok (s.dev.looked w).1 t ∧ Polled .BZ1 (s.dev.looked w).2 s t := by
  let s0 : State := { s with seq := { proc := .read, label := .RD0 } :: relabel .BZ0 s.seq }
  obtain ⟨w, v, t, h1, h2, h3, h4, h5, h6⟩ := readStatus_one (s := s0) hx hc
  refine ⟨w, { t with seq := relabel .BZ1 s.seq }, ?_, ?_, ?_, h4, h5, h6.congr rfl rfl⟩
  · unfold busy
    rw [run_bind_ok (run_callAt_ok s h1), run_pure, h2]
    rfl
  · rw [h3]
  · rw [h3]

/-- A poll of the wait (40 R146, WT1). -/
theorem poll_ok {s : State} (hx : s.PXfer) (hc : s.dev.steady) :
    ∃ w t, callAt .WT1 .busy busy s = .ok (s.dev.looked w).1 t ∧ Polled .WT2 (s.dev.looked w).2 s t := by
  let s0 : State := { s with seq := { proc := .busy, label := .BZ0 } :: relabel .WT1 s.seq }
  obtain ⟨w, t, h1, h2⟩ := busy_ok (s := s0) hx hc
  refine ⟨w, { t with seq := relabel .WT2 s.seq }, run_callAt_ok s h1, ?_, h2.polls, h2.xfer, h2.latencies,
    h2.sends.congr rfl rfl⟩
  rw [h2.frame]

/-- One more poll of a wait that never ends (60 R285). -/
theorem spin_stuck {s : State} (h : s.stuck = true) :
    spin s = { s with sra := (spin s).sra, env := (spin s).env, trace := (spin s).trace, cs := false,
                      seq := relabel .WT1 s.seq, dev := { s.dev with phase := .off } } ∧
      (spin s).sra.polls = s.sra.polls + 1 ∧ (spin s).stuck = true ∧ Sends [[0x05, 0xFF]] s (spin s) := by
  have hstuck := h
  simp only [State.stuck, Bool.and_eq_true, decide_eq_true_eq, List.isEmpty_iff] at h
  obtain ⟨⟨⟨hp, hb⟩, hx⟩, hl⟩ := h
  obtain ⟨w, t, h1, h2⟩ := poll_ok hx (.inr ⟨hp, hb⟩)
  rw [looked_stuck w hp hb] at h1 h2
  have hs : spin s = { t with sra := { t.sra with polls := t.sra.polls + 1 }, seq := relabel .WT1 t.seq } := by
    unfold spin pollAgain
    rw [if_pos hstuck, run_bind_ok h1, run_assign_bind, run_goto]
  have hf := h2.frame
  rw [hs]
  refine ⟨?_, ?_, ?_, h2.sends.congr rfl rfl⟩
  · rw [hf]; simp only [relabel_relabel]
  · change t.sra.polls + 1 = _
    rw [h2.polls]
  · have hx' : t.env.xferFail = [] := h2.xfer
    have hd : t.dev = { s.dev with phase := .off } := by rw [hf]
    have hl' : t.pollLimit = none := by rw [hf]; exact hl
    simp only [State.stuck, hd, hx', hl', List.isEmpty_nil, Bool.and_eq_true, decide_eq_true_eq]
    exact ⟨⟨⟨hp, hb⟩, trivial⟩, trivial⟩

/-! ### The wait -/

/-- `t` is `s` after a wait in which `k` polls read busy and the last one read idle. -/
structure Waited (k : Nat) (s t : State) : Prop where
  frame : t = { s with sra := t.sra, env := t.env, trace := t.trace, cs := false, seq := relabel .WT2 s.seq,
                       dev := { s.dev with pend := .none, wel := t.dev.wel, busyFor := t.dev.busyFor, phase := .off } }
  xfer : t.PXfer
  latencies : t.env.latencies = s.env.latencies
  sends : Sends (List.replicate (k + 1) [0x05, 0xFF]) s t
  latch : s.dev.pend = .none → t.dev.wel = s.dev.wel

/-- The device is idle, or its cycle is over after `k` more polls. -/
def Device.readyAfter (d : Device) (k : Nat) : Prop :=
  (d.pend = .none ∧ k = 0) ∨ (d.pend ≠ .none ∧ d.busyFor = some k)

theorem waitLoop_ok {s : State} {k fuel : Nat} (hx : s.PXfer) (hc : s.PClean) (hk : s.dev.readyAfter k)
    (hfuel : k < fuel) (hl : ∀ n, s.pollLimit = some n → s.sra.polls + k < n) :
    ∃ t, waitLoop fuel s = .ok () t ∧ Waited k s t := by
  induction k generalizing s fuel with
  | zero =>
    obtain ⟨fuel, rfl⟩ : ∃ f, fuel = f + 1 := ⟨fuel - 1, by omega⟩
    obtain ⟨w, t, h1, h2⟩ := poll_ok hx (.inl hc)
    have hlook : (s.dev.looked w).1 = false ∧ ∃ w' b, (s.dev.looked w).2 =
        { s.dev with pend := .none, wel := w', busyFor := b } ∧ (s.dev.pend = .none → w' = s.dev.wel) := by
      rcases hk with ⟨hp, -⟩ | ⟨hp, hb⟩
      · rw [looked_idle w hp]
        exact ⟨rfl, s.dev.wel, s.dev.busyFor, by rw [← hp], fun _ => rfl⟩
      · rw [looked_ends w hp hb]; exact ⟨rfl, w, s.dev.busyFor, rfl, fun h => absurd h hp⟩
    obtain ⟨hf, w', b, hd, hw'⟩ := hlook
    refine ⟨t, ?_, ?_, h2.xfer, h2.latencies, h2.sends, fun h => ?_⟩
    · rw [waitLoop, run_bind_ok h1, hf]; rfl
    · have := h2.frame
      rw [hd] at this
      rw [this]
    · have := h2.frame
      rw [hd] at this
      rw [this]; exact hw' h
  | succ k ih =>
    obtain ⟨fuel, rfl⟩ : ∃ f, fuel = f + 1 := ⟨fuel - 1, by omega⟩
    obtain ⟨w, t, h1, h2⟩ := poll_ok hx (.inl hc)
    obtain ⟨hp, hb⟩ : s.dev.pend ≠ .none ∧ s.dev.busyFor = some (k + 1) := by
      rcases hk with ⟨-, h⟩ | h
      · cases h
      · exact h
    rw [looked_runs w hp hb] at h1 h2
    let t' : State := { t with sra := { t.sra with polls := t.sra.polls + 1 }, seq := relabel .WT1 t.seq }
    have hdev : t.dev = { s.dev with busyFor := some k, phase := .off } := by rw [h2.frame]
    have hlim : t.pollLimit = s.pollLimit := by rw [h2.frame]
    obtain ⟨u, h3, h4⟩ := ih (s := t') (fuel := fuel) h2.xfer (by change t.dev.poisoned = false; rw [hdev]; exact hc)
      (by right; change t.dev.pend ≠ _ ∧ t.dev.busyFor = _; rw [hdev]; exact ⟨hp, rfl⟩) (by omega)
      (by
        intro n hn
        have h1' := hl n (by rw [← hlim]; exact hn)
        change t.sra.polls + 1 + k < n
        rw [h2.polls]; omega)
    have hnot : pollLimitReached t' = false := by
      unfold pollLimitReached
      change (match t.pollLimit with | some n => _ | none => _) = _
      rw [hlim]
      cases hs : s.pollLimit with
      | none => rfl
      | some n =>
        have := hl n hs
        simp only [decide_eq_false_iff_not]
        change ¬ n ≤ t.sra.polls + 1
        rw [h2.polls]; omega
    refine ⟨u, ?_, ?_, h4.xfer, h4.latencies.trans h2.latencies, ?_, fun h => absurd h hp⟩
    · rw [waitLoop, run_bind_ok h1]
      simp only [if_true]
      rw [run_assign_bind, run_get_bind]
      rw [run_bind_ok (run_require_true _ (b := !pollLimitReached _) (by
        change (!pollLimitReached t') = true; rw [hnot]; rfl)), run_goto_bind]
      exact h3
    · have e1 := h4.frame
      have e2 : t' = { s with sra := t'.sra, env := t.env, trace := t.trace, cs := false,
                              seq := relabel .WT1 (relabel .WT2 s.seq),
                              dev := { s.dev with busyFor := some k, phase := .off } } := by
        simp only [t']; rw [h2.frame]
      rw [e2] at e1
      simp only [relabel_relabel] at e1
      rw [e1]
    · rw [show List.replicate (k + 1 + 1) [(0x05 : Byte), 0xFF] = List.replicate (k + 1) [0x05, 0xFF] ++ [[0x05, 0xFF]] from
        List.replicate_succ']
      exact Sends.trans (h2.sends.congr (t' := t') rfl rfl) h4.sends

/-- `waitUntilReady()` on a device that becomes idle in time: `k + 1` polls, and the device is idle (40 R149). -/
theorem waitUntilReady_ok {s : State} {k : Nat} (hx : s.PXfer) (hc : s.PClean) (hk : s.dev.readyAfter k)
    (hl : ∀ n, s.pollLimit = some n → k < n) :
    ∃ t, waitUntilReady s = .ok () t ∧ Waited k s t := by
  let s0 : State := { s with sra := { s.sra with polls := 0 } }
  have hfuel : k < waitFuel s0 := by
    rcases hk with ⟨-, rfl⟩ | ⟨-, hb⟩
    · unfold waitFuel; omega
    · unfold waitFuel
      change k < _ + s.dev.busyFor.getD 0 + _ + 1
      rw [hb]; simp only [Option.getD_some]; omega
  obtain ⟨t, h1, h2⟩ := waitLoop_ok (s := s0) hx hc hk hfuel (fun n hn => by
    change 0 + k < n
    have := hl n hn
    omega)
  refine ⟨t, ?_, ?_, h2.xfer, h2.latencies, h2.sends.congr rfl rfl, h2.latch⟩
  · unfold waitUntilReady
    rw [run_assign_bind, run_get_bind]; exact h1
  · rw [h2.frame]

/-! ### A wait that never ends -/

/-- What `k` exchanges and no failure leave of the limits of a wait. -/
structure Spent (k : Nat) (s t : State) : Prop where
  limit : t.pollLimit = s.pollLimit
  polls : t.sra.polls = s.sra.polls
  sound : s.env.xferFail = [] → t.env.xferFail = []
  failing : ∀ g r, s.env.xferFail = g :: r → k ≤ g ∧ t.env.xferFail = (g - k) :: r

theorem Spent.trans {j k : Nat} {s t u : State} (h₁ : Spent j s t) (h₂ : Spent k t u) : Spent (j + k) s u where
  limit := h₂.limit.trans h₁.limit
  polls := h₂.polls.trans h₁.polls
  sound h := h₂.sound (h₁.sound h)
  failing g r h := by
    obtain ⟨h3, h4⟩ := h₁.failing g r h
    obtain ⟨h5, h6⟩ := h₂.failing _ r h4
    exact ⟨by omega, by rw [h6, Nat.sub_sub]⟩

theorem xchg_spent {s t : State} {tx rx : Byte} (h : xchg tx s = .ok rx t) : Spent 1 s t := by
  unfold xchg at h
  rcases hx : s.env.xferFail with _ | ⟨_ | n, rest⟩ <;> rw [hx] at h
  · change EStateM.Result.ok (s.exchanged tx).1 (s.exchanged tx).2 = _ at h
    injection h with _ h
    subst h
    exact ⟨s.exchanged_pollLimit tx, by rw [State.exchanged_sra], fun _ => by rw [State.exchanged_xferFail, hx],
      fun g r hg => (by rw [hx] at hg; cases hg)⟩
  · cases h
  · let s' : State := s.mapEnv fun e => { e with xferFail := n :: rest }
    change EStateM.Result.ok (s'.exchanged tx).1 (s'.exchanged tx).2 = _ at h
    injection h with _ h
    subst h
    refine ⟨s'.exchanged_pollLimit tx, by rw [State.exchanged_sra]; rfl, fun h => (by rw [hx] at h; cases h),
      fun g r hg => ?_⟩
    rw [hx] at hg
    injection hg with h1 h2
    subst h1; subst h2
    exact ⟨by omega, by rw [State.exchanged_xferFail]; rfl⟩

theorem xchg_ne_hung {s t : State} {tx : Byte} : xchg tx s ≠ .error .hung t := by
  unfold xchg
  split <;> simp

theorem readStatus_spent {s t : State} {n : BitVec 8} {v : Byte} (h : readStatus n s = .ok v t) : Spent 2 s t := by
  unfold readStatus at h
  simp only [run_bind_eq_ok, run_assign, run_select, run_deselect, run_get, run_pure, EStateM.Result.ok.injEq] at h
  obtain ⟨_, s1, h1, _, s2, ⟨-, rfl⟩, _, s3, ⟨-, rfl⟩, _, s4, h4, rx, s5, h5, _, s6, ⟨-, rfl⟩, _, s7, ⟨-, rfl⟩,
    _, s8, ⟨-, rfl⟩, -, rfl⟩ := h
  have hs1 : s1 = s := by
    unfold require at h1
    split at h1 <;> first | (injection h1 with _ h; exact h.symm) | cases h1
  subst hs1
  have e4 := xchg_spent h4
  have e5 := xchg_spent h5
  have a : Spent 0 s1 (State.selected { s1 with sra := { s1.sra with reg := n } }) :=
    ⟨rfl, rfl, id, fun g _ h => ⟨Nat.zero_le g, h⟩⟩
  have b : Spent 0 s5 (State.deselected { s5 with sra := { s5.sra with value := rx } }) :=
    ⟨by simp, by simp, fun h => by simpa using h, fun g _ h => ⟨Nat.zero_le g, by simpa using h⟩⟩
  exact ((a.trans e4).trans e5).trans b

theorem readStatus_ne_hung {s t : State} {n : BitVec 8} : readStatus n s ≠ .error .hung t := by
  intro h
  unfold readStatus at h
  simp only [run_bind_eq_error, run_assign, run_select, run_deselect, run_get, run_pure, reduceCtorEq, false_or,
    and_false, exists_false, or_false] at h
  rcases h with h | ⟨_, _, -, _, _, -, _, _, -, h | ⟨_, _, -, h⟩⟩
  · unfold require at h
    split at h <;> cases h
  · exact xchg_ne_hung h
  · exact xchg_ne_hung h

theorem busy_spent {s t : State} {b : Bool} (h : busy s = .ok b t) : Spent 2 s t := by
  obtain ⟨_, u, hu, h⟩ := run_bind_eq_ok.1 h
  obtain ⟨w, hw, rfl⟩ := run_callAt_eq_ok.1 hu
  rw [run_pure] at h
  injection h with _ h
  subst h
  have e := readStatus_spent hw
  exact ⟨e.limit, e.polls, e.sound, e.failing⟩

theorem busy_ne_hung {s t : State} : busy s ≠ .error .hung t := by
  intro h
  rcases run_bind_eq_error.1 h with h | ⟨_, _, -, h⟩
  · exact readStatus_ne_hung (run_callAt_eq_error.1 h)
  · cases h

/-- The loop of a wait runs out of polls only where no failure and no POLL_LIMIT ends it earlier. -/
theorem waitLoop_hung {fuel : Nat} {s t : State} (h : waitLoop fuel s = .error .hung t) :
    t.pollLimit = s.pollLimit ∧ (s.env.xferFail = [] → t.env.xferFail = []) ∧
      (∀ g r, s.env.xferFail = g :: r → 2 * fuel ≤ g) ∧
      ∀ n, s.pollLimit = some n → fuel = 0 ∨ s.sra.polls + fuel < n := by
  induction fuel generalizing s with
  | zero =>
    rw [waitLoop, run_hang] at h
    injection h with _ h
    subst h
    exact ⟨rfl, id, fun _ _ _ => Nat.zero_le _, fun _ _ => .inl rfl⟩
  | succ fuel ih =>
    rw [waitLoop, run_bind_eq_error] at h
    rcases h with h | ⟨b, u, hu, h⟩
    · exact absurd (run_callAt_eq_error.1 h) busy_ne_hung
    have hs : Spent 2 s u := by
      obtain ⟨w, hw, rfl⟩ := run_callAt_eq_ok.1 hu
      have e := busy_spent hw
      exact ⟨e.limit, e.polls, e.sound, e.failing⟩
    cases b with
    | false => simp at h
    | true =>
      simp only [if_true, run_assign_bind, run_get_bind] at h
      rw [run_bind_eq_error] at h
      rcases h with h | ⟨_, w, hw, h⟩
      · unfold require at h
        split at h <;> cases h
      unfold require at hw
      split at hw
      · rename_i hlim
        injection hw with _ hw
        subst hw
        rw [run_goto_bind] at h
        obtain ⟨i1, i2, i3, i4⟩ := ih h
        refine ⟨i1.trans hs.limit, fun hx => i2 (hs.sound hx), fun g r hg => ?_, fun n hn => .inr ?_⟩
        · obtain ⟨h5, h6⟩ := hs.failing g r hg
          have := i3 _ r h6
          omega
        · have hn' : u.pollLimit = some n := hs.limit.trans hn
          have hp : u.sra.polls = s.sra.polls := hs.polls
          simp only [pollLimitReached, hn', Bool.not_eq_true', decide_eq_false_iff_not, not_le] at hlim
          rcases i4 n hn' with h7 | h7
          · omega
          · simp only at h7; omega
      · cases hw

/-- A wait that never ends has no failure to come and no POLL_LIMIT (60 R285). -/
theorem waitUntilReady_hung {s t : State} (h : waitUntilReady s = .error .hung t) :
    t.pollLimit = none ∧ t.env.xferFail = [] := by
  unfold waitUntilReady at h
  rw [run_assign_bind, run_get_bind] at h
  obtain ⟨h1, h2, h3, h4⟩ := waitLoop_hung h
  simp only [waitFuel] at h1 h2 h3 h4
  refine ⟨?_, ?_⟩
  · rw [h1]
    cases hp : s.pollLimit with
    | none => rfl
    | some n =>
      have := h4 n hp
      simp only [hp, Option.getD_some] at this
      omega
  · cases hx : s.env.xferFail with
    | nil => exact h2 hx
    | cons g r =>
      have := h3 g r hx
      simp only [hx, List.headD_cons] at this
      omega

end Sys2Proof.Machine
end

