-- ==== Sys2Proof/Laws/Program.lean ====
section
/-! SUPPORT. What `programPage` does on an idle device when no exchange fails (42 R172 to R177, 46 R236). -/

namespace Sys2Proof.Machine

/-- Byte `index` of a data source (42 R172). -/
def sourceAt (data : List Byte) (src : Source) (sb : Memory) (index : Nat) : Byte :=
  match src with
  | .caller => data.getD index (Config.freeByte index)
  | .scratch => sb.read index

/-- `n` bytes of a data source from `base` on. -/
def sourceBytes (data : List Byte) (src : Source) (sb : Memory) (base : Nat) : Nat → List Byte
  | 0 => []
  | n + 1 => sourceAt data src sb base :: sourceBytes data src sb (base + 1) n

@[simp] theorem length_sourceBytes (data : List Byte) (src : Source) (sb : Memory) (base n : Nat) :
    (sourceBytes data src sb base n).length = n := by
  induction n generalizing base with
  | zero => rfl
  | succ n ih => simp [sourceBytes, ih]

theorem getD_sourceBytes (data : List Byte) (src : Source) (sb : Memory) (base n i : Nat) (h : i < n) (x : Byte) :
    (sourceBytes data src sb base n).getD i x = sourceAt data src sb (base + i) := by
  induction n generalizing base i with
  | zero => omega
  | succ n ih =>
    cases i with
    | zero => rfl
    | succ i => rw [sourceBytes, List.getD_cons_succ, ih _ _ (by omega), Nat.add_right_comm, Nat.add_assoc]

/-- The caller's buffer, taken whole. -/
theorem sourceBytes_caller (data : List Byte) (sb : Memory) :
    sourceBytes data .caller sb 0 data.length = data := by
  apply List.ext_getElem
  · simp
  · intro i h1 h2
    have := getD_sourceBytes data .caller sb 0 data.length i h2 0
    rw [List.getD_eq_getElem _ _ h1] at this
    rw [this, sourceAt, Nat.zero_add, List.getD_eq_getElem _ _ h2]

theorem sourceByte_eq (data : List Byte) (s : State) :
    sourceByte data s = sourceAt data s.pp.src s.sb (s.pp.srcBase.toNat + s.pp.i.toNat) := rfl

/-- The data phase (42 R172, PG7). -/
theorem streamPage_ok {s : State} {data : List Byte} {count a : Nat} {r : List Byte} (hx : s.PXfer)
    (hp : s.dev.phase = .dataIn a r) (hi : s.pp.i.toNat + count ≤ 256) :
    streamPage data count s = .ok ()
      (({ s with pp := { s.pp with i := s.pp.i + BitVec.ofNat 9 count } } : State).pushedAll
        (sourceBytes data s.pp.src s.sb (s.pp.srcBase.toNat + s.pp.i.toNat) count)) := by
  induction count generalizing s r with
  | zero =>
    rw [show s.pp.i + BitVec.ofNat 9 0 = s.pp.i from BitVec.add_zero _]; rfl
  | succ count ih =>
    have hsink : s.dev.phase.sink = true := by rw [hp]; rfl
    let b := sourceAt data s.pp.src s.sb (s.pp.srcBase.toNat + s.pp.i.toNat)
    let s1 : State := { s.pushed b with pp := { s.pp with i := s.pp.i + 1 } }
    have hi1 : (s.pp.i + 1).toNat = s.pp.i.toNat + 1 := by rw [BitVec.toNat_add]; simp; omega
    have hp1 : s1.dev.phase = .dataIn a (b :: r) := by
      change Phase.next _ b s.dev.phase = _
      rw [hp]; rfl
    have h := ih (s := s1) hx hp1 (by change (s.pp.i + 1).toNat + count ≤ 256; omega)
    have hadd : s1.pp.i + BitVec.ofNat 9 count = s.pp.i + BitVec.ofNat 9 (count + 1) := by
      apply BitVec.eq_of_toNat_eq
      change (s.pp.i + 1 + BitVec.ofNat 9 count).toNat = _
      simp only [BitVec.toNat_add, BitVec.toNat_ofNat] at *
      omega
    rw [hadd] at h
    rw [streamPage, run_get_bind, run_bind_ok (xchg_sink hx hsink _), run_assign_bind]
    change streamPage data count s1 = _
    rw [h, sourceBytes, pushedAll_cons]
    change EStateM.Result.ok () (State.pushedAll _ (sourceBytes data s.pp.src s.sb
      (s.pp.srcBase.toNat + (s.pp.i + 1).toNat) count)) = _
    rw [hi1]
    rfl

/-- Bytes sent with the device in a phase that takes in an address. -/
theorem sendAddr_ok {s : State} {c : AddressCommand} (a : Address) (hx : s.PXfer)
    (hp : s.dev.phase = .address c s.dd.addressWidth.bytes 0) :
    sendAddr a s = .ok () (s.pushedAll (addressBytes s.dd.addressWidth a)) := by
  rw [sendAddr, run_get_bind]
  exact sendBytes_sink hx (by rw [hp]; exact addressBytes_sinks _ _ _)

/-- The state in which the program transaction of `bytes` at `a` ends, before `Deselect()`. -/
def State.programSent (s : State) (a : Address) (bytes : List Byte) : State :=
  (s.selected.pushed 0x02).pushedAll (addressBytes s.dd.addressWidth a ++ bytes)

theorem pushedAll_append (s : State) (xs ys : List Byte) :
    s.pushedAll (xs ++ ys) = (s.pushedAll xs).pushedAll ys := by
  induction xs generalizing s with
  | nil => rfl
  | cons x xs ih => rw [List.cons_append, pushedAll_cons, pushedAll_cons, ih]

theorem programSent_phase (s : State) (a : Address) (bytes : List Byte) :
    (s.programSent a bytes).dev.phase =
      .dataIn (a.toNat % 2 ^ (8 * s.dd.addressWidth.bytes)) bytes.reverse := by
  change Phase.after s.dd.addressWidth (Phase.next s.dd.addressWidth 0x02 .command) _ = _
  rw [next_pageProgram, Phase.after_append]
  rw [addressBytes_after, addressedPhase, dataIn_after, List.append_nil]

theorem pushedAll_trace (s : State) (bs : List Byte) :
    (s.pushedAll bs).trace = pushTrace s.env.drawn bs [] ++ s.trace := pushTrace_append _ _ _

/-- A transaction of a command byte and bytes that the device only takes in. -/
theorem sends_pushed {s : State} (c : Byte) (bs : List Byte) :
    Sends [c :: bs] s ((s.selected.pushed c).pushedAll bs).deselected := by
  refine Sends.transaction (evs := pushTrace (s.env.drawn + 1) bs [] ++ [.xchg c (Config.freeByte s.env.drawn)])
    (fun e he => ?_) ?_ ?_
  · rcases List.mem_append.1 he with he | he
    · exact pushTrace_isXchg _ _ e he
    · simp only [List.mem_singleton] at he; subst he; rfl
  · rw [bytesSent_append, bytesSent_pushTrace]; rfl
  · rw [State.deselected_trace, pushedAll_trace, List.append_assoc]
    rfl

/-- The device programs the bytes it has received, if there is one (46 R236). -/
theorem programSent_deselected {s : State} {a : Address} {bytes : List Byte} (hc : s.PClean) (hr : s.PReady)
    (hm : s.PMode) (hz : s.PAwake) (hd : s.PDesc) (hw : s.dev.wel = true) (hpage : a.toNat % 256 + bytes.length ≤ 256)
    (hcap : a.toNat + bytes.length ≤ s.dd.capacityBytes) (hne : bytes ≠ []) :
    (s.programSent a bytes).deselected =
      { s.programSent a bytes with
        cs := false
        dev := { s.dev with flash := s.dev.flash.program a.toNat bytes, pend := .program,
                            busyFor := s.env.latencies.headD (some 0), phase := .off }
        env := { (s.programSent a bytes).env with latencies := s.env.latencies.tail }
        trace := .deselect :: (s.programSent a bytes).trace } := by
  have hlen : 0 < bytes.length := List.length_pos_iff.2 hne
  have ha : a.toNat % 2 ^ (8 * s.dd.addressWidth.bytes) = a.toNat := Nat.mod_eq_of_lt (by
    have := hd.2.2; omega)
  have hphase := programSent_phase s a bytes
  rw [ha] at hphase
  have hact : (s.programSent a bytes).act =
      ((s.programSent a bytes).mapDev fun d => { d with flash := d.flash.program a.toNat bytes }).startCycle
        .program := by
    rw [act_dataIn hphase, whenIdle_ready _ (by exact hc) (by exact hr), List.reverse_reverse]
    unfold State.actProgram
    have h1 : (s.programSent a bytes).writable = true := (State.writable_iff _).2 ⟨hm, hz⟩
    have h2 : (s.programSent a bytes).dev.wel = true := hw
    have h3 : (s.programSent a bytes).dd.capacityBytes = s.dd.capacityBytes := rfl
    rw [h1, h2, h3, if_neg (by simp; omega), if_neg (by simpa using hne)]
  rw [deselected_of_act hact]
  rfl

/-- What a page program leaves: `bytes` ANDed onto the flash from `a` on, the device idle, and the working registers
of PP and SRA, the environment, the trace and `WEL` changed beside. -/
structure Programs (a : Nat) (bytes : List Byte) (s t : State) : Prop where
  frame : t = { s with pp := t.pp, sra := t.sra, env := t.env, trace := t.trace, cs := false,
                       seq := relabel .PG10 s.seq,
                       dev := { s.dev with flash := s.dev.flash.program a bytes, wel := t.dev.wel, pend := .none,
                                           busyFor := t.dev.busyFor, phase := .off } }
  xfer : t.PXfer
  addr : t.pp.addr.toNat = a
  len : t.pp.len.toNat = bytes.length
  i : t.pp.i.toNat = bytes.length

/-- A wait on the next cycle of the device returns (`P_fair`). -/
theorem fair_head {s : State} (hf : s.PFair) (hl : s.PLimit) :
    ∃ k, s.env.latencies.headD (some 0) = some k ∧ ∀ n, s.pollLimit = some n → k < n := by
  have key : s.endsInTime (s.env.latencies.headD (some 0)) = true := by
    cases h : s.env.latencies with
    | nil =>
      unfold State.endsInTime
      simp only [List.headD_nil]
      cases hp : s.pollLimit with
      | none => rfl
      | some n => have := hl n hp; simp only [decide_eq_true_eq]; omega
    | cons k ks => exact hf k (by rw [h]; simp)
  cases h : s.env.latencies.headD (some 0) with
  | none => rw [h] at key; cases key
  | some k =>
    rw [h] at key
    refine ⟨k, rfl, fun n hn => ?_⟩
    simp only [State.endsInTime, hn, decide_eq_true_eq] at key
    exact key

/-- `programPage` of at least one byte inside one page and the array (42 R172, R177): one WriteEnable, one PageProgram,
one poll more than the cycle outlasts. -/
theorem programPage_ok {s : State} {data : List Byte} {src : Source} {srcBase : BitVec 32} {a : Address}
    {len : BitVec 32} (hx : s.PXfer) (hc : s.PClean) (hr : s.PReady) (hm : s.PMode) (hz : s.PAwake) (hd : s.PDesc)
    (hf : s.PFair) (hl : s.PLimit) (hpage : a.toNat % 256 + len.toNat ≤ 256)
    (hcap : a.toNat + len.toNat ≤ s.dd.capacityBytes) (hne : 0 < len.toNat) :
    ∃ k t, s.env.latencies.headD (some 0) = some k ∧ programPage data src srcBase a len s = .ok () t ∧
      Programs a.toNat (sourceBytes data src s.sb srcBase.toNat len.toNat) s t ∧
      t.env.latencies = s.env.latencies.tail ∧
      Sends (List.replicate (k + 1) [0x05, 0xFF] ++ [0x02 :: (addressBytes s.dd.addressWidth a ++
        sourceBytes data src s.sb srcBase.toNat len.toNat), [0x06]]) s t ∧
      t.pp.src = src ∧ t.pp.srcBase = srcBase := by
  obtain ⟨k, hk, hklim⟩ := fair_head hf hl
  let bytes := sourceBytes data src s.sb srcBase.toNat len.toNat
  have hblen : bytes.length = len.toNat := length_sourceBytes ..
  have hlen9 : (BitVec.ofNat 9 len.toNat).toNat = len.toNat := by rw [BitVec.toNat_ofNat]; omega
  -- PG0: the registers
  let s1 : State := { s with pp := { s.pp with addr := a, len := BitVec.ofNat 9 len.toNat, src := src,
                                               srcBase := srcBase } }
  have hpage1 : withinPage s1.pp.addr.toNat len.toNat = true := by simpa [withinPage, s1] using hpage
  have hcap1 : withinCapacity s1 s1.pp.addr.toNat len.toNat = true := by simpa [withinCapacity, s1] using hcap
  -- PG3: the latch
  let s2 : State := { s1.sentOne 0x06 { s1.dev with wel := true } with seq := relabel .PG4 s.seq }
  have h2 : callAt .PG3 .enable enable s1 = .ok () s2 := callEnable_ok .PG3 hx hc hr
  -- PG4 to PG8: the transaction
  have h3 : xchg 0x02 s2.selected = .ok (Config.freeByte s2.env.drawn) (s2.selected.pushed 0x02) :=
    xchg_sink (s := s2.selected) hx rfl 0x02
  let s3 : State := s2.selected.pushed 0x02
  have hp3 : s3.dev.phase = .address .pageProgram s3.dd.addressWidth.bytes 0 := next_pageProgram _
  have h4 : sendAddr a s3 = .ok () (s3.pushedAll (addressBytes s3.dd.addressWidth a)) := sendAddr_ok a hx hp3
  let s4 : State := s3.pushedAll (addressBytes s3.dd.addressWidth a)
  let s5 : State := { s4 with pp := { s4.pp with i := 0 } }
  have hp5 : s5.dev.phase = .dataIn (a.toNat % 2 ^ (8 * s3.dd.addressWidth.bytes)) [] := by
    change Phase.after s3.dd.addressWidth s3.dev.phase _ = _
    rw [hp3, addressBytes_after, addressedPhase]
  have h5 := streamPage_ok (s := s5) (data := data) (count := len.toNat) hx hp5 (by
    change (0 : BitVec 9).toNat + len.toNat ≤ 256; simp; omega)
  let sp : State := { s2 with pp := { s5.pp with i := s5.pp.i + BitVec.ofNat 9 len.toNat } }
  have h5' : streamPage data s5.pp.len.toNat s5 = .ok () (sp.programSent a bytes) := by
    change streamPage data (BitVec.ofNat 9 len.toNat).toNat s5 = _
    rw [hlen9, h5, State.programSent, pushedAll_append]
    rfl
  have h6 := programSent_deselected (s := sp) (a := a) (bytes := bytes) hc hr hm hz hd rfl
    (by rw [hblen]; exact hpage) (by rw [hblen]; exact hcap) (by rw [← List.length_pos_iff, hblen]; exact hne)
  let s6 := (sp.programSent a bytes).deselected
  have hs6 : s6 = (sp.programSent a bytes).deselected := rfl
  have hd6 : s6.dev = { s.dev with flash := s.dev.flash.program a.toNat bytes, wel := true, pend := .program,
                                   busyFor := some k, phase := .off } := by
    rw [hs6, h6, ← hk]; rfl
  have hl6 : s6.env.latencies = s.env.latencies.tail := by rw [hs6, h6]; rfl
  have hx6 : s6.PXfer := by rw [hs6, h6]; exact hx
  have hlim6 : s6.pollLimit = s.pollLimit := by rw [hs6, h6]; rfl
  have hsend6 : Sends [0x02 :: (addressBytes s.dd.addressWidth a ++ bytes), [0x06]] s s6 :=
    ((sentOne_sends s1 0x06 { s1.dev with wel := true }).congr (s' := s) (t' := s2) rfl rfl).trans
      ((sends_pushed (s := sp) 0x02 (addressBytes sp.dd.addressWidth a ++ bytes)).congr rfl rfl)
  have hframe6 : s6 = { s with pp := s6.pp, env := s6.env, trace := s6.trace, cs := false,
                               seq := relabel .PG4 s.seq, dev := s6.dev } := by
    rw [hs6, h6]; rfl
  -- PG9: the wait
  let s7 : State := { s6 with seq := { proc := .waitUntilReady, label := .WT0 } :: relabel .PG9 s6.seq }
  obtain ⟨t, h7, h8⟩ := waitUntilReady_ok (s := s7) (k := k) hx6
    (by change s6.dev.poisoned = false; rw [hd6]; exact hc)
    (by right; change s6.dev.pend ≠ _ ∧ s6.dev.busyFor = _; rw [hd6]; exact ⟨by simp, rfl⟩)
    (by intro n hn; exact hklim n (by rw [← hlim6]; exact hn))
  have hpp : t.pp = { src := src, srcBase := srcBase, addr := a, len := BitVec.ofNat 9 len.toNat,
                      i := 0 + BitVec.ofNat 9 len.toNat } := by
    rw [h8.frame]
    change s6.pp = _
    rw [hs6, h6]
    rfl
  have hi : (0 + BitVec.ofNat 9 len.toNat).toNat = len.toNat := by
    rw [show (0 : BitVec 9) + BitVec.ofNat 9 len.toNat = BitVec.ofNat 9 len.toNat from BitVec.zero_add _, hlen9]
  refine ⟨k, { t with seq := relabel .PG10 s6.seq }, hk, ?_, ⟨?_, h8.xfer, ?_, ?_, ?_⟩, h8.latencies.trans hl6,
    hsend6.trans (h8.sends.congr rfl rfl), ?_, ?_⟩
  · unfold programPage
    rw [run_assign_bind]
    change (get >>= _ : M Unit) s1 = _
    rw [run_get_bind, run_bind_ok (run_require_true s1 hpage1), run_bind_ok (run_require_true s1 hcap1),
      run_bind_ok h2, run_select_bind, run_bind_ok h3, run_get_bind]
    change (sendAddr a >>= _ : M Unit) s3 = _
    rw [run_bind_ok h4, run_assign_bind, run_get_bind]
    change (streamPage data s5.pp.len.toNat >>= _ : M Unit) s5 = _
    rw [run_bind_ok h5', run_deselect_bind]
    exact run_callAt_ok s6 h7
  · have e := h8.frame
    have e7 : s7.dev = s6.dev := rfl
    rw [e7, hd6] at e
    rw [e]
    simp only [s7]
    rw [hframe6]
    simp only [relabel_relabel, bytes]
  · rw [hpp]
  · rw [hpp, hblen]; exact hlen9
  · rw [hpp, hblen]; exact hi
  · rw [hpp]
  · rw [hpp]

end Sys2Proof.Machine
end

