-- ==== Sys2Proof/Laws/Span.lean ====
section
/-! SUPPORT. What `writeAssumingBlank` does on an idle device when no exchange fails (43 R181 to R186). -/

namespace Sys2Proof.Machine

/-! ### Counting commands -/

/-- The commands of whole transactions: so many sector reads and programs, and the SectorErase transactions `erases`;
a WriteEnable for each erase and program, two waits for each erase and one for each program (45 R216). -/
structure Counts (txs : List (List Byte)) (reads : Nat) (erases : List (List Byte)) (programs : Nat) : Prop where
  read : (commandBytes txs).count 0x03 = reads
  erase : eraseCommands txs = erases
  program : (commandBytes txs).count 0x02 = programs
  enable : (commandBytes txs).count 0x06 = erases.length + programs
  poll : 2 * erases.length + programs ≤ (commandBytes txs).count 0x05
  only : ∀ c ∈ commandBytes txs, c ∈ [0x03, 0x06, 0x05, 0x02, (0x20 : Byte)]

theorem commandBytes_append (xs ys : List (List Byte)) :
    commandBytes (xs ++ ys) = commandBytes xs ++ commandBytes ys := List.filterMap_append

theorem eraseCommands_append (xs ys : List (List Byte)) :
    eraseCommands (xs ++ ys) = eraseCommands xs ++ eraseCommands ys := List.filter_append ..

theorem commandBytes_replicate (n : Nat) (c : Byte) (bs : List Byte) :
    commandBytes (List.replicate n (c :: bs)) = List.replicate n c := by
  induction n with
  | zero => rfl
  | succ n ih => rw [List.replicate_succ, List.replicate_succ, ← ih]; rfl

theorem Counts.nil : Counts [] 0 [] 0 := ⟨rfl, rfl, rfl, rfl, by simp, by simp [commandBytes]⟩

theorem Counts.append {c₁ c₂ e₁ e₂ : List (List Byte)} {r₁ p₁ r₂ p₂ : Nat} (h₁ : Counts c₁ r₁ e₁ p₁)
    (h₂ : Counts c₂ r₂ e₂ p₂) : Counts (c₂ ++ c₁) (r₁ + r₂) (e₂ ++ e₁) (p₁ + p₂) := by
  obtain ⟨a1, a2, a3, a4, a5, a6⟩ := h₁
  obtain ⟨b1, b2, b3, b4, b5, b6⟩ := h₂
  refine ⟨?_, ?_, ?_, ?_, ?_, ?_⟩
  · rw [commandBytes_append, List.count_append]; omega
  · rw [eraseCommands_append, a2, b2]
  · rw [commandBytes_append, List.count_append]; omega
  · rw [commandBytes_append, List.count_append, List.length_append]; omega
  · rw [commandBytes_append, List.count_append, List.length_append]; omega
  · intro c hc
    rw [commandBytes_append] at hc
    rcases List.mem_append.1 hc with hc | hc
    · exact b6 c hc
    · exact a6 c hc

theorem eraseCommands_polls (n : Nat) : eraseCommands (List.replicate n [0x05, 0xFF]) = [] := by
  induction n with
  | zero => rfl
  | succ n ih => rw [List.replicate_succ, eraseCommands, List.filter_cons]; exact ih

theorem Counts.onePage (k : Nat) (bs : List Byte) :
    Counts (List.replicate (k + 1) [0x05, 0xFF] ++ [0x02 :: bs, [0x06]]) 0 [] 1 := by
  have hc : commandBytes (List.replicate (k + 1) [0x05, 0xFF] ++ [0x02 :: bs, [0x06]]) =
      List.replicate (k + 1) 0x05 ++ [0x02, 0x06] := by
    rw [commandBytes_append, commandBytes_replicate]; rfl
  refine ⟨?_, ?_, ?_, ?_, ?_, ?_⟩
  · rw [hc]; simp [List.count_append, List.count_replicate]
  · rw [eraseCommands_append, eraseCommands_polls]; rfl
  · rw [hc]; simp [List.count_append, List.count_replicate]
  · rw [hc]; simp [List.count_append, List.count_replicate]
  · rw [hc]; simp [List.count_append]
  · rw [hc]
    intro c hc
    rcases List.mem_append.1 hc with hc | hc
    · rw [List.eq_of_mem_replicate hc]; simp
    · fin_cases hc <;> simp

/-! ### States between two transactions -/

/-- A request that meets the launch premises is under way, between two transactions, on an idle device. -/
structure State.Usable (s : State) : Prop where
  cs : s.cs = false
  phase : s.dev.phase = .off
  ready : s.PReady
  mode : s.PMode
  awake : s.PAwake
  desc : s.PDesc
  clean : s.PClean
  xfer : s.PXfer
  fair : s.PFair
  limit : s.PLimit

/-- The premises hold again after steps that leave the device idle. -/
theorem State.Usable.carry {s t : State} (h : s.Usable) (hdd : t.dd = s.dd) (hpl : t.pollLimit = s.pollLimit)
    (hcs : t.cs = false) (hph : t.dev.phase = .off) (hpe : t.dev.pend = .none) (had : t.dev.ads = s.dev.ads)
    (hz : t.dev.asleep = s.dev.asleep) (hg : t.dev.guarded = s.dev.guarded) (hpo : t.dev.poisoned = s.dev.poisoned) (hx : t.PXfer) (hl : ∀ k ∈ t.env.latencies, k ∈ s.env.latencies) :
    t.Usable where
  cs := hcs
  phase := hph
  ready := hpe
  mode := by have := h.mode; unfold State.PMode State.modeMatches at *; rwa [had, hdd]
  awake := by have := h.awake; unfold State.PAwake at *; rwa [hz, hg]
  desc := by have := h.desc; unfold State.PDesc at *; rwa [hdd]
  clean := by have := h.clean; unfold State.PClean at *; rwa [hpo]
  xfer := hx
  fair := fun k hk => by
    have := h.fair k (hl k hk)
    unfold State.endsInTime at *; rwa [hpl]
  limit := by have := h.limit; unfold State.PLimit at *; rwa [hpl]

/-- The premises do not look at the sequencer. -/
theorem State.Usable.reseq {s : State} (h : s.Usable) (q : List Frame) : ({ s with seq := q } : State).Usable :=
  ⟨h.cs, h.phase, h.ready, h.mode, h.awake, h.desc, h.clean, h.xfer, h.fair, h.limit⟩

/-! ### Bytes and addresses -/

theorem sourceBytes_add (data : List Byte) (src : Source) (sb : Memory) (base n m : Nat) :
    sourceBytes data src sb base (n + m) =
      sourceBytes data src sb base n ++ sourceBytes data src sb (base + n) m := by
  induction n generalizing base with
  | zero => simp [sourceBytes]
  | succ n ih =>
    rw [Nat.add_right_comm, sourceBytes, sourceBytes, ih, List.cons_append, Nat.add_assoc base 1 n, Nat.add_comm 1 n]

theorem Memory.program_append (m : Memory) (a : Nat) (xs ys : List Byte) :
    m.program a (xs ++ ys) = (m.program a xs).program (a + xs.length) ys := by
  induction xs generalizing m a with
  | nil => rfl
  | cons x xs ih =>
    rw [List.cons_append, Memory.program, Memory.program, ih, List.length_cons, Nat.add_assoc, Nat.add_comm 1]

theorem pagesTouched_zero (a : Nat) : pagesTouched a 0 = 0 := rfl

/-- The pages of a span: that of the first chunk and those of the rest (43 R181). -/
theorem pagesTouched_step {a rem n : Nat} (hr : 0 < rem) (hn : n = min rem (256 - a % 256)) :
    pagesTouched a rem = 1 + pagesTouched (a + n) (rem - n) := by
  unfold pagesTouched
  rw [if_neg (by omega)]
  rcases Nat.le_total rem (256 - a % 256) with h | h
  · rw [Nat.min_eq_left h] at hn
    rw [if_pos (by omega)]; omega
  · rw [Nat.min_eq_right h] at hn
    split_ifs <;> omega

theorem programCommands_append (xs ys : List (List Byte)) :
    programCommands (xs ++ ys) = programCommands xs ++ programCommands ys := List.filter_append ..

theorem programCommands_onePage (k : Nat) (bs : List Byte) :
    programCommands (List.replicate (k + 1) [0x05, 0xFF] ++ [0x02 :: bs, [0x06]]) = [0x02 :: bs] := by
  have h : ∀ n, programCommands (List.replicate n [0x05, 0xFF]) = [] := by
    intro n
    induction n with
    | zero => rfl
    | succ n ih => rw [List.replicate_succ, programCommands, List.filter_cons]; exact ih
  rw [programCommands_append, h]; rfl

/-- The programs of a span: that of the first chunk and those of the rest (43 R181, R186). -/
theorem pagePrograms_step {aw : AddressWidth} {a : Nat} {xs ys : List Byte} (hx : 0 < xs.length)
    (hn : xs.length = min (xs.length + ys.length) (256 - a % 256)) :
    pagePrograms aw a (xs ++ ys) = (0x02 :: (addressBytes aw (BitVec.ofNat 32 a) ++ xs)) ::
      pagePrograms aw (a + xs.length) ys := by
  unfold pagePrograms
  rw [List.length_append, pagesTouched_step (by omega) hn, Nat.add_comm 1, List.range_succ_eq_map, List.map_cons,
    List.map_map, Nat.add_sub_cancel_left]
  congr 1
  · have h1 : pageStart a 0 = a := rfl
    have h2 : pageLength a (xs.length + ys.length) 0 = xs.length := by
      unfold pageLength; rw [h1]; omega
    rw [h1, h2, Nat.sub_self, List.drop_zero, List.take_left]
  · refine List.map_congr_left fun j hj => ?_
    have hpos : 0 < ys.length := by
      rcases Nat.eq_zero_or_pos ys.length with h | h
      · rw [h] at hj; cases hj
      · exact h
    have hb : (a + xs.length) / 256 = a / 256 + 1 ∧ (a + xs.length) % 256 = 0 := by
      rcases Nat.le_total (xs.length + ys.length) (256 - a % 256) with h | h <;> omega
    have h1 : pageStart a (j + 1) = pageStart (a + xs.length) j := by
      unfold pageStart
      rw [if_neg (by omega)]
      split_ifs <;> omega
    have h2 : pageLength a (xs.length + ys.length) (j + 1) = pageLength (a + xs.length) ys.length j := by
      unfold pageLength
      rw [h1, hb.1, show a + (xs.length + ys.length) = a + xs.length + ys.length by omega,
        show a / 256 + (j + 1) + 1 = a / 256 + 1 + j + 1 by omega]
    have h3 : a + xs.length ≤ pageStart (a + xs.length) j := by
      unfold pageStart; split_ifs <;> omega
    simp only [Function.comp, Nat.succ_eq_add_one]
    rw [h1, h2, show pageStart (a + xs.length) j - a = xs.length + (pageStart (a + xs.length) j - (a + xs.length)) by
      omega, List.drop_append, List.drop_eq_nil_of_le (by omega), List.nil_append, Nat.add_sub_cancel_left]

/-! ### The loop -/

/-- What a span of programs leaves. -/
structure Spans (a : Nat) (bytes : List Byte) (s t : State) : Prop where
  frame : t = { s with psw := t.psw, pp := t.pp, sra := t.sra, env := t.env, trace := t.trace, seq := t.seq,
                       dev := { s.dev with flash := s.dev.flash.program a bytes, wel := t.dev.wel,
                                           busyFor := t.dev.busyFor } }
  xfer : t.PXfer
  latencies : ∀ k ∈ t.env.latencies, k ∈ s.env.latencies
  sends : ∃ txs, Sends txs s t ∧ Counts txs 0 [] (pagesTouched a bytes.length) ∧
    programCommands txs = (pagePrograms s.dd.addressWidth a bytes).reverse

theorem Spans.usable {a : Nat} {bytes : List Byte} {s t : State} (h : Spans a bytes s t) (hs : s.Usable) :
    t.Usable := by
  have e := h.frame
  exact hs.carry (by rw [e]) (by rw [e]) (by rw [e]; exact hs.cs) (by rw [e]; exact hs.phase)
    (by rw [e]; exact hs.ready) (by rw [e]) (by rw [e]) (by rw [e]) (by rw [e]) h.xfer h.latencies

/-- One chunk (43 R182, SP4 to SP7). -/
theorem spanChunk_ok {s : State} {data : List Byte} {n : Nat} (hs : s.Usable)
    (hn : n = min s.psw.remaining.toNat s.psw.pageRemain.toNat)
    (hpr : s.psw.pageRemain.toNat = 256 - s.psw.addr.toNat % 256)
    (hcap : s.psw.addr.toNat + s.psw.remaining.toNat ≤ s.dd.capacityBytes)
    (hrem : 0 < s.psw.remaining.toNat) (hsrc : s.psw.srcBase.toNat + s.psw.pos.toNat < 2 ^ 32) :
    ∃ t, spanChunk data s = .ok () t ∧
      Spans s.psw.addr.toNat
        (sourceBytes data s.psw.src s.sb (s.psw.srcBase.toNat + s.psw.pos.toNat) n) s t ∧
      t.psw = { s.psw with n := BitVec.ofNat 9 n, addr := s.psw.addr + BitVec.ofNat 32 n,
                           pos := s.psw.pos + BitVec.ofNat 32 n, remaining := s.psw.remaining - BitVec.ofNat 32 n,
                           pageRemain := 256 } := by
  have h1n : 1 ≤ n := by omega
  have hn256 : n ≤ 256 := by omega
  let s1 : State := { s with psw := { s.psw with n := BitVec.ofNat 9 n } }
  have hn9 : s1.psw.n.toNat = n := by
    change (BitVec.ofNat 9 n).toNat = n; rw [BitVec.toNat_ofNat]; omega
  let s2 : State := { s1 with seq := { proc := .programPage, label := .PG0 } :: relabel .SP5 s1.seq }
  have hn32 : (BitVec.ofNat 32 n).toNat = n := by rw [BitVec.toNat_ofNat]; omega
  obtain ⟨k, t, hk, h1, h2, h3, h4, -, -⟩ := programPage_ok (s := s2) (data := data) (src := s.psw.src)
    (srcBase := s.psw.srcBase + s.psw.pos) (a := s.psw.addr) (len := BitVec.ofNat 32 n)
    hs.xfer hs.clean hs.ready hs.mode hs.awake hs.desc hs.fair hs.limit (by rw [hn32]; omega)
    (by rw [hn32]; change _ ≤ s.dd.capacityBytes; omega) (by omega)
  have hbase : (s.psw.srcBase + s.psw.pos).toNat = s.psw.srcBase.toNat + s.psw.pos.toNat := by
    rw [BitVec.toNat_add]; omega
  rw [hn32, hbase] at h2
  let s3 : State := { t with seq := relabel .SP6 s1.seq }
  have hcall : callAt .SP5 .programPage (programPage data s.psw.src (s.psw.srcBase + s.psw.pos) s.psw.addr
      (BitVec.ofNat 32 n)) s1 = .ok () s3 := run_callAt_ok s1 h1
  have hpsw : t.psw = s1.psw := by rw [h2.frame]
  let s4 : State := { s3 with psw := { s3.psw with
    addr := s3.psw.addr + BitVec.ofNat 32 s3.psw.n.toNat,
    pos := s3.psw.pos + BitVec.ofNat 32 s3.psw.n.toNat,
    remaining := s3.psw.remaining - BitVec.ofNat 32 s3.psw.n.toNat,
    pageRemain := 256 } }
  have hpsw4 : s4.psw = { s.psw with
      n := BitVec.ofNat 9 n, addr := s.psw.addr + BitVec.ofNat 32 n, pos := s.psw.pos + BitVec.ofNat 32 n,
      remaining := s.psw.remaining - BitVec.ofNat 32 n, pageRemain := 256 } := by
    simp only [s4, s3]; rw [hpsw, hn9]
  have hone : pagesTouched s.psw.addr.toNat n = 1 := by
    unfold pagesTouched; rw [if_neg (by omega)]; omega
  have hprog : ∀ bs : List Byte, bs.length = n → pagePrograms s.dd.addressWidth s.psw.addr.toNat bs =
      [0x02 :: (addressBytes s.dd.addressWidth s.psw.addr ++ bs)] := by
    intro bs hb
    have := pagePrograms_step (aw := s.dd.addressWidth) (a := s.psw.addr.toNat) (xs := bs) (ys := []) (by omega)
      (by simp only [List.length_nil]; omega)
    rw [List.append_nil] at this
    rw [this, BitVec.ofNat_toNat, BitVec.setWidth_eq]
    rfl
  refine ⟨s4, ?_, ⟨?_, h2.xfer, ?_, _, h4.congr rfl rfl, ?_, ?_⟩, hpsw4⟩
  · unfold spanChunk
    rw [run_assign_bind, ← hn, run_get_bind]
    change (callAt .SP5 .programPage (programPage data s.psw.src (s.psw.srcBase + s.psw.pos) s.psw.addr
      (BitVec.ofNat 32 s1.psw.n.toNat)) >>= _ : M Unit) s1 = _
    rw [hn9, run_bind_ok hcall, run_assign]
  · have e := h2.frame
    have hcs := hs.cs
    have hph := hs.phase
    have hpe : s.dev.pend = .none := hs.ready
    simp only [s4, s3]
    rw [e]
    simp only [s2, s1, hcs, hph, hpe]
  · intro x hx
    change x ∈ t.env.latencies at hx
    rw [h3] at hx
    exact List.mem_of_mem_tail hx
  · rw [length_sourceBytes, hone]; exact Counts.onePage k _
  · rw [hprog _ (length_sourceBytes ..), programCommands_onePage, hn32, hbase]; rfl

/-- The loop SP3 to SP8 (43 R182): the span is programmed, one call for each page it touches (43 R186). -/
theorem spanLoop_ok {s : State} {data : List Byte} {fuel : Nat} (hs : s.Usable)
    (hpr : 0 < s.psw.remaining.toNat → s.psw.pageRemain.toNat = 256 - s.psw.addr.toNat % 256)
    (hcap : 0 < s.psw.remaining.toNat → s.psw.addr.toNat + s.psw.remaining.toNat ≤ s.dd.capacityBytes)
    (hfuel : s.psw.remaining.toNat ≤ fuel)
    (hsrc : s.psw.srcBase.toNat + s.psw.pos.toNat + s.psw.remaining.toNat < 2 ^ 32) :
    ∃ t, spanLoop data fuel s = .ok () t ∧
      Spans s.psw.addr.toNat (sourceBytes data s.psw.src s.sb
        (s.psw.srcBase.toNat + s.psw.pos.toNat) s.psw.remaining.toNat) s t := by
  induction fuel generalizing s with
  | zero =>
    have h0 : s.psw.remaining.toNat = 0 := by omega
    rw [h0]
    exact ⟨s, rfl, rfl, hs.xfer, fun _ h => h, [], Sends.refl s, Counts.nil, rfl⟩
  | succ fuel ih =>
    by_cases h0 : s.psw.remaining = 0
    · have h0' : s.psw.remaining.toNat = 0 := by rw [h0]; rfl
      rw [h0']
      exact ⟨s, by rw [spanLoop, run_get_bind, if_pos h0, run_pure], rfl, hs.xfer, fun _ h => h, [], Sends.refl s,
        Counts.nil, rfl⟩
    · have hrem : 0 < s.psw.remaining.toNat := by
        rcases Nat.eq_zero_or_pos s.psw.remaining.toNat with h | h
        · exact absurd (BitVec.eq_of_toNat_eq (by simpa using h)) h0
        · exact h
      have hpr := hpr hrem
      have hcap := hcap hrem
      obtain ⟨n, hn⟩ : ∃ n, n = min s.psw.remaining.toNat s.psw.pageRemain.toNat := ⟨_, rfl⟩
      obtain ⟨t, h1, h2, h3⟩ := spanChunk_ok (data := data) hs hn hpr hcap hrem (by omega)
      have h1n : 1 ≤ n := by omega
      have hnr : n ≤ s.psw.remaining.toNat := by omega
      have hn32 : (BitVec.ofNat 32 n).toNat = n := by rw [BitVec.toNat_ofNat]; omega
      have hrem' : t.psw.remaining.toNat = s.psw.remaining.toNat - n := by
        rw [h3]
        change (s.psw.remaining - BitVec.ofNat 32 n).toNat = _
        rw [BitVec.toNat_sub_of_le (by rw [BitVec.le_def, hn32]; exact hnr), hn32]
      have hpos' : t.psw.pos.toNat = s.psw.pos.toNat + n := by
        rw [h3]
        change (s.psw.pos + BitVec.ofNat 32 n).toNat = _
        rw [BitVec.toNat_add, hn32]; omega
      have haddr' : 0 < t.psw.remaining.toNat → t.psw.addr.toNat = s.psw.addr.toNat + n := by
        intro h
        rw [h3]
        change (s.psw.addr + BitVec.ofNat 32 n).toNat = _
        have hd := hs.desc.2.2
        have : 2 ^ (8 * s.dd.addressWidth.bytes) ≤ 2 ^ 32 := by cases s.dd.addressWidth <;> decide
        rw [BitVec.toNat_add, hn32]; omega
      have hsrcB : t.psw.srcBase = s.psw.srcBase := by rw [h3]
      have hsrcS : t.psw.src = s.psw.src := by rw [h3]
      have hpr' : t.psw.pageRemain.toNat = 256 := by rw [h3]; rfl
      have hdd : t.dd = s.dd := by rw [h2.frame]
      have hsb : t.sb = s.sb := by rw [h2.frame]
      have hflash : t.dev.flash = s.dev.flash.program s.psw.addr.toNat
          (sourceBytes data s.psw.src s.sb (s.psw.srcBase.toNat + s.psw.pos.toNat) n) := by rw [h2.frame]
      have i1 : 0 < t.psw.remaining.toNat → t.psw.pageRemain.toNat = 256 - t.psw.addr.toNat % 256 :=
        fun h => by rw [hpr', haddr' h]; omega
      have i2 : 0 < t.psw.remaining.toNat →
          t.psw.addr.toNat + t.psw.remaining.toNat ≤ t.dd.capacityBytes := fun h => by
        rw [haddr' h, hdd]; omega
      have i3 : t.psw.remaining.toNat ≤ fuel := by omega
      have i4 : t.psw.srcBase.toNat + t.psw.pos.toNat + t.psw.remaining.toNat < 2 ^ 32 := by
        rw [hsrcB, hpos', hrem']; omega
      obtain ⟨u, h4, h5⟩ := ih (s := { t with seq := relabel .SP3 t.seq }) ((h2.usable hs).reseq _) i1 i2 i3 i4
      obtain ⟨c1, hc1, hk1, hg1⟩ := h2.sends
      obtain ⟨c2, hc2, hk2, hg2⟩ := h5.sends
      replace hc2 : Sends c2 t u := hc2.congr rfl rfl
      -- the bytes: those of the chunk and those of the rest
      let xs := sourceBytes data s.psw.src s.sb (s.psw.srcBase.toNat + s.psw.pos.toNat) n
      let ys := sourceBytes data t.psw.src t.sb (t.psw.srcBase.toNat + t.psw.pos.toNat) t.psw.remaining.toNat
      have hxs : xs.length = n := length_sourceBytes ..
      have hys : ys.length = s.psw.remaining.toNat - n := by rw [← hrem']; exact length_sourceBytes ..
      have hall : sourceBytes data s.psw.src s.sb (s.psw.srcBase.toNat + s.psw.pos.toNat) s.psw.remaining.toNat =
          xs ++ ys := by
        simp only [xs, ys]
        rw [hsb, hsrcS, hsrcB, hpos', hrem', ← Nat.add_assoc, ← sourceBytes_add]
        congr 1; omega
      have hrest : ∀ {β : Type} (g : Nat → List Byte → β), g t.psw.addr.toNat ys = g (s.psw.addr.toNat + n) ys ∨
          ys = [] := by
        intro β g
        rcases Nat.eq_zero_or_pos (s.psw.remaining.toNat - n) with hz | hz
        · right; exact List.length_eq_zero_iff.1 (by omega)
        · left; rw [haddr' (by omega)]
      have hfin : t.dev.flash.program t.psw.addr.toNat ys = s.dev.flash.program s.psw.addr.toNat (xs ++ ys) := by
        rw [hflash, Memory.program_append, hxs]
        rcases hrest (fun a b => (s.dev.flash.program s.psw.addr.toNat xs).program a b) with h | h
        · exact h
        · rw [h]; rfl
      have hstep : xs.length = min (xs.length + ys.length) (256 - s.psw.addr.toNat % 256) := by
        rw [hxs, hys]; omega
      have hpages : 1 + pagesTouched t.psw.addr.toNat ys.length = pagesTouched s.psw.addr.toNat (xs ++ ys).length := by
        rw [List.length_append, hxs, hys, show n + (s.psw.remaining.toNat - n) = s.psw.remaining.toNat by omega,
          pagesTouched_step hrem (by rw [hn, hpr] : n = _)]
        rcases hrest (fun a b => pagesTouched a b.length) with h | h
        · rw [← hys]; exact congrArg (1 + ·) h
        · rw [← hys, h]; rfl
      have hprogs : pagePrograms s.dd.addressWidth s.psw.addr.toNat (xs ++ ys) =
          pagePrograms s.dd.addressWidth s.psw.addr.toNat xs ++ pagePrograms s.dd.addressWidth t.psw.addr.toNat ys := by
        have hx1 := pagePrograms_step (aw := s.dd.addressWidth) (a := s.psw.addr.toNat) (xs := xs) (ys := [])
          (by omega) (by simp only [List.length_nil]; omega)
        rw [List.append_nil] at hx1
        rw [pagePrograms_step (by omega) hstep, hx1]
        rcases hrest (fun a b => pagePrograms s.dd.addressWidth a b) with h | h
        · rw [h, hxs]; rfl
        · rw [h]; rfl
      rw [hall]
      refine ⟨u, ?_, ?_, h5.xfer, fun x hx => h2.latencies x (h5.latencies x hx), c2 ++ c1, hc1.trans hc2, ?_, ?_⟩
      · rw [spanLoop, run_get_bind, if_neg h0, run_bind_ok h1, run_goto_bind]
        exact h4
      · have e1 := h5.frame
        change u = { t with psw := u.psw, pp := u.pp, sra := u.sra, env := u.env, trace := u.trace, seq := u.seq, dev := { t.dev with
          flash := t.dev.flash.program t.psw.addr.toNat ys, wel := u.dev.wel, busyFor := u.dev.busyFor } } at e1
        rw [hfin, h2.frame] at e1
        rw [e1]
      · rw [← hpages]
        have := hk1.append hk2
        rw [length_sourceBytes] at this
        have h1p : pagesTouched s.psw.addr.toNat n = 1 := by
          unfold pagesTouched; rw [if_neg (by omega)]; omega
        rw [h1p] at this
        exact this
      · rw [programCommands_append, hg1, hg2, hprogs, List.reverse_append, hdd]

/-- `writeAssumingBlank` inside the array (43 R182, R186). -/
theorem writeAssumingBlank_ok {s : State} {data : List Byte} {src : Source} {srcBase : BitVec 32} {a : Address}
    {len : BitVec 32} (hs : s.Usable) (hcap : a.toNat + len.toNat ≤ s.dd.capacityBytes)
    (hsrc : srcBase.toNat + len.toNat < 2 ^ 32) :
    ∃ t, writeAssumingBlank data src srcBase a len s = .ok () t ∧
      Spans a.toNat (sourceBytes data src s.sb srcBase.toNat len.toNat) s t := by
  let s1 : State := { s with psw := { s.psw with src := src, srcBase := srcBase, addr := a, remaining := len,
                                                 pos := 0 } }
  let s2 : State := { s1 with psw := { s1.psw with pageRemain := BitVec.ofNat 9 (256 - a.toNat % 256) } }
  have hs2 : s2.Usable := ⟨hs.cs, hs.phase, hs.ready, hs.mode, hs.awake, hs.desc, hs.clean, hs.xfer, hs.fair, hs.limit⟩
  obtain ⟨t, h1, h2⟩ := spanLoop_ok (data := data) (fuel := len.toNat) hs2
    (fun _ => by
      change (BitVec.ofNat 9 (256 - a.toNat % 256)).toNat = 256 - a.toNat % 256
      rw [BitVec.toNat_ofNat]; omega)
    (fun _ => hcap) (Nat.le_refl _) (by
      change srcBase.toNat + (0 : BitVec 32).toNat + len.toNat < 2 ^ 32
      simpa using hsrc)
  refine ⟨t, ?_, ?_⟩
  · unfold writeAssumingBlank
    rw [run_assign_bind, run_get_bind]
    change (require (withinCapacity s1 a.toNat len.toNat) .invalidRange >>= _ : M Unit) s1 = _
    rw [run_bind_ok (run_require_true (b := withinCapacity s1 a.toNat len.toNat) s1
      (by simpa [withinCapacity, s1] using hcap)), run_assign_bind]
    exact h1
  · have h3 : Spans a.toNat (sourceBytes data src s.sb (srcBase.toNat + 0) len.toNat) s2 t := h2
    rw [Nat.add_zero] at h3
    obtain ⟨e, hx, hl, c, hc, hk⟩ := h3
    exact ⟨by rw [e], hx, hl, c, hc.congr rfl rfl, hk⟩

end Sys2Proof.Machine
end

