-- ==== Sys2Proof/Laws/Erase.lean ====
section
/-! SUPPORT. What `eraseSector` and `readSector` do on an idle device when no exchange fails (44 R192 to R196,
45 R204). -/

namespace Sys2Proof.Machine

/-! ### eraseSector -/

/-- The state in which the erase transaction at `a` ends, before `Deselect()`. -/
def State.eraseSent (s : State) (a : Address) : State :=
  (s.selected.pushed 0x20).pushedAll (addressBytes s.dd.addressWidth a)

theorem eraseSent_phase (s : State) (a : Address) :
    (s.eraseSent a).dev.phase = .eraseAt (a.toNat % 2 ^ (8 * s.dd.addressWidth.bytes)) := by
  change Phase.after s.dd.addressWidth (Phase.next s.dd.addressWidth 0x20 .command) _ = _
  rw [next_sectorErase, addressBytes_after, addressedPhase]

/-- The device erases (46 R237). -/
theorem eraseSent_deselected {s : State} {a : Address} (hc : s.PClean) (hr : s.PReady) (hm : s.PMode)
    (hz : s.PAwake) (hd : s.PDesc) (hw : s.dev.wel = true) (ha : a.toNat % 4096 = 0) (hcap : a.toNat + 4096 ≤ s.dd.capacityBytes) :
    (s.eraseSent a).deselected =
      { s.eraseSent a with
        cs := false
        dev := { s.dev with flash := s.dev.flash.erase a.toNat 4096, pend := .erase,
                            busyFor := s.env.latencies.headD (some 0), phase := .off }
        env := { (s.eraseSent a).env with latencies := s.env.latencies.tail }
        trace := .deselect :: (s.eraseSent a).trace } := by
  have hmod : a.toNat % 2 ^ (8 * s.dd.addressWidth.bytes) = a.toNat := Nat.mod_eq_of_lt (by
    have := hd.2.2; omega)
  have hphase := eraseSent_phase s a
  rw [hmod] at hphase
  have hact : (s.eraseSent a).act =
      ((s.eraseSent a).mapDev fun d => { d with flash := d.flash.erase a.toNat 4096 }).startCycle .erase := by
    rw [act_eraseAt hphase, whenIdle_ready _ (by exact hc) (by exact hr)]
    unfold State.actErase
    have h1 : (s.eraseSent a).writable = true := (State.writable_iff _).2 ⟨hm, hz⟩
    have h2 : (s.eraseSent a).dev.wel = true := hw
    have h3 : (s.eraseSent a).dd.capacityBytes = s.dd.capacityBytes := rfl
    rw [h1, h2, h3, if_neg (by simp; omega)]
  rw [deselected_of_act hact]
  rfl

/-- What an erase leaves: the sector blank, the device idle. -/
structure Erases (si : SectorIndex) (s t : State) : Prop where
  frame : t = { s with sem := t.sem, sra := t.sra, env := t.env, trace := t.trace, cs := false,
                       seq := relabel .ER9 s.seq,
                       dev := { s.dev with flash := s.dev.flash.erase (si.toNat * 4096) 4096, wel := t.dev.wel,
                                           pend := .none, busyFor := t.dev.busyFor, phase := .off } }
  xfer : t.PXfer
  sem : t.sem = { sectorIndex := si, base := sectorBase si }

theorem sectorBase_toNat (si : SectorIndex) : (sectorBase si).toNat = si.toNat * 4096 := by
  have := si.isLt
  unfold sectorBase
  rw [BitVec.toNat_ofNat]; omega

/-- `eraseSector` of a sector of the array (44 R192, R196): one WriteEnable, one poll, one SectorErase, one poll more
than the cycle outlasts. -/
theorem eraseSector_ok {s : State} {si : SectorIndex} (hx : s.PXfer) (hc : s.PClean) (hr : s.PReady) (hm : s.PMode)
    (hz : s.PAwake) (hd : s.PDesc) (hf : s.PFair) (hl : s.PLimit) (hcap : si.toNat * 4096 + 4096 ≤ s.dd.capacityBytes) :
    ∃ k t, s.env.latencies.headD (some 0) = some k ∧ eraseSector si s = .ok () t ∧ Erases si s t ∧
      t.env.latencies = s.env.latencies.tail ∧
      Sends (List.replicate (k + 1) [0x05, 0xFF] ++
        [0x20 :: addressBytes s.dd.addressWidth (sectorBase si), [0x05, 0xFF], [0x06]]) s t := by
  obtain ⟨k, hk, hklim⟩ := fair_head hf hl
  let a := sectorBase si
  have ha : a.toNat = si.toNat * 4096 := sectorBase_toNat si
  -- ER0: the registers
  let s1 : State := { s with sem := { sectorIndex := si, base := a } }
  have hcap1 : withinCapacity s1 a.toNat 4096 = true := by
    rw [ha]; simpa [withinCapacity, s1] using hcap
  -- ER2: the latch
  let s2 : State := { s1.sentOne 0x06 { s1.dev with wel := true } with seq := relabel .ER3 s.seq }
  have h2 : callAt .ER2 .enable enable s1 = .ok () s2 := callEnable_ok .ER2 hx hc hr
  -- ER3: the first wait
  let s3 : State := { s2 with seq := { proc := .waitUntilReady, label := .WT0 } :: relabel .ER3 s2.seq }
  obtain ⟨t3, h3, w3⟩ := waitUntilReady_ok (s := s3) (k := 0) hx hc (Or.inl ⟨hr, rfl⟩)
    (fun n hn => by have := hl n hn; omega)
  let s4 : State := { t3 with seq := relabel .ER4 s2.seq }
  have h3' : callAt .ER3 .waitUntilReady waitUntilReady s2 = .ok () s4 := run_callAt_ok s2 h3
  have hwel4 : t3.dev.wel = true := w3.latch hr
  have hframe4 : s4 = { s1 with
      sra := s4.sra, env := s4.env, trace := s4.trace, cs := false, seq := relabel .ER4 s.seq,
      dev := { s1.dev with wel := true, pend := .none, busyFor := s4.dev.busyFor, phase := .off } } := by
    have e := w3.frame
    rw [hwel4] at e
    simp only [s4]
    rw [e]
    simp only [s3, s2, relabel_relabel]
    rfl
  have hl4 : s4.env.latencies = s.env.latencies := w3.latencies
  have hx4 : s4.PXfer := w3.xfer
  have hc4 : s4.PClean := by rw [hframe4]; exact hc
  have hr4 : s4.PReady := by rw [hframe4]
  have hdd4 : s4.dd = s.dd := by rw [hframe4]
  have hm4 : s4.PMode := by rw [hframe4]; exact hm
  have hz4 : s4.PAwake := by rw [hframe4]; exact hz
  have hd4 : s4.PDesc := by unfold State.PDesc; rw [hdd4]; exact hd
  have hwel4' : s4.dev.wel = true := hwel4
  have hsem4 : s4.sem = { sectorIndex := si, base := a } := by rw [hframe4]
  -- ER4 to ER7: the transaction
  have h4 : xchg 0x20 s4.selected = .ok (Config.freeByte s4.env.drawn) (s4.selected.pushed 0x20) :=
    xchg_sink (s := s4.selected) hx4 rfl 0x20
  have h5 : sendAddr a (s4.selected.pushed 0x20) = .ok () (s4.eraseSent a) :=
    sendAddr_ok (s := s4.selected.pushed 0x20) a hx4 (next_sectorErase _)
  have h6 := eraseSent_deselected (s := s4) (a := a) hc4 hr4 hm4 hz4 hd4 hwel4' (by rw [ha]; omega)
    (by rw [ha, hdd4]; exact hcap)
  let s6 := (s4.eraseSent a).deselected
  have hs6 : s6 = (s4.eraseSent a).deselected := rfl
  have hd6 : s6.dev = { s.dev with
      flash := s.dev.flash.erase (si.toNat * 4096) 4096, wel := true, pend := .erase, busyFor := some k,
      phase := .off } := by
    rw [hs6, h6, ← hk, ← hl4, ← ha]
    have e : s4.dev = { s.dev with wel := true, pend := .none, busyFor := s4.dev.busyFor, phase := .off } := by
      rw [hframe4]
    simp only []
    rw [e]
  have hl6 : s6.env.latencies = s.env.latencies.tail := by rw [hs6, h6, ← hl4]
  have hx6 : s6.PXfer := by rw [hs6, h6]; exact hx4
  have hlim6 : s6.pollLimit = s.pollLimit := by rw [hs6, h6, show s.pollLimit = s4.pollLimit by rw [hframe4]]; rfl
  have hframe6 : s6 = { s with
      sem := s6.sem, sra := s6.sra, env := s6.env, trace := s6.trace, cs := false, seq := relabel .ER4 s.seq,
      dev := s6.dev } := by
    have e : s6 = { s4 with
        sem := s6.sem, sra := s6.sra, env := s6.env, trace := s6.trace, cs := false, dev := s6.dev } := by
      rw [hs6, h6]; rfl
    rw [hframe4] at e
    exact e
  have hsend4 : Sends [[0x05, 0xFF], [0x06]] s s4 :=
    ((sentOne_sends s1 0x06 { s1.dev with wel := true }).congr (s' := s) (t' := s2) rfl rfl).trans (w3.sends.congr rfl rfl)
  have hsend6 : Sends [0x20 :: addressBytes s.dd.addressWidth a, [0x05, 0xFF], [0x06]] s s6 := by
    have := hsend4.trans (sends_pushed (s := s4) 0x20 (addressBytes s4.dd.addressWidth a))
    rw [hdd4] at this
    simp only [s6, State.eraseSent, hdd4]
    exact this
  -- ER8: the second wait
  let s7 : State := { s6 with seq := { proc := .waitUntilReady, label := .WT0 } :: relabel .ER8 s6.seq }
  obtain ⟨t, h7, h8⟩ := waitUntilReady_ok (s := s7) (k := k) hx6
    (by change s6.dev.poisoned = false; rw [hd6]; exact hc)
    (by right; change s6.dev.pend ≠ _ ∧ s6.dev.busyFor = _; rw [hd6]; exact ⟨by simp, rfl⟩)
    (by intro n hn; exact hklim n (by rw [← hlim6]; exact hn))
  have hsem : t.sem = { sectorIndex := si, base := sectorBase si } := by
    rw [h8.frame]
    change s6.sem = _
    rw [hs6, h6]
    exact hsem4
  refine ⟨k, { t with seq := relabel .ER9 s6.seq }, hk, ?_, ⟨?_, h8.xfer, hsem⟩, h8.latencies.trans hl6,
    hsend6.trans (h8.sends.congr rfl rfl)⟩
  · unfold eraseSector
    rw [run_assign_bind]
    change (get >>= _ : M Unit) s1 = _
    rw [run_get_bind]
    change (require (withinCapacity s1 a.toNat 4096) .invalidRange >>= _ : M Unit) s1 = _
    rw [run_bind_ok (run_require_true s1 hcap1), run_bind_ok h2, run_bind_ok h3', run_select_bind,
      run_bind_ok h4, run_get_bind]
    change (sendAddr s4.sem.base >>= _ : M Unit) (s4.selected.pushed 0x20) = _
    rw [hsem4]
    change (sendAddr a >>= _ : M Unit) (s4.selected.pushed 0x20) = _
    rw [run_bind_ok h5, run_deselect_bind]
    exact run_callAt_ok s6 h7
  · have e := h8.frame
    have e7 : s7.dev = s6.dev := rfl
    rw [e7, hd6] at e
    rw [e]
    simp only [s7]
    rw [hframe6]
    simp only [relabel_relabel]

/-! ### readSector -/

/-- An exchange in which the device drives a byte of the flash array (46 R235). -/
theorem exchanged_readOut {s : State} {a : Nat} (hc : s.PClean) (hr : s.PReady) (hm : s.readable = true)
    (hp : s.dev.phase = .readOut a) (ha : a < s.dd.capacityBytes) (tx : Byte) :
    s.exchanged tx = (s.dev.flash.read a,
      { s with dev := { s.dev with phase := .readOut (a + 1) },
               trace := .xchg tx (s.dev.flash.read a) :: s.trace }) := by
  have hobs : s.observe = (false, s) := by
    unfold State.PReady at hr
    unfold State.PClean at hc
    simp [State.observe, hr, hc]
  have hd : s.drive = (s.dev.flash.read a, s) := by
    unfold State.PClean at hc
    unfold State.drive
    rw [hp]
    simp only [State.driveFlash, hc, hobs, hm, Bool.false_eq_true, if_false, Bool.not_true, Bool.or_self,
      Bool.false_or, decide_eq_true_eq, if_neg (Nat.not_le.2 ha)]
  simp only [State.exchanged, hd, State.mapDev, hp, Phase.next]

/-- The receive phase (45 R204, RS3). -/
theorem receiveSector_ok {s : State} {base count : Nat} (hx : s.PXfer) (hc : s.PClean) (hr : s.PReady)
    (hm : s.readable = true) (hp : s.dev.phase = .readOut (base + s.rsI.toNat)) (hi : s.rsI.toNat + count ≤ 4096)
    (hcap : base + 4096 ≤ s.dd.capacityBytes) :
    ∃ t evs, receiveSector count s = .ok () t ∧
      t = { s with rsI := t.rsI, trace := evs ++ s.trace,
                   dev := { s.dev with phase := .readOut (base + s.rsI.toNat + count) },
                   sb := s.sb.writeList s.rsI.toNat (s.dev.flash.readList (base + s.rsI.toNat) count) } ∧
      (∀ e ∈ evs, e.isXchg = true) ∧ bytesSent evs = List.replicate count 0xFF := by
  induction count generalizing s with
  | zero =>
    refine ⟨s, [], rfl, ?_, (fun e he => by cases he), rfl⟩
    change s = { s with dev := { s.dev with phase := .readOut (base + s.rsI.toNat) } }
    rw [← hp]
  | succ count ih =>
    have hex := exchanged_readOut hc hr hm hp (by omega) Config.dummyTx
    let b := s.dev.flash.read (base + s.rsI.toNat)
    let s1 : State := { s with
      dev := { s.dev with phase := .readOut (base + s.rsI.toNat + 1) },
      trace := .xchg Config.dummyTx b :: s.trace, sb := s.sb.write s.rsI.toNat b, rsI := s.rsI + 1 }
    have hi1 : (s.rsI + 1).toNat = s.rsI.toNat + 1 := by rw [BitVec.toNat_add]; simp; omega
    obtain ⟨t, evs, h1, h2, h3, h3'⟩ := ih (s := s1) hx hc hr hm (by
        change Phase.readOut (base + s.rsI.toNat + 1) = .readOut (base + (s.rsI + 1).toNat)
        rw [hi1, Nat.add_assoc])
      (by change (s.rsI + 1).toNat + count ≤ 4096; omega) hcap
    refine ⟨t, evs ++ [.xchg Config.dummyTx b], ?_, ?_, ?_, ?_⟩
    · rw [receiveSector, run_bind_ok (xchg_ok hx Config.dummyTx), hex, run_assign_bind]
      exact h1
    · have e : s1.rsI.toNat = s.rsI.toNat + 1 := hi1
      rw [e, show base + (s.rsI.toNat + 1) + count = base + s.rsI.toNat + (count + 1) by omega] at h2
      rw [List.append_assoc]
      exact h2
    · intro e he
      rcases List.mem_append.1 he with he | he
      · exact h3 e he
      · simp only [List.mem_singleton] at he; subst he; rfl
    · rw [bytesSent_append, h3', List.replicate_succ]; rfl

/-- The state in which the receive phase at `a` begins (45 R204, RS3). -/
def State.readSent (s : State) (a : Address) : State :=
  { (s.selected.pushed 0x03).pushedAll (addressBytes s.dd.addressWidth a) with rsI := 0 }

/-- The receive phase of `count` bytes after the address `a`, and the end of the transaction. -/
theorem readSent_ok {s : State} {a : Address} {count : Nat} (hx : s.PXfer) (hc : s.PClean) (hr : s.PReady)
    (hm : s.readable = true) (hd : s.PDesc) (hi : count ≤ 4096) (hcap : a.toNat + 4096 ≤ s.dd.capacityBytes) :
    ∃ t evs, receiveSector count (s.readSent a) = .ok () t ∧
      t = { s with rsI := t.rsI, sb := s.sb.writeList 0 (s.dev.flash.readList a.toNat count),
                   env := { s.env with drawn := t.env.drawn }, trace := evs ++ (s.readSent a).trace, cs := true,
                   dev := { s.dev with phase := .readOut (a.toNat + count) } } ∧
      (∀ e ∈ evs, e.isXchg = true) ∧ bytesSent evs = List.replicate count 0xFF := by
  have hp : (s.readSent a).dev.phase = .readOut (a.toNat + (s.readSent a).rsI.toNat) := by
    change Phase.after s.dd.addressWidth (Phase.next s.dd.addressWidth 0x03 .command) _ = .readOut (_ + 0)
    rw [next_readData, addressBytes_after_of_lt _ (by have := hd.2.2; omega)]
    rfl
  obtain ⟨t, evs, h1, h2, h3, h3'⟩ := receiveSector_ok (s := s.readSent a) (base := a.toNat) (count := count)
    hx hc hr hm hp (by change 0 + count ≤ 4096; omega) hcap
  refine ⟨t, evs, h1, ?_, h3, h3'⟩
  generalize htr : (s.readSent a).trace = tr at h2 ⊢
  simp only [State.readSent, State.pushedAll, State.pushed, State.selected, State.mapDev] at h2
  rw [h2]
  simp

/-- What the raw sector read leaves: SB holds the sector, the device is as before. -/
structure Reads (si : SectorIndex) (s t : State) : Prop where
  frame : t = { s with rsI := t.rsI, sb := t.sb, env := t.env, trace := t.trace, cs := false,
                       dev := { s.dev with phase := .off } }
  sb : t.sb = s.sb.writeList 0 (s.dev.flash.readList (si.toNat * 4096) 4096)
  xfer : t.PXfer
  latencies : t.env.latencies = s.env.latencies
  sends : Sends [0x03 :: (addressBytes s.dd.addressWidth (sectorBase si) ++ List.replicate 4096 0xFF)] s t

/-- `readSector` of a sector of the array (45 R204). -/
theorem readSector_ok {s : State} {si : SectorIndex} (hx : s.PXfer) (hc : s.PClean) (hr : s.PReady) (hm : s.readable = true)
    (hd : s.PDesc) (hcap : si.toNat * 4096 + 4096 ≤ s.dd.capacityBytes) :
    ∃ t, readSector si s = .ok () t ∧ Reads si s t := by
  rw [← sectorBase_toNat] at hcap
  have h1 : xchg 0x03 s.selected = .ok (Config.freeByte s.env.drawn) (s.selected.pushed 0x03) :=
    xchg_sink (s := s.selected) hx rfl 0x03
  have h2 : sendAddr (sectorBase si) (s.selected.pushed 0x03) =
      .ok () ((s.selected.pushed 0x03).pushedAll (addressBytes s.dd.addressWidth (sectorBase si))) :=
    sendAddr_ok (s := s.selected.pushed 0x03) _ hx (next_readData _)
  obtain ⟨t, evs, h3, h4, h5, h5'⟩ := readSent_ok (a := sectorBase si) hx hc hr hm hd (Nat.le_refl 4096) hcap
  have hdev : t.dev = { s.dev with phase := .readOut ((sectorBase si).toNat + 4096) } := by rw [h4]
  have hact : t.act = t := by
    have e1 : t.PClean := by unfold State.PClean; rw [hdev]; exact hc
    have e2 : t.PReady := by unfold State.PReady; rw [hdev]; exact hr
    have e4 : t.dd = s.dd := by rw [h4]
    have e3 : t.readable = true := by
      have := hm
      unfold State.readable State.modeMatches at *
      rw [hdev, e4]; exact this
    rw [act_readOut (by rw [hdev] : t.dev.phase = .readOut ((sectorBase si).toNat + 4096)), whenIdle_ready _ e1 e2]
    unfold State.actRead
    rw [e3, e4, decide_eq_true hcap]; rfl
  have hdes := deselected_of_act hact
  refine ⟨t.deselected, ?_, ?_, ?_, ?_, ?_, ?_⟩
  · unfold readSector
    rw [run_select_bind, run_bind_ok h1, run_bind_ok h2, run_assign_bind]
    exact run_bind_ok h3
  · rw [hdes, hdev]
    rw [h4]
  · rw [State.deselected_sb, h4, sectorBase_toNat]
  · rw [hdes]
    change t.env.xferFail = []
    rw [h4]; exact hx
  · rw [hdes]
    change t.env.latencies = _
    rw [h4]
  · let d := s.env.drawn
    refine Sends.transaction
      (evs := evs ++ (pushTrace (d + 1) (addressBytes s.dd.addressWidth (sectorBase si)) [] ++
        [.xchg 0x03 (Config.freeByte d)])) (fun e he => ?_) ?_ ?_
    · rcases List.mem_append.1 he with he | he
      · exact h5 e he
      · rcases List.mem_append.1 he with he | he
        · exact pushTrace_isXchg _ _ e he
        · simp only [List.mem_singleton] at he; subst he; rfl
    · rw [bytesSent_append, bytesSent_append, bytesSent_pushTrace, h5']; rfl
    · rw [State.deselected_trace]
      have e : t.trace = evs ++ (s.readSent (sectorBase si)).trace := by rw [h4]
      have e' : (s.readSent (sectorBase si)).trace =
          pushTrace (d + 1) (addressBytes s.dd.addressWidth (sectorBase si)) [] ++
          .xchg 0x03 (Config.freeByte d) :: .select :: s.trace := pushedAll_trace _ _
      rw [e, e', List.append_assoc, List.append_assoc]
      rfl

/-- The bytes of SB after the raw sector read. -/
theorem Reads.sb_read {si : SectorIndex} {i : Nat} {s t : State} (h : Reads si s t) (hw : s.sb.wf = true) (hi : i < 4096) :
    t.sb.read i = s.dev.flash.read (si.toNat * 4096 + i) := by
  rw [h.sb]
  rw [Memory.read_writeList hw, if_pos (by simp; omega), Nat.sub_zero, Memory.getD_readList _ _ _ _ hi]

end Sys2Proof.Machine
end

