-- ==== Sys2Proof/Laws/Engine.lean ====
section
/-! SUPPORT. What one iteration of `write` does on an idle device when no exchange fails (45 R201 to R212). -/

namespace Sys2Proof.Machine

/-! ### Composing the parts of a request -/

/-- `t` is `s` after parts of a request that leave the flash array `flash` and send so many commands. -/
structure Moves (flash : Memory) (reads : Nat) (erases : List (List Byte)) (programs : Nat) (s t : State) : Prop where
  frame : t = { s with fwe := t.fwe, rsI := t.rsI, psw := t.psw, pp := t.pp, sem := t.sem, sra := t.sra, sb := t.sb,
                       seq := t.seq, env := t.env, trace := t.trace,
                       dev := { s.dev with flash := flash, wel := t.dev.wel, busyFor := t.dev.busyFor } }
  xfer : t.PXfer
  latencies : ∀ k ∈ t.env.latencies, k ∈ s.env.latencies
  sends : ∃ txs, Sends txs s t ∧ Counts txs reads erases programs

theorem Moves.usable {flash : Memory} {r p : Nat} {e : List (List Byte)} {s t : State} (h : Moves flash r e p s t) (hs : s.Usable) :
    t.Usable := by
  have e := h.frame
  exact hs.carry (by rw [e]) (by rw [e]) (by rw [e]; exact hs.cs) (by rw [e]; exact hs.phase)
    (by rw [e]; exact hs.ready) (by rw [e]) (by rw [e]) (by rw [e]) (by rw [e]) h.xfer h.latencies

theorem Moves.flash_eq {flash : Memory} {r p : Nat} {e : List (List Byte)} {s t : State} (h : Moves flash r e p s t) :
    t.dev.flash = flash := by rw [h.frame]

theorem Moves.dd_eq {flash : Memory} {r p : Nat} {e : List (List Byte)} {s t : State} (h : Moves flash r e p s t) : t.dd = s.dd := by
  rw [h.frame]

theorem Moves.trans {f₁ f₂ : Memory} {r₁ p₁ r₂ p₂ : Nat} {e₁ e₂ : List (List Byte)} {s t u : State}
    (h₁ : Moves f₁ r₁ e₁ p₁ s t) (h₂ : Moves f₂ r₂ e₂ p₂ t u) :
    Moves f₂ (r₁ + r₂) (e₂ ++ e₁) (p₁ + p₂) s u := by
  obtain ⟨c₁, hc₁, hk₁⟩ := h₁.sends
  obtain ⟨c₂, hc₂, hk₂⟩ := h₂.sends
  refine ⟨?_, h₂.xfer, fun k hk => h₁.latencies k (h₂.latencies k hk), _, hc₁.trans hc₂, hk₁.append hk₂⟩
  have e := h₂.frame
  rw [h₁.frame] at e
  rw [e]

theorem Spans.moves {a : Nat} {bytes : List Byte} {s t : State} (h : Spans a bytes s t) :
    Moves (s.dev.flash.program a bytes) 0 [] (pagesTouched a bytes.length) s t := by
  obtain ⟨c, hc, hk, -⟩ := h.sends
  refine ⟨?_, h.xfer, h.latencies, c, hc, hk⟩
  have e := h.frame
  rw [e]

theorem Reads.moves {si : SectorIndex} {s t : State} (h : Reads si s t) (hs : s.Usable) :
    Moves s.dev.flash 1 [] 0 s t := by
  refine ⟨?_, h.xfer, fun k hk => by rwa [← h.latencies], _, h.sends, ?_⟩
  · have e := h.frame
    have hcs := hs.cs
    have hph := hs.phase
    rw [e]
    simp only [hcs, hph]
  · refine ⟨rfl, rfl, rfl, rfl, Nat.zero_le _, ?_⟩
    intro c hc
    rw [show commandBytes [0x03 :: (addressBytes s.dd.addressWidth (sectorBase si) ++ List.replicate 4096 0xFF)] =
      [0x03] from rfl, List.mem_singleton] at hc
    subst hc; simp

theorem Counts.oneErase (k : Nat) (bs : List Byte) :
    Counts (List.replicate (k + 1) [0x05, 0xFF] ++ [0x20 :: bs, [0x05, 0xFF], [0x06]]) 0 [0x20 :: bs] 0 := by
  have hc : commandBytes (List.replicate (k + 1) [0x05, 0xFF] ++ [0x20 :: bs, [0x05, 0xFF], [0x06]]) =
      List.replicate (k + 1) 0x05 ++ [0x20, 0x05, 0x06] := by
    rw [commandBytes_append, commandBytes_replicate]; rfl
  refine ⟨?_, ?_, ?_, ?_, ?_, ?_⟩
  · rw [hc]; simp [List.count_append, List.count_replicate]
  · rw [eraseCommands_append, eraseCommands_polls]; rfl
  · rw [hc]; simp [List.count_append, List.count_replicate]
  · rw [hc]; simp [List.count_append, List.count_replicate]
  · rw [hc]; simp [List.count_append]
  · rw [hc]
    intro c hc
    rcases List.mem_append.1 hc with hc | hc
    · rw [List.eq_of_mem_replicate hc]; simp
    · fin_cases hc <;> simp

/-- The registers of FWE, the ScratchBuffer and the labels of the sequencer, updated. -/
theorem Moves.assign {s : State} (hs : s.Usable) (f : FweRegs) (sb : Memory) (q : List Frame) :
    Moves s.dev.flash 0 [] 0 s { s with fwe := f, sb := sb, seq := q } :=
  ⟨rfl, hs.xfer, fun _ h => h, [], Sends.of_trace rfl, Counts.nil⟩

/-- `eraseSector` in a request under way. -/
theorem callErase_ok {s : State} {si : SectorIndex} {site : Label} (hs : s.Usable)
    (hcap : si.toNat * 4096 + 4096 ≤ s.dd.capacityBytes) :
    ∃ t, callAt site .eraseSector (eraseSector si) s = .ok () t ∧
      Moves (s.dev.flash.erase (si.toNat * 4096) 4096) 0
        [0x20 :: addressBytes s.dd.addressWidth (sectorBase si)] 0 s t ∧ t.fwe = s.fwe ∧ t.sb = s.sb := by
  let s0 : State := { s with seq := { proc := .eraseSector, label := .ER0 } :: relabel site s.seq }
  obtain ⟨k, t, -, h1, h2, h3, h4⟩ := eraseSector_ok (s := s0) hs.xfer hs.clean hs.ready hs.mode
    hs.awake hs.desc hs.fair hs.limit hcap
  have e := h2.frame
  have hcs := hs.cs
  have hph := hs.phase
  have hpe : s.dev.pend = .none := hs.ready
  refine ⟨{ t with seq := relabel site.next s.seq }, run_callAt_ok s h1, ⟨?_, h2.xfer, ?_, _, h4.congr rfl rfl, Counts.oneErase k _⟩,
    ?_, ?_⟩
  · rw [e]
    simp only [s0, hcs, hph, hpe]
  · intro x hx
    change x ∈ t.env.latencies at hx
    rw [h3] at hx
    exact List.mem_of_mem_tail hx
  · rw [e]
  · rw [e]

/-- `writeAssumingBlank` in a request under way. -/
theorem callSpan_ok {s : State} {data : List Byte} {src : Source} {srcBase : BitVec 32} {a : Address}
    {len : BitVec 32} {site : Label} (hs : s.Usable) (hcap : a.toNat + len.toNat ≤ s.dd.capacityBytes)
    (hsrc : srcBase.toNat + len.toNat < 2 ^ 32) :
    ∃ t, callAt site .writeAssumingBlank (writeAssumingBlank data src srcBase a len) s = .ok () t ∧
      Moves (s.dev.flash.program a.toNat (sourceBytes data src s.sb srcBase.toNat len.toNat)) 0 []
        (pagesTouched a.toNat len.toNat) s t ∧ t.fwe = s.fwe ∧ t.sb = s.sb := by
  let s0 : State := { s with seq := { proc := .writeAssumingBlank, label := .SP0 } :: relabel site s.seq }
  have hs0 : s0.Usable := hs.reseq _
  obtain ⟨t, h1, h2⟩ := writeAssumingBlank_ok (data := data) (src := src) (srcBase := srcBase) hs0 hcap hsrc
  obtain ⟨e, hx, hl, c, hc, hk, -⟩ := h2
  rw [length_sourceBytes] at hk
  refine ⟨{ t with seq := relabel site.next s.seq }, run_callAt_ok s h1, ⟨?_, hx, hl, c, hc.congr rfl rfl, hk⟩, ?_, ?_⟩
  · rw [e]
  · rw [e]
  · rw [e]

/-- `readSector` in a request under way. -/
theorem callRead_ok {s : State} {si : SectorIndex} {site : Label} (hs : s.Usable)
    (hcap : si.toNat * 4096 + 4096 ≤ s.dd.capacityBytes) :
    ∃ t, callAt site .readSector (readSector si) s = .ok () t ∧ Moves s.dev.flash 1 [] 0 s t ∧ t.fwe = s.fwe ∧
      t.sb = s.sb.writeList 0 (s.dev.flash.readList (si.toNat * 4096) 4096) := by
  let s0 : State := { s with seq := { proc := .readSector, label := .RS0 } :: relabel site s.seq }
  have hs0 : s0.Usable := hs.reseq _
  obtain ⟨t, h1, h2⟩ := readSector_ok (s := s0) hs.xfer hs.clean hs.ready
    ((State.readable_iff _).2 ⟨hs.mode, hs.awake.1⟩) hs.desc hcap
  obtain ⟨e, hx, hl, c, hc, hk⟩ := h2.moves hs0
  have hf : t.fwe = s.fwe := by rw [h2.frame]
  refine ⟨{ t with seq := relabel site.next s.seq }, run_callAt_ok s h1, ⟨?_, hx, hl, c, hc.congr rfl rfl, hk⟩, hf, h2.sb⟩
  rw [e]

/-! ### The iteration -/

/-- The blank scan finds a byte that is not 0xFF (45 R205). -/
theorem blankScan_iff (sb : Memory) (offset chunk : Nat) :
    blankScan sb offset chunk = true ↔ ∃ i, i < chunk ∧ sb.read (offset + i) ≠ 0xFF := by
  simp only [blankScan, List.any_eq_true, List.mem_range]
  exact ⟨fun ⟨i, hi, h⟩ => ⟨i, hi, of_decide_eq_true h⟩, fun ⟨i, hi, h⟩ => ⟨i, hi, decide_eq_true h⟩⟩

/-- The size of the window of an iteration (45 R202). -/
def chunkOf (address length : Nat) : Nat := min length (4096 - address % 4096)

/-- The registers after the address splitter (45 R201, R202). -/
theorem splitAddress_fwe (s : State) :
    (splitAddress s).fwe.sectorIndex.toNat = s.fwe.address.toNat / 4096 ∧
    (splitAddress s).fwe.offsetInSector.toNat = s.fwe.address.toNat % 4096 ∧
    (splitAddress s).fwe.chunk.toNat = chunkOf s.fwe.address.toNat s.fwe.length.toNat ∧
    (splitAddress s).fwe.address = s.fwe.address ∧ (splitAddress s).fwe.length = s.fwe.length ∧
    (splitAddress s).fwe.pos = s.fwe.pos := by
  have h := s.fwe.address.isLt
  refine ⟨?_, ?_, ?_, rfl, rfl, rfl⟩
  · change (sectorIndexOf s.fwe.address).toNat = _
    unfold sectorIndexOf; rw [BitVec.toNat_ofNat]; omega
  · change (offsetInSectorOf s.fwe.address).toNat = _
    unfold offsetInSectorOf; rw [BitVec.toNat_ofNat]; omega
  · change (BitVec.ofNat 13 (min s.fwe.length.toNat (4096 - s.fwe.address.toNat % 4096))).toNat = _
    unfold chunkOf; rw [BitVec.toNat_ofNat]; omega

/-- The registers after the advance (45 R211). -/
theorem advance_fwe {s : State} (hl : s.fwe.chunk.toNat ≤ s.fwe.length.toNat)
    (hp : s.fwe.pos.toNat + s.fwe.length.toNat < 2 ^ 32) (hc : s.fwe.chunk.toNat ≤ 4096) :
    (advance s).fwe.length.toNat = s.fwe.length.toNat - s.fwe.chunk.toNat ∧
    (advance s).fwe.pos.toNat = s.fwe.pos.toNat + s.fwe.chunk.toNat ∧
    (s.fwe.address.toNat + s.fwe.chunk.toNat < 2 ^ 32 →
      (advance s).fwe.address.toNat = s.fwe.address.toNat + s.fwe.chunk.toNat) := by
  have h : (BitVec.ofNat 32 s.fwe.chunk.toNat).toNat = s.fwe.chunk.toNat := by rw [BitVec.toNat_ofNat]; omega
  refine ⟨?_, ?_, fun ha => ?_⟩
  · change (s.fwe.length - BitVec.ofNat 32 s.fwe.chunk.toNat).toNat = _
    rw [BitVec.toNat_sub_of_le (by rw [BitVec.le_def, h]; exact hl), h]
  · change (s.fwe.pos + BitVec.ofNat 32 s.fwe.chunk.toNat).toNat = _
    rw [BitVec.toNat_add, h]; omega
  · change (s.fwe.address + BitVec.ofNat 32 s.fwe.chunk.toNat).toNat = _
    rw [BitVec.toNat_add, h]; omega

/-- Reading after a program of a data source. -/
theorem read_program_source {m : Memory} {a base n x : Nat} {data : List Byte} {src : Source} {sb : Memory}
    (h : m.wf = true) :
    (m.program a (sourceBytes data src sb base n)).read x =
      if a ≤ x ∧ x < a + n then m.read x &&& sourceAt data src sb (base + (x - a)) else m.read x := by
  rw [Memory.read_program h, length_sourceBytes]
  split_ifs with hx
  · rw [getD_sourceBytes _ _ _ _ _ _ (by omega)]
  · rfl

theorem and_blank_left (b : Byte) : (0xFF : Byte) &&& b = b := by
  have := BitVec.allOnes_and (x := b)
  exact this

/-- The direct path (45 R210): onto a blank window, the caller's bytes. -/
theorem directWrite_ok {s : State} {data : List Byte} (hs : s.Usable)
    (hcap : s.fwe.address.toNat + s.fwe.chunk.toNat ≤ s.dd.capacityBytes)
    (hpos : s.fwe.pos.toNat + s.fwe.chunk.toNat < 2 ^ 32) (hc : s.fwe.chunk.toNat ≤ 4096) :
    ∃ t, directWrite data s = .ok () t ∧
      Moves (s.dev.flash.program s.fwe.address.toNat
        (sourceBytes data .caller s.sb s.fwe.pos.toNat s.fwe.chunk.toNat)) 0 []
        (pagesTouched s.fwe.address.toNat s.fwe.chunk.toNat) s t ∧ t.fwe = s.fwe ∧ t.sb = s.sb := by
  have h : (BitVec.ofNat 32 s.fwe.chunk.toNat).toNat = s.fwe.chunk.toNat := by rw [BitVec.toNat_ofNat]; omega
  have m0 := Moves.assign hs s.fwe s.sb (relabel .W5 s.seq)
  obtain ⟨t, h1, h2, h3, h4⟩ := callSpan_ok (s := { s with seq := relabel .W5 s.seq }) (data := data) (src := .caller)
    (srcBase := s.fwe.pos) (a := s.fwe.address) (len := BitVec.ofNat 32 s.fwe.chunk.toNat) (site := .W5) (hs.reseq _)
    (by rw [h]; exact hcap) (by rw [h]; exact hpos)
  rw [h] at h2
  refine ⟨t, by rw [directWrite, run_goto_bind, run_get_bind, h1], ?_, h3, h4⟩
  simpa only [Nat.zero_add, List.append_nil] using m0.trans h2

/-- The pages of a whole sector (43 R186). -/
theorem pagesTouched_sector {base : Nat} (h : base % 4096 = 0) : pagesTouched base 4096 = 16 := by
  unfold pagesTouched; rw [if_neg (by decide)]; omega

/-- The erase-merge path (45 R207 to R209): the sector is erased and the merged ScratchBuffer programmed back. -/
theorem eraseMerge_ok {s : State} {data : List Byte} (hs : s.Usable)
    (hcap : s.fwe.sectorIndex.toNat * 4096 + 4096 ≤ s.dd.capacityBytes) :
    ∃ t, eraseMerge data s = .ok () t ∧
      Moves ((s.dev.flash.erase (s.fwe.sectorIndex.toNat * 4096) 4096).program (s.fwe.sectorIndex.toNat * 4096)
        (sourceBytes data .scratch (mergeWindow data s).sb 0 4096)) 0
        [0x20 :: addressBytes s.dd.addressWidth (sectorBase s.fwe.sectorIndex)] 16 s t ∧
      t.fwe = s.fwe ∧ t.sb = (mergeWindow data s).sb := by
  obtain ⟨t1, h1, m1, f1, b1⟩ := callErase_ok (site := .W4a) hs hcap
  let t2 : State := mergeWindow data t1
  have m2 : Moves t1.dev.flash 0 [] 0 t1 t2 := Moves.assign (m1.usable hs) t1.fwe t2.sb t1.seq
  have b2 : t2.sb = (mergeWindow data s).sb := by
    simp only [t2, mergeWindow, f1, b1]
  have f2 : t2.fwe = s.fwe := f1
  have hbase := sectorBase_toNat s.fwe.sectorIndex
  have hl : (4096 : BitVec 32).toNat = 4096 := rfl
  have hz : (0 : BitVec 32).toNat = 0 := rfl
  obtain ⟨t3, h3, m3, f3, b3⟩ := callSpan_ok (data := data) (src := .scratch) (srcBase := 0)
    (a := sectorBase s.fwe.sectorIndex) (len := 4096) (site := .W4c) (m2.usable (m1.usable hs))
    (by rw [hbase, hl, m2.dd_eq, m1.dd_eq]; exact hcap) (by rw [hl, hz]; omega)
  rw [hbase, hl, hz, pagesTouched_sector (by omega), m2.flash_eq, m1.flash_eq, b2] at m3
  have m4 := Moves.assign (m3.usable (m2.usable (m1.usable hs))) t3.fwe t3.sb (relabel .W6 t3.seq)
  rw [m3.flash_eq] at m4
  refine ⟨_, ?_, ((m1.trans m2).trans m3).trans m4, f3.trans f2, b3.trans b2⟩
  rw [eraseMerge, run_get_bind, run_bind_ok h1, run_assign_bind, run_get_bind]
  change (callAt .W4c .writeAssumingBlank (writeAssumingBlank data .scratch 0 (sectorBase t2.fwe.sectorIndex) 4096) >>=
    fun _ => goto .W6) t2 = _
  rw [f2, run_bind_ok h3, run_goto]

/-- The window of an iteration is not blank (45 R205). -/
def Dirty (m : Memory) (a n : Nat) : Prop := ∃ i, i < n ∧ m.read (a + i) ≠ 0xFF

/-- What one iteration leaves: the caller's bytes in its window, every other byte as it was (45 R212, R214), and the
registers advanced (45 R211). -/
structure Iterates (data : List Byte) (s t : State) (erases : List (List Byte)) (programs : Nat) : Prop where
  moves : Moves t.dev.flash 1 erases programs s t
  flash_wf : t.dev.flash.wf = true
  sb_wf : t.sb.wf = true
  read : ∀ x, t.dev.flash.read x =
    if s.fwe.address.toNat ≤ x ∧ x < s.fwe.address.toNat + chunkOf s.fwe.address.toNat s.fwe.length.toNat
    then data.getD (s.fwe.pos.toNat + (x - s.fwe.address.toNat)) 0 else s.dev.flash.read x
  length : t.fwe.length.toNat = s.fwe.length.toNat - chunkOf s.fwe.address.toNat s.fwe.length.toNat
  pos : t.fwe.pos.toNat = s.fwe.pos.toNat + chunkOf s.fwe.address.toNat s.fwe.length.toNat
  address : s.fwe.address.toNat + chunkOf s.fwe.address.toNat s.fwe.length.toNat < 2 ^ 32 →
    t.fwe.address.toNat = s.fwe.address.toNat + chunkOf s.fwe.address.toNat s.fwe.length.toNat

/-- The two paths of the branch, with what they have in common (45 R206). -/
theorem choosePath_ok {s : State} {data : List Byte} (hs : s.Usable) (hw : s.dev.flash.wf = true)
    (hsb : s.sb.wf = true) (hsi : s.fwe.sectorIndex.toNat = s.fwe.address.toNat / 4096)
    (hoff : s.fwe.offsetInSector.toNat = s.fwe.address.toNat % 4096)
    (hsec : s.fwe.sectorIndex.toNat * 4096 + 4096 ≤ s.dd.capacityBytes)
    (hfit : s.fwe.address.toNat % 4096 + s.fwe.chunk.toNat ≤ 4096)
    (hdata : s.fwe.pos.toNat + s.fwe.chunk.toNat ≤ data.length)
    (hpos : s.fwe.pos.toNat + s.fwe.chunk.toNat < 2 ^ 32)
    (hread : ∀ i, i < 4096 → s.sb.read i = s.dev.flash.read (s.fwe.sectorIndex.toNat * 4096 + i))
    (her : s.fwe.eraseRequired = blankScan s.sb s.fwe.offsetInSector.toNat s.fwe.chunk.toNat) :
    ∃ t e p, choosePath data s = .ok () t ∧ Moves t.dev.flash 0 e p s t ∧ t.dev.flash.wf = true ∧
      t.sb.wf = true ∧ t.fwe = s.fwe ∧
      (∀ x, t.dev.flash.read x =
        if s.fwe.address.toNat ≤ x ∧ x < s.fwe.address.toNat + s.fwe.chunk.toNat
        then data.getD (s.fwe.pos.toNat + (x - s.fwe.address.toNat)) 0 else s.dev.flash.read x) ∧
      ((Dirty s.dev.flash s.fwe.address.toNat s.fwe.chunk.toNat ∧
          e = [0x20 :: addressBytes s.dd.addressWidth (sectorBase s.fwe.sectorIndex)] ∧ p = 16) ∨
       (¬ Dirty s.dev.flash s.fwe.address.toNat s.fwe.chunk.toNat ∧ e = [] ∧
        p = pagesTouched s.fwe.address.toNat s.fwe.chunk.toNat)) := by
  obtain ⟨A, hA⟩ : ∃ A, A = s.fwe.address.toNat := ⟨_, rfl⟩
  obtain ⟨C, hC⟩ : ∃ C, C = s.fwe.chunk.toNat := ⟨_, rfl⟩
  obtain ⟨P, hP⟩ : ∃ P, P = s.fwe.pos.toNat := ⟨_, rfl⟩
  obtain ⟨B, hB⟩ : ∃ B, B = s.fwe.sectorIndex.toNat * 4096 := ⟨_, rfl⟩
  have hBA : A = B + A % 4096 := by omega
  rw [← hA] at hsi hoff hfit ⊢
  rw [← hC] at hfit hdata hpos her ⊢
  rw [← hP] at hdata hpos ⊢
  have hdirty : s.fwe.eraseRequired = true ↔ Dirty s.dev.flash A C := by
    rw [her, blankScan_iff, hoff]
    refine exists_congr fun i => and_congr_right fun hi => ?_
    rw [hread _ (by omega), ← hB, ← Nat.add_assoc, ← hBA]
  by_cases her' : s.fwe.eraseRequired = true
  · obtain ⟨t, h1, m1, f1, b1⟩ := eraseMerge_ok (data := data) hs hsec
    rw [← hB] at m1
    have hlen : ((data.drop P).take C).length = C := by rw [List.length_take, List.length_drop]; omega
    have hmb : (mergeWindow data s).sb = s.sb.writeList (A % 4096) ((data.drop P).take C) := by
      simp only [mergeWindow]; rw [← hP, ← hC, hoff]
    refine ⟨t, _, 16, ?_, ?_, ?_, ?_, f1, fun x => ?_, .inl ⟨hdirty.1 her', rfl, rfl⟩⟩
    · rw [choosePath, run_get_bind, if_pos her', h1]
    · rw [m1.flash_eq]; exact m1
    · rw [m1.flash_eq]; exact Memory.wf_program (Memory.wf_erase hw)
    · rw [b1, hmb]; exact Memory.wf_writeList hsb
    · rw [m1.flash_eq, read_program_source (Memory.wf_erase hw), Memory.read_erase]
      by_cases hx : B ≤ x ∧ x < B + 4096
      · rw [if_pos hx, if_pos hx, and_blank_left, sourceAt, Nat.zero_add, hmb, Memory.read_writeList hsb, hlen]
        by_cases hin : A ≤ x ∧ x < A + C
        · rw [if_pos hin, if_pos (by omega), show x - B - A % 4096 = x - A by omega]
          have hi : x - A < C := by omega
          rw [List.getD_eq_getElem?_getD, List.getD_eq_getElem?_getD, List.getElem?_take, if_pos hi,
            List.getElem?_drop]
        · rw [if_neg hin, if_neg (by omega), hread _ (by omega), ← hB, show B + (x - B) = x by omega]
      · rw [if_neg hx, if_neg hx, if_neg (by omega)]
  · have hnd : ¬ Dirty s.dev.flash A C := fun h => her' (hdirty.2 h)
    obtain ⟨t, h1, m1, f1, b1⟩ := directWrite_ok (data := data) hs (by rw [← hA, ← hC]; omega)
      (by rw [← hP, ← hC]; exact hpos) (by rw [← hC]; omega)
    rw [← hA, ← hC, ← hP] at m1
    refine ⟨t, [], _, ?_, ?_, ?_, ?_, f1, fun x => ?_, .inr ⟨hnd, rfl, rfl⟩⟩
    · rw [choosePath, run_get_bind, if_neg her', h1]
    · rw [m1.flash_eq]; exact m1
    · rw [m1.flash_eq]; exact Memory.wf_program hw
    · rw [b1]; exact hsb
    · rw [m1.flash_eq, read_program_source hw]
      by_cases hin : A ≤ x ∧ x < A + C
      · rw [if_pos hin, if_pos hin]
        have hblank : s.dev.flash.read x = 0xFF := by
          by_contra hne
          exact hnd ⟨x - A, by omega, by rwa [show A + (x - A) = x by omega]⟩
        have hi : P + (x - A) < data.length := by omega
        rw [hblank, and_blank_left, sourceAt, List.getD_eq_getElem _ _ hi, List.getD_eq_getElem _ _ hi]
      · rw [if_neg hin, if_neg hin]

/-- One iteration of `write` (45 R200, W1 to W6). -/
theorem writeIteration_ok {s : State} {data : List Byte} (hs : s.Usable) (hw : s.dev.flash.wf = true)
    (hsb : s.sb.wf = true) (hlen : 0 < s.fwe.length.toNat)
    (hcap : s.fwe.address.toNat + s.fwe.length.toNat ≤ s.dd.capacityBytes)
    (hdata : s.fwe.pos.toNat + s.fwe.length.toNat ≤ data.length)
    (hpos : s.fwe.pos.toNat + s.fwe.length.toNat < 2 ^ 32) :
    ∃ t e p, writeIteration data s = .ok () t ∧ Iterates data s t e p ∧
      ((Dirty s.dev.flash s.fwe.address.toNat (chunkOf s.fwe.address.toNat s.fwe.length.toNat) ∧
          e = [0x20 :: addressBytes s.dd.addressWidth (sectorBase (sectorIndexOf s.fwe.address))] ∧ p = 16) ∨
       (¬ Dirty s.dev.flash s.fwe.address.toNat (chunkOf s.fwe.address.toNat s.fwe.length.toNat) ∧ e = [] ∧
        p = pagesTouched s.fwe.address.toNat (chunkOf s.fwe.address.toNat s.fwe.length.toNat))) := by
  obtain ⟨hsi, hoff, hch, ha1, hl1, hp1⟩ := splitAddress_fwe s
  let s1 : State := splitAddress s
  have m1 : Moves s.dev.flash 0 [] 0 s s1 := Moves.assign hs s1.fwe s.sb s.seq
  have u1 := m1.usable hs
  have hchunk : chunkOf s.fwe.address.toNat s.fwe.length.toNat ≤ s.fwe.length.toNat ∧
      s.fwe.address.toNat % 4096 + chunkOf s.fwe.address.toNat s.fwe.length.toNat ≤ 4096 := by
    unfold chunkOf; omega
  have hd := hs.desc
  have hsec : s1.fwe.sectorIndex.toNat * 4096 + 4096 ≤ s1.dd.capacityBytes := by
    rw [hsi]
    change _ ≤ s.dd.capacityBytes
    have := hd.2.1
    omega
  obtain ⟨t2, h2, m2, f2, b2⟩ := callRead_ok (site := .W2) u1 hsec
  let s3 : State := { t2 with fwe := { t2.fwe with
    eraseRequired := blankScan t2.sb t2.fwe.offsetInSector.toNat t2.fwe.chunk.toNat } }
  have m3 : Moves t2.dev.flash 0 [] 0 t2 s3 := Moves.assign (m2.usable u1) s3.fwe t2.sb t2.seq
  have hfl2 : t2.dev.flash = s.dev.flash := m2.flash_eq.trans m1.flash_eq
  have hsb2 : t2.sb.wf = true := by rw [b2]; exact Memory.wf_writeList hsb
  have e1 : s3.fwe.sectorIndex = s1.fwe.sectorIndex := by change t2.fwe.sectorIndex = _; rw [f2]
  have e2 : s3.fwe.offsetInSector = s1.fwe.offsetInSector := by change t2.fwe.offsetInSector = _; rw [f2]
  have e3 : s3.fwe.chunk = s1.fwe.chunk := by change t2.fwe.chunk = _; rw [f2]
  have e4 : s3.fwe.address = s.fwe.address := by change t2.fwe.address = _; rw [f2]; exact ha1
  have e5 : s3.fwe.pos = s.fwe.pos := by change t2.fwe.pos = _; rw [f2]; exact hp1
  have e6 : s3.fwe.length = s.fwe.length := by change t2.fwe.length = _; rw [f2]; exact hl1
  have hch3 : s3.fwe.chunk.toNat = chunkOf s.fwe.address.toNat s.fwe.length.toNat := by rw [e3]; exact hch
  have u3 := m3.usable (m2.usable u1)
  obtain ⟨t, e, p, h4, m4, w4, b4, f4, r4, d4⟩ := choosePath_ok (s := s3) (data := data) u3
    (by change t2.dev.flash.wf = true; rw [hfl2]; exact hw) hsb2
    (by rw [e1, e4]; exact hsi) (by rw [e2, e4]; exact hoff)
    (by rw [e1, m3.dd_eq, m2.dd_eq]; exact hsec) (by rw [e4, hch3]; exact hchunk.2)
    (by rw [e5, hch3]; omega) (by rw [e5, hch3]; omega)
    (fun i hi => by
      change t2.sb.read i = t2.dev.flash.read _
      have es : s1.sb = s.sb := rfl
      rw [hfl2, e1, b2, es, Memory.read_writeList hsb, if_pos (by rw [Memory.length_readList]; omega), Nat.sub_zero,
        Memory.getD_readList _ _ _ _ hi]
      rfl)
    rfl
  have ed : s3.dev.flash = s.dev.flash := hfl2
  rw [e4, hch3, ed, e1, m3.dd_eq, m2.dd_eq] at d4
  rw [e4, e5, hch3] at r4
  let u : State := { advance t with seq := relabel .WL t.seq }
  have m5 : Moves t.dev.flash 0 [] 0 t u := Moves.assign (m4.usable u3) u.fwe t.sb u.seq
  have g1 : t.fwe.chunk.toNat = chunkOf s.fwe.address.toNat s.fwe.length.toNat := by rw [f4]; exact hch3
  have g2 : t.fwe.length = s.fwe.length := by rw [f4]; exact e6
  have g3 : t.fwe.pos = s.fwe.pos := by rw [f4]; exact e5
  have g4 : t.fwe.address = s.fwe.address := by rw [f4]; exact e4
  obtain ⟨a1, a2, a3⟩ := advance_fwe (s := t) (by rw [g1, g2]; exact hchunk.1) (by rw [g2, g3]; exact hpos)
    (by rw [g1]; omega)
  refine ⟨u, e, p, ?_, ⟨?_, w4, b4, ?_, ?_, ?_, ?_⟩, d4⟩
  · rw [writeIteration, run_assign_bind, run_get_bind]
    change (callAt .W2 .readSector (readSector s1.fwe.sectorIndex) >>= _ : M Unit) s1 = _
    rw [run_bind_ok h2, run_assign_bind]
    change (choosePath data >>= _ : M Unit) s3 = _
    rw [run_bind_ok h4, run_assign_bind, run_goto]
    rfl
  · have := (((m1.trans m2).trans m3).trans m4).trans m5
    simp only [Nat.zero_add, Nat.add_zero, List.nil_append, List.append_nil] at this
    exact this
  · intro x
    change t.dev.flash.read x = _
    rw [r4, ed]
  · rw [← g1, ← g2]; exact a1
  · rw [← g1, ← g3]; exact a2
  · rw [← g1, ← g4]; exact a3

end Sys2Proof.Machine
end

