-- ==== Sys2Proof/Laws/Loop.lean ====
section
/-! SUPPORT. The loop of `write` on an idle device when no exchange fails (45 R203, R214 to R216). -/

namespace Sys2Proof.Machine

/-! ### The sectors of a window -/

theorem isDirty_iff (m : Memory) (a n : Nat) : isDirty m a n = true ↔ Dirty m a n := by
  simp only [isDirty, List.any_eq_true, List.mem_range]
  exact ⟨fun ⟨i, hi, h⟩ => ⟨i, hi, of_decide_eq_true h⟩, fun ⟨i, hi, h⟩ => ⟨i, hi, decide_eq_true h⟩⟩

/-- Dirtiness depends on the bytes of the range only. -/
theorem isDirty_congr {m m' : Memory} {a n : Nat} (h : ∀ i, i < n → m.read (a + i) = m'.read (a + i)) :
    isDirty m a n = isDirty m' a n := by
  rw [Bool.eq_iff_iff, isDirty_iff, isDirty_iff]
  exact exists_congr fun i => and_congr_right fun hi => by rw [h i hi]

theorem sectorsTouched_step {a n : Nat} (hn : 0 < n) :
    sectorsTouched a n = a / 4096 :: sectorsTouched (a + chunkOf a n) (n - chunkOf a n) := by
  unfold sectorsTouched chunkOf
  rw [if_neg (by omega)]
  rcases Nat.le_total n (4096 - a % 4096) with h | h
  · rw [Nat.min_eq_left h, if_pos (by omega), show (a + n - 1) / 4096 - a / 4096 + 1 = 1 by omega]
    rfl
  · rw [Nat.min_eq_right h, List.range'_succ]
    congr 1
    split_ifs with h'
    · rw [show (a + n - 1) / 4096 - a / 4096 = 0 by omega]; rfl
    · congr 1 <;> omega

theorem mem_sectorsTouched {a n k : Nat} (h : k ∈ sectorsTouched a n) :
    0 < n ∧ a ≤ 4096 * k + 4095 ∧ 4096 * k < a + n := by
  unfold sectorsTouched at h
  split_ifs at h with hn
  · cases h
  · rw [List.mem_range'_1] at h
    omega

/-- The part of the window in the first sector. -/
theorem part_first {a n : Nat} (hn : 0 < n) :
    partStart a (a / 4096) = a ∧ partLength a n (a / 4096) = chunkOf a n := by
  unfold partStart partLength chunkOf partStart
  omega

/-- The part of the window in a later sector. -/
theorem part_later {a n k : Nat} (hk : k ∈ sectorsTouched (a + chunkOf a n) (n - chunkOf a n)) :
    partStart (a + chunkOf a n) k = partStart a k ∧
      partLength (a + chunkOf a n) (n - chunkOf a n) k = partLength a n k ∧ a + chunkOf a n ≤ partStart a k := by
  have h := mem_sectorsTouched hk
  have hc : a + chunkOf a n ≤ 4096 * k ∧ chunkOf a n ≤ n := by
    unfold chunkOf at h ⊢
    rcases Nat.le_total n (4096 - a % 4096) with h' | h'
    · rw [Nat.min_eq_left h'] at h ⊢; omega
    · rw [Nat.min_eq_right h'] at h ⊢; omega
  have h1 : partStart (a + chunkOf a n) k = 4096 * k := Nat.max_eq_right hc.1
  have h2 : partStart a k = 4096 * k := Nat.max_eq_right (by omega)
  refine ⟨by rw [h1, h2], ?_, by rw [h2]; exact hc.1⟩
  unfold partLength
  rw [h1, h2, show a + chunkOf a n + (n - chunkOf a n) = a + n by omega]

/-- The affected sectors: the first one, if its part is dirty, and those of the rest of the window, whatever was
written to the first part. -/
theorem affectedSectors_step {m m' : Memory} {a n : Nat} (hn : 0 < n)
    (hm : ∀ x, a + chunkOf a n ≤ x → m'.read x = m.read x) :
    affectedSectors m a n = (if isDirty m a (chunkOf a n) = true then [a / 4096] else []) ++
      affectedSectors m' (a + chunkOf a n) (n - chunkOf a n) := by
  have hlater : ∀ k ∈ sectorsTouched (a + chunkOf a n) (n - chunkOf a n),
      affected m a n k = affected m' (a + chunkOf a n) (n - chunkOf a n) k := by
    intro k hk
    obtain ⟨h1, h2, h3⟩ := part_later hk
    unfold affected
    rw [h1, h2]
    exact isDirty_congr fun i _ => (hm _ (by omega)).symm
  have hfirst : affected m a n (a / 4096) = isDirty m a (chunkOf a n) := by
    obtain ⟨h1, h2⟩ := part_first (a := a) hn
    unfold affected; rw [h1, h2]
  unfold affectedSectors
  rw [sectorsTouched_step hn, List.filter_cons, hfirst, List.filter_congr hlater]
  split <;> rfl

theorem directPages_step {m m' : Memory} {a n : Nat} (hn : 0 < n)
    (hm : ∀ x, a + chunkOf a n ≤ x → m'.read x = m.read x) :
    directPages m a n = (if isDirty m a (chunkOf a n) = true then 0 else pagesTouched a (chunkOf a n)) +
      directPages m' (a + chunkOf a n) (n - chunkOf a n) := by
  have hlater : ∀ k ∈ sectorsTouched (a + chunkOf a n) (n - chunkOf a n),
      (!affected m a n k) = !affected m' (a + chunkOf a n) (n - chunkOf a n) k := by
    intro k hk
    obtain ⟨h1, h2, h3⟩ := part_later hk
    unfold affected
    rw [h1, h2, isDirty_congr fun i _ => (hm _ (by omega)).symm]
  obtain ⟨g1, g2⟩ := part_first (a := a) hn
  have hfirst : affected m a n (a / 4096) = isDirty m a (chunkOf a n) := by
    unfold affected; rw [g1, g2]
  have hmap : ∀ l : List Nat, (∀ k ∈ l, k ∈ sectorsTouched (a + chunkOf a n) (n - chunkOf a n)) →
      l.map (fun k => pagesTouched (partStart a k) (partLength a n k)) =
      l.map (fun k => pagesTouched (partStart (a + chunkOf a n) k)
        (partLength (a + chunkOf a n) (n - chunkOf a n) k)) := by
    intro l hl
    refine List.map_congr_left fun k hk => ?_
    obtain ⟨h1, h2, -⟩ := part_later (hl k hk)
    rw [h1, h2]
  unfold directPages
  rw [sectorsTouched_step hn, List.filter_cons, hfirst, List.filter_congr hlater]
  cases isDirty m a (chunkOf a n) with
  | true =>
    rw [if_neg (by simp), if_pos rfl, Nat.zero_add, hmap _ fun k hk => (List.mem_filter.1 hk).1]
  | false =>
    rw [if_pos (by simp), if_neg (by simp), List.map_cons, List.sum_cons, g1, g2,
      hmap _ fun k hk => (List.mem_filter.1 hk).1]

/-! ### The loop -/

/-- The SectorErase transaction of sector `k` (44 R192, 30_encoding R107). -/
def eraseOf (aw : AddressWidth) (k : Nat) : List Byte := 0x20 :: addressBytes aw (BitVec.ofNat 32 (4096 * k))

theorem sectorBase_sectorIndexOf (a : Address) :
    sectorBase (sectorIndexOf a) = BitVec.ofNat 32 (4096 * (a.toNat / 4096)) := by
  have h := a.isLt
  apply BitVec.eq_of_toNat_eq
  rw [sectorBase_toNat, sectorIndexOf, BitVec.toNat_ofNat, BitVec.toNat_ofNat]
  omega

/-- What the loop of `write` leaves: the caller's bytes in the window and every other byte as it was, one SectorErase
for each affected sector, one sector read for each sector touched, and the programs of 45 R216. -/
structure Writes (data : List Byte) (a n pos : Nat) (s t : State) : Prop where
  moves : Moves t.dev.flash (sectorsTouched a n).length
    ((affectedSectors s.dev.flash a n).map (eraseOf s.dd.addressWidth)).reverse
    (16 * (affectedSectors s.dev.flash a n).length + directPages s.dev.flash a n) s t
  flash_wf : t.dev.flash.wf = true
  sb_wf : t.sb.wf = true
  read : ∀ x, t.dev.flash.read x =
    if a ≤ x ∧ x < a + n then data.getD (pos + (x - a)) 0 else s.dev.flash.read x

theorem Writes.zero {data : List Byte} {a pos : Nat} {s : State} (hs : s.Usable) (hw : s.dev.flash.wf = true)
    (hsb : s.sb.wf = true) : Writes data a 0 pos s s where
  moves := ⟨rfl, hs.xfer, fun _ h => h, [], Sends.refl s, Counts.nil⟩
  flash_wf := hw
  sb_wf := hsb
  read x := by rw [if_neg (by omega)]

theorem writeLoop_ok {s : State} {data : List Byte} {fuel : Nat} (hs : s.Usable) (hw : s.dev.flash.wf = true)
    (hsb : s.sb.wf = true) (hfuel : s.fwe.length.toNat ≤ fuel)
    (hcap : 0 < s.fwe.length.toNat → s.fwe.address.toNat + s.fwe.length.toNat ≤ s.dd.capacityBytes)
    (hdata : s.fwe.pos.toNat + s.fwe.length.toNat ≤ data.length)
    (hpos : s.fwe.pos.toNat + s.fwe.length.toNat < 2 ^ 32) :
    ∃ t, writeLoop data fuel s = .ok () t ∧
      Writes data s.fwe.address.toNat s.fwe.length.toNat s.fwe.pos.toNat s t := by
  induction fuel generalizing s with
  | zero =>
    have h0 : s.fwe.length.toNat = 0 := by omega
    rw [h0]
    exact ⟨s, rfl, Writes.zero hs hw hsb⟩
  | succ fuel ih =>
    by_cases h0 : s.fwe.length = 0
    · have h0' : s.fwe.length.toNat = 0 := by rw [h0]; rfl
      rw [h0']
      exact ⟨s, by rw [writeLoop, run_get_bind, if_pos h0, run_pure], Writes.zero hs hw hsb⟩
    · have hlen : 0 < s.fwe.length.toNat := by
        rcases Nat.eq_zero_or_pos s.fwe.length.toNat with h | h
        · exact absurd (BitVec.eq_of_toNat_eq (by simpa using h)) h0
        · exact h
      have hcap := hcap hlen
      obtain ⟨t, e, p, h1, h2, h3⟩ := writeIteration_ok hs hw hsb hlen hcap hdata hpos
      obtain ⟨A, hA⟩ : ∃ A, A = s.fwe.address.toNat := ⟨_, rfl⟩
      obtain ⟨L, hL⟩ : ∃ L, L = s.fwe.length.toNat := ⟨_, rfl⟩
      obtain ⟨P, hP⟩ : ∃ P, P = s.fwe.pos.toNat := ⟨_, rfl⟩
      obtain ⟨m2, fw2, sw2, r2, l2, p2, a2⟩ := h2
      have hbase : sectorBase (sectorIndexOf s.fwe.address) = BitVec.ofNat 32 (4096 * (A / 4096)) := by
        rw [hA]; exact sectorBase_sectorIndexOf _
      rw [← hA, ← hL] at r2 l2 p2 a2 h3 hcap
      rw [← hP] at r2 p2
      rw [← hP, ← hL] at hdata hpos
      rw [← hL] at hlen hfuel
      rw [hbase] at h3
      rw [← hA, ← hL, ← hP]
      have hc : 1 ≤ chunkOf A L ∧ chunkOf A L ≤ L := by unfold chunkOf; omega
      have hdd := m2.dd_eq
      have hcap32 : s.dd.capacityBytes ≤ 2 ^ 32 := by
        have hd := hs.desc.2.2
        have : 2 ^ (8 * s.dd.addressWidth.bytes) ≤ 2 ^ 32 := by cases s.dd.addressWidth <;> decide
        omega
      have haddr : 0 < t.fwe.length.toNat → t.fwe.address.toNat = A + chunkOf A L := fun h => a2 (by omega)
      obtain ⟨u, h4, h5⟩ := ih (s := t) (m2.usable hs) fw2 sw2 (by omega)
        (fun h => by rw [haddr h, l2, hdd]; omega) (by omega) (by omega)
      have h5' : Writes data (A + chunkOf A L) (L - chunkOf A L) (P + chunkOf A L) t u := by
        rw [l2, p2] at h5
        rcases Nat.eq_zero_or_pos (L - chunkOf A L) with hz | hz
        · rw [hz] at h5 ⊢
          obtain ⟨b1, b2, b3, b4⟩ := h5
          exact ⟨b1, b2, b3, fun x => by rw [b4, if_neg (by omega), if_neg (by omega)]⟩
        · rw [haddr (by omega)] at h5; exact h5
      have hsame : ∀ x, A + chunkOf A L ≤ x → t.dev.flash.read x = s.dev.flash.read x := fun x hx => by
        rw [r2, if_neg (by omega)]
      have hm := m2.trans h5'.moves
      refine ⟨u, by rw [writeLoop, run_get_bind, if_neg h0, run_bind_ok h1, h4], ?_, h5'.flash_wf, h5'.sb_wf,
        fun x => ?_⟩
      · rw [hdd] at hm
        rw [sectorsTouched_step hlen, affectedSectors_step hlen hsame, directPages_step hlen hsame]
        rcases h3 with ⟨hd, he, hp⟩ | ⟨hd, he, hp⟩
        · rw [if_pos ((isDirty_iff _ _ _).2 hd), if_pos ((isDirty_iff _ _ _).2 hd)]
          subst he; subst hp
          convert hm using 1
          · rw [List.length_cons, Nat.add_comm]
          · simp [eraseOf]
          · rw [List.length_append]; simp; omega
        · rw [if_neg (fun h => hd ((isDirty_iff _ _ _).1 h)), if_neg (fun h => hd ((isDirty_iff _ _ _).1 h))]
          subst he; subst hp
          convert hm using 1
          · rw [List.length_cons, Nat.add_comm]
          · simp
          · simp; omega
      · rw [h5'.read, r2]
        by_cases hx : A ≤ x ∧ x < A + L
        · rw [if_pos hx]
          by_cases hx' : x < A + chunkOf A L
          · rw [if_neg (by omega), if_pos (by omega)]
          · rw [if_pos (by omega), show P + chunkOf A L + (x - (A + chunkOf A L)) = P + (x - A) by omega]
        · rw [if_neg hx, if_neg (by omega), if_neg (by omega)]

end Sys2Proof.Machine
end

