-- ==== Sys2Proof/Laws/PerInstr.lean ====
section
/-! SUPPORT. Statements for every instruction, one lemma for each constructor. -/

open Sys2Proof Sys2Proof.Machine

namespace Sys2Proof.Laws

/-- 30_encoding R127: the two match spaces are distinct. A host operation is encoded as a request, a device command
as a transaction that begins with a byte and whose first byte does not depend on the address width, and an
instruction in neither class has no encoding. -/
def MatchSpace.Statement (i : Instr) : Prop :=
  (isHostRequest i = true → ∀ aw, ∃ r, encode aw i = some (.request r)) ∧
  (isDeviceCommand i = true → ∃ c, ∀ aw, ∃ rest, encode aw i = some (.transaction (c :: rest))) ∧
  (isHostRequest i = false → isDeviceCommand i = false → ∀ aw, encode aw i = none) ∧
  ¬ (isHostRequest i = true ∧ isDeviceCommand i = true)

theorem MatchSpace.writeEnable : MatchSpace.Statement .writeEnable :=
  ⟨by simp [isHostRequest], fun _ => ⟨_, fun _ => ⟨_, rfl⟩⟩, by simp [isDeviceCommand], by simp [isHostRequest]⟩

theorem MatchSpace.writeDisable : MatchSpace.Statement .writeDisable :=
  ⟨by simp [isHostRequest], fun _ => ⟨_, fun _ => ⟨_, rfl⟩⟩, by simp [isDeviceCommand], by simp [isHostRequest]⟩

theorem MatchSpace.readStatusReg1 : MatchSpace.Statement .readStatusReg1 :=
  ⟨by simp [isHostRequest], fun _ => ⟨_, fun _ => ⟨_, rfl⟩⟩, by simp [isDeviceCommand], by simp [isHostRequest]⟩

theorem MatchSpace.readStatusReg2 : MatchSpace.Statement .readStatusReg2 :=
  ⟨by simp [isHostRequest], fun _ => ⟨_, fun _ => ⟨_, rfl⟩⟩, by simp [isDeviceCommand], by simp [isHostRequest]⟩

theorem MatchSpace.readStatusReg3 : MatchSpace.Statement .readStatusReg3 :=
  ⟨by simp [isHostRequest], fun _ => ⟨_, fun _ => ⟨_, rfl⟩⟩, by simp [isDeviceCommand], by simp [isHostRequest]⟩

theorem MatchSpace.writeStatusReg1 (v : Byte) : MatchSpace.Statement (.writeStatusReg1 v) :=
  ⟨by simp [isHostRequest], fun _ => ⟨_, fun _ => ⟨_, rfl⟩⟩, by simp [isDeviceCommand], by simp [isHostRequest]⟩

theorem MatchSpace.writeStatusReg2 (v : Byte) : MatchSpace.Statement (.writeStatusReg2 v) :=
  ⟨by simp [isHostRequest], fun _ => ⟨_, fun _ => ⟨_, rfl⟩⟩, by simp [isDeviceCommand], by simp [isHostRequest]⟩

theorem MatchSpace.writeStatusReg3 (v : Byte) : MatchSpace.Statement (.writeStatusReg3 v) :=
  ⟨by simp [isHostRequest], fun _ => ⟨_, fun _ => ⟨_, rfl⟩⟩, by simp [isDeviceCommand], by simp [isHostRequest]⟩

theorem MatchSpace.readData (a : Address) (n : Nat) : MatchSpace.Statement (.readData a n) :=
  ⟨by simp [isHostRequest], fun _ => ⟨_, fun _ => ⟨_, rfl⟩⟩, by simp [isDeviceCommand], by simp [isHostRequest]⟩

theorem MatchSpace.pageProgram (a : Address) (d : List Byte) : MatchSpace.Statement (.pageProgram a d) :=
  ⟨by simp [isHostRequest], fun _ => ⟨_, fun _ => ⟨_, rfl⟩⟩, by simp [isDeviceCommand], by simp [isHostRequest]⟩

theorem MatchSpace.sectorErase (a : Address) : MatchSpace.Statement (.sectorErase a) :=
  ⟨by simp [isHostRequest], fun _ => ⟨_, fun _ => ⟨_, rfl⟩⟩, by simp [isDeviceCommand], by simp [isHostRequest]⟩

theorem MatchSpace.chipErase (d : List Byte) : MatchSpace.Statement (.chipErase d) :=
  ⟨by simp [isHostRequest], fun _ => ⟨_, fun _ => ⟨_, rfl⟩⟩, by simp [isDeviceCommand], by simp [isHostRequest]⟩

theorem MatchSpace.powerDown (d : List Byte) : MatchSpace.Statement (.powerDown d) :=
  ⟨by simp [isHostRequest], fun _ => ⟨_, fun _ => ⟨_, rfl⟩⟩, by simp [isDeviceCommand], by simp [isHostRequest]⟩

theorem MatchSpace.releasePowerDown (d : List Byte) : MatchSpace.Statement (.releasePowerDown d) :=
  ⟨by simp [isHostRequest], fun _ => ⟨_, fun _ => ⟨_, rfl⟩⟩, by simp [isDeviceCommand], by simp [isHostRequest]⟩

theorem MatchSpace.manufacturerDeviceID (d : List Byte) : MatchSpace.Statement (.manufacturerDeviceID d) :=
  ⟨by simp [isHostRequest], fun _ => ⟨_, fun _ => ⟨_, rfl⟩⟩, by simp [isDeviceCommand], by simp [isHostRequest]⟩

theorem MatchSpace.enable4ByteAddr : MatchSpace.Statement .enable4ByteAddr :=
  ⟨by simp [isHostRequest], fun _ => ⟨_, fun _ => ⟨_, rfl⟩⟩, by simp [isDeviceCommand], by simp [isHostRequest]⟩

theorem MatchSpace.srRead (r : BitVec 8) : MatchSpace.Statement (.srRead r) :=
  ⟨fun _ _ => ⟨_, rfl⟩, by simp [isDeviceCommand], by simp [isHostRequest], by simp [isDeviceCommand]⟩

theorem MatchSpace.srWrite (r : BitVec 8) (v : Byte) : MatchSpace.Statement (.srWrite r v) :=
  ⟨fun _ _ => ⟨_, rfl⟩, by simp [isDeviceCommand], by simp [isHostRequest], by simp [isDeviceCommand]⟩

theorem MatchSpace.srBusy : MatchSpace.Statement .srBusy :=
  ⟨fun _ _ => ⟨_, rfl⟩, by simp [isDeviceCommand], by simp [isHostRequest], by simp [isDeviceCommand]⟩

theorem MatchSpace.srWait : MatchSpace.Statement .srWait :=
  ⟨fun _ _ => ⟨_, rfl⟩, by simp [isDeviceCommand], by simp [isHostRequest], by simp [isDeviceCommand]⟩

theorem MatchSpace.weEnable : MatchSpace.Statement .weEnable :=
  ⟨fun _ _ => ⟨_, rfl⟩, by simp [isDeviceCommand], by simp [isHostRequest], by simp [isDeviceCommand]⟩

theorem MatchSpace.weDisable : MatchSpace.Statement .weDisable :=
  ⟨fun _ _ => ⟨_, rfl⟩, by simp [isDeviceCommand], by simp [isHostRequest], by simp [isDeviceCommand]⟩

theorem MatchSpace.ppProgram (a : Address) (d : List Byte) : MatchSpace.Statement (.ppProgram a d) :=
  ⟨fun _ _ => ⟨_, rfl⟩, by simp [isDeviceCommand], by simp [isHostRequest], by simp [isDeviceCommand]⟩

theorem MatchSpace.pswWriteBlank (a : Address) (d : List Byte) : MatchSpace.Statement (.pswWriteBlank a d) :=
  ⟨fun _ _ => ⟨_, rfl⟩, by simp [isDeviceCommand], by simp [isHostRequest], by simp [isDeviceCommand]⟩

theorem MatchSpace.semErase (si : SectorIndex) : MatchSpace.Statement (.semErase si) :=
  ⟨fun _ _ => ⟨_, rfl⟩, by simp [isDeviceCommand], by simp [isHostRequest], by simp [isDeviceCommand]⟩

theorem MatchSpace.fweWrite (a : Address) (d : List Byte) : MatchSpace.Statement (.fweWrite a d) :=
  ⟨fun _ _ => ⟨_, rfl⟩, by simp [isDeviceCommand], by simp [isHostRequest], by simp [isDeviceCommand]⟩

theorem MatchSpace.fweReadSector (si : SectorIndex) : MatchSpace.Statement (.fweReadSector si) :=
  ⟨by simp [isHostRequest], by simp [isDeviceCommand], fun _ _ _ => rfl, by simp [isHostRequest]⟩

theorem MatchSpace.reservedOp0 : MatchSpace.Statement .reservedOp0 :=
  ⟨fun _ _ => ⟨_, rfl⟩, by simp [isDeviceCommand], by simp [isHostRequest], by simp [isDeviceCommand]⟩

theorem MatchSpace.reservedOpB : MatchSpace.Statement .reservedOpB :=
  ⟨fun _ _ => ⟨_, rfl⟩, by simp [isDeviceCommand], by simp [isHostRequest], by simp [isDeviceCommand]⟩

theorem MatchSpace.reservedOpC : MatchSpace.Statement .reservedOpC :=
  ⟨fun _ _ => ⟨_, rfl⟩, by simp [isDeviceCommand], by simp [isHostRequest], by simp [isDeviceCommand]⟩

theorem MatchSpace.reservedOpD : MatchSpace.Statement .reservedOpD :=
  ⟨fun _ _ => ⟨_, rfl⟩, by simp [isDeviceCommand], by simp [isHostRequest], by simp [isDeviceCommand]⟩

theorem MatchSpace.reservedOpE : MatchSpace.Statement .reservedOpE :=
  ⟨fun _ _ => ⟨_, rfl⟩, by simp [isDeviceCommand], by simp [isHostRequest], by simp [isDeviceCommand]⟩

theorem MatchSpace.reservedOpF : MatchSpace.Statement .reservedOpF :=
  ⟨fun _ _ => ⟨_, rfl⟩, by simp [isDeviceCommand], by simp [isHostRequest], by simp [isDeviceCommand]⟩

end Sys2Proof.Laws
end

