-- ==== Sys2Proof/Tests/Slice0.lean ====
section
/-! SUPPORT. Tests: well-formedness, decoding, one step of each instruction on small states with results from
spec/95_test_vectors, and for each statement a state that meets its hypotheses. -/

open Sys2Proof Sys2Proof.Machine

namespace Sys2Proof.Tests

set_option Elab.async false

/-! ### Helpers -/

/-- A flash array with some bytes that are not blank. -/
def start (m : Memory) : State := { State.reset with dev := { Device.reset with flash := m } }

/-- The 4-byte device of 95_test_vectors P4. -/
def big : State :=
  { State.reset with
    dd := { idCode := 0, addressWidth := .four, capacityBytes := 0x2000000 }
    dev := { Device.reset with ads := true } }

/-- The device with its latch set. -/
def latched (s : State) : State := s.mapDev fun d => { d with wel := true }

/-- The device in an erase cycle that `k` more polls find running. -/
def busyDevice (k : Option Nat) (limit : Option Nat) : State :=
  { State.reset with pollLimit := limit, dev := { Device.reset with pend := .erase, busyFor := k } }

/-- The transport fails after `n` exchanges. -/
def failing (n : Nat) : State := { State.reset with env := { Environment.reset with xferFail := [n] } }

/-- A hung block (60 R285). -/
def hung : State := { busyDevice none none with engBusy := true, seq := [{ proc := .waitUntilReady, label := .WT1 }] }

/-- With a packet at the port. -/
def presenting (p : Packet) (s : State) : State := s.present p

/-- What one instruction makes of a state, as far as `f` looks. -/
def look {α : Type} (i : Instr) (s : State) (f : State → α) : Option α := (nextState? (exec i s)).map f

/-- The response and the transactions in the order sent. -/
def report (s : State) : Response × List (List Byte) := (s.rsp, (transactions s.trace).reverse)

theorem exists_next {o : Host.Outcome State Fault Refusal} {P : State → Prop} [DecidablePred P]
    (h : (nextState? o).any (fun t => decide (P t)) = true) : ∃ t, o = .next t ∧ P t := by
  cases o with
  | next t => exact ⟨t, rfl, by simpa [nextState?] using h⟩
  | fault f => simp [nextState?] at h
  | refused r => simp [nextState?] at h

theorem launch_of {s : State} (h1 : s.PIdle) (h2 : s.PReady) (h3 : s.PMode) (h9 : s.PAwake) (h4 : s.PDesc) (h5 : s.PClean)
    (h6 : s.PXfer) (h7 : s.PFair) (h8 : s.pollLimit ≠ some 0) : s.Launch :=
  ⟨h1, h2, h3, h9, h4, h5, h6, h7, fun n hn => by
    cases n with
    | zero => exact absurd hn h8
    | succ n => exact Nat.succ_le_succ (Nat.zero_le n)⟩

/-! ### Well-formedness: an ill-formed term for each check -/

/-- 20_memory R83: with three address bytes an address has no bit above 23. -/
theorem test_wf_address : (Instr.readData 0x1000000 1).wf .three = false ∧
    (Instr.pageProgram 0x1000000 [0]).wf .three = false ∧ (Instr.sectorErase 0x1000000).wf .three = false ∧
    (Instr.sectorErase 0x0FFF000).wf .three = true ∧ (Instr.sectorErase 0x1000000).wf .four = true := by decide

/-- 30_encoding R120: `length` is 32 bits. -/
theorem test_wf_length : (Instr.ppProgram 0 (List.replicate (2 ^ 32) 0)).wf .three = false ∧
    (Instr.pswWriteBlank 0 (List.replicate (2 ^ 32) 0)).wf .three = false ∧
    (Instr.fweWrite 0 (List.replicate (2 ^ 32) 0)).wf .three = false ∧
    (Instr.fweWrite 0 [0x5A]).wf .three = true := by
  refine ⟨?_, ?_, ?_, by decide⟩ <;> simp only [Instr.wf, lengthFits, List.length_replicate] <;> decide

/-! ### Decoding: words written out from 30_encoding R104, R110, R120, R121 and 95_test_vectors -/

/-- 30 R110 format C. -/
theorem test_decode_WriteEnable :
    decode .three (.transaction [0x06]) = .ok (.writeEnable) := by decide

/-- 30 R110 format C. -/
theorem test_decode_WriteDisable :
    decode .three (.transaction [0x04]) = .ok (.writeDisable) := by decide

/-- 95 R1. -/
theorem test_decode_ReadStatusReg1 :
    decode .three (.transaction [0x05, 0xFF]) = .ok (.readStatusReg1) := by decide

/-- 95 R2. -/
theorem test_decode_ReadStatusReg2 :
    decode .three (.transaction [0x35, 0xFF]) = .ok (.readStatusReg2) := by decide

/-- 95 R3. -/
theorem test_decode_ReadStatusReg3 :
    decode .three (.transaction [0x15, 0xFF]) = .ok (.readStatusReg3) := by decide

/-- 95 R6. -/
theorem test_decode_WriteStatusReg1 :
    decode .three (.transaction [0x01, 0x00]) = .ok (.writeStatusReg1 0x00) := by decide

/-- 95 R7. -/
theorem test_decode_WriteStatusReg2 :
    decode .three (.transaction [0x31, 0x02]) = .ok (.writeStatusReg2 0x02) := by decide

/-- 95 R8. -/
theorem test_decode_WriteStatusReg3 :
    decode .three (.transaction [0x11, 0xFF]) = .ok (.writeStatusReg3 0xFF) := by decide

/-- 45 R204. -/
theorem test_decode_ReadData :
    decode .three (.transaction [0x03, 0x00, 0x10, 0x00, 0xFF, 0xFF]) = .ok (.readData 0x001000 2) := by decide

/-- 95 P1. -/
theorem test_decode_PageProgram :
    decode .three (.transaction [0x02, 0x00, 0x01, 0xFE, 0x12, 0x34]) = .ok (.pageProgram 0x0001FE [0x12, 0x34]) := by decide

/-- 95 P13. -/
theorem test_decode_PageProgram_four :
    decode .four (.transaction [0x02, 0x01, 0xFF, 0xF1, 0x00, 0xAD]) = .ok (.pageProgram 0x01FFF100 [0xAD]) := by decide

/-- 95 M3. -/
theorem test_decode_SectorErase :
    decode .three (.transaction [0x20, 0x0F, 0xF0, 0x00]) = .ok (.sectorErase 0x0FF000) := by decide

/-- 46 R243. -/
theorem test_decode_ChipErase :
    decode .three (.transaction [0xC7]) = .ok (.chipErase []) := by decide

/-- 46 R244. -/
theorem test_decode_PowerDown :
    decode .three (.transaction [0xB9]) = .ok (.powerDown []) := by decide

/-- 46 R245. -/
theorem test_decode_ReleasePowerDown :
    decode .three (.transaction [0xAB]) = .ok (.releasePowerDown []) := by decide

/-- 46 R246. -/
theorem test_decode_ManufacturerDeviceID :
    decode .three (.transaction [0x90]) = .ok (.manufacturerDeviceID []) := by decide

/-- 46 R247. -/
theorem test_decode_Enable4ByteAddr :
    decode .three (.transaction [0xB7]) = .ok (.enable4ByteAddr) := by decide

/-- 30 R121. -/
theorem test_decode_SrRead :
    decode .three (.request {
      op := 0x1, reg := 2, value := 0, address := 0, length := 0,
      sectorIndex := 0, data := [] }) = .ok (.srRead 2) := by decide

/-- 30 R121. -/
theorem test_decode_SrWrite :
    decode .three (.request {
      op := 0x2, reg := 3, value := 0xFF, address := 0, length := 0,
      sectorIndex := 0, data := [] }) = .ok (.srWrite 3 0xFF) := by decide

/-- 30 R121. -/
theorem test_decode_SrBusy :
    decode .three (.request {
      op := 0x3, reg := 0, value := 0, address := 0, length := 0,
      sectorIndex := 0, data := [] }) = .ok (.srBusy) := by decide

/-- 30 R121. -/
theorem test_decode_SrWait :
    decode .three (.request {
      op := 0x4, reg := 0, value := 0, address := 0, length := 0,
      sectorIndex := 0, data := [] }) = .ok (.srWait) := by decide

/-- 30 R121. -/
theorem test_decode_WeEnable :
    decode .three (.request {
      op := 0x5, reg := 0, value := 0, address := 0, length := 0,
      sectorIndex := 0, data := [] }) = .ok (.weEnable) := by decide

/-- 30 R121. -/
theorem test_decode_WeDisable :
    decode .three (.request {
      op := 0x6, reg := 0, value := 0, address := 0, length := 0,
      sectorIndex := 0, data := [] }) = .ok (.weDisable) := by decide

/-- 95 P1. -/
theorem test_decode_PpProgram :
    decode .three (.request {
      op := 0x7, reg := 0, value := 0, address := 0x0001FE, length := 2,
      sectorIndex := 0, data := [0x12, 0x34] }) = .ok (.ppProgram 0x0001FE [0x12, 0x34]) := by decide

/-- 95 S2. -/
theorem test_decode_PswWriteBlank :
    decode .three (.request {
      op := 0x8, reg := 0, value := 0, address := 0x0000FE, length := 3,
      sectorIndex := 0, data := [0x01, 0x02, 0x03] }) = .ok (.pswWriteBlank 0x0000FE [0x01, 0x02, 0x03]) := by decide

/-- 95 M4. -/
theorem test_decode_SemErase :
    decode .three (.request {
      op := 0x9, reg := 0, value := 0, address := 0, length := 0,
      sectorIndex := 0x100, data := [] }) = .ok (.semErase 0x100) := by decide

/-- 30 R121. -/
theorem test_decode_FweWrite :
    decode .three (.request {
      op := 0xA, reg := 0, value := 0, address := 0x000FFE, length := 1,
      sectorIndex := 0, data := [0x5A] }) = .ok (.fweWrite 0x000FFE [0x5A]) := by decide

/-- 95 X2. -/
theorem test_decode_ReservedOp0 :
    decode .three (.request {
      op := 0x0, reg := 0, value := 0, address := 0, length := 0,
      sectorIndex := 0, data := [] }) = .ok (.reservedOp0) := by decide

/-- 30 R124. -/
theorem test_decode_ReservedOpB :
    decode .three (.request {
      op := 0xB, reg := 0, value := 0, address := 0, length := 0,
      sectorIndex := 0, data := [] }) = .ok (.reservedOpB) := by decide

/-- 30 R124. -/
theorem test_decode_ReservedOpC :
    decode .three (.request {
      op := 0xC, reg := 0, value := 0, address := 0, length := 0,
      sectorIndex := 0, data := [] }) = .ok (.reservedOpC) := by decide

/-- 30 R124. -/
theorem test_decode_ReservedOpD :
    decode .three (.request {
      op := 0xD, reg := 0, value := 0, address := 0, length := 0,
      sectorIndex := 0, data := [] }) = .ok (.reservedOpD) := by decide

/-- 30 R124. -/
theorem test_decode_ReservedOpE :
    decode .three (.request {
      op := 0xE, reg := 0, value := 0, address := 0, length := 0,
      sectorIndex := 0, data := [] }) = .ok (.reservedOpE) := by decide

/-- 30 R124. -/
theorem test_decode_ReservedOpF :
    decode .three (.request {
      op := 0xF, reg := 0, value := 0, address := 0, length := 0,
      sectorIndex := 0, data := [] }) = .ok (.reservedOpF) := by decide

/-- 30_encoding R104: bytes missing or left over are no transaction of the format. -/
theorem test_decode_format : decode .three (.transaction [0x06, 0x00]) = .error (.formatMismatch 0x06) ∧
    decode .three (.transaction [0x20, 0x00, 0x10]) = .error (.formatMismatch 0x20) ∧
    decode .three (.transaction [0x20, 0x00, 0x10, 0x00, 0x00]) = .error (.formatMismatch 0x20) ∧
    decode .three (.transaction []) = .error .emptyTransaction ∧
    decode .three (.transaction [0x9F]) = .error (.unknownCommand 0x9F) := by decide

/-- 95 E1 to E7, the address bytes. -/
theorem test_address_bytes : addressBytes .three 0x0001FE = [0x00, 0x01, 0xFE] ∧
    addressBytes .three 0x123456 = [0x12, 0x34, 0x56] ∧ addressBytes .four 0x00001000 = [0x00, 0x00, 0x10, 0x00] ∧
    addressBytes .four 0xFFFFF000 = [0xFF, 0xFF, 0xF0, 0x00] := by decide

/-- The opcode table's words: `SectorErase`, `Enable4ByteAddr`, `SR.READ`, `RESERVED_OP_F`. -/
theorem test_table_words : decodeTableWord 8 0x20 = some (.sectorErase 0) ∧
    decodeTableWord 8 0xB7 = some .enable4ByteAddr ∧ decodeTableWord 8 0x1 = some (.srRead 0) ∧
    decodeTableWord 8 0xF = some .reservedOpF := by decide

/-- The table word is what the next step runs (95 M1 by the bare command: the latch is clear, so POISONED). -/
theorem test_fetch : (nextState? (step (State.reset.withFetchWord 8 0x20))).map (fun t => (t.dev.poisoned, t.port)) =
    some (true, []) := by decide +kernel

/-! ### The device's commands -/

theorem test_WriteEnable : look .writeEnable State.reset (fun t => (t.dev.wel, transactions t.trace)) =
    some (true, [[0x06]]) := by decide +kernel

theorem test_WriteDisable : look .writeDisable (latched State.reset) (fun t => (t.dev.wel, transactions t.trace)) =
    some (false, [[0x04]]) := by decide +kernel

/-- 95 R10: an erase cycle reads busy. -/
theorem test_ReadStatusReg1 : look .readStatusReg1 (busyDevice (some 1) none)
    (fun t => ((received t.trace).getLast?.map bit0, t.dev.busyFor)) = some (some true, some 0) := by decide +kernel

theorem test_ReadStatusReg2 : look .readStatusReg2 State.reset (fun t => (transactions t.trace, t.dev)) =
    some ([[0x35, 0xFF]], Device.reset) := by decide +kernel

/-- 95 R3: bit 0 of register 3 is ADS. -/
theorem test_ReadStatusReg3 : look .readStatusReg3 big (fun t => (received t.trace).getLast?.map bit0) =
    some (some true) := by decide +kernel

theorem test_WriteStatusReg1 : look (.writeStatusReg1 0x00) (start [(7, 1)])
    (fun t => (transactions t.trace, t.dev.flash, t.dev.poisoned)) = some ([[0x01, 0x00]], [(7, 1)], false) := by
  decide +kernel

theorem test_WriteStatusReg2 : look (.writeStatusReg2 0x02) big (fun t => (transactions t.trace, t.dev.ads)) =
    some ([[0x31, 0x02]], true) := by decide +kernel

theorem test_WriteStatusReg3 : look (.writeStatusReg3 0xFF) State.reset (fun t => (transactions t.trace, t.dev.poisoned))
    = some ([[0x11, 0xFF]], false) := by decide +kernel

/-- 46 R235: ascending bytes, up to the last of the array. -/
theorem test_ReadData : look (.readData 0x0FFFFE 2) (start [(0x0FFFFE, 0x11), (0x0FFFFF, 0x22)])
    (fun t => ((received t.trace).drop 4, t.dev.poisoned)) = some ([0x11, 0x22], false) := by decide +kernel

/-- 93 U11: one byte past the end. -/
theorem test_ReadData_past_end : look (.readData 0x0FFFFF 2) State.reset (fun t => t.dev.poisoned) = some true := by
  decide +kernel

/-- 95 N2, N1: old 0x0F, program 0xF0, and blank, program 0x5A. -/
theorem test_PageProgram : look (.pageProgram 0x20 [0xF0, 0x5A]) (latched (start [(0x20, 0x0F)]))
    (fun t => (t.dev.flash, t.dev.pend, t.dev.poisoned)) = some ([(0x20, 0x00), (0x21, 0x5A)], .program, false) := by
  decide +kernel

/-- 46 R238: the latch is clear. -/
theorem test_PageProgram_unlatched : look (.pageProgram 0x20 [0xF0]) State.reset (fun t => t.dev.poisoned) =
    some true := by decide +kernel

/-- 95 N7: the sector's bytes are blank, the neighbours stay. -/
theorem test_SectorErase : look (.sectorErase 0x1000) (latched (start [(0xFFF, 1), (0x1000, 2), (0x1FFF, 3), (0x2000, 4)]))
    (fun t => (t.dev.flash, t.dev.pend)) = some ([(0xFFF, 1), (0x2000, 4)], .erase) := by decide +kernel

theorem test_SectorErase_busy : look (.sectorErase 0x1000) (latched (busyDevice (some 1) none))
    (fun t => t.dev.poisoned) = some true := by decide +kernel

theorem test_ChipErase : look (.chipErase []) State.reset (fun t => (transactions t.trace, t.dev.poisoned)) =
    some ([[0xC7]], true) := by decide +kernel

theorem test_PowerDown : look (.powerDown []) State.reset (fun t => (transactions t.trace, t.dev.poisoned)) =
    some ([[0xB9]], true) := by decide +kernel

theorem test_ReleasePowerDown : look (.releasePowerDown []) State.reset (fun t => (transactions t.trace, t.dev.poisoned))
    = some ([[0xAB]], true) := by decide +kernel

theorem test_ManufacturerDeviceID : look (.manufacturerDeviceID [0xFF, 0xFF]) State.reset
    (fun t => (transactions t.trace, t.dev)) = some ([[0x90, 0xFF, 0xFF]], Device.reset) := by decide +kernel

theorem test_Enable4ByteAddr : look .enable4ByteAddr State.reset (fun t => (t.dev.ads, t.dev.poisoned)) =
    some (true, false) := by decide +kernel

/-! ### The host's operations -/

/-- 95 R3. -/
theorem test_SrRead : look (.srRead 3) big (fun t => (report t).2) = some [[0x15, 0xFF]] := by decide +kernel

/-- 95 X4. -/
theorem test_SrRead_fails : look (.srRead 1) (failing 0) (fun t => (report t, t.dev.poisoned, t.cs)) =
    some (({ status := .transportFailure, result := 0x00 }, [[]]), true, false) := by decide +kernel

/-- 95 R7: exactly one transaction. -/
theorem test_SrWrite : look (.srWrite 2 0x02) State.reset report =
    some ({ status := .ok, result := 0x00 }, [[0x31, 0x02]]) := by decide +kernel

/-- 95 R9. -/
theorem test_SrWrite_0 : look (.srWrite 0 0x55) State.reset report =
    some ({ status := .invalidRegister, result := 0x00 }, []) := by decide +kernel

/-- 95 R10. -/
theorem test_SrBusy : look .srBusy (busyDevice (some 3) none) report =
    some ({ status := .ok, result := 0x01 }, [[0x05, 0xFF]]) := by decide +kernel

/-- 95 R11: only bit 0 counts. -/
theorem test_SrBusy_idle :
    look .srBusy { State.reset with env := { Environment.reset with statusBits := [0xFE] } }
      (fun t => (report t, t.sra.value)) =
    some (({ status := .ok, result := 0x00 }, [[0x05, 0xFF]]), 0xFE) := by decide +kernel

/-- 95 R15. -/
theorem test_SrWait : look .srWait (busyDevice (some 2) (some 3)) report =
    some ({ status := .ok, result := 0x00 }, [[0x05, 0xFF], [0x05, 0xFF], [0x05, 0xFF]]) := by decide +kernel

/-- 95 R17. -/
theorem test_SrWait_timeout : look .srWait (busyDevice (some 5) (some 3)) report =
    some ({ status := .busyTimeout, result := 0x00 }, [[0x05, 0xFF], [0x05, 0xFF], [0x05, 0xFF]]) := by decide +kernel

/-- 95 G2. -/
theorem test_WeEnable : look .weEnable (latched State.reset) (fun t => (t.dev.wel, report t)) =
    some (true, { status := .ok, result := 0x00 }, [[0x06]]) := by decide +kernel

/-- 95 G3. -/
theorem test_WeDisable : look .weDisable (latched State.reset) (fun t => (t.dev.wel, report t)) =
    some (false, { status := .ok, result := 0x00 }, [[0x04]]) := by decide +kernel

/-- 95 P1. -/
theorem test_PpProgram : look (.ppProgram 0x0001FE [0x12, 0x34]) State.reset (fun t => (t.dev.flash, report t)) =
    some ([(0x1FE, 0x12), (0x1FF, 0x34)], { status := .ok, result := 0x00 },
      [[0x06], [0x02, 0x00, 0x01, 0xFE, 0x12, 0x34], [0x05, 0xFF]]) := by decide +kernel

/-- 95 X3: the second address byte fails. -/
theorem test_PpProgram_fails : look (.ppProgram 0x0001FE [0x12, 0x34]) (failing 3)
    (fun t => (t.dev.poisoned, t.cs, report t)) =
    some (true, false, { status := .transportFailure, result := 0x00 }, [[0x06], [0x02, 0x00]]) := by decide +kernel

/-- 95 S2. -/
theorem test_PswWriteBlank : look (.pswWriteBlank 0x0000FE [0x01, 0x02, 0x03]) State.reset
    (fun t => (t.dev.flash, report t)) =
    some ([(0xFE, 0x01), (0xFF, 0x02), (0x100, 0x03)], { status := .ok, result := 0x00 },
      [[0x06], [0x02, 0x00, 0x00, 0xFE, 0x01, 0x02], [0x05, 0xFF],
       [0x06], [0x02, 0x00, 0x01, 0x00, 0x03], [0x05, 0xFF]]) := by decide +kernel

/-- 95 S11. -/
theorem test_PswWriteBlank_past_end : look (.pswWriteBlank 0x0FFFFF [0, 0]) State.reset report =
    some ({ status := .invalidRange, result := 0x00 }, []) := by decide +kernel

/-- 95 M2. -/
theorem test_SemErase : look (.semErase 1)
    { start [(0x1000, 0)] with env := { Environment.reset with latencies := [some 1] } }
    (fun t => (t.dev.flash, report t)) =
    some ([], { status := .ok, result := 0x00 },
      [[0x06], [0x05, 0xFF], [0x20, 0x00, 0x10, 0x00], [0x05, 0xFF], [0x05, 0xFF]]) := by decide +kernel

/-- 95 M6. -/
theorem test_SemErase_timeout : look (.semErase 2)
    { State.reset with pollLimit := some 2, env := { Environment.reset with latencies := [some 5] } }
    (fun t => (t.dev.poisoned, report t)) =
    some (true, { status := .busyTimeout, result := 0x00 },
      [[0x06], [0x05, 0xFF], [0x20, 0x00, 0x20, 0x00], [0x05, 0xFF], [0x05, 0xFF]]) := by decide +kernel

/-- 95 F15. -/
theorem test_FweWrite_empty : look (.fweWrite 0x100000 []) State.reset report =
    some ({ status := .ok, result := 0x00 }, []) := by decide +kernel

/-- 95 F16. -/
theorem test_FweWrite_past_end : look (.fweWrite 0x100001 []) State.reset report =
    some ({ status := .invalidRange, result := 0x00 }, []) := by decide +kernel

/-- 95 F7, the first iteration's registers. -/
theorem test_split : (splitAddress { State.reset with fwe := { State.reset.fwe with address := 0x012345, length := 12288 } }).fwe =
    { address := 0x012345, length := 12288, pos := 0, sectorIndex := 18, offsetInSector := 837,
      spaceInSector := 3259, chunk := 3259, eraseRequired := false } := by decide +kernel

/-- 45 R204: the transaction stops at the first failing exchange. -/
theorem test_FweReadSector_fails : look (.fweReadSector 1) (failing 4) (fun t => (report t, t.sb, t.dev.poisoned)) =
    some (({ status := .transportFailure, result := 0x00 }, [[0x03, 0x00, 0x10, 0x00]]), [], true) := by decide +kernel

/-- 95 X1, X2 and P5: the reserved operations. -/
theorem test_ReservedOps : ∀ i ∈ [Instr.reservedOp0, .reservedOpB, .reservedOpC, .reservedOpD, .reservedOpE, .reservedOpF],
    look i (start [(5, 0)]) (fun t => (report t, t.dev)) =
      some (({ status := .illegalRequest, result := 0x00 }, []), { Device.reset with flash := [(5, 0)] }) := by
  decide +kernel

/-- `programPage([0, 0], 4, 2)`, in full `{06} {02 00 00 04 00 00} {05 FF>00}`, met by a reset after `n` exchanges. -/
def resetAfter (n : Nat) (selected : Bool) : State :=
  { State.reset with port := [.resetDuring n selected (.request (Request.ofData 0x7 4 [0, 0]))] }

/-- 70 R292: inside a transaction, and after the last exchange, before the response. -/
theorem test_reset_during : (nextState? (step (resetAfter 2 false))).map
    (fun t => (t.dev.poisoned, t.env.xferFail, report t)) =
    some (true, [], { status := .ok, result := 0x00 }, [[0x06], [0x02]]) := by decide +kernel

/-- After the last exchange of the request, before its last Deselect. -/
theorem test_reset_at_the_end : (nextState? (step (resetAfter 9 false))).map
    (fun t => (t.dev.poisoned, t.env.xferFail, report t)) =
    some (true, [], { status := .ok, result := 0x00 },
      [[0x06], [0x02, 0x00, 0x00, 0x04, 0x00, 0x00], [0x05, 0xFF]]) := by decide +kernel

/-- Between two transactions: before and after the `Select()`. -/
theorem test_reset_between : [false, true].map (fun b => (nextState? (step (resetAfter 1 b))).map
    (fun t => (t.dev.poisoned, (report t).2))) = [some (true, [[0x06]]), some (true, [[0x06], []])] := by decide +kernel

/-- 60 R285: a hung wait stands at WT1 and goes on polling, with a request waiting. -/
theorem test_hang : (nextState? (exec .srWait (busyDevice none none))).map (fun t => (t.seq, t.stuck, t.dev.poisoned)) =
      some ([{ proc := .waitUntilReady, label := .WT1 }], true, true) ∧
    (nextState? (step (presenting (.request (Request.ofOp 0x5)) hung))).map
      (fun t => (t.seq, t.sra.polls, t.port, transactions t.trace)) =
      some (hung.seq, 1, [.packet (.request (Request.ofOp 0x5))], [[0x05, 0xFF]]) := by decide +kernel

/-- 43 R188, with `State.flashByte_spared`: the second page fails and is the one in work; outside it the first page's new
contents and an old byte are recorded. -/
theorem test_abort_page_in_work : look (.pswWriteBlank 0x0000FE [0x01, 0x02, 0x03])
    { start [(0x200, 0x77)] with env := { Environment.reset with xferFail := [13] } }
    (fun t => (t.rsp.status, t.dev.poisoned, t.dev.lost, [0xFE, 0xFF, 0x200].map t.dev.flash.read)) =
    some (.transportFailure, true, .range 256 256, [0x01, 0x02, 0x77]) := by decide +kernel

/-- 93 U11: ReadData of no byte at the end of the array and past it. -/
theorem test_ReadData_empty : [0x100000, 0x100001].map (fun a => look (.readData a 0) State.reset
    (fun t => t.dev.poisoned)) = [some false, some true] := by decide +kernel

/-- 70 R297, `P_awake`: a powered-down device and one with a protected region. -/
theorem test_not_awake :
    look (.readData 0 1) { State.reset with dev := { Device.reset with asleep := true } } (fun t => t.dev.poisoned) =
      some true ∧
    look (.pageProgram 0 [0]) (latched { State.reset with dev := { Device.reset with guarded := true } })
      (fun t => t.dev.poisoned) = some true ∧
    look (.readData 0 1) { State.reset with dev := { Device.reset with guarded := true } } (fun t => t.dev.poisoned) =
      some false := by decide +kernel

/-- 10_state R33: two reads of register 3 of a POISONED device need not agree in bit 0. -/
theorem test_poisoned_ads : look .readStatusReg3
    { State.reset with dev := { Device.reset with poisoned := true }, env := { Environment.reset with choices := [true] } }
    (fun t => ((received t.trace).getLast?.map bit0, t.dev.poisoned)) = some (some true, true) := by decide +kernel

/-! ### The hypotheses of the statements -/

theorem reset_wf : (start [(5, 0)]).Inv :=
  ⟨by decide, by decide, by decide, by decide, by decide, by decide, by decide, by decide⟩

theorem start_launch : (start [(5, 0)]).Launch :=
  launch_of (by decide) (by decide) (by decide) (by decide) (by decide) (by decide) (by decide) (by decide) (by decide)

theorem big_launch : big.Launch :=
  launch_of (by decide) (by decide) (by decide) (by decide) (by decide) (by decide) (by decide) (by decide) (by decide)

theorem big_inv : big.Inv := ⟨by decide, by decide, by decide, by decide, by decide, by decide, by decide, by decide⟩

/-- A slow device with a finite limit. -/
def slow : State :=
  { start [(5, 0)] with pollLimit := some 4, env := { Environment.reset with latencies := [some 3, some 0] } }

theorem slow_launch : slow.Launch :=
  launch_of (by decide) (by decide) (by decide) (by decide) (by decide) (by decide) (by decide) (by decide) (by decide)

theorem slow_inv : slow.Inv := ⟨by decide, by decide, by decide, by decide, by decide, by decide, by decide, by decide⟩

/-- Both clauses, the first at the last address of three bytes. -/
theorem witness_EncodeDecodeRoundTrip : (Instr.readData 0xFFFFFF 2).wf .three = true ∧
    encode .three (.readData 0xFFFFFF 2) = some (.transaction [0x03, 0xFF, 0xFF, 0xFF, 0xFF, 0xFF]) ∧
    (Instr.fweReadSector 7).wf .three = true ∧ encode .three (.fweReadSector 7) = none := by decide

theorem witness_DecodedInstructionIsWellFormed :
    decode .three (.transaction [0x20, 0xFF, 0xF0, 0x00]) = .ok (.sectorErase 0xFFF000) := by decide

theorem witness_UnknownCommandByteRefused :
    (0x00 : Byte) ∉ [0x06, 0x04, 0x05, 0x35, 0x15, 0x01, 0x31, 0x11, 0x03, 0x02, 0x20, 0xC7, 0xB9, 0xAB, 0x90, (0xB7 : Byte)] ∧
    (presenting (.transaction [0x00]) State.reset).engBusy = false ∧
    (presenting (.transaction [0x00]) State.reset).port = .packet (.transaction [0x00]) :: [] := by decide

theorem witness_BoundaryDetectorSizesTheChunk :
    let r : FweRegs := { State.reset.fwe with address := 4090, length := 16 }
    let t := (splitAddress { State.reset with fwe := r }).fwe
    t.spaceInSector.toNat < t.length.toNat ∧ 1 ≤ t.length.toNat := by decide

theorem witness_EraseSetsProgramClears : Memory.wf [(4095, 0), (4096, 1), (8191, 2), (8192, 3)] = true := by decide

theorem witness_StepRunsDecodedPacket :
    let s := presenting (.transaction [0x06]) State.reset
    s.engBusy = false ∧ s.port = [.packet (.transaction [0x06])] ∧
      decode s.dd.addressWidth (.transaction [0x06]) = .ok .writeEnable := by decide

theorem witness_RequestWaitsWhileBusy : hung.engBusy = true ∧
    (presenting (.request (Request.ofOp 0x5)) hung).engBusy = true ∧
    (presenting (.request (Request.ofOp 0x5)) hung).port = [.packet (.request (Request.ofOp 0x5))] := by decide

/-- The idle clause and the clause in a request. -/
theorem witness_EngineResetLeavesResetState :
    ({ start [(5, 0)] with port := [.engineReset] } : State).port = [.engineReset] ∧
    (start [(5, 0)]).engBusy = false ∧ (start [(5, 0)]).cs = false ∧
    ({ hung with port := [.engineReset] } : State).port = [.engineReset] ∧ hung.engBusy = true := by decide

/-- A request before its first exchange, one after all of them, and a bare transaction. -/
theorem witness_ResetDuringRequestPoisons :
    let p : Packet := .request (Request.ofData 0x7 4 [0, 0])
    let s : State := { start [(5, 0xF0)] with port := [.resetDuring 0 false p] }
    let s' : State := { s with port := [.resetDuring 20 true p] }
    let s'' : State := { s with port := [.resetDuring 1 true (.transaction [0x05, 0xFF])] }
    (s.PIdle ∧ s.port = [.resetDuring 0 false p] ∧ decode s.dd.addressWidth p = .ok (.ppProgram 4 [0, 0])) ∧
    (s'.PIdle ∧ s'.port = [.resetDuring 20 true p]) ∧
    (s''.PIdle ∧ s''.port = [.resetDuring 1 true (.transaction [0x05, 0xFF])] ∧
      decode s''.dd.addressWidth (.transaction [0x05, 0xFF]) = .ok .readStatusReg1) := by
  decide

theorem witness_StepKeepsInvariant : (presenting (.request (Request.ofData 0x7 4 [0, 0])) (start [(5, 0xF0)])).Inv ∧
    ∃ t, step (presenting (.request (Request.ofData 0x7 4 [0, 0])) (start [(5, 0xF0)])) = .next t ∧
      t.dev.flash = [(4, 0), (5, 0)] :=
  ⟨⟨by decide, by decide, by decide, by decide, by decide, by decide, by decide, by decide⟩, exists_next (by decide +kernel)⟩

theorem witness_DecodablePacketsRun : (presenting (.request (Request.ofOp 0x3)) (start [(5, 0)])).Inv ∧
    decode .three (.request (Request.ofOp 0x3)) = .ok .srBusy :=
  ⟨⟨by decide, by decide, by decide, by decide, by decide, by decide, by decide, by decide⟩, by decide⟩

theorem witness_DescriptorIsImmutable : (∃ t, exec (.ppProgram 0 [0]) big = .next t ∧ t.dev.flash = [(0, 0)]) ∧
    ∃ t, step (presenting (.transaction [0xB7]) State.reset) = .next t ∧ t.dev.ads = true :=
  ⟨exists_next (by decide +kernel), exists_next (by decide +kernel)⟩

/-- The three clauses. -/
theorem witness_PoisonedUntilReinitialised :
    let s : State := State.reset.poison
    s.dev.poisoned = true ∧ (∃ t, exec .srWait s = .next t ∧ t.engBusy = false) ∧
      (∀ m w a z g rest, (presenting (.request (Request.ofOp 0x1)) s).port ≠ .reinitialised m w a z g :: rest) ∧
      (∃ t, step (presenting (.request (Request.ofOp 0x1)) s) = .next t ∧ t.port = []) ∧
      ∃ t, step { s with port := [.reinitialised [(0xFFFFF, 1)] true false false true] } = .next t ∧ t.dev.poisoned = false ∧
        t.dev.flash = [(0xFFFFF, 1)] :=
  ⟨by decide, exists_next (by decide +kernel), nofun, exists_next (by decide +kernel),
    exists_next (by decide +kernel)⟩

/-- The clause of an ended request and that of a hang. -/
theorem witness_EndedRequestLeavesBlockIdle :
    (busyDevice (some 2) none).PIdle ∧ (∃ t, exec .srWait (busyDevice (some 2) none) = .next t ∧ t.engBusy = false) ∧
    (busyDevice none none).PIdle ∧ ∃ t, exec .srWait (busyDevice none none) = .next t ∧ t.engBusy = true :=
  ⟨by decide, exists_next (by decide +kernel), by decide, exists_next (by decide +kernel)⟩

theorem witness_FinitePollLimitAlwaysAnswers :
    (busyDevice none (some 0)).PIdle ∧ (busyDevice none (some 0)).pollLimit = some 0 ∧
    (busyDevice none (some 3)).PIdle ∧ (busyDevice none (some 3)).pollLimit = some 3 := by decide

theorem witness_StatusTable : isHostRequest (.semErase 2) = true ∧ slow.PIdle ∧
    ∃ t, exec (.semErase 2) slow = .next t ∧ t.engBusy = false ∧ t.rsp.status = .ok :=
  ⟨rfl, by decide, exists_next (by decide +kernel)⟩

/-- The three clauses: a failure, an operation without a result, `busy()`. -/
theorem witness_ResultByte :
    (∃ t, exec (.srRead 0) State.reset = .next t ∧ t.engBusy = false ∧ t.rsp.status ≠ .ok) ∧
    (∃ t, exec .weEnable State.reset = .next t ∧ t.engBusy = false ∧ t.rsp.result = 0x00) ∧
    ∃ t, exec .srBusy (busyDevice (some 3) none) = .next t ∧ t.engBusy = false ∧ t.rsp.result = 0x01 :=
  ⟨exists_next (by decide +kernel), exists_next (by decide +kernel), exists_next (by decide +kernel)⟩

theorem witness_RefusalsFailClosed : (start [(5, 0)]).PIdle ∧ (start [(5, 0)]).PDesc ∧
    (∃ t, exec (.fweWrite 0x0FFFFF [0, 0]) (start [(5, 0)]) = .next t ∧ t.engBusy = false ∧
      isRefusal t.rsp.status = true) ∧
    (∃ t, exec (.ppProgram 0x1FE [1, 2, 3]) (start [(5, 0)]) = .next t ∧ t.engBusy = false ∧
      isRefusal t.rsp.status = true) :=
  ⟨by decide, by decide, exists_next (by decide +kernel), exists_next (by decide +kernel)⟩

theorem witness_AbortsPoisonTheDevice :
    (∃ t, exec .srWait (busyDevice (some 5) (some 3)) = .next t ∧ t.engBusy = false ∧ t.rsp.status = .busyTimeout) ∧
    ∃ t, exec .srBusy (failing 1) = .next t ∧ t.engBusy = false ∧ t.rsp.status = .transportFailure :=
  ⟨exists_next (by decide +kernel), exists_next (by decide +kernel)⟩

theorem witness_BlockSendsElevenCommands : isHostRequest (.pswWriteBlank 0xFE [1, 2, 3]) = true ∧ State.reset.PIdle ∧
    (∃ t, exec (.pswWriteBlank 0xFE [1, 2, 3]) State.reset = .next t ∧ t.engBusy = false) ∧
    ∃ t, exec (.fweWrite 0 [1]) (failing 4) = .next t ∧ t.engBusy = false :=
  ⟨rfl, by decide, exists_next (by decide +kernel), exists_next (by decide +kernel)⟩

theorem witness_ScratchBufferNoninterference : isHostRequest (.pswWriteBlank 0 [1]) = true ∧
    (∀ a data, Instr.pswWriteBlank 0 [1] ≠ .fweWrite a data) ∧
    ∃ t, exec (.pswWriteBlank 0 [1]) State.reset = .next t ∧ t.rsp.status = .ok :=
  ⟨rfl, nofun, exists_next (by decide +kernel)⟩

theorem witness_OnlyProgramAndEraseChangeFlash : mayChangeFlash (.readData 4 2) = false ∧
    ∃ t, exec (.readData 4 2) (start [(5, 0)]) = .next t ∧ t.dev.poisoned = false :=
  ⟨rfl, exists_next (by decide +kernel)⟩

theorem witness_ProgramsOnlyClearBits :
    (latched (start [(5, 0x0F)])).Inv ∧
    (∃ t, exec (.pageProgram 5 [0xF0]) (latched (start [(5, 0x0F)])) = .next t ∧ t.dev.poisoned = false) ∧
    (∃ t, exec (.ppProgram 5 [0xF0]) (latched (start [(5, 0x0F)])) = .next t ∧ t.dev.poisoned = false) ∧
    ∃ t, exec (.pswWriteBlank 5 [0xF0]) (latched (start [(5, 0x0F)])) = .next t ∧ t.dev.poisoned = false :=
  ⟨⟨by decide, by decide, by decide, by decide, by decide, by decide, by decide, by decide⟩, exists_next (by decide +kernel),
    exists_next (by decide +kernel), exists_next (by decide +kernel)⟩

theorem witness_FailingFirstExchangeAborts : (failing 0).PIdle ∧
    (Instr.fweWrite 0x0FFFFF [1]).wf (failing 0).dd.addressWidth = true ∧
    sendsSomething (failing 0) (.fweWrite 0x0FFFFF [1]) = true ∧ sendsSomething (failing 0) (.semErase 0xFF) = true ∧
    sendsSomething (failing 0) (.ppProgram 0x100 []) = true ∧ (failing 0).env.xferFail = 0 :: [] := by decide

theorem witness_LatchCommands : (start [(5, 0)]).PIdle ∧ (start [(5, 0)]).PReady ∧ (start [(5, 0)]).PClean ∧
    (start [(5, 0)]).PXfer := by decide

/-- A busy device, an idle one and one with ADS = 1. -/
theorem witness_StatusReadCommands : (busyDevice (some 1) none).PIdle ∧ (busyDevice (some 1) none).PClean ∧
    (busyDevice (some 1) none).PXfer ∧ (busyDevice (some 0) none).PClean ∧ big.PIdle ∧ big.PClean ∧ big.PXfer := by
  decide

theorem witness_StatusWriteCommands : big.PIdle ∧ big.PReady ∧ big.PClean ∧ big.PXfer := by decide

/-- Up to the last byte of the array. -/
theorem witness_ReadDataCommand : (start [(5, 0)]).dd.addressWidth.fits 0x0FFFFE = true ∧
    (0x0FFFFE : Address).toNat + 2 ≤ (start [(5, 0)]).dd.capacityBytes ∧ (start [(5, 0)]).PIdle ∧
    (start [(5, 0)]).PReady ∧ (start [(5, 0)]).PClean ∧ (start [(5, 0)]).PMode ∧ (start [(5, 0)]).dev.asleep = false ∧
    (start [(5, 0)]).PXfer := by decide

/-- A page up to its last byte, the last of the array. -/
theorem witness_PageProgramCommand : (latched (start [(5, 0)])).Inv ∧
    (latched (start [(5, 0)])).dd.addressWidth.fits 0x0FFFFE = true ∧ ([1, 2] : List Byte) ≠ [] ∧
    (0x0FFFFE : Address).toNat % 256 + 2 ≤ 256 ∧
    (0x0FFFFE : Address).toNat + 2 ≤ (latched (start [(5, 0)])).dd.capacityBytes ∧
    (latched (start [(5, 0)])).PIdle ∧ (latched (start [(5, 0)])).PReady ∧ (latched (start [(5, 0)])).PClean ∧
    (latched (start [(5, 0)])).PMode ∧ (latched (start [(5, 0)])).PAwake ∧ (latched (start [(5, 0)])).PXfer ∧
    (latched (start [(5, 0)])).dev.wel = true :=
  ⟨⟨by decide, by decide, by decide, by decide, by decide, by decide, by decide, by decide⟩, by decide⟩

/-- At the end of the array. -/
theorem witness_EmptyPageProgramCommand : (latched State.reset).dd.addressWidth.fits 0x100000 = true ∧
    (0x100000 : Address).toNat ≤ (latched State.reset).dd.capacityBytes ∧ (latched State.reset).PIdle ∧
    (latched State.reset).PReady ∧ (latched State.reset).PClean ∧ (latched State.reset).PMode ∧ (latched State.reset).PAwake ∧
    (latched State.reset).PXfer ∧ (latched State.reset).dev.wel = true := by decide

/-- The last sector. -/
theorem witness_SectorEraseCommand : (latched (start [(5, 0)])).Inv ∧
    (latched (start [(5, 0)])).dd.addressWidth.fits 0x0FF000 = true ∧ (0x0FF000 : Address).toNat % 4096 = 0 ∧
    (0x0FF000 : Address).toNat + 4096 ≤ (latched (start [(5, 0)])).dd.capacityBytes ∧
    (latched (start [(5, 0)])).PIdle ∧ (latched (start [(5, 0)])).PReady ∧ (latched (start [(5, 0)])).PClean ∧
    (latched (start [(5, 0)])).PMode ∧ (latched (start [(5, 0)])).PAwake ∧ (latched (start [(5, 0)])).PXfer ∧
    (latched (start [(5, 0)])).dev.wel = true :=
  ⟨⟨by decide, by decide, by decide, by decide, by decide, by decide, by decide, by decide⟩, by decide⟩

theorem witness_ProgramOrEraseWithoutLatchPoisons : State.reset.PIdle ∧ State.reset.PXfer ∧
    State.reset.dev.wel = false ∧ State.reset.PReady := by decide

/-- A cycle that ends later and one that never ends. -/
theorem witness_CommandsToBusyDevicePoison : isDeviceCommand .writeEnable = true ∧ isStatusRead .writeEnable = false ∧
    (busyDevice (some 1) none).PIdle ∧ (busyDevice (some 1) none).PXfer ∧ (busyDevice (some 1) none).dev.pend ≠ .none ∧
    (busyDevice (some 1) none).dev.busyFor ≠ some 0 ∧ (busyDevice none none).PIdle ∧
    (busyDevice none none).dev.busyFor ≠ some 0 := by decide

/-- The three clauses. -/
theorem witness_WrongAddressingModePoisons :
    let s : State := { State.reset with dev := { Device.reset with ads := true } }
    let s' : State := { State.reset with dev := { Device.reset with asleep := true } }
    let s'' : State := { State.reset with dev := { Device.reset with guarded := true } }
    (s.PIdle ∧ s.PXfer ∧ s.modeMatches = false) ∧ (s'.PIdle ∧ s'.PXfer ∧ s'.dev.asleep = true) ∧
      (s''.PIdle ∧ s''.PXfer ∧ s''.dev.guarded = true) := by decide

theorem witness_CommandsWithoutEffectPoison : State.reset.PIdle ∧ State.reset.PXfer := by decide

theorem witness_ManufacturerDeviceIDLeavesDevice : big.PIdle ∧ big.PReady ∧ big.PClean ∧ big.PXfer := by decide

theorem witness_Enable4ByteAddrSetsMode : (start [(5, 0)]).PIdle ∧ (start [(5, 0)]).PReady ∧ (start [(5, 0)]).PClean ∧
    (start [(5, 0)]).PXfer := by decide

theorem witness_SrReadReturnsRegister : (busyDevice (some 0) none).PIdle ∧ (busyDevice (some 0) none).PClean ∧
    (busyDevice (some 0) none).PXfer ∧ big.PIdle ∧ big.PClean ∧ big.PXfer := by decide

/-- The numbers next to the valid ones. -/
theorem witness_InvalidRegisterRefused : State.reset.PIdle ∧ (0 : BitVec 8) ≠ 1 ∧ (0 : BitVec 8) ≠ 2 ∧
    (0 : BitVec 8) ≠ 3 ∧ (4 : BitVec 8) ≠ 1 ∧ (4 : BitVec 8) ≠ 2 ∧ (4 : BitVec 8) ≠ 3 := by decide

theorem witness_SrWriteIsBareTransaction : (start [(5, 0)]).PIdle ∧ (start [(5, 0)]).PReady ∧ (start [(5, 0)]).PClean ∧
    (start [(5, 0)]).PXfer := by decide

theorem witness_SrBusyReturnsBusy : (busyDevice (some 1) none).PIdle ∧ (busyDevice (some 1) none).PClean ∧
    (busyDevice (some 1) none).PXfer := by decide

/-- `k` just below POLL_LIMIT, `k` equal to it, and an idle device. -/
theorem witness_SrWaitPolls :
    ((busyDevice (some 2) (some 3)).PIdle ∧ (busyDevice (some 2) (some 3)).PClean ∧
      (busyDevice (some 2) (some 3)).PXfer ∧ (busyDevice (some 2) (some 3)).dev.pend ≠ .none ∧
      (busyDevice (some 2) (some 3)).dev.busyFor = some 2) ∧
    (∀ n, (busyDevice (some 2) (some 3)).pollLimit = some n → 2 < n) ∧
    ((busyDevice (some 3) (some 3)).pollLimit = some 3 ∧ 1 ≤ 3 ∧ 3 ≤ 3 ∧
      (busyDevice (some 3) (some 3)).dev.busyFor = some 3) ∧
    State.reset.PReady :=
  ⟨by decide, fun n h => by cases h; decide, by decide, by decide⟩

/-- The two clauses, the second with an empty port and with a request waiting. -/
theorem witness_SrWaitHangsOnStuckDevice :
    ((busyDevice none none).PIdle ∧ (busyDevice none none).PXfer ∧ (busyDevice none none).pollLimit = none ∧
      (busyDevice none none).dev.pend ≠ .none ∧ (busyDevice none none).dev.busyFor = none) ∧
    (hung.engBusy = true ∧ hung.stuck = true ∧ ∀ rest, hung.port ≠ .engineReset :: rest) ∧
    ∀ rest, (presenting (.request (Request.ofOp 0x5)) hung).port ≠ .engineReset :: rest :=
  ⟨by decide, ⟨by decide, by decide, nofun⟩, nofun⟩

theorem witness_GateSetsAndClearsLatch : (latched (start [(5, 0)])).PIdle ∧ (latched (start [(5, 0)])).PReady ∧
    (latched (start [(5, 0)])).PClean ∧ (latched (start [(5, 0)])).PXfer := by decide

/-- The last two bytes of the last page, on a slow device. -/
theorem witness_PpProgramResult : slow.Inv ∧ slow.Launch ∧ ([0x12, 0x34] : List Byte) ≠ [] ∧
    (0x0FFFFE : Address).toNat % 256 + 2 ≤ 256 ∧ (0x0FFFFE : Address).toNat + 2 ≤ slow.dd.capacityBytes :=
  ⟨slow_inv, slow_launch, by decide⟩

theorem witness_PpProgramOfNothing : slow.Inv ∧ slow.Launch ∧ (0x100000 : Address).toNat ≤ slow.dd.capacityBytes :=
  ⟨slow_inv, slow_launch, by decide⟩

/-- One byte over the page and one byte over the array. -/
theorem witness_PpProgramRefused : State.reset.PIdle ∧ ([1, 2, 3] : List Byte).length < 2 ^ 32 ∧
    256 < (0x0001FE : Address).toNat % 256 + ([1, 2, 3] : List Byte).length ∧
    State.reset.dd.capacityBytes < (0x100000 : Address).toNat + ([0] : List Byte).length := by decide

/-- Up to the last byte of a 4-byte device, across a page. -/
theorem witness_PswWriteBlankResult : big.Inv ∧ big.Launch ∧ ([1, 2, 3] : List Byte).length < 2 ^ 32 ∧
    (0x1FFFFFD : Address).toNat + ([1, 2, 3] : List Byte).length ≤ big.dd.capacityBytes ∧
    (0x00000FE : Address).toNat + ([1, 2, 3] : List Byte).length ≤ big.dd.capacityBytes :=
  ⟨big_inv, big_launch, by decide⟩

theorem witness_ZeroLengthSpanSendsNothing : State.reset.PIdle ∧
    (0x100000 : Address).toNat ≤ State.reset.dd.capacityBytes := by decide

/-- Both clauses, each one past the end. -/
theorem witness_PastTheEndRefused : State.reset.PIdle ∧ ([] : List Byte).length < 2 ^ 32 ∧
    State.reset.dd.capacityBytes < (0x100001 : Address).toNat + ([] : List Byte).length ∧
    State.reset.dd.capacityBytes < (0x100 : SectorIndex).toNat * 4096 + 4096 := by decide

/-- The last sector, on a slow device. -/
theorem witness_SemEraseResult : slow.Inv ∧ slow.Launch ∧
    (0xFF : SectorIndex).toNat * 4096 + 4096 ≤ slow.dd.capacityBytes :=
  ⟨slow_inv, slow_launch, by decide⟩

/-- 95 P3: a dirty sector and a blank one. -/
def dirty : State := start [(4094, 0)]

theorem dirty_inv : dirty.Inv := ⟨by decide, by decide, by decide, by decide, by decide, by decide, by decide, by decide⟩

theorem dirty_launch : dirty.Launch :=
  launch_of (by decide) (by decide) (by decide) (by decide) (by decide) (by decide) (by decide) (by decide) (by decide)

theorem witness_FweWriteResult : dirty.Inv ∧ dirty.Launch ∧ ([1, 2, 3, 4] : List Byte).length < 2 ^ 32 ∧
    (0x000FFE : Address).toNat + ([1, 2, 3, 4] : List Byte).length ≤ dirty.dd.capacityBytes :=
  ⟨dirty_inv, dirty_launch, by decide⟩

/-- 95 F9: the first of the two sectors, and no other, is to be erased. -/
theorem witness_FweWriteErasesAffectedSectors : dirty.Inv ∧ dirty.Launch ∧
    ([1, 2, 3, 4] : List Byte).length < 2 ^ 32 ∧
    (0x000FFE : Address).toNat + ([1, 2, 3, 4] : List Byte).length ≤ dirty.dd.capacityBytes ∧
    affectedSectors dirty.dev.flash 0x000FFE 4 = [0] :=
  ⟨dirty_inv, dirty_launch, by decide, by decide, by decide⟩

/-- 95 F9: S = 2, E = 1, P = 1. -/
theorem witness_FweWriteCommandCounts : dirty.Inv ∧ dirty.Launch ∧ ([1, 2, 3, 4] : List Byte).length < 2 ^ 32 ∧
    (0x000FFE : Address).toNat + ([1, 2, 3, 4] : List Byte).length ≤ dirty.dd.capacityBytes ∧
    2 = (sectorsTouched 0x000FFE 4).length ∧ 1 = (affectedSectors dirty.dev.flash 0x000FFE 4).length ∧
    1 = directPages dirty.dev.flash 0x000FFE 4 :=
  ⟨dirty_inv, dirty_launch, by decide, by decide, by decide, by decide, by decide⟩

theorem witness_ReadSectorFillsScratchBuffer : dirty.Inv ∧ dirty.Launch ∧
    (0xFF : SectorIndex).toNat * 4096 + 4096 ≤ dirty.dd.capacityBytes :=
  ⟨dirty_inv, dirty_launch, by decide⟩

/-- The reserved values at both ends of the range. -/
theorem witness_ReservedOperationsRefused : (Request.ofOp 0x0).op = 0x0 ∧ 0xB ≤ (Request.ofOp 0xB).op.toNat ∧
    0xB ≤ (Request.ofOp 0xF).op.toNat ∧ State.reset.PIdle := by decide

end Sys2Proof.Tests
end

