-- ==== Sys2Proof/Proofs/Memory.lean ====
section
/-! The statements of 20_memory, from the laws of byte memories. -/

open Sys2Proof Sys2Proof.Machine

namespace Sys2Proof.Proofs

/-- Programming one byte is one write of the old byte AND the data, so it reads as a write does (20_memory R63). -/
theorem read_program_singleton {m : Memory} {a x : Nat} {d : Byte} (h : m.wf = true) :
    (m.program a [d]).read x = if x = a then m.read a &&& d else m.read x :=
  Memory.read_write h

/-- Settles O7: an erase drops the entries of the sector, whatever the memory; a program needs the canonical form,
as a write does. -/
theorem eraseSetsProgramClears : Obligations.EraseSetsProgramClears := by
  intro m hm
  constructor
  · intro k x
    exact Memory.read_erase
  · intro a d x
    exact read_program_singleton hm

end Sys2Proof.Proofs
end

