-- ==== Sys2Proof/Proofs/Encoding.lean ====
section
/-! The statements of 30_encoding, from the arms of the decoder and of the dispatch. -/

open Sys2Proof Sys2Proof.Machine

namespace Sys2Proof.Proofs

/-- What the decoder makes of the reserved operation codes (30_encoding R124). -/
def reservedInstrs : List Instr :=
  [.reservedOp0, .reservedOpB, .reservedOpC, .reservedOpD, .reservedOpE, .reservedOpF]

/-- The reserved codes, one by one. -/
theorem reservedOp_cases {op : BitVec 4} (h : op = 0x0 ∨ 0xB ≤ op.toNat) :
    op = 0x0 ∨ op = 0xB ∨ op = 0xC ∨ op = 0xD ∨ op = 0xE ∨ op = 0xF := by
  bv_omega

/-- Each reserved code has an arm of its own in `decodeRequest`, which looks at no other field of the request. -/
theorem decodeRequest_reservedOp {r : Request} (h : r.op = 0x0 ∨ 0xB ≤ r.op.toNat) :
    ∃ i ∈ reservedInstrs, decodeRequest r = .ok i := by
  obtain hop | hop | hop | hop | hop | hop := reservedOp_cases h <;> simp [decodeRequest, hop, reservedInstrs]

/-- All reserved operations have the one meaning, in every state. -/
theorem exec_of_mem_reservedInstrs {i : Instr} (h : i ∈ reservedInstrs) (s : State) : exec i s = illegalRequest s := by
  simp only [reservedInstrs, List.mem_cons, List.not_mem_nil, or_false] at h
  obtain rfl | rfl | rfl | rfl | rfl | rfl := h <;> rfl

/-- Settles O60: a reserved code decodes to a reserved operation, and each of these is the refusal of an idle block. -/
theorem reservedOperationsRefused : Obligations.ReservedOperationsRefused := by
  constructor
  · intro aw r hop
    obtain ⟨i, hi, hdec⟩ := decodeRequest_reservedOp hop
    exact ⟨i, hdec, hi⟩
  · intro i s hi hidle
    rw [exec_of_mem_reservedInstrs hi s]
    exact illegalRequest_idle hidle

end Sys2Proof.Proofs
end

