-- ==== Sys2Proof/Proofs/FlashWriteEngine.lean ====
section
/-! The statements of 45_flash_write_engine about the address splitter and the sector boundary detector, from
`splitAddress_fwe`. -/

open Sys2Proof Sys2Proof.Machine

namespace Sys2Proof.Proofs

/-- `address[31:12]` is the division by 4096 (45 R201). -/
theorem extractLsb'_eq_sectorIndexOf (a : Address) : a.extractLsb' 12 20 = sectorIndexOf a := by
  apply BitVec.eq_of_toNat_eq
  rw [BitVec.extractLsb'_toNat, Nat.shiftRight_eq_div_pow, sectorIndexOf, BitVec.toNat_ofNat]

/-- `address[11:0]` is the remainder modulo 4096 (45 R201). -/
theorem extractLsb'_eq_offsetInSectorOf (a : Address) : a.extractLsb' 0 12 = offsetInSectorOf a := by
  apply BitVec.eq_of_toNat_eq
  rw [BitVec.extractLsb'_toNat, Nat.shiftRight_zero, offsetInSectorOf, BitVec.toNat_ofNat, Nat.mod_mod]

/-- Settles O5: each field of the splitter is the division or the remainder by 4096, and these are slices of the
address because 4096 is a power of two. -/
theorem addressSplitterIsWiring : Obligations.AddressSplitterIsWiring := by
  intro s
  obtain ⟨hindex, hoffset, -⟩ := splitAddress_fwe s
  have hbase := sectorBase_toNat (splitAddress s).fwe.sectorIndex
  refine ⟨hindex, hoffset, ?_, ?_, hbase, ?_⟩
  · exact (extractLsb'_eq_sectorIndexOf _).symm
  · exact (extractLsb'_eq_offsetInSectorOf _).symm
  · rw [hbase, hindex, hoffset]
    omega

/-- The one field of the detector that `splitAddress_fwe` does not give (45 R202); its 13 bits hold 4096. -/
theorem splitAddress_spaceInSector (s : State) :
    (splitAddress s).fwe.spaceInSector.toNat = 4096 - s.fwe.address.toNat % 4096 := by
  change (BitVec.ofNat 13 (4096 - s.fwe.address.toNat % 4096)).toNat = _
  rw [BitVec.toNat_ofNat]
  omega

/-- From `a`, `4096 - a % 4096` bytes reach exactly to the end of the sector of `a`. -/
theorem add_spaceInSector (a : Nat) : a + (4096 - a % 4096) = 4096 * (a / 4096 + 1) := by
  omega

/-- The last byte of `n` bytes from `a` lies in a later sector exactly when they are more than the sector has left. -/
theorem crossesSector_iff (a n : Nat) : a / 4096 < (a + n - 1) / 4096 ↔ 4096 - a % 4096 < n := by
  omega

/-- Settles O6: with the fields of the detector as numbers, the chunk is a minimum, and whether it is the space or the
length is whether the request crosses the end of the sector. -/
theorem boundaryDetectorSizesTheChunk : Obligations.BoundaryDetectorSizesTheChunk := by
  rintro s r rfl
  have hspace := splitAddress_spaceInSector s
  have hfits := windowFits_splitAddress s
  obtain ⟨-, hoffset, hchunk, haddress, hlength, -⟩ := splitAddress_fwe s
  have hreach := add_spaceInSector s.fwe.address.toNat
  rw [State.windowFits] at hfits
  rw [chunkOf, ← hspace] at hchunk
  rw [← hspace] at hreach
  rw [haddress, hlength]
  have hpos : 1 ≤ (splitAddress s).fwe.spaceInSector.toNat := by omega
  refine ⟨by rw [hspace, hoffset], hchunk, hpos, by omega, hreach, ?crosses, fun hlong => ?full, fun hshort => ?rest,
    fun hsome => ?bounds⟩
  case crosses => rw [hspace]; exact crossesSector_iff _ _
  case full =>
    have hfull := hchunk.trans (Nat.min_eq_right hlong.le)
    exact ⟨hfull, by rw [hfull, hreach, Nat.mul_mod_right]⟩
  case rest => exact hchunk.trans (Nat.min_eq_left hshort)
  case bounds =>
    have hchunk_pos : 1 ≤ (splitAddress s).fwe.chunk.toNat := hchunk ▸ Nat.le_min.2 ⟨hsome, hpos⟩
    exact ⟨hchunk_pos, by omega, hfits⟩

end Sys2Proof.Proofs
end

