-- ==== Sys2Proof/Proofs/DeviceCommands.lean ====
section
/-! The statements of 46_device_commands, from the laws of a transaction whose exchanges succeed. -/

open Sys2Proof Sys2Proof.Machine

namespace Sys2Proof.Proofs

/-- A bare transaction of bytes the device only takes in: the device then acts on all of them (46 R232). -/
theorem bareTransaction_sink {s : State} {bs : List Byte} (hidle : s.PIdle) (hxfer : s.PXfer)
    (hsinks : Phase.command.sinks s.dd.addressWidth bs = true) :
    bareTransaction bs s = .next (s.selected.pushedAll bs).deselected := by
  rw [bareTransaction_idle hidle, sendBytes_sink (s := s.selected) hxfer hsinks]

/-- At the end of its one byte a latch command has set the latch of an idle device, and nothing else of it. -/
theorem deselected_latch {s : State} {c : Byte} {v : Bool} (hready : s.PReady) (hclean : s.PClean)
    (hnext : Phase.next s.dd.addressWidth c .command = .latch v) :
    (s.selected.pushedAll [c]).deselected = s.sentOne c { s.dev with wel := v } := by
  have hphase : (s.selected.pushedAll [c]).dev.phase = .latch v := hnext
  have hact : (s.selected.pushedAll [c]).act = (s.selected.pushedAll [c]).mapDev fun d => { d with wel := v } := by
    rw [act_latch hphase]
    exact whenIdle_ready _ hclean hready
  rw [deselected_of_act hact]
  rfl

/-- The state after a transaction of one byte is `Transacted`, whatever the device has become. -/
theorem transacted_sentOne {s : State} (hidle : s.PIdle) (c : Byte) (d : Device) :
    Transacted [c] s (s.sentOne c d) where
  frame := by
    obtain ⟨-, hcs, -⟩ := hidle
    rw [State.sentOne, hcs]
  sent := (sentOne_sends s c d).transactions_eq
  phase := rfl

/-- The latch is no part of `F`. -/
theorem flashByte_sentOne_latch {s : State} (hclean : s.PClean) (c : Byte) (v : Bool) (x : Nat) :
    (s.sentOne c { s.dev with wel := v }).flashByte x = s.flashByte x := by
  have hclean' : (s.sentOne c { s.dev with wel := v }).dev.poisoned = false := hclean
  rw [State.flashByte_clean hclean', State.flashByte_clean hclean]
  rfl

/-- What a bare transaction of a byte that the device decodes as a latch command does (46 R230, R231). -/
theorem bareTransaction_latch {s : State} {c : Byte} {v : Bool} (hidle : s.PIdle) (hready : s.PReady)
    (hclean : s.PClean) (hxfer : s.PXfer) (hnext : Phase.next s.dd.addressWidth c .command = .latch v) :
    bareTransaction [c] s = .next (s.sentOne c { s.dev with wel := v }) := by
  rw [bareTransaction_sink hidle hxfer rfl, deselected_latch hready hclean hnext]

/-- The two latch commands: each is the bare transaction of its byte, which the device decodes to its latch value. -/
theorem exec_latchCommand {i : Instr} {c : Byte} {v : Bool}
    (h : (i, c, v) ∈ [(Instr.writeEnable, (0x06 : Byte), true), (Instr.writeDisable, 0x04, false)]) (s : State) :
    exec i s = bareTransaction [c] s ∧ Phase.next s.dd.addressWidth c .command = .latch v := by
  simp only [List.mem_cons, List.not_mem_nil, or_false, Prod.mk.injEq] at h
  obtain ⟨rfl, rfl, rfl⟩ | ⟨rfl, rfl, rfl⟩ := h
  · exact ⟨rfl, next_writeEnable _⟩
  · exact ⟨rfl, next_writeDisable _⟩

/-- Settles O29: the transaction ends in `sentOne` with the new latch; `F` is read as before because the device holds
the same cells and is as little POISONED. -/
theorem latchCommands : Obligations.LatchCommands := by
  intro i c v s hi hidle hready hclean hxfer
  obtain ⟨hexec, hnext⟩ := exec_latchCommand hi s
  refine ⟨s.sentOne c { s.dev with wel := v }, ?runs, transacted_sentOne hidle c _, rfl, fun x => ?flash⟩
  case runs => rw [hexec, bareTransaction_latch hidle hready hclean hxfer hnext]
  case flash => exact flashByte_sentOne_latch hclean c v x

end Sys2Proof.Proofs
end

