-- ==== Sys2Proof/Proofs/Exceptions.lean ====
section
/-! The statements of 60_exceptions, from the abort of a request that has changed nothing since it was
accepted. -/

open Sys2Proof Sys2Proof.Machine

namespace Sys2Proof.Proofs

/-- An abort that does not POISON, of a request that an idle block has accepted and that has not left its first
state: the block is as before, and the response is the failure (60 R266). -/
theorem abort_accepted {s : State} {e : Status} (hidle : s.PIdle) (he : e.poisons = false) (frames : List Frame) :
    abort e { s with engBusy := true, seq := frames } = { s with rsp := { status := e, result := 0x00 } } := by
  obtain ⟨hbusy, hcs, hseq⟩ := hidle
  simp only [abort, hcs, he, Bool.false_eq_true, if_false]
  rw [← hbusy, ← hseq]

/-- A request whose procedure fails before it changes anything: only the response is new. -/
theorem serve_refused {p : Proc} {m : M Byte} {s : State} {e : Status} (hidle : s.PIdle) (he : e.poisons = false)
    (hm : ∀ t, m t = .error (.raised e) t) :
    serve p m s = .next { s with rsp := { status := e, result := 0x00 } } := by
  rw [serve_raised hidle (hm _), abort_accepted hidle he]

/-- The check of 40 R141 fails for the numbers of no register. -/
theorem validRegister_eq_false {n : BitVec 8} (h1 : n ≠ 1) (h2 : n ≠ 2) (h3 : n ≠ 3) : validRegister n = false :=
  decide_eq_false (by simp only [h1, h2, h3, or_self, not_false_eq_true])

/-- `read(n)` begins with the check of `n`, so a number that fails it stops `read` where it stands (40 R141). -/
theorem readStatus_invalid {n : BitVec 8} (h : validRegister n = false) (s : State) :
    readStatus n s = .error (.raised .invalidRegister) s :=
  run_bind_error (run_require_false s h)

/-- `write(n, v)` begins with the same check (40 R141). -/
theorem writeStatus_invalid {n : BitVec 8} (h : validRegister n = false) (v : Byte) (s : State) :
    writeStatus n v s = .error (.raised .invalidRegister) s :=
  run_bind_error (run_require_false s h)

/-- Settles O43: the check of the number is the first step of both procedures, so the abort finds the block as it was
accepted, with no transaction in progress. -/
theorem invalidRegisterRefused : Obligations.InvalidRegisterRefused := by
  intro n v s hidle h1 h2 h3
  have hn := validRegister_eq_false h1 h2 h3
  constructor
  · exact serve_refused hidle rfl (readStatus_invalid hn)
  · exact serve_refused hidle rfl fun t => run_bind_error (writeStatus_invalid hn v t)

end Sys2Proof.Proofs
end

section
/-! The statements of 70_reset_and_hazards, from the step of an idle block to which nothing is presented. -/

open Sys2Proof Sys2Proof.Machine

namespace Sys2Proof.Proofs

/-- An idle block to which nothing is presented waits, and its wait changes nothing (70 R291). -/
theorem step_idle_of_port_nil {s : State} (hidle : s.PIdle) (hport : s.port = []) : step s = .next s := by
  obtain ⟨hbusy, -, -⟩ := hidle
  simp only [step, stepInput, hport, hbusy, Bool.false_eq_true, if_false]

/-- The block is idle after reset (70 R291). -/
theorem reset_idle : State.reset.PIdle := ⟨rfl, rfl, rfl⟩

/-- Settles O10: the reset values are those of the idle block, and nothing stands at its port, so it waits. -/
theorem resetBlockIsIdleAndWaits : Obligations.ResetBlockIsIdleAndWaits := by
  obtain ⟨hbusy, hcs, hseq⟩ := reset_idle
  have hwaits : step State.reset = .next State.reset := step_idle_of_port_nil reset_idle rfl
  exact ⟨hseq, hbusy, hcs, rfl, rfl, hwaits⟩

end Sys2Proof.Proofs
end

section
/-! What an instruction is to the machine: a procedure run as a request, a bare transaction, or a reserved operation. A
relation that the transport and every register update respect then holds between the state before and after, whatever
the instruction. -/

open Sys2Proof Sys2Proof.Machine

namespace Sys2Proof.Proofs

/-- What an instruction asks for: a procedure, run as a request; the command byte and the further bytes of a bare
transaction; or nothing the block knows (30_encoding R110, R121, R124). -/
inductive Meaning where
  | request (p : Proc) (m : M Byte)
  | transaction (c : Byte) (rest : AddressWidth → List Byte)
  | reserved

/-- The meaning of each instruction. -/
def meaning : Instr → Meaning
  | .writeEnable => .transaction 0x06 fun _ => []
  | .writeDisable => .transaction 0x04 fun _ => []
  | .readStatusReg1 => .transaction 0x05 fun _ => [Config.dummyTx]
  | .readStatusReg2 => .transaction 0x35 fun _ => [Config.dummyTx]
  | .readStatusReg3 => .transaction 0x15 fun _ => [Config.dummyTx]
  | .writeStatusReg1 v => .transaction 0x01 fun _ => [v]
  | .writeStatusReg2 v => .transaction 0x31 fun _ => [v]
  | .writeStatusReg3 v => .transaction 0x11 fun _ => [v]
  | .readData a n => .transaction 0x03 fun aw => addressBytes aw a ++ List.replicate n Config.dummyTx
  | .pageProgram a data => .transaction 0x02 fun aw => addressBytes aw a ++ data
  | .sectorErase a => .transaction 0x20 fun aw => addressBytes aw a
  | .chipErase tail => .transaction 0xC7 fun _ => tail
  | .powerDown tail => .transaction 0xB9 fun _ => tail
  | .releasePowerDown tail => .transaction 0xAB fun _ => tail
  | .manufacturerDeviceID tail => .transaction 0x90 fun _ => tail
  | .enable4ByteAddr => .transaction 0xB7 fun _ => []
  | .srRead n => .request .read (readStatus n)
  | .srWrite n v => .request .writeRegister do writeStatus n v; pure 0x00
  | .srBusy => .request .busy do let b ← busy; pure (boolResult b)
  | .srWait => .request .waitUntilReady do waitUntilReady; pure 0x00
  | .weEnable => .request .enable do enable; pure 0x00
  | .weDisable => .request .disable do disable; pure 0x00
  | .ppProgram a data => .request .programPage do programPage data .caller 0 a (lengthField data); pure 0x00
  | .pswWriteBlank a data =>
    .request .writeAssumingBlank do writeAssumingBlank data .caller 0 a (lengthField data); pure 0x00
  | .semErase si => .request .eraseSector do eraseSector si; pure 0x00
  | .fweWrite a data => .request .write do writeFlash data a (lengthField data); pure 0x00
  | .fweReadSector si => .request .readSector do readSector si; pure 0x00
  | .reservedOp0 | .reservedOpB | .reservedOpC | .reservedOpD | .reservedOpE | .reservedOpF => .reserved

/-- How a meaning is run. -/
def Meaning.run (s : State) : Meaning → Host.Outcome State Fault Refusal
  | .request p m => serve p m s
  | .transaction c rest => bareTransaction (c :: rest s.dd.addressWidth) s
  | .reserved => illegalRequest s

/-- Every instruction runs as its meaning. -/
theorem exec_eq_run (i : Instr) (s : State) : exec i s = (meaning i).run s := by
  cases i <;> rfl

/-! ### What an outcome can be -/

/-- The state in which the procedure of a request starts: the request is accepted. -/
def accepted (p : Proc) (s : State) : State := { s with engBusy := true, seq := [{ proc := p, label := p.entry }] }

/-- The state after a transaction in progress is cut short (60 R266). -/
def cutShort (s : State) : State := if s.cs then s.deselected else s

/-- The state of an abort before the mark POISONED: no transaction, no frame, the failure as response (60 R266). -/
def failed (e : Status) (s : State) : State := { cutShort s with seq := [], rsp := { status := e, result := 0x00 } }

theorem abort_of_poisons {e : Status} {s : State} (h : e.poisons = true) :
    abort e s = { (failed e s).poisonWith s.inWork with engBusy := false } := by
  unfold abort
  rw [h]
  rfl

theorem abort_of_not_poisons {e : Status} {s : State} (h : e.poisons = false) :
    abort e s = { failed e s with engBusy := false } := by
  unfold abort
  rw [h]
  rfl

/-- A bare transaction that is answered: it waits, or it ran to its end, or a failing exchange cut it short. -/
theorem bareTransaction_next {bs : List Byte} {s t : State} (h : bareTransaction bs s = .next t) :
    (s.engBusy = true ∧ t = s) ∨
    (s.PIdle ∧
      ((∃ u, sendBytes bs s.selected = .ok () u ∧ t = u.deselected) ∨
       (∃ e u, sendBytes bs s.selected = .error e u ∧ t = u.deselected.poison))) := by
  unfold bareTransaction at h
  split at h
  next hbusy => injection h with h; exact .inl ⟨hbusy, h.symm⟩
  next hbusy =>
    split at h
    next => cases h
    next hclosed =>
      have hidle : s.PIdle := by simpa [State.PIdle, hbusy] using hclosed
      refine .inr ⟨hidle, ?_⟩
      split at h <;> rename_i hsend <;> injection h with h <;> subst h
      · exact .inl ⟨_, hsend, rfl⟩
      · exact .inr ⟨_, _, hsend, rfl⟩

/-- A reserved operation that is answered: it waits, or it is refused. -/
theorem illegalRequest_next {s t : State} (h : illegalRequest s = .next t) :
    (s.engBusy = true ∧ t = s) ∨
    (s.PIdle ∧ t = { s with rsp := { status := .illegalRequest, result := 0x00 } }) := by
  by_cases hbusy : s.engBusy = true
  · simp only [illegalRequest, hbusy, if_true] at h
    injection h with h
    exact .inl ⟨hbusy, h.symm⟩
  · by_cases hidle : s.PIdle
    · rw [illegalRequest_idle hidle] at h
      injection h with h
      exact .inr ⟨hidle, h.symm⟩
    · have hopen : (s.cs || !s.seq.isEmpty) = true := by
        by_contra hopen
        exact hidle (by simpa [State.PIdle, hbusy] using hopen)
      simp [illegalRequest, hbusy, hopen] at h

/-- A busy block leaves every instruction at the port (60 R280). -/
theorem exec_busy {s : State} (h : s.engBusy = true) (i : Instr) : exec i s = .next s := by
  rw [exec_eq_run]
  cases meaning i with
  | request p m => exact serve_busy h
  | transaction c rest => simp [Meaning.run, bareTransaction, h]
  | reserved => simp [Meaning.run, illegalRequest, h]

/-- An idle block answers every instruction. -/
theorem exec_idle_isNext {s : State} (h : s.PIdle) (i : Instr) : ∃ t, exec i s = .next t := by
  rw [exec_eq_run]
  cases meaning i with
  | request p m =>
    simp only [Meaning.run, serve_idle h]
    rcases m _ with ⟨r, u⟩ | ⟨_ | _, u⟩ <;> exact ⟨_, rfl⟩
  | transaction c rest =>
    simp only [Meaning.run, bareTransaction_idle h]
    rcases sendBytes _ _ with ⟨r, u⟩ | ⟨e, u⟩ <;> exact ⟨_, rfl⟩
  | reserved => exact ⟨_, illegalRequest_idle h⟩

/-! ### Relations that every instruction respects -/

/-- The relation holds over every update of a working register or of SB by a procedure. -/
structure ProcFrame (R : State → State → Prop) : Prop extends BusFrame R where
  sra : AllowsSra R
  pp : AllowsPp R
  psw : AllowsPsw R
  sem : AllowsSem R
  fwe : AllowsFwe R
  receive : AllowsReceive R
  rsI : ∀ (s : State) i, R s { s with rsI := i }
  merge : AllowsMerge R

/-- Besides, over the acceptance and the end of a request. -/
structure ExecFrame (R : State → State → Prop) : Prop extends ProcFrame R where
  poisonWith : ∀ (s : State) x, R s (s.poisonWith x)
  poisonHung : ∀ s : State, R s s.poisonHung
  answer : ∀ (s : State) b r, R s { s with engBusy := b, rsp := r }

section Frames
variable {R : State → State → Prop} {i : Instr} {s t : State}

/-- A procedure whose result is then discarded. -/
theorem keeps_discard (h : BusFrame R) {α : Type} {m : M α} {r : Byte} (hm : Keeps R m) :
    Keeps R (do let _ ← m; pure r) :=
  keeps_bind h hm fun _ => keeps_pure h _

/-- The procedure of every request keeps what all register updates keep. -/
theorem ProcFrame.keeps_request (h : ProcFrame R) {p : Proc} {m : M Byte} (hi : meaning i = .request p m) :
    Keeps R m := by
  have hb := h.toBusFrame
  cases i <;> cases hi
  case srRead n => exact keeps_readStatus hb h.sra n
  case srWrite n v => exact keeps_discard hb (keeps_writeStatus hb h.sra n v)
  case srBusy => exact keeps_bind hb (keeps_busy hb h.sra) fun _ => keeps_pure hb _
  case srWait => exact keeps_discard hb (keeps_waitUntilReady hb h.sra)
  case weEnable => exact keeps_discard hb (keeps_enable hb)
  case weDisable => exact keeps_discard hb (keeps_disable hb)
  case ppProgram a data => exact keeps_discard hb (keeps_programPage hb h.sra h.pp data _ _ _ _)
  case pswWriteBlank a data => exact keeps_discard hb (keeps_writeAssumingBlank hb h.sra h.pp h.psw data _ _ _ _)
  case semErase si => exact keeps_discard hb (keeps_eraseSector hb h.sra h.sem si)
  case fweWrite a data =>
    exact keeps_discard hb (keeps_writeFlash hb h.sra h.pp h.psw h.sem h.fwe h.receive h.rsI h.merge data _ _)
  case fweReadSector si => exact keeps_discard hb (keeps_readSector hb h.receive h.rsI si)

/-- The abort is a transport event, an end of the request, and perhaps the mark POISONED. -/
theorem ExecFrame.abort (h : ExecFrame R) (e : Status) (s : State) : R s (abort e s) := by
  have hcut : R s (cutShort s) := by
    unfold cutShort
    split
    · exact h.deselect s
    · exact h.refl s
  have hfailed : R s (failed e s) :=
    h.trans hcut (h.trans (h.frames _ []) (h.answer { cutShort s with seq := [] } (cutShort s).engBusy _))
  by_cases he : e.poisons = true
  · rw [abort_of_poisons he]
    exact h.trans hfailed (h.trans (h.poisonWith _ s.inWork) (h.answer _ false _))
  · rw [abort_of_not_poisons (Bool.eq_false_iff.2 he)]
    exact h.trans hfailed (h.answer _ false _)

/-- Whatever instruction is answered, the relation holds between the states before and after. -/
theorem ExecFrame.exec (h : ExecFrame R) (hn : exec i s = .next t) : R s t := by
  rw [exec_eq_run] at hn
  cases hi : meaning i with
  | request p m =>
    rw [hi] at hn
    obtain ⟨-, rfl⟩ | ⟨-, hm⟩ := serve_next hn
    · exact h.refl _
    have hstart : R s (accepted p s) := 
      h.trans (h.frames s [{ proc := p, label := p.entry }])
        (h.answer { s with seq := [{ proc := p, label := p.entry }] } true s.rsp)
    have hkeeps : R (accepted p s) (endState (m (accepted p s))) := h.keeps_request hi (accepted p s)
    have hrun := h.trans hstart hkeeps
    obtain ⟨r, u, hok, rfl⟩ | ⟨e, u, herr, rfl⟩ | ⟨u, hhung, rfl⟩ := hm
    · rw [accepted, hok] at hrun
      exact h.trans hrun (h.trans (h.frames u []) (h.answer { u with seq := [] } false _))
    · rw [accepted, herr] at hrun
      exact h.trans hrun (h.abort e u)
    · rw [accepted, hhung] at hrun
      exact h.trans hrun (h.poisonHung u)
  | transaction c rest =>
    rw [hi] at hn
    have hsend := h.trans (h.select s) (keeps_sendBytes h.toBusFrame (c :: rest s.dd.addressWidth) s.selected)
    obtain ⟨-, rfl⟩ | ⟨-, ⟨u, hok, rfl⟩ | ⟨e, u, herr, rfl⟩⟩ := bareTransaction_next hn
    · exact h.refl _
    · rw [hok] at hsend
      exact h.trans hsend (h.deselect u)
    · rw [herr] at hsend
      exact h.trans (h.trans hsend (h.deselect u)) (h.poisonWith _ .all)
  | reserved =>
    rw [hi] at hn
    obtain ⟨-, rfl⟩ | ⟨-, rfl⟩ := illegalRequest_next hn
    · exact h.refl _
    · exact h.answer s s.engBusy _

end Frames

/-- A field that transport events, the sequencer and the working registers leave alone. -/
theorem execFrame_field {β : Type} (F : State → β) (hbus : ∀ s t, OnlyBus s t → F t = F s)
    (hregs : ∀ (s : State) q sra pp psw sem fwe sb rsI b r, F { s with
      seq := q, sra := sra, pp := pp, psw := psw, sem := sem, fwe := fwe, sb := sb, rsI := rsI, engBusy := b,
      rsp := r } = F s) : ExecFrame fun s t => F t = F s where
  toBusFrame := busFrame_field F hbus fun s q => hregs s q _ _ _ _ _ _ _ _ _
  sra s r := hregs s _ r _ _ _ _ _ _ _ _
  pp s r := hregs s _ _ r _ _ _ _ _ _ _
  psw s r := hregs s _ _ _ r _ _ _ _ _ _
  sem s r := hregs s _ _ _ _ r _ _ _ _ _
  fwe s r := hregs s _ _ _ _ _ r _ _ _ _
  receive s _ i _ := hregs s _ _ _ _ _ _ _ i _ _
  rsI s i := hregs s _ _ _ _ _ _ _ i _ _
  merge s _ _ _ := hregs s _ _ _ _ _ _ _ _ _ _
  poisonWith s x := hbus _ _ (onlyDevice_poisonWith x s).onlyBus
  poisonHung s := hbus _ _ (onlyDevice_poisonHung s).onlyBus
  answer s b r := hregs s _ _ _ _ _ _ _ _ b r

/-- No instruction touches the descriptor, POLL_LIMIT or what stands at the port. -/
theorem execFrame_given : ExecFrame fun s t => (t.dd, t.pollLimit, t.port) = (s.dd, s.pollLimit, s.port) :=
  execFrame_field (fun s => (s.dd, s.pollLimit, s.port)) (fun _ _ h => by rw [h]) fun _ _ _ _ _ _ _ _ _ _ _ => rfl

theorem exec_given {i : Instr} {s t : State} (h : exec i s = .next t) :
    t.dd = s.dd ∧ t.pollLimit = s.pollLimit ∧ t.port = s.port := by
  simpa only [Prod.mk.injEq] using execFrame_given.exec h

end Sys2Proof.Proofs
end

section
/-! What holds along a request, whatever the device and the transport do. A protocol names what holds between two
transactions, after `Select()`, within a transaction, and where a procedure stops; if every transport event respects it,
so does every procedure. -/

open Sys2Proof Sys2Proof.Machine

namespace Sys2Proof.Proofs

/-! ### How a procedure ends -/

/-- Started in `s`, `m` returns in a state that meets `Q`, or stops as `E` says. -/
def Ends {α : Type} (s : State) (m : M α) (Q : State → Prop) (E : Stop → State → Prop) : Prop :=
  (∀ a t, m s = .ok a t → Q t) ∧ ∀ e t, m s = .error e t → E e t

section Rules
variable {α β : Type} {s : State} {Q Q' : State → Prop} {E E' : Stop → State → Prop}

theorem Ends.of_ok {m : M α} {a : α} {t : State} (h : m s = .ok a t) (hq : Q t) : Ends s m Q E := by
  constructor
  · rintro _ u hu
    cases h.symm.trans hu
    exact hq
  · rintro _ u hu
    cases h.symm.trans hu

theorem Ends.of_error {m : M α} {e : Stop} {t : State} (h : m s = .error e t) (he : E e t) : Ends s m Q E := by
  constructor
  · rintro _ u hu
    cases h.symm.trans hu
  · rintro _ u hu
    cases h.symm.trans hu
    exact he

theorem Ends.mono {m : M α} (h : Ends s m Q E) (hq : ∀ t, Q t → Q' t) (he : ∀ e t, E e t → E' e t) : Ends s m Q' E' :=
  ⟨fun a t hm => hq t (h.1 a t hm), fun e t hm => he e t (h.2 e t hm)⟩

/-- The second part starts where the first returned. -/
theorem Ends.bind {m : M α} {f : α → M β} (hm : Ends s m Q E) (hf : ∀ a t, m s = .ok a t → Q t → Ends t (f a) Q' E) :
    Ends s (m >>= f) Q' E := by
  constructor
  · intro b u hu
    obtain ⟨a, t, ht, hu⟩ := run_bind_eq_ok.1 hu
    exact (hf a t ht (hm.1 a t ht)).1 b u hu
  · intro e u hu
    obtain hu | ⟨a, t, ht, hu⟩ := run_bind_eq_error.1 hu
    · exact hm.2 e u hu
    · exact (hf a t ht (hm.1 a t ht)).2 e u hu

theorem Ends.pure (a : α) (h : Q s) : Ends s (Pure.pure a : M α) Q E := Ends.of_ok (run_pure s a) h

theorem Ends.assign {f : State → State} (h : Q (f s)) : Ends s (assign f) Q E := Ends.of_ok (run_assign s f) h

theorem Ends.assignThen {g : State → State} {f : Unit → M β} (h : Ends (g s) (f ()) Q E) :
    Ends s (Machine.assign g >>= f) Q E := by
  simpa only [Ends, run_assign_bind] using h

theorem Ends.getThen {f : State → M β} (h : Ends s (f s) Q E) : Ends s (get >>= f) Q E := by
  simpa only [Ends, run_get_bind] using h

theorem Ends.require {b : Bool} {e : Status} (hfail : b = false → E (.raised e) s) (hpass : b = true → Q s) :
    Ends s (require b e) Q E := by
  cases hb : b with
  | true => exact Ends.of_ok (run_require_true s rfl) (hpass hb)
  | false => exact Ends.of_error (run_require_false s rfl) (hfail hb)

theorem Ends.callAt {site : Label} {p : Proc} {m : M α}
    (hm : Ends { s with seq := { proc := p, label := p.entry } :: relabel site s.seq } m Q E)
    (hq : ∀ t q, Q t → Q' { t with seq := q }) : Ends s (callAt site p m) Q' E := by
  constructor
  · intro a t ht
    obtain ⟨u, hu, rfl⟩ := run_callAt_eq_ok.1 ht
    exact hq u _ (hm.1 a u hu)
  · intro e t ht
    exact hm.2 e t (run_callAt_eq_error.1 ht)

end Rules

/-! ### Protocols -/

/-- What a protocol may look at: the limits, the device, the environment, `CS` and the trace. -/
structure SameBus (s t : State) : Prop where
  dd : t.dd = s.dd
  pollLimit : t.pollLimit = s.pollLimit
  cs : t.cs = s.cs
  dev : t.dev = s.dev
  env : t.env = s.env
  trace : t.trace = s.trace

/-- What holds of a block that sends the commands `C` only and raises the failures `S` only. -/
structure Protocol (C : Byte → Prop) (S : Status → Prop) where
  /-- Between two transactions. -/
  out : State → Prop
  /-- After `Select()`. -/
  sel : State → Prop
  /-- Within a transaction, after its command byte. -/
  inn : State → Prop
  /-- Where a procedure has stopped. -/
  cut : Stop → State → Prop
  regs_out : ∀ {s t}, SameBus s t → out s → out t
  regs_inn : ∀ {s t}, SameBus s t → inn s → inn t
  selects : ∀ {s}, out s → sel s.selected
  command : ∀ {c s rx t}, C c → sel s → xchg c s = .ok rx t → inn t
  exchange : ∀ {tx s rx t}, inn s → xchg tx s = .ok rx t → inn t
  deselects : ∀ {s}, inn s → out s.deselected
  fail : ∀ {tx s t}, sel s ∨ inn s → xchg tx s = .error (.raised .transportFailure) t →
    cut (.raised .transportFailure) t
  stop : ∀ {e s}, S e → out s → cut (.raised e) s
  hung : ∀ {s}, out s → s.pollLimit = none → s.env.xferFail = [] → cut .hung s

/-- An exchange fails in one way only (60 R264). -/
theorem xchg_error {tx : Byte} {s t : State} {e : Stop} (h : xchg tx s = .error e t) :
    e = .raised .transportFailure ∧ ∃ gaps, s.env.xferFail = 0 :: gaps ∧
      t = s.mapEnv fun env => { env with xferFail := gaps } := by
  unfold xchg at h
  split at h
  next => cases h
  next gaps hx => injection h with he ht; exact ⟨he.symm, gaps, hx, ht.symm⟩
  next => cases h

/-- An exchange that succeeds, with the failures still to come. -/
theorem xchg_eq_ok {tx rx : Byte} {s t : State} (h : xchg tx s = .ok rx t) :
    ∃ gaps, (rx, t) = (s.mapEnv fun e => { e with xferFail := gaps }).exchanged tx ∧
      ((s.env.xferFail = [] ∧ gaps = []) ∨ ∃ n r, s.env.xferFail = (n + 1) :: r ∧ gaps = n :: r) := by
  rcases hx : s.env.xferFail with _ | ⟨_ | n, r⟩
  · rw [xchg_ok hx] at h
    cases h
    have hs : (s.mapEnv fun e => { e with xferFail := [] }) = s := by rw [← hx]; rfl
    exact ⟨[], by rw [hs], .inl ⟨rfl, rfl⟩⟩
  · simp [xchg, hx] at h
  · let s' : State := s.mapEnv fun e => { e with xferFail := n :: r }
    have hxchg : xchg tx s = .ok (s'.exchanged tx).1 (s'.exchanged tx).2 := by simp [xchg, hx, s']
    cases h.symm.trans hxchg
    exact ⟨n :: r, rfl, .inr ⟨n, r, rfl, rfl⟩⟩

namespace Protocol
variable {C : Byte → Prop} {S : Status → Prop} (P : Protocol C S) {s : State}

/-- Between two transactions no protocol looks at the working registers or the sequencer. -/
theorem out_regs {fwe rsI psw pp sem sra sb seq} (hs : P.out s) : P.out { s with
    fwe := fwe, rsI := rsI, psw := psw, pp := pp, sem := sem, sra := sra, sb := sb, seq := seq } :=
  P.regs_out (s := s) ⟨rfl, rfl, rfl, rfl, rfl, rfl⟩ hs

/-- Nor within one. -/
theorem inn_regs {fwe rsI psw pp sem sra sb seq} (hs : P.inn s) : P.inn { s with
    fwe := fwe, rsI := rsI, psw := psw, pp := pp, sem := sem, sra := sra, sb := sb, seq := seq } :=
  P.regs_inn (s := s) ⟨rfl, rfl, rfl, rfl, rfl, rfl⟩ hs

theorem ends_command {c : Byte} (hc : C c) (hs : P.sel s) : Ends s (xchg c) P.inn P.cut :=
  ⟨fun _ _ h => P.command hc hs h, fun _ _ h => by
    obtain ⟨rfl, -⟩ := xchg_error h
    exact P.fail (.inl hs) h⟩

theorem ends_xchg {tx : Byte} (hs : P.inn s) : Ends s (xchg tx) P.inn P.cut :=
  ⟨fun _ _ h => P.exchange hs h, fun _ _ h => by
    obtain ⟨rfl, -⟩ := xchg_error h
    exact P.fail (.inr hs) h⟩

theorem ends_select (hs : P.out s) : Ends s select P.sel P.cut := Ends.of_ok (run_select s) (P.selects hs)

theorem ends_deselect (hs : P.inn s) : Ends s deselect P.out P.cut := Ends.of_ok (run_deselect s) (P.deselects hs)

theorem ends_require {b : Bool} {e : Status} (hs : P.out s) (he : b = false → S e) :
    Ends s (require b e) P.out P.cut :=
  Ends.require (fun hb => P.stop (he hb) hs) fun _ => hs

theorem ends_goto {l : Label} (hs : P.out s) : Ends s (goto l) P.out P.cut :=
  Ends.assign (P.out_regs hs)

theorem ends_callAt {α : Type} {site : Label} {p : Proc} {m : M α} (hs : P.out s)
    (hm : ∀ t, SameBus s t → t = { s with seq := t.seq } → P.out t → Ends t m P.out P.cut) :
    Ends s (callAt site p m) P.out P.cut :=
  Ends.callAt (hm _ ⟨rfl, rfl, rfl, rfl, rfl, rfl⟩ rfl (P.out_regs hs)) fun _ _ h => P.out_regs h

theorem ends_sendBytes {bs : List Byte} (hs : P.inn s) : Ends s (sendBytes bs) P.inn P.cut := by
  induction bs generalizing s with
  | nil => exact Ends.pure () hs
  | cons b bs ih => exact (P.ends_xchg hs).bind fun _ _ _ ht => ih ht

/-- A whole bare transaction, up to its `Deselect()`. -/
theorem ends_sendCommand {c : Byte} {bs : List Byte} (hc : C c) (hs : P.sel s) :
    Ends s (sendBytes (c :: bs)) P.inn P.cut :=
  (P.ends_command hc hs).bind fun _ _ _ ht => P.ends_sendBytes ht

theorem ends_sendAddr {a : Address} (hs : P.inn s) : Ends s (sendAddr a) P.inn P.cut :=
  Ends.getThen (P.ends_sendBytes hs)

/-! ### The procedures -/

theorem ends_readStatus {n : BitVec 8} (hc : C (readCommand n)) (hv : validRegister n = false → S .invalidRegister)
    (hs : P.out s) : Ends s (readStatus n) P.out P.cut :=
  (P.ends_require hs hv).bind fun _ _ _ h =>
  Ends.assignThen <| (P.ends_select (P.out_regs h)).bind fun _ _ _ h =>
  (P.ends_command hc h).bind fun _ _ _ h =>
  (P.ends_xchg h).bind fun _ _ _ h =>
  Ends.assignThen <| (P.ends_deselect (P.inn_regs h)).bind fun _ _ _ h =>
  Ends.getThen (Ends.pure _ h)

theorem ends_writeStatus {n : BitVec 8} {v : Byte} (hc : C (writeCommand n))
    (hv : validRegister n = false → S .invalidRegister) (hs : P.out s) : Ends s (writeStatus n v) P.out P.cut :=
  (P.ends_require hs hv).bind fun _ _ _ h =>
  Ends.assignThen <| (P.ends_select (P.out_regs h)).bind fun _ _ _ h =>
  (P.ends_command hc h).bind fun _ _ _ h =>
  (P.ends_xchg h).bind fun _ _ _ h => P.ends_deselect h

theorem ends_busy (hc : C 0x05) (hs : P.out s) : Ends s busy P.out P.cut :=
  (P.ends_callAt hs fun _ _ _ h => P.ends_readStatus (n := 1) hc (fun hv => absurd hv (by decide)) h).bind
    fun _ _ _ h => Ends.pure _ h

/-- In the loop of the wait a hang is a state between two transactions; that nothing ends it is known of the whole wait. -/
theorem ends_waitLoop {fuel : Nat} (hc : C 0x05) (he : S .busyTimeout) (hs : P.out s) :
    Ends s (waitLoop fuel) P.out fun e t => (e = .hung ∧ P.out t) ∨ P.cut e t := by
  induction fuel generalizing s with
  | zero => exact Ends.of_error (run_hang s) (.inl ⟨rfl, hs⟩)
  | succ fuel ih =>
    have hpoll : Ends s (callAt .WT1 .busy busy) P.out fun e t => (e = .hung ∧ P.out t) ∨ P.cut e t :=
      (P.ends_callAt hs fun _ _ _ h => P.ends_busy hc h).mono (fun _ h => h) fun _ _ h => .inr h
    refine hpoll.bind fun b t _ ht => ?_
    cases b with
    | false => exact Ends.pure () ht
    | true =>
      have hcount : P.out { t with sra := { t.sra with polls := t.sra.polls + 1 } } :=
        P.out_regs ht
      refine Ends.assignThen (Ends.getThen (Ends.bind (Q := P.out) ?_ fun _ u _ hu => ?_))
      · exact (P.ends_require hcount fun _ => he).mono (fun _ h => h) fun _ _ h => .inr h
      · exact Ends.assignThen (ih (P.out_regs hu))

theorem ends_waitUntilReady (hc : C 0x05) (he : S .busyTimeout) (hs : P.out s) :
    Ends s waitUntilReady P.out P.cut := by
  have hloop : Ends s waitUntilReady P.out fun e t => (e = .hung ∧ P.out t) ∨ P.cut e t :=
    Ends.assignThen (Ends.getThen (P.ends_waitLoop hc he (P.out_regs hs)))
  refine ⟨hloop.1, fun e t ht => ?_⟩
  obtain ⟨rfl, hout⟩ | hcut := hloop.2 e t ht
  · obtain ⟨hlimit, hgaps⟩ := waitUntilReady_hung ht
    exact P.hung hout hlimit hgaps
  · exact hcut

theorem ends_enable (hc : C 0x06) (hs : P.out s) : Ends s enable P.out P.cut :=
  (P.ends_select hs).bind fun _ _ _ h => (P.ends_command hc h).bind fun _ _ _ h => P.ends_deselect h

theorem ends_disable (hc : C 0x04) (hs : P.out s) : Ends s disable P.out P.cut :=
  (P.ends_select hs).bind fun _ _ _ h => (P.ends_command hc h).bind fun _ _ _ h => P.ends_deselect h

theorem ends_streamPage {data : List Byte} {count : Nat} (hs : P.inn s) :
    Ends s (streamPage data count) P.inn P.cut := by
  induction count generalizing s with
  | zero => exact Ends.pure () hs
  | succ count ih =>
    exact Ends.getThen <| (P.ends_xchg hs).bind fun _ _ _ h =>
      Ends.assignThen (ih (P.inn_regs h))

/-- The commands of a program, and the failures of the waits in it. -/
structure Programming (C : Byte → Prop) (S : Status → Prop) : Prop where
  latch : C 0x06
  program : C 0x02
  poll : C 0x05
  timeout : S .busyTimeout

theorem ends_programPage {data : List Byte} {src : Source} {b : BitVec 32} {a : Address} {len : BitVec 32}
    (hp : Programming C S)
    (hr : withinPage a.toNat len.toNat = false ∨ withinCapacity s a.toNat len.toNat = false → S .invalidRange)
    (hs : P.out s) : Ends s (programPage data src b a len) P.out P.cut := by
  refine Ends.assignThen (Ends.getThen ?_)
  exact (P.ends_require (P.out_regs hs) fun h => hr (.inl h)).bind fun _ _ _ h =>
    (P.ends_require h fun h => hr (.inr h)).bind fun _ _ _ h =>
    (P.ends_callAt h fun _ _ _ h => P.ends_enable hp.latch h).bind fun _ _ _ h =>
    (P.ends_select h).bind fun _ _ _ h =>
    (P.ends_command hp.program h).bind fun _ _ _ h =>
    Ends.getThen <| (P.ends_sendAddr h).bind fun _ _ _ h =>
    Ends.assignThen <| Ends.getThen <|
    (P.ends_streamPage (P.inn_regs h)).bind fun _ _ _ h =>
    (P.ends_deselect h).bind fun _ _ _ h =>
    P.ends_callAt h fun _ _ _ h => P.ends_waitUntilReady hp.poll hp.timeout h

end Protocol

end Sys2Proof.Proofs
end

section
/-! The same rule for the span writer, the sector erase and `write`. Their nested range checks pass once the first one
has, so that InvalidRange is a failure of the request's own check only (60 R261, R267). -/

open Sys2Proof Sys2Proof.Machine

namespace Sys2Proof.Proofs

/-- With a descriptor that meets 00_scope R9 every address of the array has 32 bits. -/
theorem capacity_le_of_desc {s : State} (h : s.PDesc) : s.dd.capacityBytes ≤ 2 ^ 32 := by
  obtain ⟨-, -, hcap⟩ := h
  have hwidth : 2 ^ (8 * s.dd.addressWidth.bytes) ≤ 2 ^ 32 := by cases s.dd.addressWidth <;> decide
  omega

theorem withinCapacity_iff {s : State} {a n : Nat} : withinCapacity s a n = true ↔ a + n ≤ s.dd.capacityBytes :=
  decide_eq_true_iff

theorem withinPage_iff {a n : Nat} : withinPage a n = true ↔ a % 256 + n ≤ 256 :=
  decide_eq_true_iff

theorem pos_of_ne_zero {w : BitVec 32} (h : w ≠ 0) : 0 < w.toNat := by
  rw [Nat.pos_iff_ne_zero]
  exact fun h0 => h (BitVec.eq_of_toNat_eq h0)

/-- The registers of the span writer describe what is left of a span inside the array (43 R181). -/
structure SpanLeft (s : State) : Prop where
  desc : s.PDesc
  page : 0 < s.psw.remaining.toNat → s.psw.pageRemain.toNat = 256 - s.psw.addr.toNat % 256
  fits : 0 < s.psw.remaining.toNat → s.psw.addr.toNat + s.psw.remaining.toNat ≤ s.dd.capacityBytes

/-- The size of the next chunk (43 R181). -/
def spanChunkOf (s : State) : Nat := min s.psw.remaining.toNat s.psw.pageRemain.toNat

/-- The registers of the span writer after a chunk (43 R182, SP6). -/
def advanceSpan (s : State) : State := { s with psw := { s.psw with
  addr := s.psw.addr + BitVec.ofNat 32 s.psw.n.toNat
  pos := s.psw.pos + BitVec.ofNat 32 s.psw.n.toNat
  remaining := s.psw.remaining - BitVec.ofNat 32 s.psw.n.toNat
  pageRemain := 256 } }

/-- The registers of the span writer with the next chunk measured (43 R182, SP4). -/
def measureSpan (s : State) : State := { s with psw := { s.psw with n := BitVec.ofNat 9 (spanChunkOf s) } }

/-- The chunk measured is at least one byte, inside its page and inside the array. -/
theorem SpanLeft.chunk {s : State} (h : SpanLeft s) (hrem : 0 < s.psw.remaining.toNat) :
    1 ≤ spanChunkOf s ∧ (measureSpan s).psw.n.toNat = spanChunkOf s ∧ spanChunkOf s ≤ s.psw.remaining.toNat ∧
      s.psw.addr.toNat % 256 + spanChunkOf s ≤ 256 ∧ s.psw.addr.toNat + spanChunkOf s ≤ s.dd.capacityBytes := by
  have hpage := h.page hrem
  have hfits := h.fits hrem
  have hn : (measureSpan s).psw.n.toNat = spanChunkOf s := by
    change (BitVec.ofNat 9 (spanChunkOf s)).toNat = _
    rw [BitVec.toNat_ofNat, spanChunkOf]
    omega
  refine ⟨?_, hn, ?_, ?_, ?_⟩ <;> (unfold spanChunkOf; omega)

/-- The span left after a chunk begins at a page. -/
theorem SpanLeft.advance {s t : State} (h : SpanLeft s) (hrem : 0 < s.psw.remaining.toNat)
    (hpsw : t.psw = (measureSpan s).psw) (hdd : t.dd = s.dd) : SpanLeft (advanceSpan t) := by
  obtain ⟨hpos, hn, hle, hpage, hcap⟩ := h.chunk hrem
  have hfits := h.fits hrem
  have hbound := capacity_le_of_desc h.desc
  have hn32 : (BitVec.ofNat 32 (spanChunkOf s)).toNat = spanChunkOf s := by
    rw [BitVec.toNat_ofNat]
    omega
  have haddr : (advanceSpan t).psw.addr = s.psw.addr + BitVec.ofNat 32 (spanChunkOf s) := by
    simp only [advanceSpan, hpsw, hn]
    rfl
  have hleft : (advanceSpan t).psw.remaining.toNat = s.psw.remaining.toNat - spanChunkOf s := by
    simp only [advanceSpan, hpsw, hn]
    change (s.psw.remaining - BitVec.ofNat 32 (spanChunkOf s)).toNat = _
    rw [BitVec.toNat_sub_of_le (by rw [BitVec.le_def, hn32]; exact hle), hn32]
  have haddr' : 0 < (advanceSpan t).psw.remaining.toNat →
      (advanceSpan t).psw.addr.toNat = s.psw.addr.toNat + spanChunkOf s := by
    intro hmore
    rw [haddr, BitVec.toNat_add, hn32]
    omega
  refine ⟨?_, fun hmore => ?_, fun hmore => ?_⟩
  · have hd := h.desc
    unfold State.PDesc at hd ⊢
    rwa [show (advanceSpan t).dd = s.dd from hdd]
  · have hfull : spanChunkOf s = 256 - s.psw.addr.toNat % 256 := by
      have := h.page hrem
      unfold spanChunkOf at hleft ⊢
      omega
    rw [haddr' hmore, hfull]
    change (256 : BitVec 9).toNat = _
    have : (256 : BitVec 9).toNat = 256 := rfl
    omega
  · rw [haddr' hmore, hleft, show (advanceSpan t).dd = s.dd from hdd]
    omega

namespace Protocol
variable {C : Byte → Prop} {S : Status → Prop} (P : Protocol C S) {s : State}

/-- One chunk of a span inside the array. -/
theorem ends_spanChunk {data : List Byte} (hp : Programming C S) (hr : SpanLeft s ∨ S .invalidRange)
    (hrem : 0 < s.psw.remaining.toNat) (hs : P.out s) :
    Ends s (spanChunk data) (fun t => P.out t ∧ (SpanLeft t ∨ S .invalidRange)) P.cut := by
  refine Ends.assignThen (Ends.getThen (Ends.bind (Q := P.out) ?_ fun _ t ht hout => ?_))
  · refine P.ends_callAt (P.out_regs hs) fun t hbus _ h => P.ends_programPage hp (fun hfail => ?_) h
    obtain hleft | hS := hr
    · obtain ⟨-, hn, -, hpage, hcap⟩ := hleft.chunk hrem
      have hn32 : (BitVec.ofNat 32 (measureSpan s).psw.n.toNat).toNat = spanChunkOf s := by
        rw [hn, BitVec.toNat_ofNat]
        omega
      have hdd : t.dd = s.dd := hbus.dd
      change withinPage s.psw.addr.toNat (BitVec.ofNat 32 (measureSpan s).psw.n.toNat).toNat = false ∨
        withinCapacity t s.psw.addr.toNat (BitVec.ofNat 32 (measureSpan s).psw.n.toNat).toNat = false at hfail
      rw [hn32, ← Bool.not_eq_true, ← Bool.not_eq_true, withinPage_iff, withinCapacity_iff, hdd] at hfail
      omega
    · exact hS
  · have hfields : (t.psw, t.dd) = ((measureSpan s).psw, (measureSpan s).dd) :=
      (keeps_callAt (busFrame_field (fun s => (s.psw, s.dd)) (fun _ _ h => by rw [h]) fun _ _ => rfl)
        (keeps_programPage (busFrame_field _ (fun _ _ h => by rw [h]) fun _ _ => rfl) (fun _ _ => rfl) (fun _ _ => rfl)
          data _ _ _ _)).of_ok (F := fun s => (s.psw, s.dd)) ht
    obtain ⟨hpsw, hdd⟩ := Prod.mk.injEq .. ▸ hfields
    exact Ends.assign ⟨P.out_regs hout, hr.imp_left fun h => h.advance hrem hpsw hdd⟩

theorem ends_spanLoop {data : List Byte} {fuel : Nat} (hp : Programming C S) (hr : SpanLeft s ∨ S .invalidRange)
    (hs : P.out s) : Ends s (spanLoop data fuel) P.out P.cut := by
  induction fuel generalizing s with
  | zero => exact Ends.pure () hs
  | succ fuel ih =>
    refine Ends.getThen ?_
    split
    next => exact Ends.pure () hs
    next hrem =>
      refine (P.ends_spanChunk hp hr (pos_of_ne_zero hrem) hs).bind fun _ t _ ht => ?_
      obtain ⟨hout, hleft⟩ := ht
      exact Ends.assignThen (ih (hleft.imp_left fun h => ⟨h.desc, h.page, h.fits⟩) (P.out_regs hout))

theorem ends_writeAssumingBlank {data : List Byte} {src : Source} {b : BitVec 32} {a : Address} {len : BitVec 32}
    (hp : Programming C S) (hd : s.PDesc ∨ S .invalidRange)
    (hr : withinCapacity s a.toNat len.toNat = false → S .invalidRange) (hs : P.out s) :
    Ends s (writeAssumingBlank data src b a len) P.out P.cut := by
  by_cases hfits : withinCapacity s a.toNat len.toNat = true
  · let s1 : State := { s with psw := { s.psw with src := src, srcBase := b, addr := a, remaining := len, pos := 0 } }
    refine Ends.assignThen (Ends.getThen (Ends.bind (Q := (· = s1)) ?_ fun _ t _ ht => ?_))
    · exact Ends.of_ok (run_require_true _ hfits) rfl
    · subst ht
      refine Ends.assignThen (P.ends_spanLoop hp (hd.imp_left fun hd => ⟨hd, fun _ => ?_, fun _ => ?_⟩)
        (P.out_regs (s := s) hs))
      · change (BitVec.ofNat 9 (256 - a.toNat % 256)).toNat = 256 - a.toNat % 256
        rw [BitVec.toNat_ofNat]
        omega
      · exact withinCapacity_iff.1 hfits
  · rw [Bool.not_eq_true] at hfits
    exact Ends.assignThen (Ends.getThen ((P.ends_require (P.out_regs hs) hr).bind fun _ _ _ h =>
      Ends.assignThen (P.ends_spanLoop hp (.inr (hr hfits)) (P.out_regs h))))

/-- The commands of an erase, and the failures of the waits in it. -/
structure Erasing (C : Byte → Prop) (S : Status → Prop) : Prop where
  latch : C 0x06
  erase : C 0x20
  poll : C 0x05
  timeout : S .busyTimeout

theorem ends_eraseSector {si : SectorIndex} (he : Erasing C S)
    (hr : withinCapacity s (sectorBase si).toNat 4096 = false → S .invalidRange) (hs : P.out s) :
    Ends s (eraseSector si) P.out P.cut :=
  Ends.assignThen <| Ends.getThen <| (P.ends_require (P.out_regs hs) hr).bind fun _ _ _ h =>
  (P.ends_callAt h fun _ _ _ h => P.ends_enable he.latch h).bind fun _ _ _ h =>
  (P.ends_callAt h fun _ _ _ h => P.ends_waitUntilReady he.poll he.timeout h).bind fun _ _ _ h =>
  (P.ends_select h).bind fun _ _ _ h =>
  (P.ends_command he.erase h).bind fun _ _ _ h =>
  Ends.getThen <| (P.ends_sendAddr h).bind fun _ _ _ h =>
  (P.ends_deselect h).bind fun _ _ _ h =>
  P.ends_callAt h fun _ _ _ h => P.ends_waitUntilReady he.poll he.timeout h

theorem ends_receiveSector {count : Nat} (hs : P.inn s) : Ends s (receiveSector count) P.inn P.cut := by
  induction count generalizing s with
  | zero => exact Ends.pure () hs
  | succ count ih => exact (P.ends_xchg hs).bind fun _ _ _ h => Ends.assignThen (ih (P.inn_regs h))

theorem ends_readSector {si : SectorIndex} (hc : C 0x03) (hs : P.out s) : Ends s (readSector si) P.out P.cut :=
  (P.ends_select hs).bind fun _ _ _ h =>
  (P.ends_command hc h).bind fun _ _ _ h =>
  (P.ends_sendAddr h).bind fun _ _ _ h =>
  Ends.assignThen <| (P.ends_receiveSector (P.inn_regs h)).bind fun _ _ _ h => P.ends_deselect h

end Protocol

/-! ### The iterations of `write` -/

/-- The registers of `write` describe what is left of a window inside the array (45 R200). -/
structure WindowLeft (s : State) : Prop where
  desc : s.PDesc
  fits : 0 < s.fwe.length.toNat → s.fwe.address.toNat + s.fwe.length.toNat ≤ s.dd.capacityBytes
  bound : s.fwe.pos.toNat + s.fwe.length.toNat < 2 ^ 32

/-- The registers of an iteration after the address splitter (45 R201, R202). -/
structure WindowSplit (s : State) : Prop where
  desc : s.PDesc
  sector : s.fwe.sectorIndex.toNat * 4096 + 4096 ≤ s.dd.capacityBytes
  fits : s.fwe.address.toNat + s.fwe.length.toNat ≤ s.dd.capacityBytes
  chunk : s.fwe.chunk.toNat = chunkOf s.fwe.address.toNat s.fwe.length.toNat
  window : s.windowFits
  bound : s.fwe.pos.toNat + s.fwe.length.toNat < 2 ^ 32

theorem chunkOf_le (a n : Nat) : chunkOf a n ≤ n ∧ chunkOf a n ≤ 4096 := by
  unfold chunkOf
  omega

theorem WindowLeft.split {s : State} (h : WindowLeft s) (hlen : 0 < s.fwe.length.toNat) : WindowSplit (splitAddress s) := by
  obtain ⟨hindex, -, hchunk, haddress, hlength, hpos⟩ := splitAddress_fwe s
  have hfits := h.fits hlen
  have haligned := h.desc.2.1
  refine ⟨h.desc, ?_, ?_, ?_, windowFits_splitAddress s, ?_⟩
  · rw [hindex]
    change _ ≤ s.dd.capacityBytes
    omega
  · rwa [haddress, hlength]
  · rw [hchunk, haddress, hlength]
  · rw [hpos, hlength]
    exact h.bound

/-- The conditions of an iteration look at the descriptor and the registers of `write`, but not at the result of the
blank scan. -/
theorem WindowSplit.congr {s t : State} (h : WindowSplit s) (hdd : t.dd = s.dd) (e : Bool)
    (hfwe : t.fwe = { s.fwe with eraseRequired := e }) : WindowSplit t := by
  obtain ⟨hd, hsector, hfits, hchunk, hwindow, hbound⟩ := h
  unfold State.PDesc at hd
  unfold State.windowFits at hwindow
  constructor <;> simp only [State.PDesc, State.windowFits, hdd, hfwe] <;> assumption

theorem WindowSplit.advance {s : State} (h : WindowSplit s) : WindowLeft (advance s) := by
  have hchunk := chunkOf_le s.fwe.address.toNat s.fwe.length.toNat
  rw [← h.chunk] at hchunk
  obtain ⟨hlength, hpos, haddress⟩ := advance_fwe hchunk.1 h.bound hchunk.2
  have hcap := capacity_le_of_desc h.desc
  have hfits := h.fits
  have hbound := h.bound
  refine ⟨h.desc, fun hmore => ?_, by rw [hlength, hpos]; omega⟩
  rw [haddress (by omega), hlength]
  change _ ≤ s.dd.capacityBytes
  omega

/-- The registers that an iteration's conditions look at. -/
def windowRegs (s : State) : DeviceDescriptor × FweRegs := (s.dd, s.fwe)

theorem busFrame_windowRegs : BusFrame fun s t => windowRegs t = windowRegs s :=
  busFrame_field _ (fun _ _ h => by rw [windowRegs, h]; rfl) fun _ _ => rfl

theorem WindowSplit.of_windowRegs {s t : State} (h : WindowSplit s) (ht : windowRegs t = windowRegs s) : WindowSplit t := by
  obtain ⟨hdd, hfwe⟩ := Prod.mk.injEq .. ▸ ht
  exact h.congr hdd s.fwe.eraseRequired hfwe

namespace Protocol
variable {C : Byte → Prop} {S : Status → Prop} (P : Protocol C S) {s : State}

/-- The commands of `write`, and the failures of the waits in it. -/
structure Writing (C : Byte → Prop) (S : Status → Prop) : Prop extends Programming C S where
  read : C 0x03
  erase : C 0x20

theorem Writing.erasing (h : Writing C S) : Erasing C S := ⟨h.latch, h.erase, h.poll, h.timeout⟩

theorem ends_directWrite {data : List Byte} (hw : Writing C S) (hr : WindowSplit s ∨ S .invalidRange) (hs : P.out s) :
    Ends s (directWrite data) P.out P.cut := by
  refine Ends.assignThen (Ends.getThen (P.ends_callAt (P.out_regs hs) fun t hbus _ h => ?_))
  have hdd : t.dd = s.dd := hbus.dd
  refine P.ends_writeAssumingBlank hw.toProgramming (hr.imp_left fun hr => ?_) (fun hfail => ?_) h
  · have hd := hr.desc
    unfold State.PDesc at hd ⊢
    rwa [hdd]
  · obtain hsplit | hS := hr
    · have hchunk := chunkOf_le s.fwe.address.toNat s.fwe.length.toNat
      have hn32 : (BitVec.ofNat 32 s.fwe.chunk.toNat).toNat = s.fwe.chunk.toNat := by
        rw [BitVec.toNat_ofNat]
        omega
      have hfits := hsplit.fits
      rw [← hsplit.chunk] at hchunk
      change withinCapacity t s.fwe.address.toNat (BitVec.ofNat 32 s.fwe.chunk.toNat).toNat = false at hfail
      rw [hn32, ← Bool.not_eq_true, withinCapacity_iff, hdd] at hfail
      omega
    · exact hS

theorem ends_eraseMerge {data : List Byte} (hw : Writing C S) (hr : WindowSplit s ∨ S .invalidRange) (hs : P.out s) :
    Ends s (eraseMerge data) P.out P.cut := by
  refine Ends.getThen (Ends.bind (Q := P.out) ?_ fun _ t ht hout => ?_)
  · refine P.ends_callAt hs fun t hbus _ h => P.ends_eraseSector hw.erasing (fun hfail => ?_) h
    rw [← Bool.not_eq_true, withinCapacity_iff, sectorBase_toNat, hbus.dd] at hfail
    exact hr.resolve_left fun hsplit => hfail hsplit.sector
  · have hregs : windowRegs t = windowRegs s :=
      (keeps_callAt busFrame_windowRegs (keeps_eraseSector busFrame_windowRegs (fun _ _ => rfl) (fun _ _ => rfl) _)).of_ok
        (F := windowRegs) ht
    have hr' : WindowSplit t ∨ S .invalidRange := hr.imp_left fun h => h.of_windowRegs hregs
    refine Ends.assignThen (Ends.getThen (Ends.bind (Q := P.out) ?_ fun _ _ _ h => P.ends_goto h))
    refine P.ends_callAt (P.out_regs hout) fun u hbus _ h => ?_
    have hdd : u.dd = t.dd := hbus.dd
    refine P.ends_writeAssumingBlank hw.toProgramming (hr'.imp_left fun hr => ?_) (fun hfail => ?_) h
    · have hd := hr.desc
      unfold State.PDesc at hd ⊢
      rwa [hdd]
    · rw [← Bool.not_eq_true, withinCapacity_iff, sectorBase_toNat, hdd] at hfail
      exact hr'.resolve_left fun hsplit => hfail hsplit.sector

theorem ends_writeIteration {data : List Byte} (hw : Writing C S) (hr : WindowLeft s ∨ S .invalidRange)
    (hlen : 0 < s.fwe.length.toNat) (hs : P.out s) :
    Ends s (writeIteration data) (fun t => P.out t ∧ (WindowLeft t ∨ S .invalidRange)) P.cut := by
  let s1 : State := splitAddress s
  have hr1 : WindowSplit s1 ∨ S .invalidRange := hr.imp_left fun h => h.split hlen
  refine Ends.assignThen (Ends.getThen (Ends.bind (Q := P.out) ?read fun _ t ht hout => ?_))
  case read => exact P.ends_callAt (P.out_regs hs) fun _ _ _ h => P.ends_readSector hw.read h
  have hregs : windowRegs t = windowRegs s1 :=
    (keeps_callAt busFrame_windowRegs (keeps_readSector busFrame_windowRegs (fun _ _ _ _ => rfl) (fun _ _ => rfl) _)).of_ok
      (F := windowRegs) ht
  have hr2 : WindowSplit t ∨ S .invalidRange := hr1.imp_left fun h => h.of_windowRegs hregs
  let t1 : State := { t with fwe := { t.fwe with
    eraseRequired := blankScan t.sb t.fwe.offsetInSector.toNat t.fwe.chunk.toNat } }
  have hr3 : WindowSplit t1 ∨ S .invalidRange := hr2.imp_left fun h => h.congr rfl _ rfl
  refine Ends.assignThen (Ends.bind (Q := P.out) ?path fun _ u hu hout => ?_)
  case path =>
    refine Ends.getThen ?_
    split
    · exact P.ends_eraseMerge hw hr3 (P.out_regs hout)
    · exact P.ends_directWrite hw hr3 (P.out_regs hout)
  have hadvance : WindowSplit t1 → WindowLeft (advance u) := by
    intro h
    have hkeeps := keeps_choosePath busFrame_windowRegs (fun _ _ => rfl) (fun _ _ => rfl) (fun _ _ => rfl)
      (fun _ _ => rfl) (fun _ _ _ _ => rfl) data t1 h.window
    rw [hu] at hkeeps
    exact (h.of_windowRegs hkeeps).advance
  refine Ends.assignThen (Ends.assign ⟨P.out_regs (s := u) hout, hr3.imp_left fun h => ?_⟩)
  obtain ⟨hd, hfits, hbound⟩ := hadvance h
  exact ⟨hd, hfits, hbound⟩

theorem ends_writeLoop {data : List Byte} {fuel : Nat} (hw : Writing C S) (hr : WindowLeft s ∨ S .invalidRange)
    (hs : P.out s) : Ends s (writeLoop data fuel) P.out P.cut := by
  induction fuel generalizing s with
  | zero => exact Ends.pure () hs
  | succ fuel ih =>
    refine Ends.getThen ?_
    split
    next => exact Ends.pure () hs
    next hlen =>
      exact (P.ends_writeIteration hw hr (pos_of_ne_zero hlen) hs).bind fun _ _ _ ⟨hout, hleft⟩ => ih hleft hout

theorem ends_writeFlash {data : List Byte} {a : Address} {len : BitVec 32} (hw : Writing C S)
    (hd : s.PDesc ∨ S .invalidRange) (hr : withinCapacity s a.toNat len.toNat = false → S .invalidRange)
    (hs : P.out s) : Ends s (writeFlash data a len) P.out P.cut := by
  let s1 : State := { s with fwe := { s.fwe with address := a, length := len, pos := 0 } }
  refine Ends.assignThen (Ends.getThen ?_)
  by_cases hfits : withinCapacity s1 a.toNat len.toNat = true
  · refine Ends.bind (Q := (· = s1)) (Ends.of_ok (run_require_true _ hfits) rfl) fun _ t _ ht => ?_
    subst ht
    refine P.ends_writeLoop hw (hd.imp_left fun hd => ⟨hd, fun _ => withinCapacity_iff.1 hfits, ?_⟩)
      (P.out_regs (s := s) hs)
    change (0 : BitVec 32).toNat + len.toNat < 2 ^ 32
    have := len.isLt
    simpa using this
  · rw [Bool.not_eq_true] at hfits
    exact (P.ends_require (P.out_regs (s := s) hs) hr).bind fun _ _ _ h => P.ends_writeLoop hw (.inr (hr hfits)) h

end Protocol

/-! ### Requests -/

/-- The commands an instruction sends to the device (30_encoding R110, R111). -/
def commandsOf : Instr → List Byte
  | .srRead n => [readCommand n]
  | .srWrite n _ => [writeCommand n]
  | .srBusy | .srWait => [0x05]
  | .weEnable => [0x06]
  | .weDisable => [0x04]
  | .ppProgram _ _ | .pswWriteBlank _ _ => [0x06, 0x02, 0x05]
  | .semErase _ => [0x06, 0x20, 0x05]
  | .fweWrite _ _ => [0x03, 0x06, 0x05, 0x02, 0x20]
  | .fweReadSector _ => [0x03]
  | .writeEnable => [0x06]
  | .writeDisable => [0x04]
  | .readStatusReg1 => [0x05]
  | .readStatusReg2 => [0x35]
  | .readStatusReg3 => [0x15]
  | .writeStatusReg1 _ => [0x01]
  | .writeStatusReg2 _ => [0x31]
  | .writeStatusReg3 _ => [0x11]
  | .readData _ _ => [0x03]
  | .pageProgram _ _ => [0x02]
  | .sectorErase _ => [0x20]
  | .chipErase _ => [0xC7]
  | .powerDown _ => [0xB9]
  | .releasePowerDown _ => [0xAB]
  | .manufacturerDeviceID _ => [0x90]
  | .enable4ByteAddr => [0xB7]
  | .reservedOp0 | .reservedOpB | .reservedOpC | .reservedOpD | .reservedOpE | .reservedOpF => []

/-- What follows of a state that meets the range check of the request, if it has one (30_encoding R122): its nested
checks pass. -/
def inRange (s : State) : Instr → Bool
  | .srRead n | .srWrite n _ => validRegister n
  | .ppProgram a data =>
    withinPage a.toNat (lengthField data).toNat && withinCapacity s a.toNat (lengthField data).toNat
  | .pswWriteBlank a data | .fweWrite a data => withinCapacity s a.toNat (lengthField data).toNat
  | .semErase si => withinCapacity s (sectorBase si).toNat 4096
  | _ => true

/-- The failures of an instruction beside those of its own check. -/
def abortsOf (i : Instr) : List Status := (allowedStatuses i).filter Status.poisons

namespace Protocol
variable {C : Byte → Prop} {S : Status → Prop} (P : Protocol C S) {s : State}

/-- A procedure whose result is then discarded. -/
theorem ends_discard {α : Type} {m : M α} {r : Byte} (hm : Ends s m P.out P.cut) :
    Ends s (do let _ ← m; pure r) P.out P.cut :=
  hm.bind fun _ _ _ h => Ends.pure _ h

/-- The procedure of every request follows every protocol that allows its commands and its failures. That its own check
fails is allowed for if the protocol allows the refusal. -/
theorem ends_request {i : Instr} {p : Proc} {m : M Byte} (hi : meaning i = .request p m) (hC : ∀ c ∈ commandsOf i, C c)
    (hS : ∀ e ∈ abortsOf i, S e) (hr : inRange s i = false → ∀ e ∈ allowedStatuses i, isRefusal e = true → S e)
    (hd : .invalidRange ∈ allowedStatuses i → s.PDesc ∨ S .invalidRange) (hs : P.out s) : Ends s m P.out P.cut := by
  have hrefuse : .invalidRange ∈ allowedStatuses i → inRange s i = false → S .invalidRange := fun he h =>
    hr h .invalidRange he rfl
  have hpoll : .busyTimeout ∈ allowedStatuses i → S .busyTimeout := fun he =>
    hS _ (List.mem_filter.2 ⟨he, rfl⟩)
  cases i <;> cases hi
  case srRead n =>
    exact P.ends_readStatus (hC _ (by simp [commandsOf])) (fun h => hr h _ (by simp [allowedStatuses]) rfl) hs
  case srWrite n v =>
    exact P.ends_discard
      (P.ends_writeStatus (hC _ (by simp [commandsOf])) (fun h => hr h _ (by simp [allowedStatuses]) rfl) hs)
  case srBusy => exact (P.ends_busy (hC _ (by decide)) hs).bind fun _ _ _ h => Ends.pure _ h
  case srWait => exact P.ends_discard (P.ends_waitUntilReady (hC _ (by decide)) (hpoll (by decide)) hs)
  case weEnable => exact P.ends_discard (P.ends_enable (hC _ (by decide)) hs)
  case weDisable => exact P.ends_discard (P.ends_disable (hC _ (by decide)) hs)
  case ppProgram a data =>
    have hp : Programming C S := ⟨hC _ (by simp [commandsOf]), hC _ (by simp [commandsOf]), hC _ (by simp [commandsOf]),
      hpoll (by simp [allowedStatuses])⟩
    refine P.ends_discard (P.ends_programPage hp (fun h => hrefuse (by simp [allowedStatuses]) ?_) hs)
    rwa [inRange, Bool.and_eq_false_iff]
  case pswWriteBlank a data =>
    have hp : Programming C S := ⟨hC _ (by simp [commandsOf]), hC _ (by simp [commandsOf]), hC _ (by simp [commandsOf]),
      hpoll (by simp [allowedStatuses])⟩
    exact P.ends_discard
      (P.ends_writeAssumingBlank hp (hd (by simp [allowedStatuses])) (hrefuse (by simp [allowedStatuses])) hs)
  case semErase si =>
    have he : Erasing C S := ⟨hC _ (by simp [commandsOf]), hC _ (by simp [commandsOf]), hC _ (by simp [commandsOf]),
      hpoll (by simp [allowedStatuses])⟩
    exact P.ends_discard (P.ends_eraseSector he (hrefuse (by simp [allowedStatuses])) hs)
  case fweWrite a data =>
    have hw : Writing C S := ⟨⟨hC _ (by simp [commandsOf]), hC _ (by simp [commandsOf]), hC _ (by simp [commandsOf]),
      hpoll (by simp [allowedStatuses])⟩, hC _ (by simp [commandsOf]), hC _ (by simp [commandsOf])⟩
    exact P.ends_discard (P.ends_writeFlash hw (hd (by simp [allowedStatuses])) (hrefuse (by simp [allowedStatuses])) hs)
  case fweReadSector si => exact P.ends_discard (P.ends_readSector (hC _ (by simp [commandsOf])) hs)

end Protocol

end Sys2Proof.Proofs
end

section
/-! What the device does to its cells: it programs or erases at the end of a transaction whose phase says so, and
changes them at no other moment (10_state R31, 46 R232). -/

open Sys2Proof Sys2Proof.Machine

namespace Sys2Proof.Proofs

/-- The device holds the same cells, has decoded as much of the transaction, and is still POISONED if it was. -/
structure Quiet (s t : State) : Prop where
  flash : t.dev.flash = s.dev.flash
  phase : t.dev.phase = s.dev.phase
  poisoned : s.dev.poisoned = true → t.dev.poisoned = true

theorem Quiet.refl (s : State) : Quiet s s := ⟨rfl, rfl, id⟩

theorem Quiet.of_dev {s t : State} (h : t.dev = s.dev) : Quiet s t := ⟨by rw [h], by rw [h], by rw [h]; exact id⟩

theorem Quiet.trans {s t u : State} (h₁ : Quiet s t) (h₂ : Quiet t u) : Quiet s u :=
  ⟨h₂.flash.trans h₁.flash, h₂.phase.trans h₁.phase, fun h => h₂.poisoned (h₁.poisoned h)⟩

theorem quiet_poisonWith (x : Extent) (s : State) : Quiet s (s.poisonWith x) :=
  ⟨poisonWith_flash x s, poisonWith_phase x s, fun _ => poisonWith_poisoned x s⟩

theorem quiet_poison (s : State) : Quiet s s.poison := quiet_poisonWith .all s

theorem quiet_poisonHung (s : State) : Quiet s s.poisonHung := by
  obtain ⟨hpoisoned, hflash, hphase, -⟩ := poisonHung_dev s
  exact ⟨hflash, hphase, fun _ => hpoisoned⟩

theorem quiet_freeWel (s : State) : Quiet s s.freeWel := by
  constructor <;> simp [freeWel_dev]

theorem quiet_freeAds (s : State) : Quiet s s.freeAds := by
  constructor <;> simp [freeAds_dev]

theorem quiet_freeGuarded (s : State) : Quiet s s.freeGuarded := by
  constructor <;> simp [freeGuarded_dev]

theorem quiet_mayStartCycle (p : Pend) (s : State) : Quiet s (s.mayStartCycle p) := by
  obtain h | h := mayStartCycle_dev s p <;> constructor <;> simp [h]

theorem quiet_complete (s : State) : Quiet s s.complete := by
  constructor <;> simp [complete_dev]

theorem quiet_observe (s : State) : Quiet s s.observe.2 := by
  have hpoison := quiet_poison s
  have hcomplete := quiet_complete s
  unfold State.observe
  split
  case h_1 => split; exacts [hpoison, Quiet.refl s]
  case h_2 => exact Quiet.refl s
  case h_3 => exact ⟨rfl, rfl, id⟩
  case h_4 => split; exacts [hpoison, hcomplete]

theorem quiet_driveStatus (r : StatusReg) (s : State) : Quiet s (s.driveStatus r).2 := by
  cases r with
  | sr1 => exact (quiet_observe s).trans (Quiet.of_dev (drawStatusBits_dev _))
  | sr2 => exact Quiet.of_dev (drawStatusBits_dev s)
  | sr3 =>
    simp only [State.driveStatus]
    split
    · exact (quiet_freeAds s).trans (Quiet.of_dev (drawStatusBits_dev _))
    · exact Quiet.of_dev (drawStatusBits_dev s)

theorem quiet_driveFlash (a : Nat) (s : State) : Quiet s (s.driveFlash a).2 := by
  unfold State.driveFlash
  split
  · exact Quiet.of_dev (drawByte_dev s)
  · refine (quiet_observe s).trans ?_
    dsimp only
    split
    · exact (quiet_poison _).trans (Quiet.of_dev (drawByte_dev _))
    · exact Quiet.refl _

/-- Whatever the device drives, its cells stay (46 R232). -/
theorem quiet_drive (s : State) : Quiet s s.drive.2 := by
  unfold State.drive
  split
  · exact quiet_driveStatus _ s
  · exact quiet_driveFlash _ s
  · exact Quiet.of_dev (drawByte_dev s)

/-- A command defined for an idle device is taken by an idle device that is not POISONED, or POISONS it. -/
theorem whenIdle_cases (f : State → State) (s : State) :
    (Quiet s (s.whenIdle f) ∧ (s.whenIdle f).dev.poisoned = true) ∨
      ∃ u, Quiet s u ∧ OnlyDevice s u ∧ s.dev.poisoned = false ∧ s.whenIdle f = f u := by
  unfold State.whenIdle
  split
  next => exact .inl ⟨quiet_poison s, poison_poisoned s⟩
  next hclean =>
    dsimp only
    split
    next => exact .inl ⟨(quiet_observe s).trans (quiet_poison _), poison_poisoned _⟩
    next => exact .inr ⟨s.observe.2, quiet_observe s, onlyDevice_observe s, Bool.eq_false_iff.2 hclean, rfl⟩

theorem quiet_whenIdle {f : State → State} (hf : ∀ t, Quiet t (f t)) (s : State) : Quiet s (s.whenIdle f) := by
  obtain ⟨h, -⟩ | ⟨u, h, -, -, hu⟩ := whenIdle_cases f s
  · exact h
  · rw [hu]
    exact h.trans (hf u)

theorem quiet_actStatusWrite (r : StatusReg) (s : State) : Quiet s (s.actStatusWrite r) := by
  refine (quiet_mayStartCycle .statuswrite s).trans ((quiet_freeWel _).trans ((quiet_freeGuarded _).trans ?_))
  cases r with
  | sr1 => exact Quiet.refl _
  | sr2 => exact Quiet.refl _
  | sr3 => exact quiet_freeAds _

theorem quiet_actRead (a : Nat) (s : State) : Quiet s (s.actRead a) := by
  unfold State.actRead
  split
  · exact Quiet.refl s
  · exact quiet_poison s

/-- The device has changed its cells to `m`, and nothing else that `Quiet` speaks of. -/
structure Rewrites (m : Memory) (s t : State) : Prop where
  flash : t.dev.flash = m
  phase : t.dev.phase = s.dev.phase
  poisoned : s.dev.poisoned = true → t.dev.poisoned = true

theorem Quiet.rewrites {m : Memory} {s t u : State} (h₁ : Quiet s t) (h₂ : Rewrites m t u) : Rewrites m s u :=
  ⟨h₂.flash, h₂.phase.trans h₁.phase, fun h => h₂.poisoned (h₁.poisoned h)⟩

theorem actProgram_cases (a : Nat) (data : List Byte) (s : State) :
    Quiet s (s.actProgram a data) ∨
      (a + data.length ≤ s.dd.capacityBytes ∧ Rewrites (s.dev.flash.program a data) s (s.actProgram a data)) := by
  unfold State.actProgram
  split
  next => exact .inl (quiet_poison s)
  next hdefined =>
    split
    next => exact .inl ((quiet_mayStartCycle _ s).trans (quiet_freeWel _))
    next =>
      simp only [Bool.or_eq_true, decide_eq_true_eq, not_or, not_lt] at hdefined
      exact .inr ⟨hdefined.2, rfl, rfl, id⟩

theorem actErase_cases (a : Nat) (s : State) :
    Quiet s (s.actErase a) ∨ Rewrites (s.dev.flash.erase a 4096) s (s.actErase a) := by
  unfold State.actErase
  split
  · exact .inl (quiet_poison s)
  · exact .inr ⟨rfl, rfl, id⟩

theorem act_statusWrite {s : State} {r : StatusReg} {v : Byte} (h : s.dev.phase = .statusWrite r (some v)) :
    s.act = s.whenIdle fun s => s.actStatusWrite r := by unfold State.act; rw [h]

theorem act_identity {s : State} (h : s.dev.phase = .identity) : s.act = s.whenIdle fun s => s := by
  unfold State.act; rw [h]

theorem act_enable4 {s : State} (h : s.dev.phase = .enable4) :
    s.act = s.whenIdle fun s => s.mapDev fun d => { d with ads := true } := by unfold State.act; rw [h]

theorem act_undefinedCommand {s : State} (h : s.dev.phase = .undefinedCommand) : s.act = s.poison := by
  unfold State.act; rw [h]

/-- What the end of a transaction does to the cells: nothing, or the program or the erase whose phase it has reached
(46 R232, R236, R237). -/
theorem act_cases (s : State) :
    Quiet s s.act ∨
      (∃ a r, s.dev.phase = .dataIn a r ∧ a + r.length ≤ s.dd.capacityBytes ∧
        Rewrites (s.dev.flash.program a r.reverse) s s.act) ∨
      ∃ a, s.dev.phase = .eraseAt a ∧ Rewrites (s.dev.flash.erase a 4096) s s.act := by
  cases hphase : s.dev.phase with
  | off | command => left; unfold State.act; rw [hphase]; exact Quiet.refl s
  | latch v => left; rw [act_latch hphase]; refine quiet_whenIdle ?_ s; exact fun _ => ⟨rfl, rfl, id⟩
  | statusRead r done =>
    left
    unfold State.act
    rw [hphase]
    cases done
    · exact quiet_poison s
    · exact Quiet.refl s
  | statusWrite r v =>
    left
    cases v with
    | none => unfold State.act; rw [hphase]; exact quiet_poison s
    | some v => rw [act_statusWrite hphase]; exact quiet_whenIdle (quiet_actStatusWrite r) s
  | address c left acc => left; unfold State.act; rw [hphase]; exact quiet_poison s
  | readOut a => left; rw [act_readOut hphase]; exact quiet_whenIdle (quiet_actRead a) s
  | dataIn a r =>
    rw [act_dataIn hphase]
    obtain ⟨h, -⟩ | ⟨u, h, hu, -, hact⟩ := whenIdle_cases (fun s => s.actProgram a r.reverse) s
    · exact .inl h
    · rw [hact]
      obtain hq | ⟨hcap, hw⟩ := actProgram_cases a r.reverse u
      · exact .inl (h.trans hq)
      · rw [h.flash] at hw
        rw [List.length_reverse, show u.dd = s.dd by rw [hu]] at hcap
        exact .inr (.inl ⟨a, r, rfl, hcap, h.rewrites hw⟩)
  | eraseAt a =>
    rw [act_eraseAt hphase]
    obtain ⟨h, -⟩ | ⟨u, h, hu, -, hact⟩ := whenIdle_cases (fun s => s.actErase a) s
    · exact .inl h
    · rw [hact]
      obtain hq | hw := actErase_cases a u
      · exact .inl (h.trans hq)
      · rw [h.flash] at hw
        exact .inr (.inr ⟨a, rfl, h.rewrites hw⟩)
  | identity => left; rw [act_identity hphase]; exact quiet_whenIdle Quiet.refl s
  | enable4 => left; rw [act_enable4 hphase]; refine quiet_whenIdle ?_ s; exact fun _ => ⟨rfl, rfl, id⟩
  | undefinedCommand => left; rw [act_undefinedCommand hphase]; exact quiet_poison s

/-- Nothing that ends a transaction takes the mark POISONED away. -/
theorem act_poisoned {s : State} (h : s.dev.poisoned = true) : s.act.dev.poisoned = true := by
  obtain hq | ⟨_, _, -, -, hw⟩ | ⟨_, -, hw⟩ := act_cases s
  · exact hq.poisoned h
  · exact hw.poisoned h
  · exact hw.poisoned h

/-- What an exchange does to the device: its cells stay, and it has taken one more byte in. -/
theorem exchanged_dev (s : State) (tx : Byte) :
    (s.exchanged tx).2.dev.flash = s.dev.flash ∧
      (s.exchanged tx).2.dev.phase = s.dev.phase.next s.dd.addressWidth tx ∧
      (s.dev.poisoned = true → (s.exchanged tx).2.dev.poisoned = true) := by
  obtain ⟨hflash, hphase, hpoisoned⟩ := quiet_drive s
  refine ⟨hflash, ?_, hpoisoned⟩
  change Phase.next s.drive.2.dd.addressWidth tx s.drive.2.dev.phase = _
  rw [hphase, State.drive_dd]

/-! ### The mark POISONED -/

/-- No instruction takes the mark POISONED away (10_state R33, 60 R270). -/
theorem execFrame_poisoned : ExecFrame fun s t => s.dev.poisoned = true → t.dev.poisoned = true where
  refl _ := id
  trans h₁ h₂ h := h₂ (h₁ h)
  select _ := id
  deselect s h := act_poisoned (s := s) h
  exchange s tx := (exchanged_dev s tx).2.2
  gaps _ _ := id
  frames _ _ := id
  sra _ _ := id
  pp _ _ := id
  psw _ _ := id
  sem _ _ := id
  fwe _ _ := id
  receive _ _ _ _ := id
  rsI _ _ := id
  merge _ _ _ _ := id
  poisonWith s x _ := poisonWith_poisoned x s
  poisonHung s := (quiet_poisonHung s).poisoned
  answer _ _ _ := id

/-! ### Memories in canonical form -/

/-- `F` and `SB` are in canonical form and inside their address spaces (20_memory R60). -/
structure Stored (s : State) : Prop where
  flash_wf : s.dev.flash.wf = true
  flash_below : s.dev.flash.below s.dd.capacityBytes = true
  sb_wf : s.sb.wf = true
  sb_below : s.sb.below 4096 = true

/-- The descriptor stays, and so does what 20_memory R60 says of the memories. -/
def KeepsStored (s t : State) : Prop := t.dd = s.dd ∧ (Stored s → Stored t)

theorem keepsStored_of_eq {s t : State} (hdd : t.dd = s.dd) (hflash : t.dev.flash = s.dev.flash) (hsb : t.sb = s.sb) :
    KeepsStored s t :=
  ⟨hdd, fun ⟨h1, h2, h3, h4⟩ => ⟨by rwa [hflash], by rwa [hflash, hdd], by rwa [hsb], by rwa [hsb]⟩⟩

/-- A program inside the array and an erase keep the form of `F`. -/
theorem keepsStored_deselected (s : State) : KeepsStored s s.deselected := by
  have hdd := s.deselected_dd
  have hsb := s.deselected_sb
  obtain hq | ⟨a, r, -, hcap, hw⟩ | ⟨a, -, hw⟩ := act_cases s
  · exact keepsStored_of_eq hdd hq.flash hsb
  · have hflash : s.deselected.dev.flash = s.dev.flash.program a r.reverse := hw.flash
    refine ⟨hdd, fun ⟨h1, h2, h3, h4⟩ => ⟨?_, ?_, by rwa [hsb], by rwa [hsb]⟩⟩ <;> rw [hflash]
    · exact Memory.wf_program h1
    · rw [hdd]
      exact Memory.below_program h2 (by rwa [List.length_reverse])
  · have hflash : s.deselected.dev.flash = s.dev.flash.erase a 4096 := hw.flash
    refine ⟨hdd, fun ⟨h1, h2, h3, h4⟩ => ⟨?_, ?_, by rwa [hsb], by rwa [hsb]⟩⟩ <;> rw [hflash]
    · exact Memory.wf_erase h1
    · rw [hdd]
      exact Memory.below_erase h2

theorem execFrame_stored : ExecFrame KeepsStored where
  refl _ := ⟨rfl, id⟩
  trans h₁ h₂ := ⟨h₂.1.trans h₁.1, fun h => h₂.2 (h₁.2 h)⟩
  select _ := keepsStored_of_eq rfl rfl rfl
  deselect := keepsStored_deselected
  exchange s tx := keepsStored_of_eq (s.exchanged_dd tx) (exchanged_dev s tx).1 (s.exchanged_sb tx)
  gaps _ _ := keepsStored_of_eq rfl rfl rfl
  frames _ _ := keepsStored_of_eq rfl rfl rfl
  sra _ _ := keepsStored_of_eq rfl rfl rfl
  pp _ _ := keepsStored_of_eq rfl rfl rfl
  psw _ _ := keepsStored_of_eq rfl rfl rfl
  sem _ _ := keepsStored_of_eq rfl rfl rfl
  fwe _ _ := keepsStored_of_eq rfl rfl rfl
  receive _ _ _ hi := ⟨rfl, fun ⟨h1, h2, h3, h4⟩ => ⟨h1, h2, Memory.wf_write h3, Memory.below_write h4 hi⟩⟩
  rsI _ _ := keepsStored_of_eq rfl rfl rfl
  merge _ _ _ hn := ⟨rfl, fun ⟨h1, h2, h3, h4⟩ => ⟨h1, h2, Memory.wf_writeList h3, Memory.below_writeList h4 hn⟩⟩
  poisonWith s x := keepsStored_of_eq (s.poisonWith_dd x) (poisonWith_flash x s) (s.poisonWith_sb x)
  poisonHung s := keepsStored_of_eq s.poisonHung_dd (quiet_poisonHung s).flash s.poisonHung_sb
  answer _ _ _ := keepsStored_of_eq rfl rfl rfl

end Sys2Proof.Proofs
end

section
/-! How an instruction that an idle block takes ends, and what that says of the block: the statements of
60_exceptions R265 to R287 on all instructions. -/

open Sys2Proof Sys2Proof.Machine

namespace Sys2Proof.Proofs

/-! ### The ways an instruction ends -/

theorem engBusy_of_onlyBus {s t : State} (h : OnlyBus s t) : t.engBusy = s.engBusy := by rw [h]

theorem seq_of_onlyBus {s t : State} (h : OnlyBus s t) : t.seq = s.seq := by rw [h]

theorem onlyBus_xchg (tx : Byte) (s : State) : OnlyBus s (endState (xchg tx s)) := by
  cases h : xchg tx s with
  | ok rx t =>
    obtain ⟨gaps, hx, -⟩ := xchg_eq_ok h
    have ht := congrArg Prod.snd hx
    dsimp only at ht
    rw [endState_ok, ht]
    exact OnlyBus.trans (t := s.mapEnv _) rfl (onlyBus_exchanged _ tx)
  | error e t =>
    obtain ⟨-, gaps, -, rfl⟩ := xchg_error h
    exact rfl

theorem onlyBus_sendBytes (bs : List Byte) (s : State) : OnlyBus s (endState (sendBytes bs s)) := by
  induction bs generalizing s with
  | nil => exact OnlyBus.refl s
  | cons b bs ih =>
    have hx := onlyBus_xchg b s
    rw [sendBytes, run_bind]
    cases h : xchg b s with
    | ok rx t =>
      rw [h] at hx
      exact hx.trans (ih t)
    | error e t => rwa [h] at hx

/-- A list of bytes stops where an exchange fails. -/
theorem sendBytes_error {bs : List Byte} {s t : State} {e : Stop} (h : sendBytes bs s = .error e t) :
    e = .raised .transportFailure := by
  induction bs generalizing s with
  | nil => cases h
  | cons b bs ih =>
    obtain hx | ⟨_, u, -, hu⟩ := run_bind_eq_error.1 h
    · exact (xchg_error hx).1
    · exact ih hu

/-- A request that has been accepted is under way: it has no response yet. -/
structure UnderWay (s u : State) : Prop where
  busy : u.engBusy = true
  rsp : u.rsp = s.rsp

/-- No procedure responds or lets the block go. -/
theorem underWay_of_request {i : Instr} {p : Proc} {m : M Byte} (hi : meaning i = .request p m) (s : State) :
    UnderWay s (endState (m (accepted p s))) := by
  have hframe : ProcFrame fun s t => (t.engBusy, t.rsp) = (s.engBusy, s.rsp) := {
    toBusFrame := busFrame_field (fun s => (s.engBusy, s.rsp)) (fun _ _ h => by rw [h]) fun _ _ => rfl
    sra := fun _ _ => rfl, pp := fun _ _ => rfl, psw := fun _ _ => rfl, sem := fun _ _ => rfl, fwe := fun _ _ => rfl
    receive := fun _ _ _ _ => rfl, rsI := fun _ _ => rfl, merge := fun _ _ _ _ => rfl }
  obtain ⟨hbusy, hrsp⟩ := Prod.mk.injEq .. ▸ hframe.keeps_request hi (accepted p s)
  exact ⟨hbusy, hrsp⟩

/-- How an instruction that an idle block takes ends, under a protocol: with the response of a procedure that returned,
with an abort, in a hang, as a bare transaction with its `Deselect()`, as one cut short, or as a reserved operation. -/
inductive Ended {C : Byte → Prop} {S : Status → Prop} (P : Protocol C S) (s : State) : State → Prop
  | answered (r : Byte) (u : State) (hu : P.out u) (hway : UnderWay s u) : Ended P s (respond r u)
  | aborted (e : Status) (u : State) (hu : P.cut (.raised e) u) (hway : UnderWay s u) : Ended P s (abort e u)
  | hung (u : State) (hu : P.cut .hung u) (hway : UnderWay s u) : Ended P s u.poisonHung
  | sent (u : State) (hu : P.inn u) (hbus : OnlyBus s u) : Ended P s u.deselected
  | sentCut (u : State) (hu : P.cut (.raised .transportFailure) u) (hbus : OnlyBus s u) : Ended P s u.deselected.poison
  | refused : Ended P s { s with rsp := { status := .illegalRequest, result := 0x00 } }

/-- The procedure of an accepted request follows every protocol that allows its commands and failures. -/
theorem ends_accepted {C : Byte → Prop} {S : Status → Prop} (P : Protocol C S) {i : Instr} {p : Proc} {m : M Byte}
    {s : State} (hi : meaning i = .request p m) (hC : ∀ c ∈ commandsOf i, C c) (hS : ∀ e ∈ abortsOf i, S e)
    (hr : inRange s i = false → ∀ e ∈ allowedStatuses i, isRefusal e = true → S e)
    (hd : .invalidRange ∈ allowedStatuses i → s.PDesc ∨ S .invalidRange) (hs : P.out s) :
    Ends (accepted p s) m P.out P.cut := by
  have hrange : inRange (accepted p s) i = inRange s i := by cases i <;> rfl
  exact P.ends_request hi hC hS (by rwa [hrange]) hd (P.regs_out (s := s) ⟨rfl, rfl, rfl, rfl, rfl, rfl⟩ hs)

/-- Every protocol that allows the commands and the failures of an instruction holds up to its end. -/
theorem exec_ended {C : Byte → Prop} {S : Status → Prop} (P : Protocol C S) {i : Instr} {s t : State}
    (hC : ∀ c ∈ commandsOf i, C c) (hS : ∀ e ∈ abortsOf i, S e)
    (hr : inRange s i = false → ∀ e ∈ allowedStatuses i, isRefusal e = true → S e)
    (hd : .invalidRange ∈ allowedStatuses i → s.PDesc ∨ S .invalidRange)
    (hs : P.out s) (hidle : s.PIdle) (h : exec i s = .next t) : Ended P s t := by
  obtain ⟨hbusy, -⟩ := hidle
  rw [exec_eq_run] at h
  cases hi : meaning i with
  | request p m =>
    rw [hi] at h
    have hway := underWay_of_request hi s
    have hends := ends_accepted P hi hC hS hr hd hs
    obtain ⟨hbusy', -⟩ | ⟨-, ⟨r, u, hm, rfl⟩ | ⟨e, u, hm, rfl⟩ | ⟨u, hm, rfl⟩⟩ := serve_next h
    · simp [hbusy] at hbusy'
    · exact .answered r u (hends.1 _ _ hm) (by rwa [accepted, hm] at hway)
    · exact .aborted e u (hends.2 _ _ hm) (by rwa [accepted, hm] at hway)
    · exact .hung u (hends.2 _ _ hm) (by rwa [accepted, hm] at hway)
  | transaction c rest =>
    rw [hi] at h
    have hc : C c := hC c (by cases i <;> cases hi <;> exact List.mem_singleton_self _)
    have hends : Ends s.selected (sendBytes (c :: rest s.dd.addressWidth)) P.inn P.cut :=
      P.ends_sendCommand hc (P.selects hs)
    have hbus : OnlyBus s (endState (sendBytes (c :: rest s.dd.addressWidth) s.selected)) :=
      (onlyBus_selected s).trans (onlyBus_sendBytes _ s.selected)
    obtain ⟨hbusy', -⟩ | ⟨-, ⟨u, hm, rfl⟩ | ⟨e, u, hm, rfl⟩⟩ := bareTransaction_next h
    · simp [hbusy] at hbusy'
    · rw [hm] at hbus
      exact .sent u (hends.1 _ _ hm) hbus
    · have he : e = .raised .transportFailure := sendBytes_error hm
      rw [hm] at hbus
      exact .sentCut u (he ▸ hends.2 _ _ hm) hbus
  | reserved =>
    rw [hi] at h
    obtain ⟨hbusy', -⟩ | ⟨-, rfl⟩ := illegalRequest_next h
    · simp [hbusy] at hbusy'
    · exact .refused

end Sys2Proof.Proofs
end

section
/-! The statements of 60_exceptions and 70_reset_and_hazards that hold of every instruction and every step. -/

open Sys2Proof Sys2Proof.Machine

namespace Sys2Proof.Proofs

/-! ### An exchange -/

/-- What an exchange that succeeds leaves: the cells stay, the device has taken `tx` in. -/
structure TakesIn (tx rx : Byte) (s t : State) : Prop where
  dd : t.dd = s.dd
  cs : t.cs = s.cs
  trace : t.trace = .xchg tx rx :: s.trace
  flash : t.dev.flash = s.dev.flash
  phase : t.dev.phase = s.dev.phase.next s.dd.addressWidth tx
  poisoned : s.dev.poisoned = true → t.dev.poisoned = true

theorem takesIn_of_xchg {tx rx : Byte} {s t : State} (h : xchg tx s = .ok rx t) : TakesIn tx rx s t := by
  obtain ⟨gaps, hx, -⟩ := xchg_eq_ok h
  obtain ⟨rfl, rfl⟩ := Prod.mk.injEq .. ▸ hx
  let s' : State := s.mapEnv fun e => { e with xferFail := gaps }
  obtain ⟨hflash, hphase, hpoisoned⟩ := exchanged_dev s' tx
  exact ⟨s'.exchanged_dd tx, s'.exchanged_cs tx, s'.exchanged_trace tx, hflash, hphase, hpoisoned⟩

/-! ### The block is closed between two steps -/

/-- Between two transactions the chip select is not asserted and, if `φ`, the device waits for a command. -/
def closedProtocol (φ : Prop) : Protocol (fun _ => True) (fun _ => True) where
  out s := s.cs = false ∧ (φ → s.dev.phase = .off)
  sel s := s.cs = true
  inn s := s.cs = true
  cut e s := (s.cs = false → φ → s.dev.phase = .off) ∧
    (e = .hung → s.cs = false ∧ s.pollLimit = none ∧ s.env.xferFail = [])
  regs_out h hs := by rwa [h.cs, h.dev]
  regs_inn h hs := by rwa [h.cs]
  selects _ := rfl
  command _ hs h := (takesIn_of_xchg h).cs.trans hs
  exchange hs h := (takesIn_of_xchg h).cs.trans hs
  deselects _ := ⟨rfl, fun _ => rfl⟩
  fail hs h := by
    obtain ⟨-, gaps, -, rfl⟩ := xchg_error h
    have hcs := or_self_iff.1 hs
    exact ⟨fun hcs' => by simp [hcs] at hcs', fun he => by cases he⟩
  stop _ hs := ⟨fun _ => hs.2, fun he => by cases he⟩
  hung hs hl hx := ⟨fun _ => hs.2, fun _ => ⟨hs.1, hl, hx⟩⟩

theorem cutShort_cs (s : State) : (cutShort s).cs = false := by
  unfold cutShort
  split
  · rfl
  · exact Bool.eq_false_iff.2 ‹_›

theorem cutShort_phase {s : State} (h : s.cs = false → s.dev.phase = .off) : (cutShort s).dev.phase = .off := by
  unfold cutShort
  split
  · rfl
  · exact h (Bool.eq_false_iff.2 ‹_›)

/-- What an abort leaves of the block: it is idle, the response is the failure (60 R266). -/
theorem abort_block (e : Status) (s : State) :
    (abort e s).PIdle ∧ (abort e s).rsp = { status := e, result := 0x00 } ∧
      (e.poisons = true → (abort e s).dev.poisoned = true) := by
  by_cases he : e.poisons = true
  · have hcs : ((failed e s).poisonWith s.inWork).cs = false := by
      rw [State.poisonWith_cs]
      exact cutShort_cs s
    have hseq : ((failed e s).poisonWith s.inWork).seq = [] := by rw [State.poisonWith_seq]; rfl
    have hrsp : ((failed e s).poisonWith s.inWork).rsp = { status := e, result := 0x00 } := by
      rw [State.poisonWith_rsp]; rfl
    have hpoisoned := poisonWith_poisoned s.inWork (failed e s)
    rw [abort_of_poisons he]
    generalize (failed e s).poisonWith s.inWork = u at hcs hseq hrsp hpoisoned ⊢
    exact ⟨⟨rfl, hcs, hseq⟩, hrsp, fun _ => hpoisoned⟩
  · rw [abort_of_not_poisons (Bool.eq_false_iff.2 he)]
    exact ⟨⟨rfl, cutShort_cs s, rfl⟩, rfl, fun h => absurd h he⟩

theorem abort_phase {e : Status} {s : State} (h : s.cs = false → s.dev.phase = .off) :
    (abort e s).dev.phase = .off := by
  by_cases he : e.poisons = true
  · have hphase : ((failed e s).poisonWith s.inWork).dev.phase = .off := by
      rw [poisonWith_phase]
      exact cutShort_phase h
    rw [abort_of_poisons he]
    exact hphase
  · rw [abort_of_not_poisons (Bool.eq_false_iff.2 he)]
    exact cutShort_phase h

/-- What the block is after an instruction: closed, and idle with an empty `SEQ` or in a hang, with no response, that
no failure and no limit ends (10_state R28, R32, 60 R285). -/
structure Closed (s t : State) : Prop where
  cs : t.cs = false
  phase : s.dev.phase = .off → t.dev.phase = .off
  idle : t.engBusy = false → t.seq = []
  hung : t.engBusy = true → t.rsp = s.rsp ∧ t.pollLimit = none ∧ t.dev.poisoned = true ∧ t.dev.pend ≠ .none ∧
    t.stuck = true

theorem Closed.of_idle {s t : State} (h : t.PIdle) (hphase : s.dev.phase = .off → t.dev.phase = .off) : Closed s t := by
  obtain ⟨hbusy, hcs, hseq⟩ := h
  exact ⟨hcs, hphase, fun _ => hseq, fun hb => by simp [hbusy] at hb⟩

/-- Every instruction that an idle block takes leaves it so. -/
theorem exec_closed {i : Instr} {s t : State} (hidle : s.PIdle) (h : exec i s = .next t) : Closed s t := by
  obtain ⟨hbusy, hcs, hseq⟩ := hidle
  have hended := exec_ended (closedProtocol (s.dev.phase = .off)) (fun _ _ => trivial) (fun _ _ => trivial)
    (fun _ _ _ _ => trivial) (fun _ => .inr trivial) ⟨hcs, id⟩ ⟨hbusy, hcs, hseq⟩ h
  cases hended with
  | answered r u hu hway => exact .of_idle ⟨rfl, hu.1, rfl⟩ hu.2
  | aborted e u hu hway => exact .of_idle (abort_block e u).1 fun hp => abort_phase fun hc => hu.1 hc hp
  | hung u hu hway =>
    obtain ⟨hcs', hlimit, hgaps⟩ := hu.2 rfl
    obtain ⟨hpoisoned, -, hphase, hpend, -⟩ := poisonHung_dev u
    refine ⟨u.poisonHung_cs.trans hcs', fun hp => hphase.trans (hu.1 hcs' hp), fun hb => ?_, fun _ => ?_⟩
    · simp [hway.busy] at hb
    · exact ⟨u.poisonHung_rsp.trans hway.rsp, u.poisonHung_pollLimit.trans hlimit, hpoisoned, hpend,
        poisonHung_stuck hgaps hlimit⟩
  | sent u hu hbus =>
    exact .of_idle ⟨(u.deselected_engBusy.trans (engBusy_of_onlyBus hbus)).trans hbusy, rfl,
      (u.deselected_seq.trans (seq_of_onlyBus hbus)).trans hseq⟩ fun _ => rfl
  | sentCut u hu hbus =>
    have hbusy' : u.deselected.poison.engBusy = u.engBusy := by simp
    have hseq' : u.deselected.poison.seq = u.seq := by simp
    exact .of_idle ⟨(hbusy'.trans (engBusy_of_onlyBus hbus)).trans hbusy, by simp,
      (hseq'.trans (seq_of_onlyBus hbus)).trans hseq⟩
      fun _ => poisonWith_phase _ _
  | refused => exact .of_idle ⟨hbusy, hcs, hseq⟩ id

/-- Settles O18: the block is closed, and only a hang leaves it busy, with a device POISONED and a cycle pending. -/
theorem endedRequestLeavesBlockIdle : Obligations.EndedRequestLeavesBlockIdle := by
  intro i s t hidle h
  obtain ⟨hcs, -, hseq, hhung⟩ := exec_closed hidle h
  refine ⟨fun hb => ⟨hb, hcs, hseq hb⟩, fun hb => ?_⟩
  obtain ⟨hrsp, hlimit, hpoisoned, hpend, -⟩ := hhung hb
  exact ⟨hrsp, (exec_given h).2.1 ▸ hlimit, hpoisoned, decide_eq_true hpend⟩

/-- Settles O19: an idle block answers, and with a finite limit its answer is no hang. -/
theorem finitePollLimitAlwaysAnswers : Obligations.FinitePollLimitAlwaysAnswers := by
  intro i s n hidle hlimit
  obtain ⟨t, h⟩ := exec_idle_isNext hidle i
  refine ⟨t, h, Bool.eq_false_iff.2 fun hb => ?_⟩
  obtain ⟨-, hnone, -⟩ := (exec_closed hidle h).hung hb
  rw [(exec_given h).2.1, hlimit] at hnone
  cases hnone

/-! ### Statuses and results -/

/-- The protocol that says only with which failures a procedure stops. -/
def failureProtocol (S : Status → Prop) : Protocol (fun _ => True) S where
  out _ := True
  sel _ := True
  inn _ := True
  cut e _ := ∀ f, e = .raised f → f = .transportFailure ∨ S f
  regs_out _ _ := trivial
  regs_inn _ _ := trivial
  selects _ := trivial
  command _ _ _ := trivial
  exchange _ _ := trivial
  deselects _ := trivial
  fail _ _ f hf := by cases hf; exact .inl rfl
  stop hS _ f hf := by cases hf; exact .inr hS
  hung _ _ _ f hf := by cases hf

theorem isHostRequest_meaning {i : Instr} (h : isHostRequest i = true) :
    (meaning i = .reserved ∧ allowedStatuses i = [.illegalRequest]) ∨
      ((∃ p m, meaning i = .request p m) ∧ .ok ∈ allowedStatuses i ∧ .transportFailure ∈ allowedStatuses i) := by
  cases i with
  | reservedOp0 | reservedOpB | reservedOpC | reservedOpD | reservedOpE | reservedOpF => exact .inl ⟨rfl, rfl⟩
  | srRead | srWrite | srBusy | srWait | weEnable | weDisable | ppProgram | pswWriteBlank | semErase | fweWrite =>
    exact .inr ⟨⟨_, _, rfl⟩, by simp [allowedStatuses]⟩
  | _ => cases h

/-- How a host request ends that is not refused by name: with the response of its procedure, with an abort, or in a
hang. -/
theorem request_next {i : Instr} {p : Proc} {m : M Byte} {s t : State} (hi : meaning i = .request p m) (hidle : s.PIdle)
    (h : exec i s = .next t) :
    (∃ r u, m (accepted p s) = .ok r u ∧ t = respond r u) ∨
      (∃ e u, m (accepted p s) = .error (.raised e) u ∧ t = abort e u) ∨
      ∃ u, m (accepted p s) = .error .hung u ∧ t = u.poisonHung ∧ t.engBusy = true := by
  have hway := underWay_of_request hi s
  rw [exec_eq_run, hi] at h
  obtain ⟨hbusy, -⟩ | ⟨-, hm | hm | ⟨u, hm, rfl⟩⟩ := serve_next h
  · simp [hidle.1] at hbusy
  · exact .inl hm
  · exact .inr (.inl hm)
  · rw [accepted, hm] at hway
    exact .inr (.inr ⟨u, hm, rfl, u.poisonHung_engBusy.trans hway.busy⟩)

/-- A reserved operation changes the response only. -/
theorem reserved_next {i : Instr} {s t : State} (hi : meaning i = .reserved) (hidle : s.PIdle) (h : exec i s = .next t) :
    t = { s with rsp := { status := .illegalRequest, result := 0x00 } } := by
  rw [exec_eq_run, hi] at h
  obtain ⟨hbusy, -⟩ | ⟨-, ht⟩ := illegalRequest_next h
  · simp [hidle.1] at hbusy
  · exact ht

/-- Settles O20: a procedure stops only with the failures of its operation, and OK is one of the statuses of each. -/
theorem statusTable : Obligations.StatusTable := by
  intro i s t hhost hidle h hb
  obtain ⟨hi, hallowed⟩ | ⟨⟨p, m, hi⟩, hok, htransport⟩ := isHostRequest_meaning hhost
  · rw [reserved_next hi hidle h, hallowed]
    exact List.mem_singleton_self _
  · have hends := ends_accepted (s := s) (failureProtocol (· ∈ allowedStatuses i)) hi (fun _ _ => trivial)
      (fun e he => (List.mem_filter.1 he).1) (fun _ _ he _ => he) .inr trivial
    obtain ⟨r, u, -, rfl⟩ | ⟨e, u, hm, rfl⟩ | ⟨u, -, rfl, hbusy⟩ := request_next hi hidle h
    · exact hok
    · rw [(abort_block e u).2.1]
      obtain rfl | he := hends.2 _ _ hm e rfl
      · exact htransport
      · exact he
    · rw [hb] at hbusy
      cases hbusy

/-- A procedure with no result of its own returns 0x00. -/
theorem result_discard {α : Type} {m : M α} {s u : State} {r b : Byte} (h : (do let _ ← m; pure b : M Byte) s = .ok r u) :
    r = b := by
  obtain ⟨_, t, -, hr⟩ := run_bind_eq_ok.1 h
  injection hr with hr
  exact hr.symm

/-- The result of a request that is answered with OK (10_state R29). -/
theorem request_result {i : Instr} {p : Proc} {m : M Byte} {s u : State} {r : Byte} (hi : meaning i = .request p m)
    (h : m s = .ok r u) :
    ((∀ n, i ≠ .srRead n) → i ≠ .srBusy → r = 0x00) ∧ (i = .srBusy → r = 0x00 ∨ r = 0x01) := by
  cases i <;> cases hi
  case srRead n => exact ⟨fun hn => absurd rfl (hn n), fun h => by cases h⟩
  case srBusy =>
    refine ⟨fun _ hb => absurd rfl hb, fun _ => ?_⟩
    obtain ⟨b, t, -, hr⟩ := run_bind_eq_ok.1 h
    injection hr with hr
    rw [← hr]
    cases b
    · exact .inl rfl
    · exact .inr rfl
  all_goals exact ⟨fun _ _ => result_discard h, fun hb => by cases hb⟩

/-- Settles O21: an abort and a refusal write 0x00, and a procedure that returns gives the result of its operation. -/
theorem resultByte : Obligations.ResultByte := by
  intro i s t hhost hidle h hb
  obtain ⟨hi, -⟩ | ⟨⟨p, m, hi⟩, -⟩ := isHostRequest_meaning hhost
  · rw [reserved_next hi hidle h]
    exact ⟨fun _ => rfl, fun _ _ => rfl, fun _ => .inl rfl⟩
  · obtain ⟨r, u, hm, rfl⟩ | ⟨e, u, -, rfl⟩ | ⟨u, -, rfl, hbusy⟩ := request_next hi hidle h
    · obtain ⟨hzero, hbusy⟩ := request_result hi hm
      exact ⟨fun hne => absurd rfl hne, hzero, hbusy⟩
    · rw [(abort_block e u).2.1]
      exact ⟨fun _ => rfl, fun _ _ => rfl, fun _ => .inl rfl⟩
    · rw [hb] at hbusy
      cases hbusy

/-- Settles O23: the two failures come from an abort only, which POISONS and leaves the block idle. -/
theorem abortsPoisonTheDevice : Obligations.AbortsPoisonTheDevice := by
  intro i s t hhost hidle h hb hstatus
  obtain ⟨hi, -⟩ | ⟨⟨p, m, hi⟩, -⟩ := isHostRequest_meaning hhost
  · rw [reserved_next hi hidle h] at hstatus
    simp at hstatus
  · obtain ⟨r, u, -, rfl⟩ | ⟨e, u, -, rfl⟩ | ⟨u, -, rfl, hbusy⟩ := request_next hi hidle h
    · simp [respond] at hstatus
    · obtain ⟨hidle', hrsp, hpoisoned⟩ := abort_block e u
      rw [hrsp] at hstatus ⊢
      refine ⟨hpoisoned ?_, rfl, hidle'⟩
      obtain he | he := hstatus <;> rw [show e = _ from he] <;> rfl
    · rw [hb] at hbusy
      cases hbusy

/-! ### The refusals -/

section Refused
variable {s : State} {data : List Byte} {src : Source} {b : BitVec 32} {a : Address} {len : BitVec 32}

/-- `programPage` writes its registers and then checks (42 R172, R173). -/
theorem programPage_refused (h : (withinPage a.toNat len.toNat && withinCapacity s a.toNat len.toNat) = false) :
    programPage data src b a len s = .error (.raised .invalidRange)
      { s with pp := { s.pp with addr := a, len := BitVec.ofNat 9 len.toNat, src := src, srcBase := b } } := by
  rw [programPage, run_assign_bind, run_get_bind]
  by_cases hpage : withinPage a.toNat len.toNat = true
  · rw [hpage, Bool.true_and] at h
    rw [run_bind_ok (run_require_true _ hpage)]
    exact run_bind_error (run_require_false _ h)
  · exact run_bind_error (run_require_false _ (Bool.eq_false_iff.2 hpage))

/-- `writeAssumingBlank` writes its registers and then checks (43 R182, R183). -/
theorem writeAssumingBlank_refused (h : withinCapacity s a.toNat len.toNat = false) :
    writeAssumingBlank data src b a len s = .error (.raised .invalidRange)
      { s with psw := { s.psw with src := src, srcBase := b, addr := a, remaining := len, pos := 0 } } := by
  rw [writeAssumingBlank, run_assign_bind, run_get_bind]
  exact run_bind_error (run_require_false _ h)

/-- `eraseSector` writes its registers and then checks (44 R192, R193). -/
theorem eraseSector_refused {si : SectorIndex} (h : withinCapacity s (sectorBase si).toNat 4096 = false) :
    eraseSector si s = .error (.raised .invalidRange)
      { s with sem := { sectorIndex := si, base := sectorBase si } } := by
  rw [eraseSector, run_assign_bind, run_get_bind]
  exact run_bind_error (run_require_false _ h)

/-- `write` writes its registers and then checks (45 R200, R220). -/
theorem writeFlash_refused (h : withinCapacity s a.toNat len.toNat = false) :
    writeFlash data a len s = .error (.raised .invalidRange)
      { s with fwe := { s.fwe with address := a, length := len, pos := 0 } } := by
  rw [writeFlash, run_assign_bind, run_get_bind]
  exact run_bind_error (run_require_false _ h)

end Refused

/-- `t` differs from `s` in operand registers only (60 R267). -/
structure OnlyOperands (s t : State) : Prop where
  frame : t = { s with fwe := t.fwe, psw := t.psw, pp := t.pp, sem := t.sem }
  eraseRequired : t.fwe.eraseRequired = s.fwe.eraseRequired

/-- A request whose own check fails stops there, with nothing but operand registers written (60 R267). -/
theorem request_refused {i : Instr} {p : Proc} {m : M Byte} {s : State} (hi : meaning i = .request p m)
    (hr : inRange s i = false) :
    ∃ e t, m s = .error (.raised e) t ∧ isRefusal e = true ∧ OnlyOperands s t := by
  cases i <;> cases hi
  case srRead n => exact ⟨_, _, readStatus_invalid hr s, rfl, rfl, rfl⟩
  case srWrite n v => exact ⟨_, _, run_bind_error (writeStatus_invalid hr v s), rfl, rfl, rfl⟩
  case ppProgram a data => exact ⟨_, _, run_bind_error (programPage_refused hr), rfl, rfl, rfl⟩
  case pswWriteBlank a data => exact ⟨_, _, run_bind_error (writeAssumingBlank_refused hr), rfl, rfl, rfl⟩
  case semErase si => exact ⟨_, _, run_bind_error (eraseSector_refused hr), rfl, rfl, rfl⟩
  case fweWrite a data => exact ⟨_, _, run_bind_error (writeFlash_refused hr), rfl, rfl, rfl⟩
  all_goals cases hr

theorem isRefusal_not_poisons {e : Status} (h : isRefusal e = true) : e.poisons = false := by
  cases e <;> first | rfl | cases h

/-- A request whose own check passes is never refused: its nested checks pass (60 R261). -/
theorem request_not_refused {i : Instr} {p : Proc} {m : M Byte} {s u : State} {e : Status}
    (hi : meaning i = .request p m) (hr : inRange s i = true) (hd : s.PDesc)
    (h : m (accepted p s) = .error (.raised e) u) : isRefusal e = false := by
  have hends := ends_accepted (s := s) (failureProtocol fun e => e.poisons = true) hi (fun _ _ => trivial)
    (fun e he => (List.mem_filter.1 he).2) (fun hr' => by simp [hr] at hr') (fun _ => .inl hd) trivial
  obtain rfl | he := hends.2 _ _ h e rfl
  · rfl
  · exact Bool.eq_false_iff.2 fun href => by simp [isRefusal_not_poisons href] at he

/-- Settles O22: a refusal is that of the request's own check, which comes before everything but its operand registers,
and the abort that follows finds no transaction to cut short. -/
theorem refusalsFailClosed : Obligations.RefusalsFailClosed := by
  intro i s t hhost hidle hd h hb hrefusal
  obtain ⟨hi, -⟩ | ⟨⟨p, m, hi⟩, -⟩ := isHostRequest_meaning hhost
  · rw [reserved_next hi hidle h]
    exact ⟨rfl, rfl, fun _ => rfl⟩
  · obtain ⟨r, u, -, rfl⟩ | ⟨e, u, hm, rfl⟩ | ⟨u, -, rfl, hbusy⟩ := request_next hi hidle h
    · cases hrefusal
    · rw [(abort_block e u).2.1] at hrefusal
      have hrange : inRange (accepted p s) i = false := by
        refine Bool.eq_false_iff.2 fun hr => ?_
        have hr' : inRange s i = true := by rw [← hr]; cases i <;> rfl
        simp [request_not_refused hi hr' hd hm] at hrefusal
      obtain ⟨e', u', hm', -, hframe, herase⟩ := request_refused hi hrange
      cases hm.symm.trans hm'
      have habort : abort e u = { s with fwe := u.fwe, psw := u.psw, pp := u.pp, sem := u.sem,
                                         rsp := { status := e, result := 0x00 } } := by
        rw [hframe]
        exact abort_accepted (s := { s with fwe := u.fwe, psw := u.psw, pp := u.pp, sem := u.sem }) hidle
          (isRefusal_not_poisons hrefusal) _
      rw [habort]
      exact ⟨rfl, herase, fun _ => rfl⟩
    · rw [hb] at hbusy
      cases hbusy

end Sys2Proof.Proofs
end

section
/-! What the requests that program, erase and read do under the launch premises of 70 R297: the laws of the procedures,
read through the acceptance of the request and its response. -/

open Sys2Proof Sys2Proof.Machine

namespace Sys2Proof.Proofs

/-! ### From the launch premises to the state in which a procedure starts -/

/-- The launch premises, with the device unselected, are what the laws of the procedures ask for. -/
theorem usable_accepted {s : State} (hinv : s.Inv) (h : s.Launch) (p : Proc) : (accepted p s).Usable :=
  ⟨h.idle.2.1, hinv.phase_off, h.ready, h.mode, h.awake, h.desc, h.clean, h.xfer, h.fair, h.limit⟩

/-- A request whose procedure returns is answered with OK. -/
theorem request_ok {i : Instr} {p : Proc} {m : M Byte} {s u : State} {r : Byte} (hi : meaning i = .request p m)
    (hidle : s.PIdle) (hm : m (accepted p s) = .ok r u) : exec i s = .next (respond r u) := by
  rw [exec_eq_run, hi]
  exact serve_ok hidle hm

/-- A request whose procedure is refused, with the working registers its check has written. -/
theorem request_raised {i : Instr} {p : Proc} {m : M Byte} {s u : State} {e : Status} (hi : meaning i = .request p m)
    (hidle : s.PIdle) (hm : m (accepted p s) = .error (.raised e) u) : exec i s = .next (abort e u) := by
  rw [exec_eq_run, hi]
  exact serve_raised hidle hm

/-- The length field of a buffer that it can hold (30_encoding R120). -/
theorem lengthField_toNat {data : List Byte} (h : data.length < 2 ^ 32) : (lengthField data).toNat = data.length := by
  rw [lengthField, BitVec.toNat_ofNat]
  exact Nat.mod_eq_of_lt h

/-- Two devices that are not POISONED and hold the same cells show the same `F`. -/
theorem flashByte_congr {s t : State} (hs : s.PClean) (ht : t.PClean) (h : t.dev.flash = s.dev.flash) (x : Nat) :
    t.flashByte x = s.flashByte x := by
  rw [State.flashByte_clean hs, State.flashByte_clean ht, h]

/-- A device that is not POISONED shows what was programmed into the cells it held. -/
theorem flashByte_program {s t : State} {a : Nat} {data : List Byte} (hs : s.PClean) (ht : t.PClean)
    (hwf : s.dev.flash.wf = true) (h : t.dev.flash = s.dev.flash.program a data) (x : Nat) :
    t.flashByte x = if a ≤ x ∧ x < a + data.length then s.flashByte x &&& data.getD (x - a) 0 else s.flashByte x := by
  rw [State.flashByte_clean hs, State.flashByte_clean ht, h, Memory.read_program hwf]

/-! ### Requests that write operand registers only -/

section Operands
variable {s : State} (hidle : s.PIdle) (p : Proc) (fwe : FweRegs) (psw : PswRegs) (pp : PpRegs) (sem : SemRegs)
include hidle

/-- A refusal after nothing but operand registers were written (60 R267). -/
theorem abort_operands {e : Status} (he : e.poisons = false) :
    abort e { accepted p s with fwe := fwe, psw := psw, pp := pp, sem := sem } =
      { s with fwe := fwe, psw := psw, pp := pp, sem := sem, rsp := { status := e, result := 0x00 } } :=
  abort_accepted (s := { s with fwe := fwe, psw := psw, pp := pp, sem := sem }) hidle he _

/-- A response after nothing but operand registers were written. -/
theorem respond_operands (r : Byte) :
    respond r { accepted p s with fwe := fwe, psw := psw, pp := pp, sem := sem } =
      { s with fwe := fwe, psw := psw, pp := pp, sem := sem, rsp := { status := .ok, result := r } } := by
  obtain ⟨hbusy, -, hseq⟩ := hidle
  rw [respond, accepted, ← hbusy, ← hseq]

end Operands

/-! ### PP.PROGRAM -/

/-- Settles O49: the law of `programPage` with the caller's buffer as its source. -/
theorem ppProgramResult : Obligations.PpProgramResult := by
  intro a data s hinv h hne hpage hcap
  have hlen : (lengthField data).toNat = data.length := lengthField_toNat (by omega)
  have hu := usable_accepted hinv h .programPage
  obtain ⟨k, u, hk, hrun, hprog, -, hsends, hsrc, hbase⟩ :=
    programPage_ok (s := accepted .programPage s) (data := data) (src := .caller) (srcBase := 0) (a := a)
      (len := lengthField data) hu.xfer hu.clean hu.ready hu.mode hu.awake hu.desc hu.fair hu.limit
      (by rwa [hlen]) (by rwa [hlen]) (by rw [hlen]; exact List.length_pos_iff.2 hne)
  have hbytes : sourceBytes data .caller (accepted .programPage s).sb (0 : BitVec 32).toNat (lengthField data).toNat =
      data := by
    rw [hlen]
    exact sourceBytes_caller data _
  rw [hbytes] at hprog hsends
  obtain ⟨hbusy, hcs, hseq⟩ := h.idle
  have hframe : respond 0x00 u = { s with
      pp := u.pp, sra := u.sra, rsp := { status := .ok, result := 0x00 }, env := u.env, trace := u.trace,
      dev := { s.dev with flash := u.dev.flash, wel := u.dev.wel, busyFor := u.dev.busyFor } } := by
    rw [hprog.frame]
    simp only [respond, accepted, hbusy, hcs, hseq, h.ready, hinv.phase_off]
  have hflash : (respond 0x00 u).dev.flash = s.dev.flash.program a.toNat data := by
    change u.dev.flash = _
    rw [hprog.frame]
    rfl
  have hclean : (respond 0x00 u).PClean := by
    rw [State.PClean, hframe]
    exact h.clean
  refine ⟨k, respond 0x00 u, hk, request_ok rfl h.idle (run_bind_ok hrun), hframe, hsrc, hbase,
    BitVec.eq_of_toNat_eq hprog.addr, hprog.len, hsends.transactions_eq, fun x => ?_⟩
  exact flashByte_program h.clean hclean hinv.flash_wf hflash x

/-- Settles O51: the two checks come before everything but the operand registers. -/
theorem ppProgramRefused : Obligations.PpProgramRefused := by
  intro a data s hidle hlen h
  have hcheck : (withinPage a.toNat (lengthField data).toNat &&
      withinCapacity (accepted .programPage s) a.toNat (lengthField data).toNat) = false := by
    rw [lengthField_toNat hlen, Bool.and_eq_false_iff, withinPage, withinCapacity, decide_eq_false_iff_not,
      decide_eq_false_iff_not]
    exact h.imp (by omega) fun hcap => Nat.not_le.2 hcap
  refine ⟨{ s.pp with addr := a, len := BitVec.ofNat 9 (lengthField data).toNat, src := .caller, srcBase := 0 }, ?_⟩
  rw [request_raised (i := .ppProgram a data) rfl hidle (run_bind_error (programPage_refused hcheck))]
  exact congrArg _ (abort_operands hidle _ s.fwe s.psw _ s.sem rfl)

/-! ### PSW.WRITE_BLANK -/

/-- The commands of a span are enables, programs and polls (43 R182). -/
theorem counts_span_only {txs : List (List Byte)} {n : Nat} (h : Counts txs 0 [] n) :
    ∀ c ∈ commandBytes txs, c ∈ [0x06, 0x02, (0x05 : Byte)] := by
  intro c hc
  have hread : (0x03 : Byte) ∉ commandBytes txs := List.count_eq_zero.1 h.read
  have herase : (0x20 : Byte) ∉ commandBytes txs := by
    intro hmem
    obtain ⟨tx, htx, hhead⟩ := List.mem_filterMap.1 hmem
    have : tx ∈ eraseCommands txs := List.mem_filter.2 ⟨htx, by simpa using hhead⟩
    rw [h.erase] at this
    cases this
  have := h.only c hc
  simp only [List.mem_cons, List.not_mem_nil, or_false] at this ⊢
  obtain rfl | rfl | rfl | rfl | rfl := this
  · exact absurd hc hread
  · exact .inl rfl
  · exact .inr (.inr rfl)
  · exact .inr (.inl rfl)
  · exact absurd hc herase

/-- Settles O52: the law of `writeAssumingBlank` with the caller's buffer as its source. -/
theorem pswWriteBlankResult : Obligations.PswWriteBlankResult := by
  intro a data s hinv h hlen hcap
  have hfield := lengthField_toNat hlen
  obtain ⟨u, hrun, hspan⟩ := writeAssumingBlank_ok (s := accepted .writeAssumingBlank s) (data := data)
    (src := .caller) (srcBase := 0) (a := a) (len := lengthField data) (usable_accepted hinv h .writeAssumingBlank)
    (by rwa [hfield]) (by rw [hfield]; simpa using hlen)
  have hbytes : sourceBytes data .caller (accepted .writeAssumingBlank s).sb (0 : BitVec 32).toNat
      (lengthField data).toNat = data := by
    rw [hfield]
    exact sourceBytes_caller data _
  rw [hbytes] at hspan
  obtain ⟨txs, hsends, hcounts, hprograms⟩ := hspan.sends
  obtain ⟨hbusy, hcs, hseq⟩ := h.idle
  have hframe : respond 0x00 u = { s with
      psw := u.psw, pp := u.pp, sra := u.sra, rsp := { status := .ok, result := 0x00 }, env := u.env,
      trace := u.trace, dev := { s.dev with flash := u.dev.flash, wel := u.dev.wel, busyFor := u.dev.busyFor } } := by
    rw [hspan.frame]
    simp only [respond, accepted, hbusy, hcs, hseq]
  have hflash : (respond 0x00 u).dev.flash = s.dev.flash.program a.toNat data := by
    change u.dev.flash = _
    rw [hspan.frame]
    rfl
  have hclean : (respond 0x00 u).PClean := by
    rw [State.PClean, hframe]
    exact h.clean
  refine ⟨respond 0x00 u, txs, request_ok rfl h.idle (run_bind_ok hrun), hframe, hsends.transactions_eq, hprograms,
    ?_, counts_span_only hcounts, fun x => flashByte_program h.clean hclean hinv.flash_wf hflash x⟩
  rw [hcounts.enable, List.length_nil, Nat.zero_add]

/-- A span of no byte writes its registers only (43 R184). -/
theorem writeAssumingBlank_zero {s : State} {data : List Byte} {src : Source} {b : BitVec 32} {a : Address}
    (h : a.toNat ≤ s.dd.capacityBytes) :
    writeAssumingBlank data src b a 0 s = .ok () { s with psw := { s.psw with
      src := src, srcBase := b, addr := a, remaining := 0, pos := 0,
      pageRemain := BitVec.ofNat 9 (256 - a.toNat % 256) } } := by
  rw [writeAssumingBlank, run_assign_bind, run_get_bind,
    run_bind_ok (run_require_true _ (withinCapacity_iff.2 (by simpa using h)))]
  rfl

/-- A window of no byte writes its registers only (45 R203). -/
theorem writeFlash_zero {s : State} {data : List Byte} {a : Address} (h : a.toNat ≤ s.dd.capacityBytes) :
    writeFlash data a 0 s = .ok () { s with fwe := { s.fwe with address := a, length := 0, pos := 0 } } := by
  rw [writeFlash, run_assign_bind, run_get_bind,
    run_bind_ok (run_require_true _ (withinCapacity_iff.2 (by simpa using h)))]
  rfl

/-- Settles O53: with a length of 0 neither loop is entered. -/
theorem zeroLengthSpanSendsNothing : Obligations.ZeroLengthSpanSendsNothing := by
  intro a s hidle hcap
  refine ⟨⟨{ s.psw with
      src := .caller, srcBase := 0, addr := a, remaining := 0, pos := 0,
      pageRemain := BitVec.ofNat 9 (256 - a.toNat % 256) }, ?_⟩, ?_⟩
  · rw [request_ok (i := .pswWriteBlank a []) rfl hidle (run_bind_ok (writeAssumingBlank_zero hcap))]
    exact congrArg _ (respond_operands hidle _ s.fwe _ s.pp s.sem _)
  · rw [request_ok (i := .fweWrite a []) rfl hidle (run_bind_ok (writeFlash_zero hcap))]
    exact congrArg _ (respond_operands hidle _ _ s.psw s.pp s.sem _)

/-- Settles O54: the check of the capacity comes before everything but the operand registers. -/
theorem pastTheEndRefused : Obligations.PastTheEndRefused := by
  intro a data si s hidle hlen
  refine ⟨fun hcap => ?_, fun hcap => ⟨{ sectorIndex := si, base := sectorBase si }, ?_⟩⟩
  · have hcheck : ∀ p, withinCapacity (accepted p s) a.toNat (lengthField data).toNat = false := by
      intro p
      rw [lengthField_toNat hlen, withinCapacity, decide_eq_false_iff_not]
      exact Nat.not_le.2 hcap
    refine ⟨⟨{ s.psw with src := .caller, srcBase := 0, addr := a, remaining := lengthField data, pos := 0 }, ?_⟩,
      { s.fwe with address := a, length := lengthField data, pos := 0 }, ?_⟩
    · rw [request_raised (i := .pswWriteBlank a data) rfl hidle (run_bind_error (writeAssumingBlank_refused (hcheck _)))]
      exact congrArg _ (abort_operands hidle _ s.fwe _ s.pp s.sem rfl)
    · rw [request_raised (i := .fweWrite a data) rfl hidle (run_bind_error (writeFlash_refused (hcheck _)))]
      exact congrArg _ (abort_operands hidle _ _ s.psw s.pp s.sem rfl)
  · have hcheck : withinCapacity (accepted .eraseSector s) (sectorBase si).toNat 4096 = false := by
      rw [sectorBase_toNat, withinCapacity, decide_eq_false_iff_not]
      exact Nat.not_le.2 hcap
    rw [request_raised (i := .semErase si) rfl hidle (run_bind_error (eraseSector_refused hcheck))]
    exact congrArg _ (abort_operands hidle _ s.fwe s.psw s.pp _ rfl)

/-! ### SEM.ERASE and the raw sector read -/

/-- Settles O55: the law of `eraseSector`. -/
theorem semEraseResult : Obligations.SemEraseResult := by
  intro si s hinv h hcap
  have hu := usable_accepted hinv h .eraseSector
  obtain ⟨k, u, hk, hrun, herase, -, hsends⟩ := eraseSector_ok (s := accepted .eraseSector s) (si := si)
    hu.xfer hu.clean hu.ready hu.mode hu.awake hu.desc hu.fair hu.limit hcap
  obtain ⟨hbusy, hcs, hseq⟩ := h.idle
  have hframe : respond 0x00 u = { s with
      sem := { sectorIndex := si, base := sectorBase si }, sra := u.sra, rsp := { status := .ok, result := 0x00 },
      env := u.env, trace := u.trace,
      dev := { s.dev with flash := u.dev.flash, wel := u.dev.wel, busyFor := u.dev.busyFor } } := by
    rw [← herase.sem, herase.frame]
    simp only [respond, accepted, hbusy, hcs, hseq, h.ready, hinv.phase_off]
  have hflash : (respond 0x00 u).dev.flash = s.dev.flash.erase (si.toNat * 4096) 4096 := by
    change u.dev.flash = _
    rw [herase.frame]
    rfl
  have hclean : (respond 0x00 u).PClean := by
    rw [State.PClean, hframe]
    exact h.clean
  refine ⟨k, respond 0x00 u, hk, request_ok rfl h.idle (run_bind_ok hrun), hframe, hsends.transactions_eq, fun x => ?_⟩
  rw [State.flashByte_clean hclean, State.flashByte_clean h.clean, hflash, Memory.read_erase]

/-- Settles O59: the law of `readSector`. -/
theorem readSectorFillsScratchBuffer : Obligations.ReadSectorFillsScratchBuffer := by
  intro si s hinv h hcap
  have hu := usable_accepted hinv h .readSector
  obtain ⟨u, hrun, hreads⟩ := readSector_ok (s := accepted .readSector s) (si := si) hu.xfer hu.clean hu.ready
    ((State.readable_iff _).2 ⟨hu.mode, hu.awake.1⟩) hu.desc hcap
  obtain ⟨hbusy, hcs, hseq⟩ := h.idle
  have hframe : respond 0x00 u = { s with
      rsI := u.rsI, sb := u.sb, rsp := { status := .ok, result := 0x00 }, env := u.env, trace := u.trace } := by
    have hdev : ({ s.dev with phase := .off } : Device) = s.dev := by rw [← hinv.phase_off]
    rw [hreads.frame]
    simp only [respond, accepted, hbusy, hcs, hseq, hdev]
  have hdev : (respond 0x00 u).dev = s.dev := by rw [hframe]
  refine ⟨respond 0x00 u, request_ok rfl h.idle (run_bind_ok hrun), hframe, hreads.sends.transactions_eq,
    fun i hi => ?_, fun x => flashByte_congr h.clean (by rw [State.PClean, hdev]; exact h.clean) (by rw [hdev]) x⟩
  rw [State.flashByte_clean h.clean]
  exact hreads.sb_read hinv.sb_wf hi

/-! ### FWE.WRITE -/

/-- Under the launch premises `write` inside the array runs to its end: the laws of its loop hold between the accepted
state and the last one. -/
theorem writeFlash_ok {s : State} {data : List Byte} {a : Address} (hinv : s.Inv) (h : s.Launch)
    (hlen : data.length < 2 ^ 32) (hcap : a.toNat + data.length ≤ s.dd.capacityBytes) :
    ∃ u, exec (.fweWrite a data) s = .next (respond 0x00 u) ∧
      Writes data a.toNat data.length 0 { accepted .write s with fwe := { s.fwe with
        address := a, length := lengthField data, pos := 0 } } u := by
  have hfield := lengthField_toNat hlen
  have hu := (usable_accepted hinv h .write)
  have hu' : State.Usable { accepted .write s with fwe := { s.fwe with
      address := a, length := lengthField data, pos := 0 } } :=
    ⟨hu.cs, hu.phase, hu.ready, hu.mode, hu.awake, hu.desc, hu.clean, hu.xfer, hu.fair, hu.limit⟩
  obtain ⟨u, hrun, hwrites⟩ := writeLoop_ok (data := data) (fuel := (lengthField data).toNat) hu' hinv.flash_wf
    hinv.sb_wf (Nat.le_refl _) (fun _ => by rw [hfield]; exact hcap)
    (by simp [hfield]) (by simpa [hfield] using hlen)
  refine ⟨u, request_ok rfl h.idle (run_bind_ok (a := ()) ?_), ?_⟩
  · rw [writeFlash, run_assign_bind, run_get_bind,
      run_bind_ok (run_require_true _ (withinCapacity_iff.2 (by rw [hfield]; exact hcap)))]
    exact hrun
  · rw [hfield] at hwrites
    exact hwrites

/-- Settles O56: the reads after the loop are those of the window's bytes inside it and the old ones outside. -/
theorem fweWriteResult : Obligations.FweWriteResult := by
  intro a data s hinv h hlen hcap
  obtain ⟨u, hexec, hwrites⟩ := writeFlash_ok hinv h hlen hcap
  obtain ⟨hbusy, hcs, hseq⟩ := h.idle
  have hframe : respond 0x00 u = { s with
      fwe := u.fwe, rsI := u.rsI, psw := u.psw, pp := u.pp, sem := u.sem, sra := u.sra, sb := u.sb,
      rsp := { status := .ok, result := 0x00 }, env := u.env, trace := u.trace,
      dev := { s.dev with flash := u.dev.flash, wel := u.dev.wel, busyFor := u.dev.busyFor } } := by
    rw [hwrites.moves.frame]
    simp only [respond, accepted, hbusy, hcs, hseq]
  have hclean : (respond 0x00 u).PClean := by
    rw [State.PClean, hframe]
    exact h.clean
  refine ⟨respond 0x00 u, hexec, hframe, fun x => ?_⟩
  rw [State.flashByte_clean hclean, State.flashByte_clean h.clean]
  have hread := hwrites.read x
  rwa [Nat.zero_add] at hread

/-- A byte of a window that is not blank makes its sector an affected one, and no other byte does (45 R215). -/
theorem mem_affectedSectors_iff {m : Memory} {a n k : Nat} :
    k ∈ affectedSectors m a n ↔ ∃ x, a ≤ x ∧ x < a + n ∧ x / 4096 = k ∧ m.read x ≠ 0xFF := by
  rw [affectedSectors, List.mem_filter, affected, isDirty_iff]
  constructor
  · rintro ⟨hk, i, hi, hbyte⟩
    obtain ⟨hn, hlow, hhigh⟩ := mem_sectorsTouched hk
    refine ⟨partStart a k + i, ?_, ?_, ?_, hbyte⟩ <;> unfold partLength at hi <;> unfold partStart at hi ⊢ <;> omega
  · rintro ⟨x, hlow, hhigh, rfl, hbyte⟩
    constructor
    · rw [sectorsTouched, if_neg (by omega), List.mem_range'_1]
      omega
    · refine ⟨x - partStart a (x / 4096), ?_, ?_⟩
      · unfold partLength partStart
        omega
      · rwa [Nat.add_sub_cancel' (by unfold partStart; omega)]

/-- The sectors of a window come in rising order, so none comes twice. -/
theorem affectedSectors_nodup (m : Memory) (a n : Nat) : (affectedSectors m a n).Nodup := by
  refine List.Nodup.filter _ ?_
  unfold sectorsTouched
  split
  · exact List.nodup_nil
  · exact List.nodup_range'

/-- Each transaction that begins with the erase command is one of the erase commands. -/
theorem count_erase (txs : List (List Byte)) : (commandBytes txs).count 0x20 = (eraseCommands txs).length := by
  induction txs with
  | nil => rfl
  | cons tx txs ih =>
    rw [← List.singleton_append, commandBytes_append, eraseCommands_append, List.count_append, List.length_append, ih]
    congr 1
    cases tx with
    | nil => rfl
    | cons c rest =>
      by_cases hc : c = 0x20
      · subst hc
        rfl
      · rw [eraseCommands, List.filter_cons_of_neg (by simpa using hc)]
        exact List.count_eq_zero.2 (by simpa [commandBytes] using Ne.symm hc)

/-- Settles O57: the erase commands the loop counts are those of the affected sectors. -/
theorem fweWriteErasesAffectedSectors : Obligations.FweWriteErasesAffectedSectors := by
  intro a data s hinv h hlen hcap
  obtain ⟨u, hexec, hwrites⟩ := writeFlash_ok hinv h hlen hcap
  obtain ⟨txs, hsends, hcounts⟩ := hwrites.moves.sends
  refine ⟨respond 0x00 u, txs, hexec, rfl, hsends.transactions_eq, hcounts.erase, affectedSectors_nodup _ _ _,
    fun k => ?_⟩
  simp only [State.flashByte_clean h.clean]
  exact mem_affectedSectors_iff

/-- Settles O58: the counts of the loop, with `S`, `E` and `P` as the statement names them. -/
theorem fweWriteCommandCounts : Obligations.FweWriteCommandCounts := by
  rintro a data s _ _ _ hinv h hlen hcap rfl rfl rfl
  obtain ⟨u, hexec, hwrites⟩ := writeFlash_ok hinv h hlen hcap
  obtain ⟨txs, hsends, hcounts⟩ := hwrites.moves.sends
  have herase : (commandBytes txs).count 0x20 = (eraseCommands txs).length := count_erase txs
  have hE := hcounts.erase
  have hlenE := congrArg List.length hE
  rw [List.length_reverse, List.length_map] at hlenE
  refine ⟨respond 0x00 u, txs, hexec, rfl, hsends.transactions_eq, hcounts.read, herase.trans hlenE, hcounts.program,
    ?_, ?_, hcounts.only⟩
  · rw [hcounts.enable, ← hE, hlenE, Nat.add_assoc]
    rfl
  · have hpoll := hcounts.poll
    rw [← hE, hlenE] at hpoll
    rw [Nat.add_assoc]
    exact hpoll

end Sys2Proof.Proofs
end

section
/-! PP.PROGRAM of no byte: what the device does is open but for `F`, and the wait that follows ends whichever way the
device went (42 R174, 46 R236, log 18). -/

open Sys2Proof Sys2Proof.Machine

namespace Sys2Proof.Proofs

/-- `t` is `s` after a PageProgram without data that an idle device accepts (46 R236). -/
structure ProgramsNothing (a : Address) (s t : State) : Prop where
  frame : t = { s with cs := false, env := t.env, trace := t.trace,
                       dev := { s.dev with wel := t.dev.wel, pend := t.dev.pend, busyFor := t.dev.busyFor,
                                           phase := .off } }
  cycle : t.dev.pend = .none ∨ (t.dev.pend = .program ∧ t.dev.busyFor = s.env.latencies.headD (some 0))
  xfer : t.env.xferFail = s.env.xferFail
  sends : Sends [0x02 :: addressBytes s.dd.addressWidth a] s t

/-- A program of no byte on an idle, latched, writable device: a cycle may start and the latch is drawn. -/
theorem actProgram_nil {s : State} {a : Nat} (hw : s.writable = true) (hl : s.dev.wel = true)
    (ha : a ≤ s.dd.capacityBytes) : s.actProgram a [] = (s.mayStartCycle .program).freeWel := by
  have hpage : ¬ 256 < a % 256 + ([] : List Byte).length := by simp; omega
  have hcap : ¬ s.dd.capacityBytes < a + ([] : List Byte).length := by simpa using ha
  unfold State.actProgram
  rw [hw, hl, decide_eq_false hpage, decide_eq_false hcap]
  rfl

/-- The device after a cycle that may have started. -/
theorem mayStartCycle_freeWel_dev (p : Pend) (s : State) : ∃ w,
    (s.mayStartCycle p).freeWel.dev = { s.dev with wel := w, pend := p, busyFor := s.env.latencies.headD (some 0) } ∨
    (s.mayStartCycle p).freeWel.dev = { s.dev with wel := w, pend := .none } := by
  refine ⟨(s.mayStartCycle p).drawChoice.1, ?_⟩
  rw [freeWel_dev]
  obtain h | h := mayStartCycle_dev s p <;> rw [h]
  · exact .inl rfl
  · exact .inr rfl

/-- The transaction of a PageProgram without data on an idle, latched, writable device (46 R236). -/
theorem programsNothing {s : State} {a : Address} (hc : s.PClean) (hr : s.PReady) (hm : s.PMode) (hz : s.PAwake)
    (hw : s.dev.wel = true) (ha : a.toNat ≤ s.dd.capacityBytes) :
    ProgramsNothing a s (s.programSent a []).deselected := by
  have hphase := programSent_phase s a []
  have hact : (s.programSent a []).act = ((s.programSent a []).mayStartCycle .program).freeWel := by
    rw [act_dataIn hphase, whenIdle_ready _ (by exact hc) (by exact hr)]
    exact actProgram_nil ((State.writable_iff _).2 ⟨hm, hz⟩) hw (Nat.le_trans (Nat.mod_le _ _) ha)
  have honly := (onlyDevice_mayStartCycle .program (s.programSent a [])).trans (onlyDevice_freeWel _)
  obtain ⟨w, hdev⟩ := mayStartCycle_freeWel_dev .program (s.programSent a [])
  have hsends : Sends [0x02 :: addressBytes s.dd.addressWidth a] s (s.programSent a []).deselected := by
    rw [State.programSent, List.append_nil]
    exact sends_pushed 0x02 (addressBytes s.dd.addressWidth a)
  have hframe := OnlyBus.trans (s := s) (t := s.programSent a []) rfl honly.onlyBus
  have hxfer : ((s.programSent a []).mayStartCycle .program).freeWel.env.xferFail = s.env.xferFail := by
    rw [honly]
    rfl
  generalize hu : ((s.programSent a []).mayStartCycle .program).freeWel = u at hact hframe hdev hxfer
  rw [deselected_of_act hact] at hsends ⊢
  refine ⟨?frame, ?cycle, hxfer, hsends⟩
  case frame =>
    have hsame : ({ u.dev with phase := .off } : Device) =
        { s.dev with wel := u.dev.wel, pend := u.dev.pend, busyFor := u.dev.busyFor, phase := .off } := by
      obtain h | h := hdev <;> rw [h] <;> rfl
    rw [hsame, hframe]
  case cycle =>
    obtain h | h := hdev <;> rw [h]
    · exact .inr ⟨rfl, rfl⟩
    · exact .inl rfl

/-- `programPage` of no byte inside the array: one WriteEnable, one PageProgram, and polls (42 R174). -/
theorem programPage_zero {s : State} {data : List Byte} {src : Source} {b : BitVec 32} {a : Address} (hs : s.Usable)
    (hcap : a.toNat ≤ s.dd.capacityBytes) :
    ∃ k t, programPage data src b a 0 s = .ok () t ∧
      t = { s with pp := t.pp, sra := t.sra, env := t.env, trace := t.trace, seq := t.seq,
                   dev := { s.dev with wel := t.dev.wel, busyFor := t.dev.busyFor } } ∧
      Sends (List.replicate (k + 1) [0x05, 0xFF] ++ [0x02 :: addressBytes s.dd.addressWidth a, [0x06]]) s t := by
  -- the operand registers and the latch
  let s1 : State := { s with pp := { s.pp with addr := a, len := 0, src := src, srcBase := b } }
  let s2 : State := { s1.sentOne 0x06 { s1.dev with wel := true } with seq := relabel .PG4 s.seq }
  have henable : callAt .PG3 .enable enable s1 = .ok () s2 := callEnable_ok .PG3 hs.xfer hs.clean hs.ready
  -- the transaction: the address alone
  let s3 : State := s2.selected.pushed 0x02
  have hcommand : xchg 0x02 s2.selected = .ok (Config.freeByte s2.env.drawn) s3 :=
    xchg_sink (s := s2.selected) hs.xfer rfl 0x02
  let s4 : State := s3.pushedAll (addressBytes s3.dd.addressWidth a)
  have haddr : sendAddr a s3 = .ok () s4 := sendAddr_ok a hs.xfer (next_pageProgram _)
  let sp : State := { s2 with pp := { s2.pp with i := 0 } }
  let s5 := (sp.programSent a []).deselected
  have hprogram : ProgramsNothing a sp s5 :=
    programsNothing (s := sp) hs.clean hs.ready hs.mode hs.awake rfl hcap
  -- the wait, whether a cycle runs or none
  let s6 : State := { s5 with seq := { proc := .waitUntilReady, label := .WT0 } :: relabel .PG9 s5.seq }
  have hlimit6 : s6.pollLimit = s.pollLimit := by
    change s5.pollLimit = _
    rw [hprogram.frame]
    rfl
  obtain ⟨k, hk, hklim⟩ : ∃ k, s6.dev.readyAfter k ∧ ∀ n, s6.pollLimit = some n → k < n := by
    obtain hnone | ⟨hpend, hfor⟩ := hprogram.cycle
    · exact ⟨0, .inl ⟨hnone, rfl⟩, fun n hn => hs.limit n (by rw [← hn, hlimit6])⟩
    · obtain ⟨k, hk, hklim⟩ := fair_head hs.fair hs.limit
      exact ⟨k, .inr ⟨by rw [show s6.dev.pend = .program from hpend]; simp, hfor.trans hk⟩,
        fun n hn => hklim n (by rw [← hn, hlimit6])⟩
  have hclean6 : s6.PClean := by
    change s5.dev.poisoned = false
    rw [hprogram.frame]
    exact hs.clean
  obtain ⟨t, hwait, hwaited⟩ := waitUntilReady_ok (s := s6) (k := k) (hprogram.xfer.trans hs.xfer) hclean6 hk hklim
  refine ⟨k, { t with seq := relabel .PG10 s5.seq }, ?run, ?frame, ?sends⟩
  case run =>
    unfold programPage
    rw [run_assign_bind]
    change (get >>= _ : M Unit) s1 = _
    have hpage : withinPage s1.pp.addr.toNat (0 : BitVec 32).toNat = true :=
      withinPage_iff.2 (Nat.le_of_lt (Nat.mod_lt _ (by decide)))
    have hcap1 : withinCapacity s1 s1.pp.addr.toNat (0 : BitVec 32).toNat = true :=
      withinCapacity_iff.2 (by simpa using hcap)
    rw [run_get_bind, run_bind_ok (run_require_true s1 hpage), run_bind_ok (run_require_true s1 hcap1),
      run_bind_ok henable, run_select_bind, run_bind_ok hcommand, run_get_bind]
    change (sendAddr a >>= _ : M Unit) s3 = _
    rw [run_bind_ok haddr]
    have hsent : ({ s4 with pp := { s4.pp with i := 0 } } : State) = sp.programSent a [] := by
      rw [State.programSent, pushedAll_append]
      rfl
    rw [run_assign_bind, hsent, run_get_bind]
    exact run_callAt_ok s5 hwait
  case frame =>
    rw [hwaited.frame]
    simp only [s6]
    rw [hprogram.frame]
    simp only [sp, s2, s1, State.sentOne, hs.cs, hs.ready, hs.phase]
  case sends =>
    have h1 : Sends [[0x06]] s sp := (sentOne_sends s1 0x06 { s1.dev with wel := true }).congr rfl rfl
    exact (h1.trans hprogram.sends).trans (hwaited.sends.congr rfl rfl)

/-- Settles O50: the law of `programPage` of no byte. -/
theorem ppProgramOfNothing : Obligations.PpProgramOfNothing := by
  intro a s hinv h hcap
  obtain ⟨k, u, hrun, hframe, hsends⟩ := programPage_zero (data := []) (src := .caller) (b := 0)
    (usable_accepted hinv h .programPage) hcap
  obtain ⟨hbusy, hcs, hseq⟩ := h.idle
  have hframe : respond 0x00 u = { s with
      pp := u.pp, sra := u.sra, rsp := { status := .ok, result := 0x00 }, env := u.env, trace := u.trace,
      dev := { s.dev with wel := u.dev.wel, busyFor := u.dev.busyFor } } := by
    rw [hframe]
    simp only [respond, accepted, hbusy, hseq]
  refine ⟨k, respond 0x00 u, request_ok rfl h.idle (run_bind_ok hrun), hframe, hsends.transactions_eq, fun x => ?_⟩
  exact flashByte_congr h.clean (by rw [State.PClean, hframe]; exact h.clean) (by rw [hframe]) x

end Sys2Proof.Proofs
end

section
/-! What one step of the machine can be, and the statements that hold of every step. -/

open Sys2Proof Sys2Proof.Machine

namespace Sys2Proof.Proofs

/-! ### The cases of a step -/

/-- The next state of a step: the block waits, polls on, is reset, runs what it took from the port, meets a reset in the
middle of that, or finds the device re-initialised. -/
inductive Stepped (s : State) : State → Prop
  | waits (hbusy : s.engBusy = false) : Stepped s s
  | polls (hbusy : s.engBusy = true) : Stepped s (spin s)
  | resets (rest : List Input) (hport : s.port = .engineReset :: rest) : Stepped s (engineReset { s with port := rest })
  | runs (i : Instr) (rest : List Input) (t : State) (hbusy : s.engBusy = false)
      (hexec : exec i { s with port := rest } = .next t) : Stepped s t
  | interrupted (n : Nat) (selected : Bool) (i : Instr) (rest : List Input) (t : State) (hbusy : s.engBusy = false)
      (hrun : resetDuringRequest n selected i { s with port := rest } = .next t) : Stepped s t
  | reinitialised (flash : Memory) (wel ads asleep guarded : Bool) (rest : List Input) (hbusy : s.engBusy = false)
      (hport : s.port = .reinitialised flash wel ads asleep guarded :: rest) :
      Stepped s (reinitialise flash wel ads asleep guarded { s with port := rest })

theorem step_next {s t : State} (h : step s = .next t) : Stepped s t := by
  unfold step stepInput at h
  by_cases hbusy : s.engBusy = true
  · have hpolls : spin s = t → Stepped s t := by
      rintro rfl
      exact .polls hbusy
    split at h
    case h_1 => rw [if_pos hbusy] at h; injection h with h; exact hpolls h
    case h_2 rest hport => injection h with h; subst h; exact .resets rest hport
    case h_3 => rw [runPacket, if_pos hbusy] at h; injection h with h; exact hpolls h
    case h_4 => rw [runInterrupted, if_pos hbusy] at h; injection h with h; exact hpolls h
    case h_5 => rw [if_pos hbusy] at h; injection h with h; exact hpolls h
  · have hbusy' := Bool.eq_false_iff.2 hbusy
    split at h
    case h_1 => rw [if_neg hbusy] at h; injection h with h; subst h; exact .waits hbusy'
    case h_2 rest hport => injection h with h; subst h; exact .resets rest hport
    case h_3 p rest hport =>
      rw [runPacket, if_neg hbusy] at h
      split at h
      next i hi => exact .runs i rest t hbusy' h
      next => cases h
    case h_4 n selected p rest hport =>
      rw [runInterrupted, if_neg hbusy] at h
      split at h
      next i hi => exact .interrupted n selected i rest t hbusy' h
      next => cases h
    case h_5 flash wel ads asleep guarded rest hport =>
      rw [if_neg hbusy] at h
      injection h with h
      subst h
      exact .reinitialised flash wel ads asleep guarded rest hbusy' hport

/-- Settles O8: an idle block takes the packet, and the decoder answers the instruction that is run. -/
theorem stepRunsDecodedPacket : Obligations.StepRunsDecodedPacket := by
  intro s p rest i hbusy hport hdecode
  simp only [step, stepInput, hport, runPacket, hbusy, hdecode, Bool.false_eq_true, if_false]

/-! ### A busy block -/

theorem spin_of_not_stuck {s : State} (h : s.stuck = false) : spin s = s := by
  rw [spin, h]
  rfl

/-- What one more poll may write (40 R146). -/
theorem spin_frame (s : State) :
    spin s = { s with sra := (spin s).sra, seq := (spin s).seq, cs := (spin s).cs, env := (spin s).env,
                      trace := (spin s).trace, dev := { s.dev with phase := (spin s).dev.phase } } := by
  cases hstuck : s.stuck with
  | false => rw [spin_of_not_stuck hstuck]
  | true =>
    obtain ⟨hframe, -⟩ := spin_stuck hstuck
    generalize spin s = t at hframe ⊢
    rw [hframe]

/-- Settles O9: no instruction is accepted, and the step polls. -/
theorem requestWaitsWhileBusy : Obligations.RequestWaitsWhileBusy := by
  intro s hbusy
  refine ⟨exec_busy hbusy, fun p rest hport => ⟨spin s, ?_, spin_frame s⟩⟩
  simp only [step, stepInput, hport, runPacket, hbusy, if_true]

/-! ### The reset of the engine -/

/-- The device and the transport as the reset leaves them (10_state R36, 70 R292). -/
def resetting (s : State) : State := if s.engBusy then (cutShort s).poison else cutShort s

theorem cutShort_busy (s : State) : (cutShort s).engBusy = s.engBusy := by
  unfold cutShort
  split
  · exact s.deselected_engBusy
  · rfl

theorem onlyBus_cutShort (s : State) : OnlyBus s (cutShort s) := by
  unfold cutShort
  split
  · exact onlyBus_deselected s
  · exact OnlyBus.refl s

theorem onlyBus_resetting (s : State) : OnlyBus s (resetting s) := by
  unfold resetting
  split
  · exact (onlyBus_cutShort s).trans (onlyDevice_poison _).onlyBus
  · exact onlyBus_cutShort s

theorem engineReset_eq (s : State) : engineReset s = { State.reset with
    dd := s.dd, pollLimit := s.pollLimit, dev := (resetting s).dev, env := (resetting s).env, port := s.port,
    trace := (resetting s).trace } := by
  have heq : engineReset s = { State.reset with
      dd := (resetting s).dd, pollLimit := (resetting s).pollLimit, dev := (resetting s).dev,
      env := (resetting s).env, port := (resetting s).port, trace := (resetting s).trace } := by
    unfold resetting
    rw [← cutShort_busy s]
    rfl
  have hbus := onlyBus_resetting s
  rw [heq]
  generalize resetting s = u at hbus ⊢
  rw [hbus]

/-- What is sent is not changed by the selects and deselects around it. -/
def sentCount (s : State) : Nat := (sent s.trace).length

theorem sentCount_deselected (s : State) : sentCount s.deselected = sentCount s := rfl

theorem sentCount_exchange {tx rx : Byte} {s t : State} (h : t.trace = .xchg tx rx :: s.trace) :
    sentCount t = sentCount s + 1 := by
  simp [sentCount, sent, h]

theorem sentCount_cutShort (s : State) : sentCount (cutShort s) = sentCount s := by
  unfold cutShort
  split
  · exact sentCount_deselected s
  · rfl

/-- What a reset of the engine leaves (10_state R35, R36, 70 R291, R292). -/
structure WasReset (s t : State) : Prop where
  idle : t.PIdle
  rsp : t.rsp = { status := .ok, result := 0x00 }
  port : t.port = s.port
  pollLimit : t.pollLimit = s.pollLimit
  stored : KeepsStored s t
  phase : (s.cs = false → s.dev.phase = .off) → t.dev.phase = .off
  dev : s.engBusy = false → s.cs = false → t.dev = s.dev
  busy : s.engBusy = true → t.dev.poisoned = true
  poisoned : s.dev.poisoned = true → t.dev.poisoned = true
  sent : sentCount t = sentCount s

theorem wasReset_engineReset (s : State) : WasReset s (engineReset s) := by
  have hcut : KeepsStored s (cutShort s) ∧ (s.dev.poisoned = true → (cutShort s).dev.poisoned = true) := by
    unfold cutShort
    split
    · exact ⟨execFrame_stored.deselect s, execFrame_poisoned.deselect s⟩
    · exact ⟨execFrame_stored.refl s, id⟩
  have hstored : KeepsStored s (resetting s) := by
    unfold resetting
    split
    · exact execFrame_stored.trans hcut.1 (execFrame_stored.poisonWith _ .all)
    · exact hcut.1
  have hphase : (s.cs = false → s.dev.phase = .off) → (resetting s).dev.phase = .off := by
    intro h
    unfold resetting
    split
    · exact (poisonWith_phase _ _).trans (cutShort_phase h)
    · exact cutShort_phase h
  have hsent : sentCount (resetting s) = sentCount s := by
    unfold resetting
    split
    · rw [sentCount, State.poison_trace]
      exact sentCount_cutShort s
    · exact sentCount_cutShort s
  have hbusy : s.engBusy = true → (resetting s).dev.poisoned = true := by
    intro hb
    rw [resetting, if_pos hb]
    exact poison_poisoned _
  have hidle : s.engBusy = false → resetting s = cutShort s := fun hb => by rw [resetting, hb]; rfl
  rw [engineReset_eq]
  refine ⟨⟨rfl, rfl, rfl⟩, rfl, rfl, rfl, ⟨rfl, fun h => ?_⟩, hphase, fun hb hcs => ?_, hbusy, fun hp => ?_, hsent⟩
  · obtain ⟨hwf, hbelow, -, -⟩ := hstored.2 h
    exact ⟨hwf, by rwa [hstored.1] at hbelow, rfl, rfl⟩
  · change (resetting s).dev = s.dev
    rw [hidle hb, cutShort, hcs]
    rfl
  · cases hb : s.engBusy with
    | true => exact hbusy hb
    | false =>
      change (resetting s).dev.poisoned = true
      rw [hidle hb]
      exact hcut.2 hp

/-- Settles O11: the engine takes its reset values; the device is touched only in the middle of a request. -/
theorem engineResetLeavesResetState : Obligations.EngineResetLeavesResetState := by
  intro s rest hport
  have h := wasReset_engineReset { s with port := rest }
  exact ⟨_, by simp only [step, stepInput, hport], h.idle, h.rsp, h.port, h.stored.1, h.pollLimit, h.dev, h.busy⟩

/-! ### A reset in the middle of a request -/

/-- A run that is to be cut after `n` exchanges, or that fails before: the state in which it starts, the one in which it
ends, and the reset from there. -/
structure CutRun (n : Nat) (i : Instr) (s t : State) where
  gap : Nat
  later : List Nat
  last : State
  left : List Nat
  trace : List BusEvent
  within : gap ≤ n
  runs : exec i (s.mapEnv fun e => { e with xferFail := gap :: later }) = .next last
  cut : trace = last.trace ∨ trace = unselect last.trace
  resets : t = resetBeforeResponse { last.mapEnv (fun e => { e with xferFail := left }) with trace := trace }

theorem resetDuringRequest_next {n : Nat} {selected : Bool} {i : Instr} {s t : State}
    (h : resetDuringRequest n selected i s = .next t) : Nonempty (CutRun n i s t) := by
  unfold resetDuringRequest at h
  split at h
  next hfails =>
    split at h
    next u hrun =>
      injection h with h
      obtain ⟨m, r, hx, hm⟩ : ∃ m r, s.env.xferFail = m :: r ∧ m < n := by
        cases hx : s.env.xferFail with
        | nil => simp [failsWithin, hx] at hfails
        | cons m r => exact ⟨m, r, rfl, by simpa [failsWithin, hx] using hfails⟩
      have hs : (s.mapEnv fun e => { e with xferFail := m :: r }) = s := by rw [← hx]; rfl
      exact ⟨⟨m, r, u, u.env.xferFail, u.trace, Nat.le_of_lt hm, by rw [hs]; exact hrun, .inl rfl, h.symm⟩⟩
    all_goals cases h
  next =>
    dsimp only at h
    split at h
    next u hrun =>
      injection h with h
      refine ⟨⟨n, _, u, _, _, Nat.le_refl n, hrun, ?_, h.symm⟩⟩
      split
      · exact .inr rfl
      · exact .inl rfl
    all_goals cases h

/-- An idle block answers whatever is cut. -/
theorem resetDuringRequest_answers (n : Nat) (selected : Bool) (i : Instr) {s : State} (hidle : s.PIdle) :
    ∃ t, resetDuringRequest n selected i s = .next t := by
  unfold resetDuringRequest
  split
  · obtain ⟨u, hu⟩ := exec_idle_isNext hidle i
    rw [hu]
    exact ⟨_, rfl⟩
  · dsimp only
    obtain ⟨u, hu⟩ := exec_idle_isNext (s := s.mapEnv fun e => { e with
      xferFail := n :: cutTail n s.env.xferFail }) hidle i
    rw [hu]
    exact ⟨_, rfl⟩

theorem length_sent_unselect (tr : List BusEvent) : (sent (unselect tr)).length = (sent tr).length := by
  unfold unselect
  split <;> rfl

/-- Of a run whose first failure comes after `g` exchanges, at most `g` have taken place. -/
def countProtocol (n g : Nat) (later : List Nat) : Protocol (fun _ => True) (fun _ => True) where
  out s := ∃ k left, k + left = g ∧ s.env.xferFail = left :: later ∧ sentCount s = n + k
  sel s := ∃ k left, k + left = g ∧ s.env.xferFail = left :: later ∧ sentCount s = n + k
  inn s := ∃ k left, k + left = g ∧ s.env.xferFail = left :: later ∧ sentCount s = n + k
  cut _ s := ∃ k ≤ g, sentCount s = n + k
  regs_out h := by
    rintro ⟨k, left, hg, hx, hsent⟩
    exact ⟨k, left, hg, by rw [h.env, hx], by rw [sentCount, h.trace]; exact hsent⟩
  regs_inn h := by
    rintro ⟨k, left, hg, hx, hsent⟩
    exact ⟨k, left, hg, by rw [h.env, hx], by rw [sentCount, h.trace]; exact hsent⟩
  selects h := h
  command _ hs h := exchange hs h
  exchange hs h := exchange hs h
  deselects {s} := by
    rintro ⟨k, left, hg, hx, hsent⟩
    refine ⟨k, left, hg, ?_, hsent⟩
    change s.act.env.xferFail = _
    rw [onlyDevice_act s]
    exact hx
  fail hs h := by
    obtain ⟨k, left, hg, -, hsent⟩ := or_self_iff.1 hs
    obtain ⟨-, gaps, -, rfl⟩ := xchg_error h
    exact ⟨k, by omega, hsent⟩
  stop _ := by
    rintro ⟨k, left, hg, -, hsent⟩
    exact ⟨k, by omega, hsent⟩
  hung := by
    rintro s ⟨k, left, hg, -, hsent⟩ - -
    exact ⟨k, by omega, hsent⟩
where
  /-- An exchange that succeeds is one of the `g`. -/
  exchange {n g : Nat} {later : List Nat} {tx rx : Byte} {s t : State}
      (hs : ∃ k left, k + left = g ∧ s.env.xferFail = left :: later ∧ sentCount s = n + k)
      (h : xchg tx s = .ok rx t) :
      ∃ k left, k + left = g ∧ t.env.xferFail = left :: later ∧ sentCount t = n + k := by
    obtain ⟨k, left, hg, hx, hsent⟩ := hs
    obtain ⟨gaps, hrun, ⟨hnil, -⟩ | ⟨m, r, hcons, rfl⟩⟩ := xchg_eq_ok h
    · rw [hx] at hnil
      cases hnil
    · rw [hx] at hcons
      injection hcons with hleft hlater
      subst hleft hlater
      refine ⟨k + 1, m, by omega, ?_, ?_⟩
      · obtain ⟨-, rfl⟩ := Prod.mk.injEq .. ▸ hrun
        exact State.exchanged_xferFail ..
      · rw [sentCount_exchange (takesIn_of_xchg h).trace, hsent, Nat.add_assoc]

theorem sentCount_abort (e : Status) (s : State) : sentCount (abort e s) = sentCount s := by
  have htrace : (abort e s).trace = (cutShort s).trace := by
    by_cases he : e.poisons = true
    · rw [abort_of_poisons he]
      exact State.poisonWith_trace ..
    · rw [abort_of_not_poisons (Bool.eq_false_iff.2 he)]
      rfl
  rw [sentCount, htrace]
  exact sentCount_cutShort s

/-- Whatever the instruction, a first failure after `g` exchanges leaves it at most `g` of them. -/
theorem exec_sentCount {i : Instr} {s t : State} {g : Nat} {later : List Nat} (hidle : s.PIdle)
    (hx : s.env.xferFail = g :: later) (h : exec i s = .next t) : ∃ k ≤ g, sentCount t = sentCount s + k := by
  have hended := exec_ended (countProtocol (sentCount s) g later) (fun _ _ => trivial) (fun _ _ => trivial)
    (fun _ _ _ _ => trivial) (fun _ => .inr trivial) ⟨0, g, Nat.zero_add g, hx, rfl⟩ hidle h
  cases hended with
  | answered r u hu hway =>
    obtain ⟨k, left, hg, -, hsent⟩ := hu
    exact ⟨k, by omega, hsent⟩
  | aborted e u hu hway =>
    rw [sentCount_abort]
    exact hu
  | hung u hu hway =>
    rw [sentCount, State.poisonHung_trace]
    exact hu
  | sent u hu hbus =>
    obtain ⟨k, left, hg, -, hsent⟩ := hu
    exact ⟨k, by omega, hsent⟩
  | sentCut u hu hbus =>
    rw [sentCount, State.poison_trace]
    exact hu
  | refused => exact ⟨0, Nat.zero_le g, rfl⟩

/-- Settles O12: the run is cut after at most `n` exchanges, and the reset follows as in the middle of a request. -/
theorem resetDuringRequestPoisons : Obligations.ResetDuringRequestPoisons := by
  intro s n selected p rest i hidle hport hdecode
  obtain ⟨hbusy, hcs, hseq⟩ := hidle
  have hstep : step s = resetDuringRequest n selected i { s with port := rest } := by
    simp only [step, stepInput, hport, runInterrupted, hbusy, hdecode, Bool.false_eq_true, if_false]
  obtain ⟨t, ht⟩ := resetDuringRequest_answers n selected i (s := { s with port := rest }) ⟨hbusy, hcs, hseq⟩
  obtain ⟨run⟩ := resetDuringRequest_next ht
  obtain ⟨hdd, hlimit, hport'⟩ := exec_given run.runs
  obtain ⟨k, hk, hsent⟩ := exec_sentCount (s := State.mapEnv { s with port := rest } fun e => { e with
    xferFail := run.gap :: run.later }) ⟨hbusy, hcs, hseq⟩ rfl run.runs
  have hreset := wasReset_engineReset { run.last.mapEnv (fun e => { e with xferFail := run.left }) with
    trace := run.trace, engBusy := true }
  have htrace : (sent run.trace).length = (sent run.last.trace).length := by
    obtain h | h := run.cut <;> rw [h]
    exact length_sent_unselect _
  rw [hstep, ht, run.resets]
  exact ⟨_, k, rfl, hreset.idle, hreset.rsp, hreset.port.trans hport', hreset.stored.1.trans hdd,
    hreset.pollLimit.trans hlimit, hreset.busy rfl, Nat.le_trans hk run.within,
    (hreset.sent.trans htrace).trans hsent⟩

/-! ### What every step keeps -/

/-- A re-initialised device holds the contents the environment names, where these are a memory of its size. -/
theorem ofCells_eq_self {n : Nat} {m : Memory} (hwf : m.wf = true) (hbelow : m.below n = true) :
    Memory.ofCells n m = m := by
  induction m with
  | nil => rfl
  | cons c m ih =>
    obtain ⟨hc, habove, hwf⟩ := Memory.wf_cons.1 hwf
    obtain ⟨hn, hbelow⟩ := Memory.below_cons.1 hbelow
    rw [Memory.ofCells, if_pos hn, ih hwf hbelow]
    cases m with
    | nil => rw [Memory.write, if_neg hc]
    | cons d m => rw [Memory.write, if_pos (Memory.above_cons.1 habove).1, if_neg hc]

/-- Settles O16: instructions, polls, resets and re-initialisations all leave the two parameters. -/
theorem descriptorIsImmutable : Obligations.DescriptorIsImmutable := by
  constructor
  · intro i s t h
    obtain ⟨hdd, hlimit, -⟩ := exec_given h
    exact ⟨hdd, hlimit⟩
  · intro s t h
    cases step_next h with
    | waits => exact ⟨rfl, rfl⟩
    | polls => rw [spin_frame s]; exact ⟨rfl, rfl⟩
    | resets rest => exact ⟨(wasReset_engineReset _).stored.1, (wasReset_engineReset _).pollLimit⟩
    | runs i rest t hbusy hexec =>
      obtain ⟨hdd, hlimit, -⟩ := exec_given hexec
      exact ⟨hdd, hlimit⟩
    | interrupted n selected i rest t hbusy hrun =>
      obtain ⟨run⟩ := resetDuringRequest_next hrun
      obtain ⟨hdd, hlimit, -⟩ := exec_given run.runs
      rw [run.resets]
      exact ⟨(wasReset_engineReset _).stored.1.trans hdd, (wasReset_engineReset _).pollLimit.trans hlimit⟩
    | reinitialised => exact ⟨rfl, rfl⟩

/-- Settles O17: the mark survives every instruction, poll and reset; the re-initialisation names a new device. -/
theorem poisonedUntilReinitialised : Obligations.PoisonedUntilReinitialised := by
  refine ⟨fun i s t h => execFrame_poisoned.exec h, fun s t hport h hp => ?_, ?_⟩
  · cases step_next h with
    | waits => exact hp
    | polls => rw [spin_frame s]; exact hp
    | resets rest => exact (wasReset_engineReset _).poisoned hp
    | runs i rest t hbusy hexec => exact execFrame_poisoned.exec hexec hp
    | interrupted n selected i rest t hbusy hrun =>
      obtain ⟨run⟩ := resetDuringRequest_next hrun
      rw [run.resets]
      exact (wasReset_engineReset _).busy rfl
    | reinitialised flash wel ads asleep guarded rest hbusy hport' => exact absurd hport' (hport _ _ _ _ _ _)
  · intro s m w a z g rest hbusy hport
    refine ⟨reinitialise m w a z g { s with port := rest }, ?_, rfl, rfl, rfl, rfl, rfl, rfl, rfl,
      fun hwf hbelow x => ?_⟩
    · simp only [step, stepInput, hport, hbusy, Bool.false_eq_true, if_false]
    · have hclean : (reinitialise m w a z g { s with port := rest }).dev.poisoned = false := rfl
      rw [State.flashByte_clean hclean]
      exact congrArg (Memory.read · x) (ofCells_eq_self hwf hbelow)

/-- Settles O14: the reset state is idle, with both memories blank. -/
theorem resetMeetsInvariant : Obligations.ResetMeetsInvariant :=
  ⟨rfl, rfl, rfl, rfl, rfl, rfl, fun _ => rfl, fun h => by cases h⟩

theorem stored_of_inv {s : State} (h : s.Inv) : Stored s := ⟨h.flash_wf, h.flash_below, h.sb_wf, h.sb_below⟩

/-- The invariant holds of an idle block whose memories are as 20_memory R60 says. -/
theorem inv_of_idle {s : State} (hidle : s.PIdle) (hstored : Stored s) (hphase : s.dev.phase = .off) : s.Inv := by
  obtain ⟨hbusy, hcs, hseq⟩ := hidle
  obtain ⟨h1, h2, h3, h4⟩ := hstored
  exact ⟨h1, h2, h3, h4, hcs, hphase, fun _ => hseq, fun hb => by simp [hbusy] at hb⟩

/-- An idle block that meets the invariant meets `P_idle`. -/
theorem idle_of_inv {s : State} (h : s.Inv) (hbusy : s.engBusy = false) : s.PIdle :=
  ⟨hbusy, h.deselected, h.idle_seq hbusy⟩

theorem inv_spin {s : State} (h : s.Inv) (hbusy : s.engBusy = true) : (spin s).Inv := by
  obtain ⟨hframe, -, hstuck, -⟩ := spin_stuck (h.busy_stuck hbusy)
  obtain ⟨h1, h2, h3, h4⟩ := stored_of_inv h
  generalize spin s = t at hframe hstuck ⊢
  rw [hframe] at hstuck ⊢
  exact ⟨h1, h2, h3, h4, rfl, rfl, fun hb => absurd hbusy (Bool.eq_false_iff.1 hb), fun _ => hstuck⟩

/-- What follows the invariant through an instruction that an idle block takes. -/
theorem inv_exec {i : Instr} {s t : State} (h : s.Inv) (hbusy : s.engBusy = false) (hexec : exec i s = .next t) :
    t.Inv := by
  obtain ⟨h1, h2, h3, h4⟩ := (execFrame_stored.exec hexec).2 (stored_of_inv h)
  have hclosed := exec_closed (idle_of_inv h hbusy) hexec
  exact ⟨h1, h2, h3, h4, hclosed.cs, hclosed.phase h.phase_off, hclosed.idle, fun hb => (hclosed.hung hb).2.2.2.2⟩

theorem inv_engineReset {s : State} (hstored : Stored s) (hphase : s.cs = false → s.dev.phase = .off) :
    (engineReset s).Inv := by
  have h := wasReset_engineReset s
  exact inv_of_idle h.idle (h.stored.2 hstored) (h.phase hphase)

/-- Settles O13: each case of a step keeps the memories in form and leaves the block closed. -/
theorem stepKeepsInvariant : Obligations.StepKeepsInvariant := by
  intro s t h hstep
  have hport : ∀ rest, State.Inv { s with port := rest } := fun rest =>
    ⟨h.flash_wf, h.flash_below, h.sb_wf, h.sb_below, h.deselected, h.phase_off, h.idle_seq, h.busy_stuck⟩
  cases step_next hstep with
  | waits => exact h
  | polls hbusy => exact inv_spin h hbusy
  | resets rest => exact inv_engineReset (stored_of_inv (hport rest)) fun _ => h.phase_off
  | runs i rest t hbusy hexec => exact inv_exec (hport rest) hbusy hexec
  | interrupted n selected i rest t hbusy hrun =>
    obtain ⟨run⟩ := resetDuringRequest_next hrun
    have hstart : State.Inv (State.mapEnv { s with port := rest } fun e => { e with xferFail := run.gap :: run.later }) :=
      inv_of_idle ⟨hbusy, h.deselected, h.idle_seq hbusy⟩ ⟨h.flash_wf, h.flash_below, h.sb_wf, h.sb_below⟩ h.phase_off
    have hlast := inv_exec hstart hbusy run.runs
    rw [run.resets]
    exact inv_engineReset ⟨hlast.flash_wf, hlast.flash_below, hlast.sb_wf, hlast.sb_below⟩ fun _ => hlast.phase_off
  | reinitialised flash wel ads asleep guarded rest hbusy =>
    refine inv_of_idle ⟨hbusy, h.deselected, h.idle_seq hbusy⟩ ⟨?_, ?_, h.sb_wf, h.sb_below⟩ rfl
    · exact Memory.wf_ofCells _ _
    · exact Memory.below_ofCells _ _

/-- Settles O15: a block that meets the invariant is idle with nothing open, or polls. -/
theorem decodablePacketsRun : Obligations.DecodablePacketsRun := by
  intro s h
  have hidle : ∀ rest, s.engBusy = false → State.PIdle { s with port := rest } := fun _ => idle_of_inv h
  constructor
  · intro f hfault
    unfold step stepInput at hfault
    by_cases hbusy : s.engBusy = true
    · split at hfault
      all_goals simp [runPacket, runInterrupted, hbusy] at hfault
    · have hbusy' := Bool.eq_false_iff.2 hbusy
      split at hfault
      case h_1 => cases hfault
      case h_2 => cases hfault
      case h_3 p rest hport =>
        rw [runPacket, if_neg hbusy] at hfault
        split at hfault
        next i hi =>
          obtain ⟨t, ht⟩ := exec_idle_isNext (hidle rest hbusy') i
          rw [ht] at hfault
          cases hfault
        next => cases hfault
      case h_4 n selected p rest hport =>
        rw [runInterrupted, if_neg hbusy] at hfault
        split at hfault
        next i hi =>
          obtain ⟨t, ht⟩ := resetDuringRequest_answers n selected i (hidle rest hbusy')
          rw [ht] at hfault
          cases hfault
        next => cases hfault
      case h_5 =>
        rw [if_neg hbusy] at hfault
        cases hfault
  · intro p rest i hport hdecode
    cases hbusy : s.engBusy with
    | true => exact ⟨spin s, by simp only [step, stepInput, hport, runPacket, hbusy, if_true]⟩
    | false =>
      rw [stepRunsDecodedPacket s p rest i hbusy hport hdecode]
      exact exec_idle_isNext (hidle rest hbusy) i

end Sys2Proof.Proofs
end

section
/-! Status registers: what one read, one write and a wait do on a device when no exchange fails (40 R141 to R149,
46 R233, R234, R239). -/

open Sys2Proof Sys2Proof.Machine

namespace Sys2Proof.Proofs

/-! ### The device's own step -/

/-- What the device's own step leaves of the device: its cycle may have ended, with a free latch (46 R239). -/
structure OwnDevice (d d' : Device) : Prop where
  flash : d'.flash = d.flash
  ads : d'.ads = d.ads
  poisoned : d'.poisoned = d.poisoned
  awake : d'.asleep = d.asleep ∧ d'.guarded = d.guarded
  cycle : (d'.pend = d.pend ∧ d'.wel = d.wel) ∨ (d.pend ≠ .none ∧ d'.pend = .none)

theorem OwnDevice.of_same {d d' : Device} (h : d' = { d with phase := d'.phase }) : OwnDevice d d' := by
  rw [h]
  exact ⟨rfl, rfl, rfl, ⟨rfl, rfl⟩, .inl ⟨rfl, rfl⟩⟩

/-- On a device that is not POISONED the cells are `F`. -/
theorem OwnDevice.ownStep {s t : State} (h : OwnDevice s.dev t.dev) (hclean : s.PClean) : OwnStep s t where
  flash := flashByte_congr hclean (h.poisoned.trans hclean) h.flash
  ads := h.ads
  poisoned := h.poisoned
  awake := h.awake
  cycle := h.cycle

/-- A look at a device is its own step, and answers whether a cycle is pending after it. -/
theorem looked_own (d : Device) (w : Bool) :
    OwnDevice d (d.looked w).2 ∧ (d.looked w).1 = (d.looked w).2.busy ∧ (d.looked w).2.phase = d.phase := by
  by_cases hp : d.pend = .none
  · rw [looked_idle w hp]
    exact ⟨.of_same rfl, by simp [Device.busy, hp], rfl⟩
  · have hbusy : ∀ b, ({ d with busyFor := b } : Device).busy = true := fun b => decide_eq_true hp
    rcases hk : d.busyFor with _ | _ | k
    · rw [looked_stuck w hp hk]
      exact ⟨.of_same rfl, (decide_eq_true hp).symm, rfl⟩
    · rw [looked_ends w hp hk]
      exact ⟨⟨rfl, rfl, rfl, ⟨rfl, rfl⟩, .inr ⟨hp, rfl⟩⟩, rfl, rfl⟩
    · rw [looked_runs w hp hk]
      exact ⟨⟨rfl, rfl, rfl, ⟨rfl, rfl⟩, .inl ⟨rfl, rfl⟩⟩, (hbusy _).symm, rfl⟩

theorem bit0_withBit0 (bits : Byte) (b : Bool) : bit0 (withBit0 bits b) = b := by
  cases b <;> simp [bit0, withBit0]

/-! ### Status reads -/

/-- `t` is `s` after the two exchanges of a status read with the command `c`, which received `v` last. -/
structure StatusDriven (r : StatusReg) (c v : Byte) (s t : State) : Prop where
  frame : t = { s with dev := t.dev, env := t.env, cs := true, trace := t.trace }
  trace : t.trace = .xchg Config.dummyTx v :: .xchg c (Config.freeByte s.env.drawn) :: .select :: s.trace
  phase : t.dev.phase = .statusRead r true
  own : OwnDevice s.dev t.dev
  busy : r = .sr1 → bit0 v = t.dev.busy
  ads : r = .sr3 → bit0 v = s.dev.ads

/-- The byte a status register drives: of the device only its own step is taken (46 R233). -/
theorem driveStatus_own (r : StatusReg) {s : State} (hclean : s.PClean) :
    OwnDevice s.dev (s.driveStatus r).2.dev ∧ (r = .sr1 → bit0 (s.driveStatus r).1 = (s.driveStatus r).2.dev.busy) ∧
      (r = .sr3 → bit0 (s.driveStatus r).1 = s.dev.ads) := by
  cases r with
  | sr1 =>
    obtain ⟨w, hbusy, hdev, -⟩ := observe_looked (s := s) (.inl hclean)
    obtain ⟨hown, hlook, -⟩ := looked_own s.dev w
    have hdev' : (s.driveStatus .sr1).2.dev = (s.dev.looked w).2 := by
      simp only [State.driveStatus, drawStatusBits_dev, hdev]
    refine ⟨by rwa [hdev'], fun _ => ?_, fun h => by cases h⟩
    rw [hdev', ← hlook, ← hbusy]
    exact bit0_withBit0 _ _
  | sr2 =>
    have hdev : (s.driveStatus .sr2).2.dev = s.dev := drawStatusBits_dev s
    refine ⟨.of_same (by rw [hdev]), ?_, ?_⟩ <;> exact fun h => by cases h
  | sr3 =>
    have hdrive : s.driveStatus .sr3 = (withBit0 s.drawStatusBits.1 s.dev.ads, s.drawStatusBits.2) := by
      unfold State.driveStatus
      rw [show s.dev.poisoned = false from hclean]
      rfl
    rw [hdrive]
    refine ⟨.of_same (by rw [drawStatusBits_dev]), ?_, fun _ => bit0_withBit0 _ _⟩
    exact fun h => by cases h

theorem statusDriven {s : State} {r : StatusReg} {c : Byte} (hclean : s.PClean)
    (hnext : Phase.next s.dd.addressWidth c .command = .statusRead r false) :
    StatusDriven r c ((s.selected.pushed c).exchanged Config.dummyTx).1 s
      ((s.selected.pushed c).exchanged Config.dummyTx).2 := by
  let u : State := s.selected.pushed c
  have hphase : u.dev.phase = .statusRead r false := hnext
  have hdrive : u.drive = u.driveStatus r := by unfold State.drive; rw [hphase]
  obtain ⟨hown, hbusy, hads⟩ := driveStatus_own r (s := u) hclean
  rw [← hdrive] at hown hbusy hads
  have hframe := OnlyBus.trans (s := s) (t := u) rfl (onlyBus_exchanged u Config.dummyTx)
  refine ⟨?_, u.exchanged_trace Config.dummyTx, ?_, ?_, hbusy, hads⟩
  · have hcs : (u.exchanged Config.dummyTx).2.cs = true := u.exchanged_cs Config.dummyTx
    rw [← hcs]
    exact hframe
  · rw [(exchanged_dev u _).2.1, hphase]
    rfl
  · obtain ⟨h1, h2, h3, h4, h5⟩ := hown
    exact ⟨h1, h2, h3, h4, h5⟩

/-- What is received last. -/
theorem received_getLast? (tx v : Byte) (tr : List BusEvent) :
    (received (.deselect :: .xchg tx v :: tr)).getLast? = some v := by
  simp [received]

/-- The transaction of a status read. -/
theorem transactions_statusRead (c v rx : Byte) (tr : List BusEvent) :
    transactions (.deselect :: .xchg Config.dummyTx v :: .xchg c rx :: .select :: tr) = [c, 0xFF] :: transactions tr := rfl

/-- The state after a status read and its `Deselect()`, with what the engine has written in between. -/
theorem deselected_statusRead {s : State} {r : StatusReg} (h : s.dev.phase = .statusRead r true) :
    s.deselected = { s with cs := false, dev := { s.dev with phase := .off }, trace := .deselect :: s.trace } :=
  deselected_of_act (act_statusRead_done h)

/-- Settles O30: the second exchange drives the register, and the deselect finds nothing to act on. -/
theorem statusReadCommands : Obligations.StatusReadCommands := by
  intro i c r s hi hidle hclean hxfer
  obtain ⟨hexec, hnext⟩ : exec i s = bareTransaction [c, Config.dummyTx] s ∧
      Phase.next s.dd.addressWidth c .command = .statusRead r false := by
    simp only [List.mem_cons, List.not_mem_nil, or_false, Prod.mk.injEq] at hi
    obtain ⟨rfl, rfl, rfl⟩ | ⟨rfl, rfl, rfl⟩ | ⟨rfl, rfl, rfl⟩ := hi
    · exact ⟨rfl, next_readStatusReg1 _⟩
    · exact ⟨rfl, next_readStatusReg2 _⟩
    · exact ⟨rfl, next_readStatusReg3 _⟩
  have h := statusDriven hclean hnext
  have hsend : sendBytes [c, Config.dummyTx] s.selected =
      .ok () ((s.selected.pushed c).exchanged Config.dummyTx).2 := by
    rw [sendBytes, run_bind_ok (xchg_sink (s := s.selected) hxfer rfl c), sendBytes,
      run_bind_ok (xchg_ok (s := s.selected.pushed c) hxfer _)]
    rfl
  generalize ((s.selected.pushed c).exchanged Config.dummyTx).1 = v at h
  generalize ((s.selected.pushed c).exchanged Config.dummyTx).2 = u at h hsend
  obtain ⟨hframe, htrace, hphase, ⟨h1, h2, h3, h4, h5⟩, hbusy, hads⟩ := h
  have hdeselected := deselected_statusRead hphase
  have hown : OwnDevice s.dev u.deselected.dev := by
    rw [hdeselected]
    exact ⟨h1, h2, h3, h4, h5⟩
  refine ⟨u.deselected, v, ?_, ⟨?_, ?_, rfl⟩, ?_, hown.ownStep hclean, ?_, hads⟩
  · rw [hexec, bareTransaction_idle hidle, hsend]
  · obtain ⟨-, hcs, -⟩ := hidle
    rw [hdeselected, hframe, hcs]
  · rw [State.deselected_trace, htrace]
    exact transactions_statusRead c v _ _
  · rw [State.deselected_trace, htrace]
    exact received_getLast? _ v _
  · rw [hdeselected]
    exact hbusy

end Sys2Proof.Proofs
end

section
/-! The status register operations of the host: SR.READ, SR.WRITE, SR.BUSY, SR.WAIT, and the latch operations
(40 R142 to R149, 41 R161, R162). -/

open Sys2Proof Sys2Proof.Machine

namespace Sys2Proof.Proofs

/-! ### SR.READ and SR.BUSY -/

/-- `t` is `s` after `read(n)`, which returned `v`. -/
structure StatusWasRead (n : BitVec 8) (r : StatusReg) (v : Byte) (s t : State) : Prop where
  frame : t = { s with sra := { s.sra with reg := n, value := v }, dev := t.dev, env := t.env, cs := false,
                       trace := t.trace }
  trace : ∃ rx, t.trace = .deselect :: .xchg Config.dummyTx v :: .xchg (readCommand n) rx :: .select :: s.trace
  own : OwnDevice s.dev t.dev
  busy : r = .sr1 → bit0 v = t.dev.busy
  ads : r = .sr3 → bit0 v = s.dev.ads

theorem readStatus_ok {s : State} {n : BitVec 8} {r : StatusReg} (hclean : s.PClean) (hxfer : s.PXfer)
    (hvalid : validRegister n = true)
    (hnext : Phase.next s.dd.addressWidth (readCommand n) .command = .statusRead r false) :
    ∃ v t, readStatus n s = .ok v t ∧ StatusWasRead n r v s t := by
  let s1 : State := { s with sra := { s.sra with reg := n } }
  have h := statusDriven (s := s1) (c := readCommand n) hclean hnext
  have hcommand : xchg (readCommand n) s1.selected = .ok _ (s1.selected.pushed (readCommand n)) :=
    xchg_sink (s := s1.selected) hxfer rfl _
  have hdriven : xchg Config.dummyTx (s1.selected.pushed (readCommand n)) = .ok _ _ :=
    xchg_ok (s := s1.selected.pushed (readCommand n)) hxfer _
  generalize ((s1.selected.pushed (readCommand n)).exchanged Config.dummyTx).1 = v at h hdriven
  generalize ((s1.selected.pushed (readCommand n)).exchanged Config.dummyTx).2 = u at h hdriven
  obtain ⟨hframe, htrace, hphase, ⟨h1, h2, h3, h4, h5⟩, hbusy, hads⟩ := h
  let u' : State := { u with sra := { u.sra with value := v } }
  have hdeselected : u'.deselected = _ := deselected_statusRead (s := u') hphase
  refine ⟨v, u'.deselected, ?run, ?_⟩
  case run =>
    unfold readStatus
    rw [run_bind_ok (run_require_true _ hvalid), run_assign_bind, run_select_bind]
    change (xchg (readCommand n) >>= _) s1.selected = _
    rw [run_bind_ok hcommand, run_bind_ok hdriven, run_assign_bind, run_deselect_bind, run_get_bind, run_pure,
      State.deselected_sra]
  · rw [hdeselected]
    refine ⟨?_, ⟨Config.freeByte s.env.drawn, ?_⟩, ⟨h1, h2, h3, h4, h5⟩, hbusy, hads⟩
    · simp only [u']
      rw [hframe]
    · simp only [u']
      rw [htrace]

/-- The first transaction of a trace that a status read has grown. -/
theorem StatusWasRead.transactions_eq {n : BitVec 8} {r : StatusReg} {v : Byte} {s t : State}
    (h : StatusWasRead n r v s t) : transactions t.trace = [readCommand n, 0xFF] :: transactions s.trace := by
  obtain ⟨rx, htrace⟩ := h.trace
  rw [htrace]
  exact transactions_statusRead _ _ _ _

/-- Settles O42: the byte `read(n)` returns is the one received last. -/
theorem srReadReturnsRegister : Obligations.SrReadReturnsRegister := by
  intro n c s hn hidle hclean hxfer
  obtain ⟨r, hvalid, hc, hnext, h1, h3⟩ : ∃ r, validRegister n = true ∧ readCommand n = c ∧
      Phase.next s.dd.addressWidth (readCommand n) .command = .statusRead r false ∧ (n = 1 → r = .sr1) ∧
      (n = 3 → r = .sr3) := by
    simp only [List.mem_cons, List.not_mem_nil, or_false, Prod.mk.injEq] at hn
    obtain ⟨rfl, rfl⟩ | ⟨rfl, rfl⟩ | ⟨rfl, rfl⟩ := hn
    · exact ⟨.sr1, rfl, rfl, next_readStatusReg1 _, fun _ => rfl, fun h => absurd h (by decide)⟩
    · exact ⟨.sr2, rfl, rfl, next_readStatusReg2 _, fun h => absurd h (by decide), fun h => absurd h (by decide)⟩
    · exact ⟨.sr3, rfl, rfl, next_readStatusReg3 _, fun h => absurd h (by decide), fun _ => rfl⟩
  subst hc
  obtain ⟨v, u, hrun, h⟩ := readStatus_ok (s := accepted .read s) hclean hxfer hvalid hnext
  obtain ⟨rx, htrace⟩ := h.trace
  obtain ⟨hbusy, hcs, hseq⟩ := hidle
  refine ⟨respond v u, v, request_ok rfl ⟨hbusy, hcs, hseq⟩ hrun, ?_, h.transactions_eq, ?_,
    OwnDevice.ownStep (t := respond v u) h.own hclean, fun hn => h.busy (h1 hn), fun hn => h.ads (h3 hn)⟩
  · rw [h.frame]
    simp only [respond, accepted, hbusy, hcs, hseq]
  · change (received u.trace).getLast? = _
    rw [htrace]
    exact received_getLast? _ _ _

/-- Settles O45: the poll of `busy()` is `read(1)`, and its bit 0 is BUSY. -/
theorem srBusyReturnsBusy : Obligations.SrBusyReturnsBusy := by
  intro s hidle hclean hxfer
  let s1 : State := { accepted .busy s with
    seq := { proc := .read, label := .RD0 } :: relabel .BZ0 (accepted .busy s).seq }
  obtain ⟨v, u, hrun, h⟩ := readStatus_ok (s := s1) (n := 1) hclean hxfer rfl (next_readStatusReg1 _)
  let u' : State := { u with seq := relabel .BZ1 (accepted .busy s).seq }
  have hrun' : (do let b ← busy; pure (boolResult b) : M Byte) (accepted .busy s) = .ok (boolResult (bit0 v)) u' := by
    have hbusy : busy (accepted .busy s) = .ok (bit0 v) u' := by
      unfold busy
      rw [run_bind_ok (run_callAt_ok (site := .BZ0) (p := .read) _ hrun)]
      rfl
    rw [run_bind_ok hbusy, run_pure]
  obtain ⟨hbusy, hcs, hseq⟩ := hidle
  have hresult : boolResult (bit0 v) = if u.dev.pend = .none then 0x00 else 0x01 := by
    rw [h.busy rfl, boolResult, Device.busy]
    by_cases hp : u.dev.pend = .none <;> simp [hp]
  have hframe : respond (boolResult (bit0 v)) u' = { s with
      sra := { s.sra with reg := 1, value := v }, rsp := { status := .ok, result := boolResult (bit0 v) },
      dev := u.dev, env := u.env, trace := u.trace } := by
    simp only [respond, u']
    rw [h.frame]
    simp only [s1, accepted, hbusy, hcs, hseq]
  refine ⟨respond (boolResult (bit0 v)) u', v, request_ok rfl ⟨hbusy, hcs, hseq⟩ hrun', hframe.trans ?_,
    h.transactions_eq, OwnDevice.ownStep (t := respond (boolResult (bit0 v)) u') h.own hclean⟩
  rw [hresult]
  rfl

/-! ### Status writes -/

/-- What a status register write leaves of an idle device (46 R234, log 17). -/
structure StatusWritten (r : StatusReg) (d d' : Device) : Prop where
  flash : d'.flash = d.flash
  poisoned : d'.poisoned = d.poisoned
  cycle : d'.pend = .none ∨ d'.pend = .statuswrite
  ads : r ≠ .sr3 → d'.ads = d.ads
  asleep : d'.asleep = d.asleep

theorem actStatusWrite_written (r : StatusReg) (s : State) : StatusWritten r s.dev (s.actStatusWrite r).dev := by
  have hbase : StatusWritten .sr1 s.dev ((s.mayStartCycle .statuswrite).freeWel.freeGuarded).dev := by
    rw [freeGuarded_dev, freeWel_dev]
    obtain h | h := mayStartCycle_dev s .statuswrite <;> rw [h]
    · exact ⟨rfl, rfl, .inr rfl, fun _ => rfl, rfl⟩
    · exact ⟨rfl, rfl, .inl rfl, fun _ => rfl, rfl⟩
  obtain ⟨hflash, hpoisoned, hcycle, hads, hasleep⟩ := hbase
  cases r with
  | sr1 => exact ⟨hflash, hpoisoned, hcycle, hads, hasleep⟩
  | sr2 => exact ⟨hflash, hpoisoned, hcycle, fun _ => hads (by decide), hasleep⟩
  | sr3 =>
    have hdev : (s.actStatusWrite .sr3).dev = _ := freeAds_dev (s.mayStartCycle .statuswrite).freeWel.freeGuarded
    rw [hdev]
    exact ⟨hflash, hpoisoned, hcycle, fun h => absurd rfl h, hasleep⟩

/-- The transaction of a status register write on an idle device. -/
theorem statusWrite_deselected {s : State} {c v : Byte} {r : StatusReg} (hclean : s.PClean) (hready : s.PReady)
    (hnext : Phase.next s.dd.addressWidth c .command = .statusWrite r none) :
    StatusWritten r s.dev (s.selected.pushedAll [c, v]).deselected.dev ∧
      (s.selected.pushedAll [c, v]).deselected = { s with
        cs := false, dev := (s.selected.pushedAll [c, v]).deselected.dev,
        env := (s.selected.pushedAll [c, v]).deselected.env,
        trace := (s.selected.pushedAll [c, v]).deselected.trace } := by
  let u : State := s.selected.pushedAll [c, v]
  have hphase : u.dev.phase = .statusWrite r (some v) := by
    change Phase.next _ v (Phase.next s.dd.addressWidth c .command) = _
    rw [hnext]
    rfl
  have hact : u.act = u.actStatusWrite r := by
    rw [act_statusWrite hphase]
    exact whenIdle_ready _ hclean hready
  obtain ⟨hflash, hpoisoned, hcycle, hads, hasleep⟩ := actStatusWrite_written r u
  have hdev : u.deselected.dev = { (u.actStatusWrite r).dev with phase := .off } := by rw [deselected_of_act hact]
  refine ⟨?_, OnlyBus.trans (s := s) (t := u) rfl (onlyBus_deselected u)⟩
  rw [hdev]
  exact ⟨hflash, hpoisoned, hcycle, hads, hasleep⟩

/-- Settles O31: the device takes the payload in and acts on it at the deselect. -/
theorem statusWriteCommands : Obligations.StatusWriteCommands := by
  intro i c r v s hi hidle hready hclean hxfer
  obtain ⟨hexec, hnext⟩ : exec i s = bareTransaction [c, v] s ∧
      Phase.next s.dd.addressWidth c .command = .statusWrite r none := by
    simp only [List.mem_cons, List.not_mem_nil, or_false, Prod.mk.injEq] at hi
    obtain ⟨rfl, rfl, rfl⟩ | ⟨rfl, rfl, rfl⟩ | ⟨rfl, rfl, rfl⟩ := hi
    · exact ⟨rfl, next_writeStatusReg1 _⟩
    · exact ⟨rfl, next_writeStatusReg2 _⟩
    · exact ⟨rfl, next_writeStatusReg3 _⟩
  have hsinks : Phase.command.sinks s.dd.addressWidth [c, v] = true := by
    simp only [Phase.sinks, hnext]
    rfl
  obtain ⟨hwritten, hframe⟩ := statusWrite_deselected (v := v) hclean hready hnext
  have hsends : Sends [[c, v]] s (s.selected.pushedAll [c, v]).deselected := sends_pushed c [v]
  obtain ⟨-, hcs, -⟩ := id hidle
  refine ⟨_, hexec.trans (bareTransaction_sink hidle hxfer hsinks), ⟨?_, hsends.transactions_eq, rfl⟩,
    hwritten.poisoned.trans hclean, hwritten.cycle, hwritten.ads, hwritten.asleep,
    flashByte_congr hclean (hwritten.poisoned.trans hclean) hwritten.flash⟩
  rw [hcs]
  exact hframe

/-- Settles O44: `write(n, v)` is that transaction alone. -/
theorem srWriteIsBareTransaction : Obligations.SrWriteIsBareTransaction := by
  intro n c v s hn hidle hready hclean hxfer
  obtain ⟨r, hvalid, hc, hnext, h3⟩ : ∃ r, validRegister n = true ∧ writeCommand n = c ∧
      Phase.next s.dd.addressWidth (writeCommand n) .command = .statusWrite r none ∧ (n ≠ 3 → r ≠ .sr3) := by
    simp only [List.mem_cons, List.not_mem_nil, or_false, Prod.mk.injEq] at hn
    obtain ⟨rfl, rfl⟩ | ⟨rfl, rfl⟩ | ⟨rfl, rfl⟩ := hn
    · exact ⟨.sr1, rfl, rfl, next_writeStatusReg1 _, fun _ => by decide⟩
    · exact ⟨.sr2, rfl, rfl, next_writeStatusReg2 _, fun _ => by decide⟩
    · exact ⟨.sr3, rfl, rfl, next_writeStatusReg3 _, fun h => absurd rfl h⟩
  subst hc
  let s1 : State := { accepted .writeRegister s with sra := { s.sra with reg := n, value := v } }
  have hrun : writeStatus n v (accepted .writeRegister s) =
      .ok () (s1.selected.pushedAll [writeCommand n, v]).deselected := by
    have hcommand : xchg (writeCommand n) s1.selected = .ok _ (s1.selected.pushed (writeCommand n)) :=
      xchg_sink (s := s1.selected) hxfer rfl _
    have hsink : (s1.selected.pushed (writeCommand n)).dev.phase.sink = true := by
      change (Phase.next s.dd.addressWidth (writeCommand n) .command).sink = true
      rw [hnext]
      rfl
    unfold writeStatus
    rw [run_bind_ok (run_require_true _ hvalid), run_assign_bind, run_select_bind]
    change (xchg (writeCommand n) >>= _ : M Unit) s1.selected = _
    rw [run_bind_ok hcommand, run_bind_ok (xchg_sink (s := s1.selected.pushed (writeCommand n)) hxfer hsink v)]
    rfl
  obtain ⟨hwritten, hframe⟩ := statusWrite_deselected (s := s1) (v := v) hclean hready hnext
  have hsends : Sends [[writeCommand n, v]] s1 (s1.selected.pushedAll [writeCommand n, v]).deselected :=
    sends_pushed _ [v]
  obtain ⟨hbusy, hcs, hseq⟩ := id hidle
  generalize (s1.selected.pushedAll [writeCommand n, v]).deselected = u at hrun hwritten hframe hsends
  have hclean' : (respond 0x00 u).PClean := hwritten.poisoned.trans hclean
  refine ⟨respond 0x00 u, request_ok rfl hidle (run_bind_ok hrun), ?_, hsends.transactions_eq, hclean', hwritten.cycle,
    fun h => hwritten.ads (h3 h), hwritten.asleep, flashByte_congr hclean hclean' hwritten.flash⟩
  rw [hframe]
  simp only [respond, s1, accepted, hbusy, hcs, hseq]

/-! ### The latch operations -/

/-- Settles O48: each is one transaction of one byte, after which the latch is as the byte says. -/
theorem gateSetsAndClearsLatch : Obligations.GateSetsAndClearsLatch := by
  intro i c v s hi hidle hready hclean hxfer
  obtain ⟨p, hexec⟩ : ∃ p, exec i s = .next (respond 0x00 ((accepted p s).sentOne c { s.dev with wel := v })) := by
    simp only [List.mem_cons, List.not_mem_nil, or_false, Prod.mk.injEq] at hi
    obtain ⟨rfl, rfl, rfl⟩ | ⟨rfl, rfl, rfl⟩ := hi
    · exact ⟨.enable, request_ok rfl hidle (run_bind_ok (enable_ok (s := accepted .enable s) hxfer hclean hready))⟩
    · exact ⟨.disable, request_ok rfl hidle (run_bind_ok (disable_ok (s := accepted .disable s) hxfer hclean hready))⟩
  obtain ⟨hbusy, hcs, hseq⟩ := hidle
  refine ⟨_, hexec, ?_, (sentOne_sends (accepted p s) c { s.dev with wel := v }).transactions_eq,
    flashByte_congr hclean hclean rfl⟩
  simp only [respond, accepted, State.sentOne, hbusy, hcs, hseq]

end Sys2Proof.Proofs
end

section
/-! SR.WAIT: how many polls it makes, and the wait that never ends (40 R146 to R149, 60 R285). -/

open Sys2Proof Sys2Proof.Machine

namespace Sys2Proof.Proofs

/-- One more poll is counted (40 R146, WT3). -/
def counted (s : State) : State := { s with sra := { s.sra with polls := s.sra.polls + 1 } }

/-! ### One turn of the loop -/

section Turn
variable {s t : State} {fuel : Nat}

theorem waitLoop_idle (h : callAt .WT1 .busy busy s = .ok false t) : waitLoop (fuel + 1) s = .ok () t := by
  rw [waitLoop, run_bind_ok h]
  rfl

theorem waitLoop_again (h : callAt .WT1 .busy busy s = .ok true t) (hlimit : pollLimitReached (counted t) = false) :
    waitLoop (fuel + 1) s = waitLoop fuel { counted t with seq := relabel .WT1 t.seq } := by
  have hpass : require (!pollLimitReached (counted t)) .busyTimeout (counted t) = .ok () (counted t) :=
    run_require_true _ (by rw [hlimit]; rfl)
  rw [waitLoop, run_bind_ok h, if_pos rfl, run_assign_bind, run_get_bind]
  exact run_bind_ok hpass

theorem waitLoop_timeout (h : callAt .WT1 .busy busy s = .ok true t) (hlimit : pollLimitReached (counted t) = true) :
    waitLoop (fuel + 1) s = .error (.raised .busyTimeout) (counted t) := by
  have hfail : require (!pollLimitReached (counted t)) .busyTimeout (counted t) =
      .error (.raised .busyTimeout) (counted t) := run_require_false _ (by rw [hlimit]; rfl)
  rw [waitLoop, run_bind_ok h, if_pos rfl, run_assign_bind, run_get_bind]
  exact run_bind_error hfail

end Turn

/-! ### Polls that find the device busy -/

/-- `t` is `s` after `j` polls that found the cycle running. -/
structure PolledFor (j : Nat) (s t : State) : Prop where
  frame : t = { s with sra := t.sra, env := t.env, trace := t.trace, seq := t.seq,
                       dev := { s.dev with busyFor := t.dev.busyFor, phase := t.dev.phase } }
  polls : t.sra.polls = s.sra.polls + j
  xfer : t.PXfer
  sends : Sends (List.replicate j [0x05, 0xFF]) s t

theorem PolledFor.refl {s : State} (hx : s.PXfer) : PolledFor 0 s s := ⟨rfl, rfl, hx, Sends.refl s⟩

theorem PolledFor.trans {j k : Nat} {s t u : State} (h₁ : PolledFor j s t) (h₂ : PolledFor k t u) :
    PolledFor (j + k) s u where
  frame := by
    rw [h₂.frame]
    simp only
    rw [h₁.frame]
  polls := by rw [h₂.polls, h₁.polls, Nat.add_assoc]
  xfer := h₂.xfer
  sends := by
    rw [Nat.add_comm, List.replicate_add]
    exact h₁.sends.trans h₂.sends

/-- A poll of a cycle that outlasts it is counted, and the cycle is one poll shorter. -/
theorem poll_runs {s : State} {k : Nat} (hcs : s.cs = false) (hx : s.PXfer) (hc : s.PClean)
    (hp : s.dev.pend ≠ .none) (hk : s.dev.busyFor = some (k + 1)) :
    ∃ t, callAt .WT1 .busy busy s = .ok true t ∧ PolledFor 1 s (counted t) ∧ t.dev.busyFor = some k := by
  obtain ⟨w, t, hrun, h⟩ := poll_ok hx (.inl hc)
  rw [looked_runs w hp hk] at hrun h
  refine ⟨t, hrun, ⟨?_, ?_, h.xfer, h.sends.congr rfl rfl⟩, by rw [h.frame]⟩
  · rw [counted, h.frame]
    simp only [hcs]
  · rw [counted, h.polls]

theorem pollLimitReached_eq_false {s : State} (h : ∀ n, s.pollLimit = some n → s.sra.polls < n) :
    pollLimitReached s = false := by
  unfold pollLimitReached
  cases hl : s.pollLimit with
  | none => rfl
  | some n => exact decide_eq_false (Nat.not_le.2 (h n hl))

/-- While the cycle and the limit last, `j` turns of the loop are `j` polls. -/
theorem waitLoop_polls {s : State} {j k fuel : Nat} (hcs : s.cs = false) (hx : s.PXfer) (hc : s.PClean)
    (hp : s.dev.pend ≠ .none) (hk : s.dev.busyFor = some (k + j))
    (hl : ∀ n, s.pollLimit = some n → s.sra.polls + j < n) :
    ∃ t, waitLoop (fuel + j) s = waitLoop fuel t ∧ PolledFor j s t ∧ t.dev.busyFor = some k := by
  induction j generalizing s with
  | zero => exact ⟨s, rfl, .refl hx, hk⟩
  | succ j ih =>
    obtain ⟨t, hrun, hpolled, hk'⟩ := poll_runs hcs hx hc hp hk
    have hframe := hpolled.frame
    have hlimit : (counted t).pollLimit = s.pollLimit := by rw [hframe]
    have hpolls := hpolled.polls
    have hnot : pollLimitReached (counted t) = false := pollLimitReached_eq_false fun n hn => by
      rw [hpolls]
      have := hl n (by rw [← hlimit, hn])
      omega
    let t' : State := { counted t with seq := relabel .WT1 t.seq }
    have hstart : PolledFor 1 s t' := ⟨by rw [show t' = { counted t with seq := t'.seq } from rfl, hframe],
      hpolls, hpolled.xfer, hpolled.sends.congr rfl rfl⟩
    obtain ⟨u, hloop, hrest, hk''⟩ := ih (s := t') (by rw [hstart.frame]; exact hcs) hstart.xfer
      (by rw [State.PClean, hstart.frame]; exact hc) (by rw [hstart.frame]; exact hp) hk' (fun n hn => by
        rw [hstart.polls]
        have := hl n (by rw [← hlimit, ← hn])
        omega)
    refine ⟨u, ?_, ?_, hk''⟩
    · rw [← Nat.add_assoc, waitLoop_again hrun hnot]
      exact hloop
    · rw [Nat.add_comm]
      exact hstart.trans hrest

/-! ### The end of the wait -/

/-- `t` is `s` after a wait of `polls` polls that has ended, the last one with what the device did then. -/
structure WaitOver (polls : Nat) (s t : State) : Prop where
  frame : t = { s with sra := t.sra, env := t.env, trace := t.trace, seq := t.seq, dev := t.dev }
  sends : Sends (List.replicate polls [0x05, 0xFF]) s t

theorem PolledFor.over {j : Nat} {s t : State} (h : PolledFor j s t) : WaitOver j s t :=
  ⟨by rw [h.frame], h.sends⟩

/-- A device that is ready after `k` polls: `k` turns of the loop lead to a poll that finds it idle. -/
theorem waitLoop_ready {s : State} {k fuel : Nat} (hcs : s.cs = false) (hx : s.PXfer) (hc : s.PClean)
    (hk : s.dev.readyAfter k) (hl : ∀ n, s.pollLimit = some n → s.sra.polls + k < n) :
    ∃ t, waitLoop (fuel + 1 + k) s = waitLoop (fuel + 1) t ∧ PolledFor k s t ∧ ∀ w,
      (t.dev.looked w).1 = false ∧ (t.dev.looked w).2.pend = .none ∧ OwnDevice s.dev (t.dev.looked w).2 := by
  obtain ⟨hp, rfl⟩ | ⟨hp, hfor⟩ := hk
  · refine ⟨s, rfl, .refl hx, fun w => ?_⟩
    rw [looked_idle w hp]
    exact ⟨rfl, hp, .of_same rfl⟩
  · obtain ⟨t, hloop, hpolled, hfor'⟩ := waitLoop_polls (k := 0) (fuel := fuel + 1) hcs hx hc hp
      (by rw [Nat.zero_add]; exact hfor) hl
    refine ⟨t, hloop, hpolled, fun w => ?_⟩
    have hp' : t.dev.pend ≠ .none := by rw [hpolled.frame]; exact hp
    rw [looked_ends w hp' hfor', hpolled.frame]
    exact ⟨rfl, rfl, rfl, rfl, rfl, ⟨rfl, rfl⟩, .inr ⟨hp, rfl⟩⟩

/-- The last poll of a wait leaves the engine as `WaitOver` says. -/
theorem waitOver_poll {l : Label} {d : Device} {j : Nat} {s t u : State} (hcs : s.cs = false) (h : PolledFor j s t)
    (hu : Polled l d t u) : WaitOver (j + 1) s u := by
  refine ⟨?_, ?_⟩
  · rw [hu.frame]
    simp only
    rw [h.frame]
    simp only [hcs]
  · rw [Nat.add_comm, List.replicate_add]
    exact h.sends.trans hu.sends

/-- The wait on a device that is ready after `k` polls returns after one more, if the limit allows (40 R149). -/
theorem waitLoop_returns {s : State} {k fuel : Nat} (hcs : s.cs = false) (hx : s.PXfer) (hc : s.PClean)
    (hk : s.dev.readyAfter k) (hfuel : k < fuel) (hl : ∀ n, s.pollLimit = some n → s.sra.polls + k < n) :
    ∃ u, waitLoop fuel s = .ok () u ∧ WaitOver (k + 1) s u ∧ u.sra.polls = s.sra.polls + k ∧ u.dev.pend = .none ∧
      OwnDevice s.dev u.dev := by
  obtain ⟨fuel, rfl⟩ : ∃ f, fuel = f + 1 + k := ⟨fuel - 1 - k, by omega⟩
  obtain ⟨t, hloop, hpolled, hlook⟩ := waitLoop_ready (fuel := fuel) hcs hx hc hk hl
  have hclean : t.PClean := by rw [State.PClean, hpolled.frame]; exact hc
  obtain ⟨w, u, hrun, hu⟩ := poll_ok hpolled.xfer (.inl hclean)
  obtain ⟨hidle, hpend, h1, h2, h3, h4, h5⟩ := hlook w
  rw [hidle] at hrun
  refine ⟨u, by rw [hloop, waitLoop_idle hrun], waitOver_poll hcs hpolled hu, hu.polls.trans hpolled.polls, ?_, ?_⟩
  · rw [hu.frame]
    exact hpend
  · rw [hu.frame]
    exact ⟨h1, h2, h3, h4, h5⟩

/-- The wait on a device that outlasts the limit of `n` polls stops after them (40 R149). -/
theorem waitLoop_times_out {s : State} {k n fuel : Nat} (hcs : s.cs = false) (hx : s.PXfer) (hc : s.PClean)
    (hp : s.dev.pend ≠ .none) (hk : s.dev.busyFor = some k) (hlimit : s.pollLimit = some n) (hstart : s.sra.polls = 0)
    (hn : 1 ≤ n) (hnk : n ≤ k) (hfuel : n ≤ fuel) :
    ∃ u, waitLoop fuel s = .error (.raised .busyTimeout) u ∧ WaitOver n s u ∧ u.sra.polls = n := by
  obtain ⟨fuel, rfl⟩ : ∃ f, fuel = f + 1 + (n - 1) := ⟨fuel - n, by omega⟩
  obtain ⟨t, hloop, hpolled, hfor⟩ := waitLoop_polls (j := n - 1) (k := k - n + 1) (fuel := fuel + 1) hcs hx hc hp
    (by rw [hk]; congr 1; omega) (fun m hm => by rw [hlimit] at hm; injection hm with hm; omega)
  have hcs' : t.cs = false := by rw [hpolled.frame]; exact hcs
  have hclean : t.PClean := by rw [State.PClean, hpolled.frame]; exact hc
  have hpend : t.dev.pend ≠ .none := by rw [hpolled.frame]; exact hp
  obtain ⟨u, hrun, hlast, -⟩ := poll_runs hcs' hpolled.xfer hclean hpend hfor
  have hall := hpolled.trans hlast
  rw [show n - 1 + 1 = n by omega] at hall
  have hpolls : (counted u).sra.polls = n := by rw [hall.polls, hstart, Nat.zero_add]
  have hreached : pollLimitReached (counted u) = true := by
    have : (counted u).pollLimit = some n := by rw [hall.frame]; exact hlimit
    rw [pollLimitReached, this]
    exact decide_eq_true (Nat.le_of_eq hpolls.symm)
  exact ⟨counted u, by rw [hloop, waitLoop_timeout hrun hreached], hall.over, hpolls⟩

theorem cutShort_of_closed {s : State} (hcs : s.cs = false) : cutShort s = s :=
  if_neg (Bool.eq_false_iff.1 hcs)

/-- What an abort with the mark POISONED leaves beside the device and its environment, if no transaction is open. -/
theorem abort_of_closed {e : Status} {s : State} (he : e.poisons = true) (hcs : s.cs = false) :
    abort e s = { s with seq := [], engBusy := false, rsp := { status := e, result := 0x00 },
                         dev := (abort e s).dev, env := (abort e s).env } := by
  have hbus := onlyDevice_poisonWith s.inWork (failed e s)
  rw [abort_of_poisons he]
  have hfailed : failed e s = { s with seq := [], rsp := { status := e, result := 0x00 } } := by
    rw [failed, cutShort_of_closed hcs]
  generalize (failed e s).poisonWith s.inWork = u at hbus ⊢
  rw [hbus, hfailed]

/-- The state in which the loop of SR.WAIT starts. -/
def waiting (s : State) : State :=
  { accepted .waitUntilReady s with sra := { s.sra with polls := 0 } }

theorem waitUntilReady_accepted (s : State) :
    waitUntilReady (accepted .waitUntilReady s) = waitLoop (waitFuel (waiting s)) (waiting s) := rfl

/-- Settles O46: the polls that find the device busy are counted one by one, up to the cycle's end or the limit. -/
theorem srWaitPolls : Obligations.SrWaitPolls := by
  intro s k hidle hclean hxfer hk
  obtain ⟨hbusy, hcs, hseq⟩ := id hidle
  constructor
  · intro hl
    have hfuel : k < waitFuel (waiting s) := by
      obtain ⟨-, rfl⟩ | ⟨-, hfor⟩ := hk
      · exact Nat.succ_pos _
      · have : (waiting s).dev.busyFor = some k := hfor
        rw [waitFuel, this, Option.getD_some]
        omega
    obtain ⟨u, hrun, hover, hpolls, hpend, hown⟩ := waitLoop_returns (s := waiting s) hcs hxfer hclean hk hfuel
      (fun n hn => by rw [show (waiting s).sra.polls = 0 from rfl, Nat.zero_add]; exact hl n hn)
    rw [show (waiting s).sra.polls = 0 from rfl, Nat.zero_add] at hpolls
    refine ⟨respond 0x00 u, request_ok rfl hidle (run_bind_ok (by rw [waitUntilReady_accepted, hrun])), ?_,
      hover.sends.transactions_eq, hpend, OwnDevice.ownStep (t := respond 0x00 u) hown hclean⟩
    have hsra : u.sra = { u.sra with polls := k } := by rw [← hpolls]
    rw [hover.frame, hsra]
    simp only [respond, waiting, accepted, hbusy, hcs, hseq]
  · intro n hlimit hn hnk
    obtain ⟨hp, hfor⟩ : s.dev.pend ≠ .none ∧ s.dev.busyFor = some k := by
      obtain ⟨-, rfl⟩ | h := hk
      · omega
      · exact h
    have hfuel : n ≤ waitFuel (waiting s) := by
      have : (waiting s).pollLimit = some n := hlimit
      rw [waitFuel, this, Option.getD_some]
      omega
    obtain ⟨u, hrun, hover, hpolls⟩ :=
      waitLoop_times_out (s := waiting s) hcs hxfer hclean hp hfor hlimit rfl hn hnk hfuel
    have hcs' : u.cs = false := by rw [hover.frame]; exact hcs
    have habort := abort_of_closed (e := .busyTimeout) rfl hcs'
    have hexec : exec .srWait s = .next (abort .busyTimeout u) :=
      request_raised rfl hidle (run_bind_error (by rw [waitUntilReady_accepted, hrun]))
    have hpoisoned := (abort_block .busyTimeout u).2.2 rfl
    generalize abort .busyTimeout u = t at habort hexec hpoisoned
    refine ⟨t, hexec, ?_, ?_, hpoisoned⟩
    · have hsra : u.sra = { u.sra with polls := n } := by rw [← hpolls]
      rw [habort, hover.frame, hsra]
      simp only [waiting, accepted, hbusy, hcs, hseq]
    · rw [habort]
      exact hover.sends.transactions_eq

/-! ### A wait that never ends -/

theorem stuck_iff {s : State} : s.stuck = true ↔
    s.dev.pend ≠ .none ∧ s.dev.busyFor = none ∧ s.env.xferFail = [] ∧ s.pollLimit = none := by
  simp [State.stuck, and_assoc]

/-- A request in a wait that never ends. -/
theorem request_hung {i : Instr} {p : Proc} {m : M Byte} {s u : State} (hi : meaning i = .request p m)
    (hidle : s.PIdle) (hm : m (accepted p s) = .error .hung u) : exec i s = .next u.poisonHung := by
  rw [accepted] at hm
  rw [exec_eq_run, hi, Meaning.run, serve_idle hidle, hm]

/-- On a device that never becomes idle one poll is enough to tell: the wait is in its loop and never ends. -/
theorem waitUntilReady_hangs {s : State} (hxfer : s.PXfer) (hlimit : s.pollLimit = none) (hp : s.dev.pend ≠ .none)
    (hfor : s.dev.busyFor = none) :
    ∃ u, waitUntilReady (accepted .waitUntilReady s) = .error .hung u ∧
      u = { accepted .waitUntilReady s with
        sra := u.sra, seq := [{ proc := .waitUntilReady, label := .WT1 }], cs := false, dev := u.dev, env := u.env,
        trace := u.trace } ∧
      u.env.xferFail = [] ∧ Sends [[0x05, 0xFF]] s u := by
  obtain ⟨w, t, hrun, h⟩ := poll_ok (s := waiting s) hxfer (.inr ⟨hp, hfor⟩)
  have hlook : (waiting s).dev.looked w = (true, s.dev) := looked_stuck w hp hfor
  rw [hlook] at hrun h
  have hfuel : waitFuel (waiting s) = 0 + 1 := by
    have h1 : (waiting s).pollLimit = none := hlimit
    have h2 : (waiting s).dev.busyFor = none := hfor
    have h3 : (waiting s).env.xferFail = [] := hxfer
    rw [waitFuel, h1, h2, h3]
    rfl
  have hnot : pollLimitReached (counted t) = false := by
    have : (counted t).pollLimit = none := by rw [counted, h.frame]; exact hlimit
    rw [pollLimitReached, this]
  refine ⟨{ counted t with seq := relabel .WT1 t.seq }, ?_, ?_, h.xfer, h.sends.congr rfl rfl⟩
  · rw [waitUntilReady_accepted, hfuel, waitLoop_again hrun hnot]
    rfl
  · simp only [counted]
    rw [h.frame]
    rfl

/-- Settles O47: the first step ends in the loop of a wait that no failure and no limit ends, and each later one polls. -/
theorem srWaitHangsOnStuckDevice : Obligations.SrWaitHangsOnStuckDevice := by
  constructor
  · intro s hidle hxfer hlimit hp hfor
    obtain ⟨u, hrun, hframe, hgaps, hsends⟩ := waitUntilReady_hangs hxfer hlimit hp hfor
    have hexec : exec .srWait s = .next u.poisonHung := by
      exact request_hung rfl hidle (run_bind_error hrun)
    obtain ⟨-, -, -, hpend, -⟩ := poisonHung_dev u
    refine ⟨u.poisonHung, 0, hexec, ?_, ?_, ?_, decide_eq_true hpend, by rw [State.poisonHung_seq, hframe], ?_⟩
    · rw [State.poisonHung_engBusy, hframe, accepted]
    · exact poisonHung_stuck hgaps (by rw [hframe]; exact hlimit)
    · rw [State.poisonHung_rsp, hframe, accepted]
    · rw [State.poisonHung_trace]
      exact hsends.transactions_eq
  · intro t hbusy hstuck hport
    obtain ⟨hframe, -, hstuck', hsends⟩ := spin_stuck hstuck
    have hstep : step t = .next (spin t) := by
      unfold step stepInput
      split
      case h_1 => rw [if_pos hbusy]
      case h_2 rest hp => exact absurd hp (hport rest)
      case h_3 => rw [runPacket, if_pos hbusy]
      case h_4 => rw [runInterrupted, if_pos hbusy]
      case h_5 => rw [if_pos hbusy]
    have hpend := (stuck_iff.1 hstuck').1
    refine ⟨spin t, hstep, ?_, hstuck', ?_, ?_, decide_eq_true hpend, hsends.transactions_eq⟩ <;> rw [hframe]
    exact hbusy

end Sys2Proof.Proofs
end

section
/-! What the block sends: every transaction of a request begins with one of the commands of its operation
(30_encoding R111). -/

open Sys2Proof Sys2Proof.Machine

namespace Sys2Proof.Proofs

section Sent
variable {C : Byte → Prop} {s₀ s t : State}

/-- Since `s₀` whole transactions were sent, each with a command of `C`. -/
def SentOnly (C : Byte → Prop) (s₀ s : State) : Prop := ∃ txs, Sends txs s₀ s ∧ ∀ c ∈ commandBytes txs, C c

/-- Since `s₀` such transactions were sent, and one is open that has sent bytes which meet `φ`. -/
def Sending (C : Byte → Prop) (s₀ s : State) (φ : List Byte → Prop) : Prop :=
  ∃ u evs, SentOnly C s₀ u ∧ s.trace = evs ++ .select :: u.trace ∧ (∀ e ∈ evs, e.isXchg = true) ∧ φ (bytesSent evs)

/-- The byte sent first, if any, is a command of `C`. -/
def BeginsWith (C : Byte → Prop) (bs : List Byte) : Prop := ∀ c, bs.head? = some c → C c

theorem SentOnly.congr (h : SentOnly C s₀ s) (ht : t.trace = s.trace) : SentOnly C s₀ t := by
  obtain ⟨txs, hsends, hC⟩ := h
  exact ⟨txs, hsends.congr rfl ht, hC⟩

theorem Sending.congr {φ : List Byte → Prop} (h : Sending C s₀ s φ) (ht : t.trace = s.trace) : Sending C s₀ t φ := by
  obtain ⟨u, evs, hu, htrace, hevs, hφ⟩ := h
  exact ⟨u, evs, hu, ht.trans htrace, hevs, hφ⟩

theorem Sending.mono {φ ψ : List Byte → Prop} (h : Sending C s₀ s φ) (hφ : ∀ bs, φ bs → ψ bs) : Sending C s₀ s ψ := by
  obtain ⟨u, evs, hu, htrace, hevs, hbs⟩ := h
  exact ⟨u, evs, hu, htrace, hevs, hφ _ hbs⟩

theorem SentOnly.select (h : SentOnly C s₀ s) : Sending C s₀ s.selected (· = []) :=
  ⟨s, [], h, rfl, by simp, rfl⟩

/-- One more exchange in the open transaction. -/
theorem Sending.exchange {φ ψ : List Byte → Prop} {tx rx : Byte} (h : Sending C s₀ s φ)
    (ht : t.trace = .xchg tx rx :: s.trace) (hφ : ∀ bs, φ bs → ψ (bs ++ [tx])) : Sending C s₀ t ψ := by
  obtain ⟨u, evs, hu, htrace, hevs, hbs⟩ := h
  refine ⟨u, .xchg tx rx :: evs, hu, by rw [ht, htrace]; rfl, ?_, ?_⟩
  · intro e he
    obtain rfl | he := List.mem_cons.1 he
    · rfl
    · exact hevs e he
  · rw [← List.singleton_append, bytesSent_append]
    exact hφ _ hbs

/-- The end of the open transaction. -/
theorem Sending.deselect (h : Sending C s₀ s (BeginsWith C)) : SentOnly C s₀ s.deselected := by
  obtain ⟨u, evs, ⟨txs, hsends, hC⟩, htrace, hevs, hbs⟩ := h
  have hlast : Sends [bytesSent evs] u s.deselected :=
    Sends.transaction hevs rfl (by rw [State.deselected_trace, htrace])
  refine ⟨_, hsends.trans hlast, fun c hc => ?_⟩
  rw [commandBytes_append] at hc
  obtain hc | hc := List.mem_append.1 hc
  · obtain ⟨bs, hmem, hhead⟩ := List.mem_filterMap.1 hc
    rw [List.mem_singleton.1 hmem] at hhead
    exact hbs c hhead
  · exact hC c hc

end Sent

theorem beginsWith_nil (C : Byte → Prop) : BeginsWith C [] := fun _ h => by cases h

theorem BeginsWith.append {C : Byte → Prop} {bs : List Byte} {tx : Byte} (h : BeginsWith C bs) (hne : bs ≠ []) :
    BeginsWith C (bs ++ [tx]) := by
  obtain ⟨b, bs, rfl⟩ := List.exists_cons_of_ne_nil hne
  exact h

/-- What has been sent since `s₀`. -/
def traceProtocol (C : Byte → Prop) (s₀ : State) : Protocol C (fun _ => True) where
  out s := s.cs = false ∧ SentOnly C s₀ s
  sel s := s.cs = true ∧ Sending C s₀ s (· = [])
  inn s := s.cs = true ∧ Sending C s₀ s fun bs => bs ≠ [] ∧ BeginsWith C bs
  cut e s := (s.cs = false ∧ SentOnly C s₀ s) ∨ (e ≠ .hung ∧ s.cs = true ∧ Sending C s₀ s (BeginsWith C))
  regs_out h hs := ⟨h.cs.trans hs.1, hs.2.congr h.trace⟩
  regs_inn h hs := ⟨h.cs.trans hs.1, hs.2.congr h.trace⟩
  selects hs := ⟨rfl, hs.2.select⟩
  command {c} _ _ _ hc hs h := by
    refine ⟨(takesIn_of_xchg h).cs.trans hs.1, hs.2.exchange (takesIn_of_xchg h).trace ?_⟩
    rintro _ rfl
    exact ⟨by simp, fun b hb => by cases hb; exact hc⟩
  exchange hs h := ⟨(takesIn_of_xchg h).cs.trans hs.1, hs.2.exchange (takesIn_of_xchg h).trace
    fun bs hbs => ⟨by simp, hbs.2.append hbs.1⟩⟩
  deselects hs := ⟨rfl, (hs.2.mono fun _ h => h.2).deselect⟩
  fail hs h := by
    obtain ⟨-, gaps, -, rfl⟩ := xchg_error h
    refine .inr ⟨by simp, ?_⟩
    obtain ⟨hcs, hs⟩ | ⟨hcs, hs⟩ := hs
    · exact ⟨hcs, (hs.mono fun _ h => by rw [h]; exact beginsWith_nil C).congr rfl⟩
    · exact ⟨hcs, (hs.mono fun _ h => h.2).congr rfl⟩
  stop _ hs := .inl hs
  hung hs _ _ := .inl hs

/-- After a failure the open transaction, if any, is ended. -/
theorem sentOnly_cutShort {C : Byte → Prop} {s₀ s : State} {e : Stop} (h : (traceProtocol C s₀).cut e s) :
    SentOnly C s₀ (cutShort s) := by
  obtain ⟨hcs, h⟩ | ⟨-, hcs, h⟩ := h
  · rwa [cutShort_of_closed hcs]
  · rw [cutShort, if_pos hcs]
    exact h.deselect

/-- The abort adds no transaction but the end of the open one. -/
theorem abort_trace (e : Status) (s : State) : (abort e s).trace = (cutShort s).trace := by
  by_cases he : e.poisons = true
  · rw [abort_of_poisons he]
    exact State.poisonWith_trace ..
  · rw [abort_of_not_poisons (Bool.eq_false_iff.2 he)]
    rfl

/-- The transactions of a trace since another are those of `SentOnly`. -/
def AddsOnly (C : Byte → Prop) (s t : State) : Prop :=
  ∃ txs, transactions t.trace = txs ++ transactions s.trace ∧ ∀ c ∈ commandBytes txs, C c

theorem SentOnly.adds {C : Byte → Prop} {s u t : State} (h : SentOnly C s u)
    (ht : transactions t.trace = transactions u.trace) : AddsOnly C s t := by
  obtain ⟨txs, hsends, hC⟩ := h
  exact ⟨txs, ht.trans hsends.transactions_eq, hC⟩

/-- Whatever the instruction, each of its transactions begins with one of its commands. -/
theorem exec_addsOnly {i : Instr} {s t : State} (hidle : s.PIdle) (h : exec i s = .next t) :
    AddsOnly (· ∈ commandsOf i) s t := by
  have hstart : SentOnly (· ∈ commandsOf i) s s := ⟨[], Sends.refl s, by simp [commandBytes]⟩
  have hended := exec_ended (traceProtocol (· ∈ commandsOf i) s) (fun _ h => h) (fun _ _ => trivial)
    (fun _ _ _ _ => trivial) (fun _ => .inr trivial) ⟨hidle.2.1, hstart⟩ hidle h
  cases hended with
  | answered r u hu hway => exact hu.2.adds rfl
  | aborted e u hu hway => exact (sentOnly_cutShort hu).adds (by rw [abort_trace])
  | hung u hu hway =>
    obtain ⟨-, hu⟩ | ⟨hne, -⟩ := hu
    · exact hu.adds (by rw [State.poisonHung_trace])
    · exact absurd rfl hne
  | sent u hu hbus => exact (hu.2.mono fun _ h => h.2).deselect.adds rfl
  | sentCut u hu hbus =>
    have htrace : u.deselected.poison.trace = .deselect :: u.trace := by rw [State.poison_trace, State.deselected_trace]
    obtain ⟨-, hu⟩ | ⟨-, -, hu⟩ := hu
    · exact hu.adds (by rw [htrace]; rfl)
    · exact hu.deselect.adds (by rw [htrace, State.deselected_trace])
  | refused => exact hstart.adds rfl

/-- The eleven commands of the block (30_encoding R111). -/
theorem commandsOf_host {i : Instr} (h : isHostRequest i = true) :
    ∀ c ∈ commandsOf i, c ∈ [0x06, 0x04, 0x05, 0x35, 0x15, 0x01, 0x31, 0x11, 0x03, 0x02, (0x20 : Byte)] := by
  cases i <;> cases h
  case srRead n =>
    simp only [commandsOf, List.mem_singleton, forall_eq, readCommand]
    split_ifs <;> decide
  case srWrite n v =>
    simp only [commandsOf, List.mem_singleton, forall_eq, writeCommand]
    split_ifs <;> decide
  all_goals simp only [commandsOf]; decide

/-- Settles O24: the commands of a request are those of its operation, and `write` has five. -/
theorem blockSendsElevenCommands : Obligations.BlockSendsElevenCommands := by
  intro i s t hhost hidle h
  obtain ⟨txs, htrace, hC⟩ := exec_addsOnly hidle h
  refine ⟨txs, htrace, fun c hc => commandsOf_host hhost c (hC c hc), ?_⟩
  rintro ⟨a, data, rfl⟩
  exact hC

end Sys2Proof.Proofs
end

section
/-! The decoder and the encoder (30_encoding R104, R106, R110, R120, R121, R128): the statements about packets. -/

open Sys2Proof Sys2Proof.Machine

namespace Sys2Proof.Proofs

/-! ### Addresses -/

/-- One more byte at the low end of a word. -/
theorem toNat_append_byte {n : Nat} (x : BitVec n) (b : Byte) : (x ++ b).toNat = x.toNat * 256 + b.toNat := by
  rw [BitVec.toNat_append, ← Nat.shiftLeft_add_eq_or_of_lt b.isLt, Nat.shiftLeft_eq]

/-- Byte `k` of an address, as a number. -/
theorem toNat_addressByte (a : Address) (k : Nat) : (a.extractLsb' k 8).toNat = a.toNat / 2 ^ k % 256 := by
  rw [BitVec.extractLsb'_toNat, Nat.shiftRight_eq_div_pow]

/-- The address bytes are read back, and what follows them is left (30_encoding R106). -/
theorem takeAddress_addressBytes {aw : AddressWidth} {a : Address} (h : aw.fits a = true) (rest : List Byte) :
    takeAddress aw (addressBytes aw a ++ rest) = some (a, rest) := by
  have hlt := a.isLt
  cases aw with
  | three =>
    have hfits : a.toNat < 2 ^ 24 := by simpa [AddressWidth.fits] using h
    have ha : (0 : Byte) ++ a.extractLsb' 16 8 ++ a.extractLsb' 8 8 ++ a.extractLsb' 0 8 = a :=
      BitVec.eq_of_toNat_eq (by
        simp only [toNat_append_byte, toNat_addressByte]
        simp
        omega)
    exact congrArg (fun x => some (x, rest)) ha
  | four =>
    have ha : a.extractLsb' 24 8 ++ a.extractLsb' 16 8 ++ a.extractLsb' 8 8 ++ a.extractLsb' 0 8 = a :=
      BitVec.eq_of_toNat_eq (by
        simp only [toNat_append_byte, toNat_addressByte]
        omega)
    exact congrArg (fun x => some (x, rest)) ha

/-- An address read from the transport fits the address width (20_memory R83). -/
theorem fits_of_takeAddress {aw : AddressWidth} {bytes rest : List Byte} {a : Address}
    (h : takeAddress aw bytes = some (a, rest)) : aw.fits a = true := by
  cases aw with
  | four => rfl
  | three =>
    match bytes, h with
    | b2 :: b1 :: b0 :: _, h =>
      obtain ⟨rfl, -⟩ := Prod.mk.injEq .. ▸ Option.some.inj h
      have hlt : ((0 : Byte) ++ b2 ++ b1 ++ b0).toNat < 2 ^ 24 := by
        have h2 := b2.isLt
        have h1 := b1.isLt
        have h0 := b0.isLt
        simp only [toNat_append_byte]
        simp
        omega
      exact decide_eq_true hlt

/-- Formats CA, CAW and CAR are read back. -/
theorem decodeAddressed_addressBytes {aw : AddressWidth} {a : Address} (h : aw.fits a = true) (c : Byte)
    (payload : List Byte) {f : Address → List Byte → Option Instr} {i : Instr} (hf : f a payload = some i) :
    decodeAddressed aw c (addressBytes aw a ++ payload) f = .ok i := by
  simp only [decodeAddressed, takeAddress_addressBytes h, hf]

/-- A request on a buffer that its length field can hold is read back. -/
theorem withData_ofData {op : BitVec 4} {a : Address} {data : List Byte} (h : lengthFits data = true)
    (f : List Byte → Instr) : (Request.ofData op a data).withData f = .ok (f data) := by
  have hlen : (Request.ofData op a data).length.toNat = data.length :=
    lengthField_toNat (of_decide_eq_true h)
  unfold Request.withData
  rw [hlen]
  exact if_pos rfl

theorem decode_encode {aw : AddressWidth} {i : Instr} {p : Packet} (hwf : i.wf aw = true) (hp : encode aw i = some p) :
    decode aw p = .ok i := by
  cases i <;> cases hp
  case readData.refl a n =>
    exact decodeAddressed_addressBytes hwf 0x03 _
      (f := fun a payload => some (.readData a payload.length)) (by rw [List.length_replicate])
  case pageProgram.refl a data =>
    exact decodeAddressed_addressBytes hwf 0x02 _
      (f := fun a payload => some (.pageProgram a payload)) rfl
  case sectorErase.refl a =>
    have hdecode := decodeAddressed_addressBytes hwf 0x20 []
      (f := fun a payload => if payload.isEmpty then some (.sectorErase a) else none) rfl
    rwa [List.append_nil] at hdecode
  case ppProgram.refl a data => exact withData_ofData hwf _
  case pswWriteBlank.refl a data => exact withData_ofData hwf _
  case fweWrite.refl a data => exact withData_ofData hwf _
  all_goals rfl

/-- Settles O1: by the case of the instruction; what travels as bytes is read back by the lemmas above. -/
theorem encodeDecodeRoundTrip : Obligations.EncodeDecodeRoundTrip := by
  intro aw i hwf
  refine ⟨fun p hp => decode_encode hwf hp, fun hnone => ?_⟩
  cases i <;> cases hnone
  exact ⟨_, rfl⟩

/-! ### What the decoder answers -/

/-- The instruction can be presented: it is well formed and not the internal procedure. -/
def Presentable (aw : AddressWidth) (i : Instr) : Prop := i.wf aw = true ∧ ∀ si, i ≠ .fweReadSector si

/-- A request on data holds as many bytes as its length field says, so their number fits the field. -/
theorem presentable_withData {aw : AddressWidth} {r : Request} {f : List Byte → Instr} {i : Instr}
    (hf : ∀ data, lengthFits data = true → Presentable aw (f data)) (h : r.withData f = .ok i) : Presentable aw i := by
  unfold Request.withData at h
  split at h
  next hlen =>
    injection h with h
    subst h
    exact hf _ (decide_eq_true (by rw [hlen]; exact r.length.isLt))
  next => cases h

theorem presentable_decodeFixed {aw : AddressWidth} {c : Byte} {n : Nat} {rest : List Byte} {f : Byte → Instr} {i : Instr}
    (hf : ∀ b, Presentable aw (f b)) (h : decodeFixed c n rest f = .ok i) : Presentable aw i := by
  unfold decodeFixed at h
  split at h
  · injection h with h
    exact h ▸ hf _
  · cases h

theorem presentable_decodeAddressed {aw : AddressWidth} {c : Byte} {rest : List Byte}
    {f : Address → List Byte → Option Instr} {i : Instr}
    (hf : ∀ a payload i, aw.fits a = true → f a payload = some i → Presentable aw i)
    (h : decodeAddressed aw c rest f = .ok i) : Presentable aw i := by
  unfold decodeAddressed at h
  split at h
  next a payload hta =>
    split at h
    next j hj =>
      injection h with h
      exact h ▸ hf _ _ _ (fits_of_takeAddress hta) hj
    next => cases h
  next => cases h

theorem presentable_decodeRequest {aw : AddressWidth} {r : Request} {i : Instr} (h : decodeRequest r = .ok i) :
    Presentable aw i := by
  unfold decodeRequest at h
  split at h
  case h_7 | h_8 | h_10 =>
    refine presentable_withData (fun data hl => ?_) h
    exact ⟨hl, by simp⟩
  all_goals
    injection h with h
    subst h
    exact ⟨rfl, by simp⟩

theorem presentable_decodeTransaction {aw : AddressWidth} {bytes : List Byte} {i : Instr}
    (h : decodeTransaction aw bytes = .ok i) : Presentable aw i := by
  cases bytes with
  | nil => cases h
  | cons c rest =>
    simp only [decodeTransaction] at h
    split at h
    -- the formats C, CR and CW
    case h_1 | h_2 | h_3 | h_4 | h_5 | h_6 | h_7 | h_8 | h_16 =>
      exact presentable_decodeFixed (fun _ => ⟨rfl, by simp⟩) h
    -- the formats CAR, CAW and CA
    case h_9 | h_10 =>
      refine presentable_decodeAddressed (fun a payload j ha hj => ?_) h
      cases hj
      exact ⟨ha, by simp⟩
    case h_11 =>
      refine presentable_decodeAddressed (fun a payload j ha hj => ?_) h
      split at hj <;> cases hj
      exact ⟨ha, by simp⟩
    -- the commands without a format
    case h_12 | h_13 | h_14 | h_15 =>
      cases h
      exact ⟨rfl, by simp⟩
    case h_17 => cases h

/-- Settles O2: by the match space of the packet. -/
theorem decodedInstructionIsWellFormed : Obligations.DecodedInstructionIsWellFormed := by
  intro aw p i h
  cases p with
  | request r => exact presentable_decodeRequest h
  | transaction bytes => exact presentable_decodeTransaction h

/-! ### Words written out, and bytes that are no command -/

/-- Settles O3: the decoder's lookup of byte 0 fails for every byte that is not among the sixteen. -/
theorem unknownCommandByteRefused : Obligations.UnknownCommandByteRefused := by
  intro c bytes hc
  have hself : c = BitVec.ofNat 8 c.toNat := by simp
  have hdecode : ∀ aw, decode aw (.transaction (c :: bytes)) = .error (.unknownCommand c) := by
    intro aw
    simp only [decode, decodeTransaction]
    split
    case h_17 => rfl
    all_goals
      next hbyte => exact absurd (by rw [hself, hbyte]; decide) hc
  refine ⟨hdecode, fun s rest hbusy hport => ?_⟩
  simp only [step, stepInput, hport, runPacket, hbusy, hdecode, Bool.false_eq_true, if_false]

/-- Settles O4: the decoder evaluates. -/
theorem writtenWordsDecode : Obligations.WrittenWordsDecode := by
  unfold Obligations.WrittenWordsDecode
  decide

end Sys2Proof.Proofs
end

section
/-! No operation of the host but `write` reads SB: every transport event and every other procedure runs the same
whatever SB holds (45 R221). -/

open Sys2Proof Sys2Proof.Machine

namespace Sys2Proof.Proofs

/-- The state with other contents of SB. -/
def withSb (m : Memory) (s : State) : State := { s with sb := m }

/-! ### The device does not see SB -/

section Device
variable (m : Memory) (s : State)

@[simp] theorem withSb_dd : (withSb m s).dd = s.dd := rfl
@[simp] theorem withSb_dev : (withSb m s).dev = s.dev := rfl
@[simp] theorem withSb_env : (withSb m s).env = s.env := rfl
@[simp] theorem withSb_cs : (withSb m s).cs = s.cs := rfl
@[simp] theorem withSb_seq : (withSb m s).seq = s.seq := rfl

@[simp] theorem mapDev_withSb (f : Device → Device) : (withSb m s).mapDev f = withSb m (s.mapDev f) := rfl

@[simp] theorem mapEnv_withSb (f : Environment → Environment) : (withSb m s).mapEnv f = withSb m (s.mapEnv f) := rfl

@[simp] theorem drawByte_withSb : (withSb m s).drawByte = (s.drawByte.1, withSb m s.drawByte.2) := rfl

@[simp] theorem drawStatusBits_withSb :
    (withSb m s).drawStatusBits = (s.drawStatusBits.1, withSb m s.drawStatusBits.2) := by
  unfold State.drawStatusBits
  rw [withSb_env]
  cases s.env.statusBits <;> rfl

@[simp] theorem drawChoice_withSb : (withSb m s).drawChoice = (s.drawChoice.1, withSb m s.drawChoice.2) := by
  unfold State.drawChoice
  rw [withSb_env]
  cases s.env.choices <;> rfl

@[simp] theorem freeWel_withSb : (withSb m s).freeWel = withSb m s.freeWel := by simp [State.freeWel]
@[simp] theorem freeAds_withSb : (withSb m s).freeAds = withSb m s.freeAds := by simp [State.freeAds]
@[simp] theorem freeAsleep_withSb : (withSb m s).freeAsleep = withSb m s.freeAsleep := by simp [State.freeAsleep]
@[simp] theorem freeGuarded_withSb : (withSb m s).freeGuarded = withSb m s.freeGuarded := by simp [State.freeGuarded]
@[simp] theorem freePend_withSb : (withSb m s).freePend = withSb m s.freePend := by simp [State.freePend]

@[simp] theorem startCycle_withSb (p : Pend) : (withSb m s).startCycle p = withSb m (s.startCycle p) := rfl

@[simp] theorem mayStartCycle_withSb (p : Pend) : (withSb m s).mayStartCycle p = withSb m (s.mayStartCycle p) := by
  simp only [State.mayStartCycle, drawChoice_withSb]
  split <;> rfl

@[simp] theorem poisonWith_withSb (x : Extent) : (withSb m s).poisonWith x = withSb m (s.poisonWith x) := by
  simp [State.poisonWith]

@[simp] theorem poison_withSb : (withSb m s).poison = withSb m s.poison := poisonWith_withSb m s .all

@[simp] theorem poisonHung_withSb : (withSb m s).poisonHung = withSb m s.poisonHung := by simp [State.poisonHung]

@[simp] theorem complete_withSb : (withSb m s).complete = withSb m s.complete := by simp [State.complete]

/-- A state chosen by a test that does not look at SB. -/
theorem ite_withSb (c : Prop) [Decidable c] (s t : State) :
    (if c then withSb m s else withSb m t) = withSb m (if c then s else t) := by
  split <;> rfl

@[simp] theorem observe_withSb : (withSb m s).observe = (s.observe.1, withSb m s.observe.2) := by
  unfold State.observe
  rw [withSb_dev]
  split <;> simp [ite_withSb]

@[simp] theorem readable_withSb : (withSb m s).readable = s.readable := rfl
@[simp] theorem writable_withSb : (withSb m s).writable = s.writable := rfl

@[simp] theorem driveStatus_withSb (r : StatusReg) :
    (withSb m s).driveStatus r = ((s.driveStatus r).1, withSb m (s.driveStatus r).2) := by
  cases r with
  | sr1 => simp [State.driveStatus]
  | sr2 => simp [State.driveStatus]
  | sr3 => simp [State.driveStatus, ite_withSb]

@[simp] theorem driveFlash_withSb (a : Nat) :
    (withSb m s).driveFlash a = ((s.driveFlash a).1, withSb m (s.driveFlash a).2) := by
  simp only [State.driveFlash, withSb_dev, observe_withSb, drawByte_withSb, poison_withSb, readable_withSb, withSb_dd]
  split
  · rfl
  · split <;> rfl

@[simp] theorem drive_withSb : (withSb m s).drive = (s.drive.1, withSb m s.drive.2) := by
  unfold State.drive
  rw [withSb_dev]
  split
  · exact driveStatus_withSb m s _
  · exact driveFlash_withSb m s _
  · rfl

@[simp] theorem actStatusWrite_withSb (r : StatusReg) :
    (withSb m s).actStatusWrite r = withSb m (s.actStatusWrite r) := by
  cases r <;> simp [State.actStatusWrite]

@[simp] theorem actProgram_withSb (a : Nat) (data : List Byte) :
    (withSb m s).actProgram a data = withSb m (s.actProgram a data) := by
  simp only [State.actProgram, writable_withSb, withSb_dev, withSb_dd, poison_withSb, mayStartCycle_withSb,
    freeWel_withSb, mapDev_withSb, startCycle_withSb, ite_withSb]
  rfl

@[simp] theorem actErase_withSb (a : Nat) : (withSb m s).actErase a = withSb m (s.actErase a) := by
  simp only [State.actErase, writable_withSb, withSb_dev, withSb_dd, poison_withSb, mapDev_withSb, startCycle_withSb,
    ite_withSb]
  rfl

@[simp] theorem actRead_withSb (a : Nat) : (withSb m s).actRead a = withSb m (s.actRead a) := by
  simp only [State.actRead, readable_withSb, withSb_dd, poison_withSb, ite_withSb]
  rfl

theorem whenIdle_withSb {f : State → State} (hf : ∀ t, f (withSb m t) = withSb m (f t)) :
    (withSb m s).whenIdle f = withSb m (s.whenIdle f) := by
  simp only [State.whenIdle, withSb_dev, observe_withSb, poison_withSb, hf, ite_withSb]

@[simp] theorem act_withSb : (withSb m s).act = withSb m s.act := by
  unfold State.act
  rw [withSb_dev]
  split
  case h_4 => exact whenIdle_withSb m s fun _ => rfl
  case h_5 => exact whenIdle_withSb m s fun t => actStatusWrite_withSb m t _
  case h_6 => exact whenIdle_withSb m s fun t => actRead_withSb m t _
  case h_7 => exact whenIdle_withSb m s fun t => actProgram_withSb m t _ _
  case h_8 => exact whenIdle_withSb m s fun t => actErase_withSb m t _
  case h_9 => exact whenIdle_withSb m s fun _ => rfl
  case h_10 => exact whenIdle_withSb m s fun _ => rfl
  case h_1 | h_2 | h_3 => rfl
  all_goals exact poison_withSb m s

@[simp] theorem selected_withSb : (withSb m s).selected = withSb m s.selected := rfl

@[simp] theorem deselected_withSb : (withSb m s).deselected = withSb m s.deselected := by
  unfold State.deselected
  rw [act_withSb]
  rfl

@[simp] theorem exchanged_withSb (tx : Byte) :
    (withSb m s).exchanged tx = ((s.exchanged tx).1, withSb m (s.exchanged tx).2) := by
  unfold State.exchanged
  rw [drive_withSb]
  rfl

@[simp] theorem cutShort_withSb : cutShort (withSb m s) = withSb m (cutShort s) := by
  unfold cutShort
  rw [deselected_withSb, withSb_cs, ite_withSb]

theorem abort_withSb (e : Status) : abort e (withSb m s) = withSb m (abort e s) := by
  have hfailed : failed e (withSb m s) = withSb m (failed e s) := by
    unfold failed
    rw [cutShort_withSb]
    rfl
  by_cases he : e.poisons = true
  · rw [abort_of_poisons he, abort_of_poisons he, hfailed, poisonWith_withSb]
    rfl
  · rw [abort_of_not_poisons (Bool.eq_false_iff.2 he), abort_of_not_poisons (Bool.eq_false_iff.2 he), hfailed]
    rfl

end Device

/-! ### Procedures that do not see SB -/

/-- The same outcome with other contents of SB. -/
def resultWithSb {α : Type} (m : Memory) : EStateM.Result Stop State α → EStateM.Result Stop State α
  | .ok a s => .ok a (withSb m s)
  | .error e s => .error e (withSb m s)

/-- From the states of `P` the procedure runs the same whatever SB holds. -/
def BlindFrom {α : Type} (P : State → Prop) (p : M α) : Prop :=
  ∀ m s, P s → p (withSb m s) = resultWithSb m (p s)

/-- From every state. -/
abbrev Blind {α : Type} (p : M α) : Prop := BlindFrom (fun _ => True) p

section Blind
variable {α β : Type} {P Q : State → Prop}

theorem Blind.from {p : M α} (h : Blind p) : BlindFrom P p := fun m s _ => h m s trivial

/-- The second part starts in the states of `Q`. -/
theorem blindFrom_bind {p : M α} {f : α → M β} (hp : BlindFrom P p) (hq : ∀ s a t, P s → p s = .ok a t → Q t)
    (hf : ∀ a, BlindFrom Q (f a)) : BlindFrom P (p >>= f) := by
  intro m s hs
  rw [run_bind, run_bind, hp m s hs]
  cases hrun : p s with
  | ok a t => exact hf a m t (hq s a t hs hrun)
  | error e t => rfl

theorem blind_bind {p : M α} {f : α → M β} (hp : Blind p) (hf : ∀ a, Blind (f a)) : Blind (p >>= f) :=
  blindFrom_bind hp (fun _ _ _ _ _ => trivial) hf

/-- A read of the state that does not look at SB. -/
theorem blindFrom_get_bind {f : State → M β} (hsame : ∀ m s, P s → f (withSb m s) = f s)
    (hf : ∀ s, P s → BlindFrom P (f s)) : BlindFrom P (get >>= f) := by
  intro m s hs
  rw [run_get_bind, run_get_bind, hsame m s hs]
  exact hf s hs m s hs

theorem blind_get_bind {f : State → M β} (hsame : ∀ m s, f (withSb m s) = f s) (hf : ∀ s, Blind (f s)) :
    Blind (get >>= f) :=
  blindFrom_get_bind (fun m s _ => hsame m s) fun s _ => hf s

theorem blind_pure (a : α) : Blind (pure a : M α) := fun _ _ _ => rfl

theorem blind_hang : Blind (hang : M α) := fun _ _ _ => rfl

/-- An update of the working registers that does not look at SB. -/
theorem blind_assign {f : State → State} (hf : ∀ m s, f (withSb m s) = withSb m (f s)) : Blind (assign f) := by
  intro m s _
  rw [run_assign, run_assign, hf]
  rfl

theorem blind_goto (l : Label) : Blind (goto l) := blind_assign fun _ _ => rfl

theorem blind_require (b : Bool) (e : Status) : Blind (require b e) := by
  intro m s _
  cases b <;> rfl

theorem blind_select : Blind select := fun _ _ _ => rfl

theorem blind_deselect : Blind deselect := by
  intro m s _
  rw [run_deselect, run_deselect, deselected_withSb]
  rfl

theorem blindFrom_callAt {p : M α} (site : Label) (proc : Proc)
    (hp : BlindFrom P p) (hP : ∀ s q, P s → P { s with seq := q }) : BlindFrom P (callAt site proc p) := by
  intro m s hs
  have hrun := hp m _ (hP s ({ proc := proc, label := proc.entry } :: relabel site s.seq) hs)
  unfold callAt
  change (match p (withSb m { s with seq := { proc := proc, label := proc.entry } :: relabel site s.seq }) with
    | .ok a t => _ | .error e t => _) = _
  rw [hrun]
  cases p { s with seq := { proc := proc, label := proc.entry } :: relabel site s.seq } <;> rfl

theorem blind_callAt {p : M α} (site : Label) (proc : Proc) (hp : Blind p) : Blind (callAt site proc p) :=
  blindFrom_callAt site proc hp fun _ _ => id

theorem blind_xchg (tx : Byte) : Blind (xchg tx) := by
  intro m s _
  unfold xchg
  rw [withSb_env]
  split
  · rw [exchanged_withSb]; rfl
  · rfl
  · rw [mapEnv_withSb, exchanged_withSb]; rfl

theorem blind_sendBytes (bs : List Byte) : Blind (sendBytes bs) := by
  induction bs with
  | nil => exact blind_pure ()
  | cons b bs ih => exact blind_bind (blind_xchg b) fun _ => ih

theorem blind_sendAddr (a : Address) : Blind (sendAddr a) :=
  blind_get_bind (fun _ _ => rfl) fun _ => blind_sendBytes _

end Blind

/-! ### The procedures of 40 to 44 -/

theorem blind_readStatus (n : BitVec 8) : Blind (readStatus n) :=
  blind_bind (blind_require _ _) fun _ => blind_bind (blind_assign fun _ _ => rfl) fun _ =>
  blind_bind blind_select fun _ => blind_bind (blind_xchg _) fun _ => blind_bind (blind_xchg _) fun _ =>
  blind_bind (blind_assign fun _ _ => rfl) fun _ => blind_bind blind_deselect fun _ =>
  blind_get_bind (fun _ _ => rfl) fun _ => blind_pure _

theorem blind_writeStatus (n : BitVec 8) (v : Byte) : Blind (writeStatus n v) :=
  blind_bind (blind_require _ _) fun _ => blind_bind (blind_assign fun _ _ => rfl) fun _ =>
  blind_bind blind_select fun _ => blind_bind (blind_xchg _) fun _ => blind_bind (blind_xchg _) fun _ => blind_deselect

theorem blind_busy : Blind busy :=
  blind_bind (blind_callAt _ _ (blind_readStatus 1)) fun _ => blind_pure _

theorem blind_waitLoop (fuel : Nat) : Blind (waitLoop fuel) := by
  induction fuel with
  | zero => exact blind_hang
  | succ fuel ih =>
    refine blind_bind (blind_callAt _ _ blind_busy) fun b => ?_
    cases b with
    | false => exact blind_pure ()
    | true =>
      exact blind_bind (blind_assign fun _ _ => rfl) fun _ => blind_get_bind (fun _ _ => rfl) fun _ =>
        blind_bind (blind_require _ _) fun _ => blind_bind (blind_goto _) fun _ => ih

theorem blind_waitUntilReady : Blind waitUntilReady :=
  blind_bind (blind_assign fun _ _ => rfl) fun _ => blind_get_bind (fun _ _ => rfl) fun _ => blind_waitLoop _

theorem blind_enable : Blind enable :=
  blind_bind blind_select fun _ => blind_bind (blind_xchg _) fun _ => blind_deselect

theorem blind_disable : Blind disable :=
  blind_bind blind_select fun _ => blind_bind (blind_xchg _) fun _ => blind_deselect

/-- The bytes a program sends come from the caller's buffer. -/
def FromCaller (s : State) : Prop := s.pp.src = .caller

/-- Transport events leave the working registers of PP. -/
theorem busFrame_pp : BusFrame fun s t => t.pp = s.pp :=
  busFrame_field State.pp (fun _ _ h => by rw [h]) fun _ _ => rfl

/-- From a caller's buffer the data phase does not look at SB (42 R175). -/
theorem blind_streamPage (data : List Byte) (count : Nat) : BlindFrom FromCaller (streamPage data count) := by
  induction count with
  | zero => exact (blind_pure ()).from
  | succ count ih =>
    refine blindFrom_get_bind (fun m s hs => ?_) fun s hs => ?_
    · have hbyte : sourceByte data (withSb m s) = sourceByte data s := by
        unfold sourceByte
        rw [show (withSb m s).pp = s.pp from rfl, hs]
      rw [hbyte]
    · refine blindFrom_bind (blind_xchg _).from (Q := FromCaller) (fun s a t hs hrun => ?_) fun _ =>
        blindFrom_bind (blind_assign fun _ _ => rfl).from (fun s a t hs hrun => ?_) fun _ => ih
      · rw [FromCaller, (keeps_xchg busFrame_pp _).of_ok (F := State.pp) hrun]
        exact hs
      · cases hrun
        exact hs

/-- `programPage` from the caller's buffer, whatever its source before. -/
theorem blind_programPage (data : List Byte) (b : BitVec 32) (a : Address) (len : BitVec 32) :
    Blind (programPage data .caller b a len) := by
  refine blindFrom_bind (Q := FromCaller) (blind_assign fun _ _ => rfl) (fun s u t _ hrun => ?_) fun _ => ?_
  · cases hrun
    rfl
  have hkeep : ∀ {α : Type} {p : M α} {s t : State} {x : α}, Keeps (fun s t => t.pp = s.pp) p → FromCaller s →
      p s = .ok x t → FromCaller t := fun hp hs hrun => by rwa [FromCaller, hp.of_ok (F := State.pp) hrun]
  have henable : Keeps (fun s t => t.pp = s.pp) (callAt .PG3 .enable enable) :=
    keeps_callAt busFrame_pp (keeps_enable busFrame_pp)
  refine blindFrom_get_bind (fun _ _ _ => rfl) fun s _ => ?_
  refine blindFrom_bind (blind_require _ _).from
    (fun _ _ _ hs hrun => hkeep (keeps_require busFrame_pp _ _) hs hrun) fun _ => ?_
  refine blindFrom_bind (blind_require _ _).from
    (fun _ _ _ hs hrun => hkeep (keeps_require busFrame_pp _ _) hs hrun) fun _ => ?_
  refine blindFrom_bind (blind_callAt _ _ blind_enable).from (fun _ _ _ hs hrun => hkeep henable hs hrun) fun _ => ?_
  refine blindFrom_bind blind_select.from (fun _ _ _ hs hrun => hkeep (keeps_select busFrame_pp) hs hrun) fun _ => ?_
  refine blindFrom_bind (blind_xchg _).from (fun _ _ _ hs hrun => hkeep (keeps_xchg busFrame_pp _) hs hrun) fun _ => ?_
  refine blindFrom_get_bind (fun _ _ _ => rfl) fun s _ => ?_
  refine blindFrom_bind (blind_sendAddr _).from (fun _ _ _ hs hrun => hkeep (keeps_sendAddr busFrame_pp _) hs hrun)
    fun _ => ?_
  refine blindFrom_bind (Q := FromCaller) (blind_assign fun _ _ => rfl).from (fun _ _ _ hs hrun => ?_) fun _ => ?_
  · cases hrun
    exact hs
  refine blindFrom_get_bind (fun _ _ _ => rfl) fun s _ => ?_
  exact blindFrom_bind (blind_streamPage _ _) (fun _ _ _ _ _ => trivial) fun _ =>
    blind_bind blind_deselect fun _ => blind_callAt _ _ blind_waitUntilReady

/-- The span's bytes come from the caller's buffer. -/
def SpanFromCaller (s : State) : Prop := s.psw.src = .caller

theorem busFrame_psw : BusFrame fun s t => t.psw = s.psw :=
  busFrame_field State.psw (fun _ _ h => by rw [h]) fun _ _ => rfl

theorem spanFromCaller_program {data : List Byte} {src : Source} {b : BitVec 32} {a : Address} {len : BitVec 32}
    {site : Label} {s t : State} {x : Unit} (hs : SpanFromCaller s)
    (h : callAt site .programPage (programPage data src b a len) s = .ok x t) : SpanFromCaller t := by
  have hkeeps := keeps_callAt (site := site) (p := .programPage) busFrame_psw
    (keeps_programPage busFrame_psw (fun _ _ => rfl) (fun _ _ => rfl) data src b a len)
  rwa [SpanFromCaller, hkeeps.of_ok (F := State.psw) h]

theorem blind_spanChunk (data : List Byte) : BlindFrom SpanFromCaller (spanChunk data) := by
  refine blindFrom_bind (Q := SpanFromCaller) (blind_assign fun _ _ => rfl).from (fun s u t hs hrun => ?_) fun _ => ?_
  · cases hrun
    exact hs
  refine blindFrom_get_bind (fun _ _ _ => rfl) fun s hs => ?_
  rw [show s.psw.src = .caller from hs]
  exact blindFrom_bind (blind_callAt _ _ (blind_programPage _ _ _ _)).from (fun _ _ _ _ _ => trivial) fun _ =>
    blind_assign fun _ _ => rfl

theorem spanFromCaller_spanChunk {data : List Byte} {s t : State} {x : Unit} (hs : SpanFromCaller s)
    (h : spanChunk data s = .ok x t) : SpanFromCaller t := by
  obtain ⟨_, u, hu, h⟩ := run_bind_eq_ok.1 h
  cases hu
  rw [run_get_bind] at h
  obtain ⟨_, v, hv, h⟩ := run_bind_eq_ok.1 h
  cases h
  have hprogrammed : SpanFromCaller v := spanFromCaller_program (s := measureSpan s) hs hv
  exact hprogrammed

theorem blind_spanLoop (data : List Byte) (fuel : Nat) : BlindFrom SpanFromCaller (spanLoop data fuel) := by
  induction fuel with
  | zero => exact (blind_pure ()).from
  | succ fuel ih =>
    refine blindFrom_get_bind (fun _ _ _ => rfl) fun s _ => ?_
    split
    · exact (blind_pure ()).from
    · refine blindFrom_bind (blind_spanChunk data) (fun _ _ _ hs hrun => spanFromCaller_spanChunk hs hrun) fun _ =>
        blindFrom_bind (Q := SpanFromCaller) (blind_goto _).from (fun _ _ _ hs hrun => ?_) fun _ => ih
      cases hrun
      exact hs

theorem blind_writeAssumingBlank (data : List Byte) (b : BitVec 32) (a : Address) (len : BitVec 32) :
    Blind (writeAssumingBlank data .caller b a len) := by
  refine blindFrom_bind (Q := SpanFromCaller) (blind_assign fun _ _ => rfl) (fun s u t _ hrun => ?_) fun _ => ?_
  · cases hrun
    rfl
  refine blindFrom_get_bind (fun _ _ _ => rfl) fun s _ => ?_
  refine blindFrom_bind (Q := SpanFromCaller) (blind_require _ _).from (fun s u t hs hrun => ?_) fun _ => ?_
  · rw [SpanFromCaller, (keeps_require busFrame_psw _ _).of_ok (F := State.psw) hrun]
    exact hs
  refine blindFrom_bind (Q := SpanFromCaller) (blind_assign fun _ _ => rfl).from (fun s u t hs hrun => ?_) fun _ =>
    blind_spanLoop _ _
  cases hrun
  exact hs

theorem blind_eraseSector (si : SectorIndex) : Blind (eraseSector si) :=
  blind_bind (blind_assign fun _ _ => rfl) fun _ => blind_get_bind (fun _ _ => rfl) fun _ =>
  blind_bind (blind_require _ _) fun _ => blind_bind (blind_callAt _ _ blind_enable) fun _ =>
  blind_bind (blind_callAt _ _ blind_waitUntilReady) fun _ => blind_bind blind_select fun _ =>
  blind_bind (blind_xchg _) fun _ => blind_get_bind (fun _ _ => rfl) fun _ => blind_bind (blind_sendAddr _) fun _ =>
  blind_bind blind_deselect fun _ => blind_callAt _ _ blind_waitUntilReady

/-! ### Requests -/

/-- The operations of the host but `write` (45 R221). -/
def sbFree (i : Instr) : Prop := isHostRequest i = true ∧ ∀ a data, i ≠ .fweWrite a data

theorem blind_request {i : Instr} {p : Proc} {m : M Byte} (hi : meaning i = .request p m) (h : sbFree i) : Blind m := by
  obtain ⟨hhost, hwrite⟩ := h
  cases i <;> cases hi
  case srRead.refl n => exact blind_readStatus n
  case srWrite.refl n v => exact blind_bind (blind_writeStatus n v) fun _ => blind_pure _
  case srBusy.refl => exact blind_bind blind_busy fun _ => blind_pure _
  case srWait.refl => exact blind_bind blind_waitUntilReady fun _ => blind_pure _
  case weEnable.refl => exact blind_bind blind_enable fun _ => blind_pure _
  case weDisable.refl => exact blind_bind blind_disable fun _ => blind_pure _
  case ppProgram.refl a data => exact blind_bind (blind_programPage data _ _ _) fun _ => blind_pure _
  case pswWriteBlank.refl a data => exact blind_bind (blind_writeAssumingBlank data _ _ _) fun _ => blind_pure _
  case semErase.refl si => exact blind_bind (blind_eraseSector si) fun _ => blind_pure _
  case fweWrite.refl a data => exact absurd rfl (hwrite a data)
  case fweReadSector.refl si => cases hhost

/-- Nor does such an operation write SB. -/
theorem keeps_sb_request {i : Instr} {p : Proc} {m : M Byte} (hi : meaning i = .request p m) (h : sbFree i) :
    Keeps (fun s t => t.sb = s.sb) m := by
  have hb : BusFrame fun s t => t.sb = s.sb := busFrame_field State.sb (fun _ _ h => by rw [h]) fun _ _ => rfl
  have hr : ∀ (s : State) r, ({ s with sra := r } : State).sb = s.sb := fun _ _ => rfl
  have hp : ∀ (s : State) r, ({ s with pp := r } : State).sb = s.sb := fun _ _ => rfl
  have hw : ∀ (s : State) r, ({ s with psw := r } : State).sb = s.sb := fun _ _ => rfl
  have he : ∀ (s : State) r, ({ s with sem := r } : State).sb = s.sb := fun _ _ => rfl
  obtain ⟨hhost, hwrite⟩ := h
  cases i <;> cases hi
  case srRead.refl n => exact keeps_readStatus hb hr n
  case srWrite.refl n v => exact keeps_discard hb (keeps_writeStatus hb hr n v)
  case srBusy.refl => exact keeps_bind hb (keeps_busy hb hr) fun _ => keeps_pure hb _
  case srWait.refl => exact keeps_discard hb (keeps_waitUntilReady hb hr)
  case weEnable.refl => exact keeps_discard hb (keeps_enable hb)
  case weDisable.refl => exact keeps_discard hb (keeps_disable hb)
  case ppProgram.refl a data => exact keeps_discard hb (keeps_programPage hb hr hp data _ _ _ _)
  case pswWriteBlank.refl a data => exact keeps_discard hb (keeps_writeAssumingBlank hb hr hp hw data _ _ _ _)
  case semErase.refl si => exact keeps_discard hb (keeps_eraseSector hb hr he si)
  case fweWrite.refl a data => exact absurd rfl (hwrite a data)
  case fweReadSector.refl si => cases hhost

theorem abort_sb (e : Status) (s : State) : (abort e s).sb = s.sb := by
  have hcut : (cutShort s).sb = s.sb := by rw [onlyBus_cutShort s]
  by_cases he : e.poisons = true
  · rw [abort_of_poisons he]
    exact (State.poisonWith_sb ..).trans hcut
  · rw [abort_of_not_poisons (Bool.eq_false_iff.2 he)]
    exact hcut

/-- A request of a procedure that does not see SB has the same outcome with other contents of it. -/
theorem serve_withSb {p : Proc} {m : M Byte} (h : Blind m) (sb : Memory) (s : State) :
    nextState? (serve p m (withSb sb s)) = (nextState? (serve p m s)).map (withSb sb) := by
  have hrun := h sb (accepted p s) trivial
  unfold serve
  change nextState? (if s.engBusy then _ else if s.cs || !s.seq.isEmpty then _ else
    (match m (withSb sb (accepted p s)) with
      | .ok r t => .next (respond r t)
      | .error (.raised e) t => .next (abort e t)
      | .error .hung t => .next t.poisonHung)) = _
  rw [hrun]
  split
  · rfl
  · split
    · rfl
    · change _ = Option.map (withSb sb) (nextState? (match m (accepted p s) with
        | .ok r t => .next (respond r t)
        | .error (.raised e) t => .next (abort e t)
        | .error .hung t => .next t.poisonHung))
      rcases m (accepted p s) with ⟨r, t⟩ | ⟨e | _, t⟩
      · rfl
      · exact congrArg some (abort_withSb sb t e)
      · exact congrArg some (poisonHung_withSb sb t)

/-- No operation of the host is a bare transaction. -/
theorem host_not_transaction {i : Instr} {c : Byte} {rest : AddressWidth → List Byte} (hhost : isHostRequest i = true) :
    meaning i ≠ .transaction c rest := by
  intro hi
  obtain ⟨hreserved, -⟩ | ⟨⟨p, m, hrequest⟩, -⟩ := isHostRequest_meaning hhost
  · rw [hreserved] at hi
    cases hi
  · rw [hrequest] at hi
    cases hi

/-- Settles O25: the two runs go in step, and no event of either touches SB. -/
theorem scratchBufferNoninterference : Obligations.ScratchBufferNoninterference := by
  intro i s m hhost hwrite
  constructor
  · change nextState? (exec i (withSb m s)) = (nextState? (exec i s)).map (withSb m)
    rw [exec_eq_run, exec_eq_run]
    cases hi : meaning i with
    | request p proc => exact serve_withSb (blind_request hi ⟨hhost, hwrite⟩) m s
    | transaction c rest => exact absurd hi (host_not_transaction hhost)
    | reserved =>
      change nextState? (illegalRequest (withSb m s)) = (nextState? (illegalRequest s)).map (withSb m)
      unfold illegalRequest
      change nextState? (if s.engBusy then _ else if s.cs || !s.seq.isEmpty then _ else
        .next (abort .illegalRequest (withSb m { s with engBusy := true }))) = _
      rw [abort_withSb]
      split
      · rfl
      · split <;> rfl
  · intro t h
    rw [exec_eq_run] at h
    cases hi : meaning i with
    | request p proc =>
      rw [hi] at h
      have hkeeps := keeps_sb_request hi ⟨hhost, hwrite⟩ (accepted p s)
      obtain ⟨-, rfl⟩ | ⟨-, ⟨r, u, hm, rfl⟩ | ⟨e, u, hm, rfl⟩ | ⟨u, hm, rfl⟩⟩ := serve_next h
      · rfl
      all_goals rw [accepted, hm] at hkeeps
      · exact hkeeps
      · exact (abort_sb e u).trans hkeeps
      · exact u.poisonHung_sb.trans hkeeps
    | transaction c rest => exact absurd hi (host_not_transaction hhost)
    | reserved =>
      rw [hi] at h
      obtain ⟨-, rfl⟩ | ⟨-, rfl⟩ := illegalRequest_next h <;> rfl

end Sys2Proof.Proofs
end

section
/-! What a request or a transaction can do to the flash array: nothing but the programs and erases whose commands it
sends (10_state R31, 20_memory R63). -/

open Sys2Proof Sys2Proof.Machine

namespace Sys2Proof.Proofs

/-- The command byte of an addressed command (30_encoding R110). -/
def commandByte : AddressCommand → Byte
  | .readData => 0x03
  | .pageProgram => 0x02
  | .sectorErase => 0x20

/-- The transaction that is being decoded is one of the addressed command `c`. -/
def Decodes (c : AddressCommand) : Phase → Prop
  | .address c' _ _ => c' = c
  | .readOut _ => c = .readData
  | .dataIn _ _ => c = .pageProgram
  | .eraseAt _ => c = .sectorErase
  | _ => False

theorem decodes_addressedPhase {c c' : AddressCommand} {a : Nat} (h : Decodes c (addressedPhase c' a)) : c' = c := by
  cases c' <;> exact Eq.symm h

/-- Only its command byte begins a transaction of an addressed command. -/
theorem decodes_commandPhase {aw : AddressWidth} {tx : Byte} {c : AddressCommand} (h : Decodes c (commandPhase aw tx)) :
    tx = commandByte c := by
  unfold commandPhase at h
  split at h
  case h_9 hbyte => cases h; exact BitVec.eq_of_toNat_eq hbyte
  case h_10 hbyte => cases h; exact BitVec.eq_of_toNat_eq hbyte
  case h_11 hbyte => cases h; exact BitVec.eq_of_toNat_eq hbyte
  all_goals cases h

/-- Later bytes do not make a transaction one of another command. -/
theorem decodes_next {aw : AddressWidth} {tx : Byte} {p : Phase} {c : AddressCommand} (hp : p ≠ .command)
    (h : Decodes c (p.next aw tx)) : Decodes c p := by
  cases p with
  | command => exact absurd rfl hp
  | address c' left acc =>
    simp only [Phase.next] at h
    split at h
    · exact decodes_addressedPhase h
    · exact h
  | statusRead r done => cases done <;> exact h
  | statusWrite r v => cases v <;> exact h
  | eraseAt a => cases h
  | _ => exact h

theorem next_ne_command (aw : AddressWidth) (tx : Byte) (p : Phase) : p.next aw tx ≠ .command := by
  cases p with
  | command =>
    simp only [Phase.next, commandPhase]
    split <;> simp
  | address c left acc =>
    simp only [Phase.next]
    split
    · cases c <;> simp [addressedPhase]
    · simp
  | statusRead r done => cases done <;> simp [Phase.next]
  | statusWrite r v => cases v <;> simp [Phase.next]
  | _ => simp [Phase.next]

/-- What holds of the cells and is kept by the addressed commands `A`. -/
structure CellsKept (A : AddressCommand → Prop) (K : Memory → Prop) : Prop where
  program : A .pageProgram → ∀ m a ds, K m → K (m.program a ds)
  erase : A .sectorErase → ∀ m a, K m → K (m.erase a 4096)

/-- The act of a transaction that is one of the addressed commands `A`, or of none. -/
theorem CellsKept.act {A : AddressCommand → Prop} {K : Memory → Prop} (h : CellsKept A K) {s : State}
    (hA : ∀ c, Decodes c s.dev.phase → A c) (hs : K s.dev.flash) : K s.act.dev.flash := by
  obtain hq | ⟨a, r, hphase, -, hw⟩ | ⟨a, hphase, hw⟩ := act_cases s
  · rwa [hq.flash]
  · rw [hw.flash]
    exact h.program (hA _ (by rw [hphase]; rfl)) _ _ _ hs
  · rw [hw.flash]
    exact h.erase (hA _ (by rw [hphase]; rfl)) _ _ hs

/-- What the addressed commands `A` keep of the cells, a block keeps that sends only these and the others. -/
def cellsProtocol {A : AddressCommand → Prop} {K : Memory → Prop} (h : CellsKept A K) :
    Protocol (fun b => ∀ c, b = commandByte c → A c) (fun _ => True) where
  out s := s.cs = false ∧ K s.dev.flash
  sel s := s.cs = true ∧ K s.dev.flash ∧ s.dev.phase = .command
  inn s := s.cs = true ∧ K s.dev.flash ∧ s.dev.phase ≠ .command ∧ ∀ c, Decodes c s.dev.phase → A c
  cut _ s := K s.dev.flash ∧ (s.cs = true → ∀ c, Decodes c s.dev.phase → A c)
  regs_out hst hs := by rwa [hst.cs, hst.dev]
  regs_inn hst hs := by rwa [hst.cs, hst.dev]
  selects hs := ⟨rfl, hs.2, rfl⟩
  command {b s rx t} hC hs hx := by
    obtain ⟨hcs, hK, hphase⟩ := hs
    have hin := takesIn_of_xchg hx
    refine ⟨hin.cs.trans hcs, by rwa [hin.flash], by rw [hin.phase]; exact next_ne_command _ _ _, fun c hc => ?_⟩
    rw [hin.phase, hphase] at hc
    exact hC c (decodes_commandPhase hc)
  exchange {tx s rx t} hs hx := by
    obtain ⟨hcs, hK, hphase, hA⟩ := hs
    have hin := takesIn_of_xchg hx
    refine ⟨hin.cs.trans hcs, by rwa [hin.flash], by rw [hin.phase]; exact next_ne_command _ _ _, fun c hc => ?_⟩
    rw [hin.phase] at hc
    exact hA c (decodes_next hphase hc)
  deselects hs := ⟨rfl, h.act hs.2.2.2 hs.2.1⟩
  fail {tx s t} hs hx := by
    obtain ⟨-, gaps, -, rfl⟩ := xchg_error hx
    obtain ⟨-, hK, hphase⟩ | ⟨-, hK, -, hA⟩ := hs
    · refine ⟨hK, fun _ c hc => ?_⟩
      rw [State.mapEnv_dev, hphase] at hc
      cases hc
    · exact ⟨hK, fun _ => hA⟩
  stop _ hs := ⟨hs.2, fun hcs => by simp [hs.1] at hcs⟩
  hung hs _ _ := ⟨hs.2, fun hcs => by simp [hs.1] at hcs⟩

/-- What an instruction keeps of the cells of a device that is not POISONED after it. -/
theorem exec_cells {A : AddressCommand → Prop} {K : Memory → Prop} (hkept : CellsKept A K) {i : Instr} {s t : State}
    (hC : ∀ c, commandByte c ∈ commandsOf i → A c) (h : exec i s = .next t) (hclean : t.PClean)
    (hs : K s.dev.flash) : K t.dev.flash := by
  cases hbusy : s.engBusy with
  | true =>
    rw [exec_busy hbusy] at h
    cases h
    exact hs
  | false =>
    have hidle : s.PIdle := idle_of_exec hbusy h
    have hended := exec_ended (cellsProtocol hkept) (fun b hb c hc => hC c (hc ▸ hb)) (fun _ _ => trivial)
      (fun _ _ _ _ => trivial) (fun _ => .inr trivial) ⟨hidle.2.1, hs⟩ hidle h
    cases hended with
    | answered r u hu hway => exact hu.2
    | aborted e u hu hway =>
      have hpoisons : e.poisons = false := by
        refine Bool.eq_false_iff.2 fun he => ?_
        have := (abort_block e u).2.2 he
        simp [hclean] at this
      rw [abort_of_not_poisons hpoisons]
      change K (cutShort u).dev.flash
      unfold cutShort
      split
      next hcs => exact hkept.act (hu.2 hcs) hu.1
      next => exact hu.1
    | hung u hu hway =>
      have := (poisonHung_dev u).1
      simp [hclean] at this
    | sent u hu hbus => exact hkept.act hu.2.2.2 hu.2.1
    | sentCut u hu hbus =>
      rw [State.PClean, poison_poisoned] at hclean
      cases hclean
    | refused => exact hs
where
  /-- A block that answers and is not busy was idle. -/
  idle_of_exec {i : Instr} {s t : State} (hbusy : s.engBusy = false) (h : exec i s = .next t) : s.PIdle := by
    rw [exec_eq_run] at h
    cases hi : meaning i with
    | request p m =>
      rw [hi] at h
      obtain ⟨hb, -⟩ | ⟨hidle, -⟩ := serve_next h
      · simp [hbusy] at hb
      · exact hidle
    | transaction c rest =>
      rw [hi] at h
      obtain ⟨hb, -⟩ | ⟨hidle, -⟩ := bareTransaction_next h
      · simp [hbusy] at hb
      · exact hidle
    | reserved =>
      rw [hi] at h
      obtain ⟨hb, -⟩ | ⟨hidle, -⟩ := illegalRequest_next h
      · simp [hbusy] at hb
      · exact hidle

/-- What is not POISONED after an instruction was not before. -/
theorem clean_of_exec {i : Instr} {s t : State} (h : exec i s = .next t) (hclean : t.PClean) : s.PClean :=
  Bool.eq_false_iff.2 fun hp => by simpa [hclean] using execFrame_poisoned.exec h hp

/-- Settles O26: with neither command sent the cells are the same. -/
theorem onlyProgramAndEraseChangeFlash : Obligations.OnlyProgramAndEraseChangeFlash := by
  intro i s t hi h hclean
  have hkept : CellsKept (· = .readData) (· = s.dev.flash) := ⟨fun h => by simp at h, fun h => by simp at h⟩
  have hC : ∀ c, commandByte c ∈ commandsOf i → c = .readData := by
    intro c hc
    cases c with
    | readData => rfl
    | pageProgram | sectorErase =>
      exfalso
      cases i <;> cases hi
      case srRead.refl n =>
        simp only [commandsOf, commandByte, List.mem_singleton, readCommand] at hc
        split_ifs at hc <;> cases hc
      case srWrite.refl n v =>
        simp only [commandsOf, commandByte, List.mem_singleton, writeCommand] at hc
        split_ifs at hc <;> cases hc
      all_goals
        simp only [commandsOf, commandByte] at hc
        exact absurd hc (by decide)
  exact flashByte_congr (clean_of_exec h hclean) hclean (exec_cells hkept hC h hclean rfl)

/-- The cells have no bit set that was clear in `m₀`. -/
def BitsWithin (m₀ m : Memory) : Prop := m.wf = true ∧ ∀ x, m.read x &&& m₀.read x = m.read x

theorem BitsWithin.program {m₀ m : Memory} (h : BitsWithin m₀ m) (a : Nat) (ds : List Byte) :
    BitsWithin m₀ (m.program a ds) := by
  obtain ⟨hwf, hbits⟩ := h
  refine ⟨Memory.wf_program hwf, fun x => ?_⟩
  rw [Memory.read_program hwf]
  split
  · rw [BitVec.and_assoc, BitVec.and_comm (ds.getD _ 0), ← BitVec.and_assoc, hbits]
  · exact hbits x

/-- Settles O27: each program clears bits, and none of the three forms erases. -/
theorem programsOnlyClearBits : Obligations.ProgramsOnlyClearBits := by
  intro i s t a data hinv hi h hclean x
  have hkept : CellsKept (· ≠ .sectorErase) (BitsWithin s.dev.flash) :=
    ⟨fun _ m a ds hm => hm.program a ds, fun h => absurd rfl h⟩
  have hC : ∀ c, commandByte c ∈ commandsOf i → c ≠ .sectorErase := by
    rintro _ hc rfl
    simp only [List.mem_cons, List.not_mem_nil, or_false] at hi
    obtain rfl | rfl | rfl := hi
    all_goals
      simp only [commandsOf, commandByte] at hc
      exact absurd hc (by decide)
  have hbits := exec_cells hkept hC h hclean ⟨hinv.flash_wf, fun x => BitVec.and_self⟩
  rw [State.flashByte_clean hclean, State.flashByte_clean (clean_of_exec h hclean)]
  exact hbits.2 x

end Sys2Proof.Proofs
end

section
/-! A request whose first exchange fails: after the first `Select()` no byte is sent (60 R264, R266). -/

open Sys2Proof Sys2Proof.Machine

namespace Sys2Proof.Proofs

/-- The next exchange fails, and nothing has been sent since `s₀`. -/
structure ToFail (gaps : List Nat) (s₀ s : State) : Prop where
  xfer : s.env.xferFail = 0 :: gaps
  trace : s.trace = s₀.trace
  sb : s.sb = s₀.sb

/-- An exchange has failed right after the first `Select()` since `s₀`. -/
structure HasFailed (gaps : List Nat) (s₀ u : State) : Prop where
  cs : u.cs = true
  xfer : u.env.xferFail = gaps
  trace : u.trace = .select :: s₀.trace
  sb : u.sb = s₀.sb

/-- The procedure fails in its first exchange. -/
def FailsFirst {α : Type} (gaps : List Nat) (s₀ : State) (m : M α) (s : State) : Prop :=
  ∃ u, m s = .error (.raised .transportFailure) u ∧ HasFailed gaps s₀ u

section Rules
variable {α β : Type} {gaps : List Nat} {s₀ s : State}

theorem FailsFirst.bind {m : M α} {f : α → M β} (h : FailsFirst gaps s₀ m s) : FailsFirst gaps s₀ (m >>= f) s := by
  obtain ⟨u, hrun, hu⟩ := h
  exact ⟨u, run_bind_error hrun, hu⟩

theorem FailsFirst.after {m : M α} {f : α → M β} {a : α} {t : State} (hm : m s = .ok a t)
    (h : FailsFirst gaps s₀ (f a) t) : FailsFirst gaps s₀ (m >>= f) s := by
  rwa [FailsFirst, run_bind_ok hm]

theorem FailsFirst.callAt {m : M α} {site : Label} {p : Proc}
    (h : FailsFirst gaps s₀ m { s with seq := { proc := p, label := p.entry } :: relabel site s.seq }) :
    FailsFirst gaps s₀ (callAt site p m) s := by
  obtain ⟨u, hrun, hu⟩ := h
  exact ⟨u, run_callAt_error s hrun, hu⟩

/-- The first transaction. -/
theorem failsFirst_select {tx : Byte} {f : Byte → M α} (h : ToFail gaps s₀ s) :
    FailsFirst gaps s₀ (select >>= fun _ => xchg tx >>= f) s := by
  have hrun : xchg tx s.selected =
      .error (.raised .transportFailure) (s.selected.mapEnv fun e => { e with xferFail := gaps }) := by
    have hx : s.selected.env.xferFail = 0 :: gaps := h.xfer
    unfold xchg
    rw [hx]
  exact ⟨s.selected.mapEnv fun e => { e with xferFail := gaps },
    by rw [run_select_bind, run_bind_error hrun], ⟨rfl, rfl, congrArg _ h.trace, h.sb⟩⟩

end Rules

/-! ### The procedures -/

section Procedures
variable {gaps : List Nat} {s₀ s : State}

/-- The working registers and the sequencer do not matter to a failure. -/
theorem ToFail.regs (h : ToFail gaps s₀ s) {fwe psw pp sem sra seq} :
    ToFail gaps s₀ { s with fwe := fwe, psw := psw, pp := pp, sem := sem, sra := sra, seq := seq } :=
  ⟨h.xfer, h.trace, h.sb⟩

theorem failsFirst_readStatus {n : BitVec 8} (hn : validRegister n = true) (h : ToFail gaps s₀ s) :
    FailsFirst gaps s₀ (readStatus n) s :=
  .after (run_require_true _ hn) <| .after (run_assign _ _) <| failsFirst_select h.regs

theorem failsFirst_writeStatus {n : BitVec 8} {v : Byte} (hn : validRegister n = true) (h : ToFail gaps s₀ s) :
    FailsFirst gaps s₀ (writeStatus n v) s :=
  .after (run_require_true _ hn) <| .after (run_assign _ _) <| failsFirst_select h.regs

theorem failsFirst_busy (h : ToFail gaps s₀ s) : FailsFirst gaps s₀ busy s :=
  .bind <| .callAt <| failsFirst_readStatus rfl h.regs

theorem failsFirst_waitUntilReady (h : ToFail gaps s₀ s) : FailsFirst gaps s₀ waitUntilReady s :=
  .after (run_assign _ _) <| .after (run_get _) <| .bind <| .callAt <| failsFirst_busy h.regs

theorem failsFirst_enable (h : ToFail gaps s₀ s) : FailsFirst gaps s₀ enable s := failsFirst_select h

theorem failsFirst_disable (h : ToFail gaps s₀ s) : FailsFirst gaps s₀ disable s := failsFirst_select h

theorem failsFirst_programPage {data : List Byte} {src : Source} {b : BitVec 32} {a : Address} {len : BitVec 32}
    (hpage : withinPage a.toNat len.toNat = true) (hcap : withinCapacity s a.toNat len.toNat = true)
    (h : ToFail gaps s₀ s) : FailsFirst gaps s₀ (programPage data src b a len) s :=
  .after (run_assign _ _) <| .after (run_get _) <| .after (run_require_true _ hpage) <|
  .after (run_require_true _ hcap) <| .bind <| .callAt <| failsFirst_enable h.regs

theorem failsFirst_eraseSector {si : SectorIndex} (hcap : withinCapacity s (si.toNat * 4096) 4096 = true)
    (h : ToFail gaps s₀ s) : FailsFirst gaps s₀ (eraseSector si) s :=
  .after (run_assign _ _) <| .after (run_get _) <|
  .after (run_require_true _ (by rw [← sectorBase_toNat] at hcap; exact hcap)) <| .bind <| .callAt <|
  failsFirst_enable h.regs

/-- The first chunk of a span inside the array is inside its page and the array (43 R181). -/
theorem failsFirst_spanChunk {data : List Byte} (hpage : s.psw.pageRemain.toNat = 256 - s.psw.addr.toNat % 256)
    (hcap : s.psw.addr.toNat + s.psw.remaining.toNat ≤ s.dd.capacityBytes) (h : ToFail gaps s₀ s) :
    FailsFirst gaps s₀ (spanChunk data) s := by
  have hchunk : spanChunkOf s ≤ 256 - s.psw.addr.toNat % 256 ∧ spanChunkOf s ≤ s.psw.remaining.toNat := by
    unfold spanChunkOf
    omega
  have hn : (BitVec.ofNat 32 (measureSpan s).psw.n.toNat).toNat = spanChunkOf s := by
    change (BitVec.ofNat 32 (BitVec.ofNat 9 (spanChunkOf s)).toNat).toNat = _
    rw [BitVec.toNat_ofNat, BitVec.toNat_ofNat]
    omega
  have hpageN : withinPage s.psw.addr.toNat (BitVec.ofNat 32 (measureSpan s).psw.n.toNat).toNat = true :=
    withinPage_iff.2 (by rw [hn]; omega)
  have hcapN : withinCapacity s s.psw.addr.toNat (BitVec.ofNat 32 (measureSpan s).psw.n.toNat).toNat = true :=
    withinCapacity_iff.2 (by rw [hn]; omega)
  exact .after (run_assign _ _) <| .after (run_get _) <| .bind <| .callAt <| failsFirst_programPage hpageN hcapN h.regs

theorem failsFirst_writeAssumingBlank {data : List Byte} {src : Source} {b : BitVec 32} {a : Address} {len : BitVec 32}
    (hlen : 0 < len.toNat) (hcap : withinCapacity s a.toNat len.toNat = true) (h : ToFail gaps s₀ s) :
    FailsFirst gaps s₀ (writeAssumingBlank data src b a len) s := by
  obtain ⟨fuel, hfuel⟩ : ∃ fuel, len.toNat = fuel + 1 := ⟨len.toNat - 1, by omega⟩
  refine .after (run_assign _ _) <| .after (run_get _) <| .after (run_require_true _ hcap) <| .after (run_assign _ _) ?_
  rw [hfuel]
  refine .after (run_get _) ?_
  rw [if_neg (fun hzero : len = 0 => by simp [hzero] at hlen)]
  refine .bind <| failsFirst_spanChunk ?_ (withinCapacity_iff.1 hcap) h.regs
  change (BitVec.ofNat 9 (256 - a.toNat % 256)).toNat = _
  rw [BitVec.toNat_ofNat]
  change _ = 256 - a.toNat % 256
  omega

theorem failsFirst_writeFlash {data : List Byte} {a : Address} {len : BitVec 32} (hlen : 0 < len.toNat)
    (hcap : withinCapacity s a.toNat len.toNat = true) (h : ToFail gaps s₀ s) :
    FailsFirst gaps s₀ (writeFlash data a len) s := by
  obtain ⟨fuel, hfuel⟩ : ∃ fuel, len.toNat = fuel + 1 := ⟨len.toNat - 1, by omega⟩
  refine .after (run_assign _ _) <| .after (run_get _) <| .after (run_require_true _ hcap) ?_
  rw [hfuel]
  refine .after (run_get _) ?_
  rw [if_neg (fun hzero : len = 0 => by simp [hzero] at hlen)]
  exact .bind <| .after (run_assign _ _) <| .after (run_get _) <| .bind <| .callAt <| failsFirst_select h.regs

/-- Every request that sends something fails so (45 R203, 43 R184). -/
theorem failsFirst_request {i : Instr} {p : Proc} {m : M Byte} (hi : meaning i = .request p m)
    (hwf : i.wf s.dd.addressWidth = true) (hsends : sendsSomething s i = true) (h : ToFail gaps s₀ s) :
    FailsFirst gaps s₀ m s := by
  cases i <;> cases hi
  case srRead.refl n => exact failsFirst_readStatus hsends h
  case srWrite.refl n v => exact .bind (failsFirst_writeStatus hsends h)
  case srBusy.refl => exact .bind (failsFirst_busy h)
  case srWait.refl => exact .bind (failsFirst_waitUntilReady h)
  case weEnable.refl => exact .bind (failsFirst_enable h)
  case weDisable.refl => exact .bind (failsFirst_disable h)
  case ppProgram.refl a data =>
    obtain ⟨hpage, hcap⟩ := Bool.and_eq_true_iff.1 hsends
    have hlen := lengthField_toNat (of_decide_eq_true hwf)
    exact .bind (failsFirst_programPage (by rwa [hlen]) (by rwa [hlen]) h)
  case pswWriteBlank.refl a data =>
    obtain ⟨hcap, hne⟩ := Bool.and_eq_true_iff.1 hsends
    have hlen := lengthField_toNat (of_decide_eq_true hwf)
    exact .bind (failsFirst_writeAssumingBlank (by rw [hlen]; exact length_pos_of_isEmpty hne) (by rwa [hlen]) h)
  case semErase.refl si => exact .bind (failsFirst_eraseSector hsends h)
  case fweWrite.refl a data =>
    obtain ⟨hcap, hne⟩ := Bool.and_eq_true_iff.1 hsends
    have hlen := lengthField_toNat (of_decide_eq_true hwf)
    exact .bind (failsFirst_writeFlash (by rw [hlen]; exact length_pos_of_isEmpty hne) (by rwa [hlen]) h)
  case fweReadSector.refl si => cases hsends
where
  length_pos_of_isEmpty {data : List Byte} (h : (!data.isEmpty) = true) : 0 < data.length := by
    cases data with
    | nil => cases h
    | cons b bs => exact Nat.succ_pos _

end Procedures

/-- Only a request of a procedure sends something. -/
theorem request_of_sendsSomething {i : Instr} {s : State} (h : sendsSomething s i = true) :
    ∃ p m, meaning i = .request p m := by
  cases i <;> first | exact ⟨_, _, rfl⟩ | cases h

theorem xferFail_onlyDevice {s t : State} (h : OnlyDevice s t) : t.env.xferFail = s.env.xferFail := by rw [h]

/-- Settles O28: the abort ends the empty transaction. -/
theorem failingFirstExchangeAborts : Obligations.FailingFirstExchangeAborts := by
  intro i s gaps hidle hwf hsends hxfer
  obtain ⟨p, m, hi⟩ := request_of_sendsSomething hsends
  have hsends' : sendsSomething (accepted p s) i = true := by
    rw [← hsends]
    cases i <;> rfl
  obtain ⟨u, hrun, hcs, hgaps, htrace, hsb⟩ :=
    failsFirst_request (s := accepted p s) hi hwf hsends' (s₀ := s) ⟨hxfer, rfl, rfl⟩
  obtain ⟨hblock, hrsp, hpoisoned⟩ := abort_block .transportFailure u
  refine ⟨abort .transportFailure u, request_raised hi hidle hrun, hrsp, hblock, hpoisoned rfl, ?_, ?_, ?_⟩
  · have hfailed : (failed .transportFailure u).env.xferFail = u.env.xferFail := by
      rw [failed, cutShort, if_pos hcs]
      change u.act.env.xferFail = _
      exact xferFail_onlyDevice (onlyDevice_act u)
    rw [abort_of_poisons rfl]
    exact (xferFail_onlyDevice (onlyDevice_poisonWith _ _)).trans (hfailed.trans hgaps)
  · exact (abort_sb _ _).trans hsb
  · rw [abort_trace, cutShort, if_pos hcs, State.deselected_trace, htrace]
    rfl

end Sys2Proof.Proofs
end

section
/-! Transactions of bytes the device only takes in, run alone on an idle device: PageProgram, SectorErase, and the
commands of one phase (46 R232, R236 to R243, R247). -/

open Sys2Proof Sys2Proof.Machine

namespace Sys2Proof.Proofs

/-! ### The phase in which the bytes leave the device -/

/-- An address that fits its width is below the first one the transmitted bytes cannot say (20_memory R83). -/
theorem lt_of_fits {aw : AddressWidth} {a : Address} (h : aw.fits a = true) : a.toNat < 2 ^ (8 * aw.bytes) := by
  cases aw with
  | three => exact of_decide_eq_true h
  | four => exact a.isLt

/-- A phase that takes every byte and stays as it is. -/
theorem absorbing_phase {aw : AddressWidth} {p : Phase} (hsink : p.sink = true) (hnext : ∀ b, p.next aw b = p)
    (bs : List Byte) : p.sinks aw bs = true ∧ p.after aw bs = p := by
  induction bs with
  | nil => exact ⟨rfl, rfl⟩
  | cons b bs ih =>
    obtain ⟨hsinks, hafter⟩ := ih
    rw [Phase.sinks, hnext, hsink, hsinks, Phase.after, List.foldl_cons, hnext]
    exact ⟨rfl, hafter⟩

section Addressed
variable {aw : AddressWidth} {c : Byte} {cmd : AddressCommand} (hnext : Phase.next aw c .command = .address cmd aw.bytes 0)
  (a : Address)
include hnext

/-- After a command byte and the address the device has the part of the address that was sent (30_encoding R106). -/
theorem addressed_phase :
    Phase.command.after aw (c :: addressBytes aw a) = addressedPhase cmd (a.toNat % 2 ^ (8 * aw.bytes)) := by
  change (Phase.next aw c .command).after aw _ = _
  rw [hnext]
  exact addressBytes_after aw cmd a

theorem addressed_sinks : Phase.command.sinks aw (c :: addressBytes aw a) = true := by
  change (true && (Phase.next aw c .command).sinks aw _) = _
  rw [hnext]
  exact addressBytes_sinks aw cmd a

end Addressed

/-- What the device has decoded after a PageProgram (46 R236). -/
theorem pageProgram_phase (aw : AddressWidth) (a : Address) (data : List Byte) :
    Phase.command.sinks aw (0x02 :: (addressBytes aw a ++ data)) = true ∧
      Phase.command.after aw (0x02 :: (addressBytes aw a ++ data)) =
        .dataIn (a.toNat % 2 ^ (8 * aw.bytes)) data.reverse := by
  have hnext := next_pageProgram aw
  rw [← List.cons_append, Phase.sinks_append, Phase.after_append, addressed_sinks hnext, addressed_phase hnext,
    addressedPhase, dataIn_sinks, dataIn_after, List.append_nil]
  exact ⟨rfl, rfl⟩

/-- What the device has decoded after a SectorErase (46 R237). -/
theorem sectorErase_phase (aw : AddressWidth) (a : Address) :
    Phase.command.sinks aw (0x20 :: addressBytes aw a) = true ∧
      Phase.command.after aw (0x20 :: addressBytes aw a) = .eraseAt (a.toNat % 2 ^ (8 * aw.bytes)) :=
  ⟨addressed_sinks (next_sectorErase aw) a, addressed_phase (next_sectorErase aw) a⟩

/-! ### The transaction and the device's act -/

/-- A transaction of bytes the device only takes in changes the device, and of the engine nothing. -/
theorem transacted_pushed {s : State} (hidle : s.PIdle) (c : Byte) (bs : List Byte) :
    Transacted (c :: bs) s (s.selected.pushedAll (c :: bs)).deselected where
  frame := by
    obtain ⟨-, hcs, -⟩ := hidle
    have hbus : OnlyBus s (s.selected.pushedAll (c :: bs)) := rfl
    have hframe := hbus.trans (onlyBus_deselected _)
    generalize hu : (s.selected.pushedAll (c :: bs)).deselected = u at hframe
    have hclosed : u.cs = s.cs := by rw [← hu, hcs]; rfl
    rw [OnlyBus, hclosed] at hframe
    exact hframe
  sent := by
    rw [pushedAll_cons]
    exact (sends_pushed c bs).transactions_eq
  phase := rfl

/-- The bytes sent alone, and the device's act on all of them. -/
theorem exec_pushed {i : Instr} {s u : State} {c : Byte} {bs : List Byte} {p : Phase}
    (hi : exec i s = bareTransaction (c :: bs) s) (hidle : s.PIdle) (hxfer : s.PXfer)
    (hsinks : Phase.command.sinks s.dd.addressWidth (c :: bs) = true)
    (hp : Phase.command.after s.dd.addressWidth (c :: bs) = p)
    (hact : ∀ v : State, v = s.selected.pushedAll (c :: bs) → v.dev.phase = p → v.act = u) :
    ∃ t, exec i s = .next t ∧ Transacted (c :: bs) s t ∧ t.dev = { u.dev with phase := .off } := by
  refine ⟨_, hi.trans (bareTransaction_sink hidle hxfer hsinks), transacted_pushed hidle c bs, ?_⟩
  rw [deselected_of_act (hact _ rfl hp)]

/-- A device as little POISONED as before, with the same cells, shows the same `F`. -/
theorem flashByte_kept {s t : State} (hclean : s.PClean) (hpoisoned : t.dev.poisoned = s.dev.poisoned)
    (hflash : t.dev.flash = s.dev.flash) (x : Nat) : t.flashByte x = s.flashByte x :=
  flashByte_congr hclean (hpoisoned.trans hclean) hflash x

/-! ### Commands of one phase -/

/-- Settles O39: the device decodes an undefined command, which absorbs every further byte. -/
theorem commandsWithoutEffectPoison : Obligations.CommandsWithoutEffectPoison := by
  intro i c tail s hi hidle hxfer
  obtain ⟨hexec, hnext⟩ : exec i s = bareTransaction (c :: tail) s ∧
      Phase.next s.dd.addressWidth c .command = .undefinedCommand := by
    simp only [List.mem_cons, List.not_mem_nil, or_false, Prod.mk.injEq] at hi
    obtain ⟨rfl, rfl⟩ | ⟨rfl, rfl⟩ | ⟨rfl, rfl⟩ := hi
    · exact ⟨rfl, next_chipErase _⟩
    · exact ⟨rfl, next_powerDown _⟩
    · exact ⟨rfl, next_releasePowerDown _⟩
  obtain ⟨hsinks, hafter⟩ := absorbing_phase (aw := s.dd.addressWidth) (p := .undefinedCommand) rfl (fun _ => rfl) tail
  rw [← hnext] at hsinks hafter
  obtain ⟨t, hrun, htransacted, hdev⟩ := exec_pushed hexec hidle hxfer hsinks (hafter.trans hnext) fun v hv hp => by
    rw [act_undefinedCommand hp, hv]
  refine ⟨t, hrun, htransacted, ?_⟩
  rw [hdev]
  exact poison_poisoned _

/-- Settles O40: an idle device acts with nothing on the identification. -/
theorem manufacturerDeviceIDLeavesDevice : Obligations.ManufacturerDeviceIDLeavesDevice := by
  intro tail s hidle hready hclean hxfer
  have hnext := next_manufacturerDeviceID s.dd.addressWidth
  obtain ⟨hsinks, hafter⟩ := absorbing_phase (aw := s.dd.addressWidth) (p := .identity) rfl (fun _ => rfl) tail
  rw [← hnext] at hsinks hafter
  obtain ⟨t, hrun, htransacted, hdev⟩ := exec_pushed (i := .manufacturerDeviceID tail) rfl hidle hxfer hsinks
    (hafter.trans hnext) fun v hv hp => by
      rw [act_identity hp, whenIdle_ready _ (by rw [hv]; exact hclean) (by rw [hv]; exact hready), hv]
  have hdev : t.dev = { s.dev with phase := .off } := hdev
  refine ⟨t, hrun, htransacted, hdev, flashByte_kept hclean (by rw [hdev]) (by rw [hdev])⟩

/-- Settles O41: an idle device acts with the mode. -/
theorem enable4ByteAddrSetsMode : Obligations.Enable4ByteAddrSetsMode := by
  intro s hidle hready hclean hxfer
  obtain ⟨t, hrun, htransacted, hdev⟩ := exec_pushed (i := .enable4ByteAddr) (s := s) (c := 0xB7) (bs := []) rfl hidle
    hxfer rfl (next_enable4ByteAddr s.dd.addressWidth) fun v hv hp => by
      rw [act_enable4 hp, whenIdle_ready _ (by rw [hv]; exact hclean) (by rw [hv]; exact hready), hv]
  have hdev : t.dev = { s.dev with ads := true, phase := .off } := hdev
  refine ⟨t, hrun, htransacted, hdev, flashByte_kept hclean (by rw [hdev]) (by rw [hdev])⟩

/-! ### PageProgram and SectorErase -/

section Array
variable {s : State}

/-- A program inside a page and the array on a latched device that can be programmed (46 R236). -/
theorem actProgram_ok {n : Nat} {data : List Byte} (hw : s.writable = true) (hl : s.dev.wel = true)
    (hpage : n % 256 + data.length ≤ 256) (hcap : n + data.length ≤ s.dd.capacityBytes) (hne : data ≠ []) :
    s.actProgram n data = (s.mapDev fun d => { d with flash := d.flash.program n data }).startCycle .program := by
  unfold State.actProgram
  rw [hw, hl, decide_eq_false (by omega), decide_eq_false (by omega), if_neg (by decide),
    if_neg (by simpa using hne)]

/-- An erase of a sector of the array on a latched device that can be erased (46 R237). -/
theorem actErase_ok {n : Nat} (hw : s.writable = true) (hl : s.dev.wel = true) (ha : n % 4096 = 0)
    (hcap : n + 4096 ≤ s.dd.capacityBytes) :
    s.actErase n = (s.mapDev fun d => { d with flash := d.flash.erase n 4096 }).startCycle .erase := by
  unfold State.actErase
  rw [hw, hl, decide_eq_false (by omega), decide_eq_false (by omega), if_neg (by decide)]

end Array

/-- Settles O33: the device has the address and the data, and programs them. -/
theorem pageProgramCommand : Obligations.PageProgramCommand := by
  intro a data s hinv hfits hne hpage hcap hidle hready hclean hmode hawake hxfer hwel
  obtain ⟨hsinks, hafter⟩ := pageProgram_phase s.dd.addressWidth a data
  rw [Nat.mod_eq_of_lt (lt_of_fits hfits)] at hafter
  obtain ⟨t, hrun, htransacted, hdev⟩ := exec_pushed (i := .pageProgram a data) rfl hidle hxfer hsinks hafter
    fun v hv hp => by
      rw [act_dataIn hp, whenIdle_ready _ (by rw [hv]; exact hclean) (by rw [hv]; exact hready), List.reverse_reverse,
        actProgram_ok ((State.writable_iff v).2 (by rw [hv]; exact ⟨hmode, hawake⟩)) (by rw [hv]; exact hwel) hpage
          (by rw [hv]; exact hcap) hne, hv]
  have hdev : t.dev = { s.dev with
      flash := s.dev.flash.program a.toNat data, pend := .program, busyFor := s.env.latencies.headD (some 0),
      phase := .off } := hdev
  refine ⟨t, hrun, htransacted, ?_, flashByte_program hclean ?_ hinv.flash_wf ?_⟩
  · rw [hdev]
  · rw [State.PClean, hdev]
    exact hclean
  · rw [hdev]

/-- Settles O34: the device has the address and no data. -/
theorem emptyPageProgramCommand : Obligations.EmptyPageProgramCommand := by
  intro a s _ hcap hidle hready hclean hmode hawake hxfer hwel
  have h := programsNothing hclean hready hmode hawake hwel hcap
  have hbytes : s.programSent a [] = s.selected.pushedAll (0x02 :: addressBytes s.dd.addressWidth a) := by
    rw [State.programSent, List.append_nil, pushedAll_cons]
  have hrun : exec (.pageProgram a []) s = .next (s.programSent a []).deselected := by
    rw [hbytes]
    refine Eq.trans ?_ (bareTransaction_sink hidle hxfer (addressed_sinks (next_pageProgram _) a))
    rw [← List.append_nil (addressBytes s.dd.addressWidth a)]
    rfl
  have htransacted := transacted_pushed hidle 0x02 (addressBytes s.dd.addressWidth a)
  rw [← hbytes] at htransacted
  generalize (s.programSent a []).deselected = t at h hrun htransacted
  refine ⟨t, hrun, htransacted, by rw [h.frame], h.cycle.imp_right And.left,
    flashByte_kept hclean (by rw [h.frame]) (by rw [h.frame])⟩

/-- Settles O35: the device has the address, and erases its sector. -/
theorem sectorEraseCommand : Obligations.SectorEraseCommand := by
  intro a s _ hfits ha hcap hidle hready hclean hmode hawake hxfer hwel
  obtain ⟨hsinks, hafter⟩ := sectorErase_phase s.dd.addressWidth a
  rw [Nat.mod_eq_of_lt (lt_of_fits hfits)] at hafter
  obtain ⟨t, hrun, htransacted, hdev⟩ := exec_pushed (i := .sectorErase a) rfl hidle hxfer hsinks hafter
    fun v hv hp => by
      rw [act_eraseAt hp, whenIdle_ready _ (by rw [hv]; exact hclean) (by rw [hv]; exact hready),
        actErase_ok ((State.writable_iff v).2 (by rw [hv]; exact ⟨hmode, hawake⟩)) (by rw [hv]; exact hwel) ha
          (by rw [hv]; exact hcap), hv]
  have hdev : t.dev = { s.dev with
      flash := s.dev.flash.erase a.toNat 4096, pend := .erase, busyFor := s.env.latencies.headD (some 0),
      phase := .off } := hdev
  have hclean' : t.PClean := by
    rw [State.PClean, hdev]
    exact hclean
  refine ⟨t, hrun, htransacted, by rw [hdev], fun x => ?_⟩
  rw [State.flashByte_clean hclean', State.flashByte_clean hclean, hdev]
  exact Memory.read_erase

end Sys2Proof.Proofs
end

section
/-! ReadData run alone: bytes of the array in ascending order, and nothing changed (46 R235). -/

open Sys2Proof Sys2Proof.Machine

namespace Sys2Proof.Proofs

/-! ### What a trace has received -/

theorem received_append (xs ys : List BusEvent) : received (xs ++ ys) = received ys ++ received xs := by
  simp [received]

theorem received_transaction (evs tr : List BusEvent) :
    received (.deselect :: (evs ++ .select :: tr)) = received tr ++ received evs := by
  change received (evs ++ .select :: tr) = _
  rw [received_append]
  rfl

/-- One byte is received for each byte sent. -/
theorem received_pushTrace_length (d : Nat) (bs : List Byte) : (received (pushTrace d bs [])).length = bs.length := by
  induction bs generalizing d with
  | nil => rfl
  | cons b bs ih =>
    rw [pushTrace, pushTrace_append, received_append, List.length_append, ih, List.length_cons, Nat.add_comm]
    rfl

theorem addressBytes_length (aw : AddressWidth) (a : Address) : (addressBytes aw a).length = aw.bytes := by
  cases aw <;> rfl

/-- Several bytes are sent one after the other. -/
theorem sendBytes_append_ok {xs ys : List Byte} {s t : State} (h : sendBytes xs s = .ok () t) :
    sendBytes (xs ++ ys) s = sendBytes ys t := by
  induction xs generalizing s with
  | nil => cases h; rfl
  | cons x xs ih =>
    rw [List.cons_append, sendBytes, run_bind]
    rw [sendBytes, run_bind] at h
    rcases hx : xchg x s with ⟨rx, u⟩ | ⟨e, u⟩ <;> rw [hx] at h
    · exact ih h
    · cases h

/-! ### The receive phase -/

/-- `t` is `s` after it has driven `n` bytes of the array from `a` on, dummy bytes being sent. -/
structure Drives (a n : Nat) (evs : List BusEvent) (s t : State) : Prop where
  frame : t = { s with dev := { s.dev with phase := .readOut (a + n) }, trace := evs ++ s.trace }
  exchanges : ∀ e ∈ evs, e.isXchg = true
  sent : bytesSent evs = List.replicate n Config.dummyTx
  received : received evs = (List.range' a n).map s.dev.flash.read

theorem sendBytes_readOut {s : State} {a n : Nat} (hxfer : s.PXfer) (hclean : s.PClean) (hready : s.PReady)
    (hreadable : s.readable = true) (hphase : s.dev.phase = .readOut a) (hcap : a + n ≤ s.dd.capacityBytes) :
    ∃ t evs, sendBytes (List.replicate n Config.dummyTx) s = .ok () t ∧ Drives a n evs s t := by
  induction n generalizing s a with
  | zero =>
    refine ⟨s, [], rfl, ?_, (fun e he => by cases he), rfl, rfl⟩
    change s = { s with dev := { s.dev with phase := .readOut a } }
    rw [← hphase]
  | succ n ih =>
    have hexchanged := exchanged_readOut hclean hready hreadable hphase (by omega) Config.dummyTx
    let b := s.dev.flash.read a
    let u : State := { s with
      dev := { s.dev with phase := .readOut (a + 1) }, trace := .xchg Config.dummyTx b :: s.trace }
    obtain ⟨t, evs, hrun, hframe, hexchanges, hsent, hreceived⟩ :=
      ih (s := u) (a := a + 1) hxfer hclean hready hreadable rfl (by change a + 1 + n ≤ s.dd.capacityBytes; omega)
    refine ⟨t, evs ++ [.xchg Config.dummyTx b], ?_, ?_, ?_, ?_, ?_⟩
    · rw [List.replicate_succ, sendBytes, run_bind_ok (xchg_ok hxfer _), hexchanged]
      exact hrun
    · rw [Nat.add_right_comm] at hframe
      rw [List.append_assoc]
      exact hframe
    · intro e he
      rcases List.mem_append.1 he with he | he
      · exact hexchanges e he
      · rw [List.mem_singleton.1 he]
        rfl
    · rw [bytesSent_append, hsent, List.replicate_succ]
      rfl
    · rw [received_append, hreceived, List.range'_succ]
      rfl

/-- At the end of a read inside the array an idle device does nothing (46 R235). -/
theorem deselected_readOut {s : State} {a : Nat} (hclean : s.PClean) (hready : s.PReady) (hreadable : s.readable = true)
    (hphase : s.dev.phase = .readOut a) (hcap : a ≤ s.dd.capacityBytes) :
    s.deselected = { s with cs := false, dev := { s.dev with phase := .off }, trace := .deselect :: s.trace } := by
  refine deselected_of_act ?_
  rw [act_readOut hphase, whenIdle_ready _ hclean hready, State.actRead, hreadable, decide_eq_true hcap]
  rfl

/-- Settles O32: the device has the address, drives the array from there, and acts with nothing. -/
theorem readDataCommand : Obligations.ReadDataCommand := by
  intro a n s hfits hcap hidle hready hclean hmode hawake hxfer
  have hreadable : s.readable = true := (State.readable_iff s).2 ⟨hmode, hawake⟩
  have hnext := next_readData s.dd.addressWidth
  -- the command and the address
  let head : List Byte := 0x03 :: addressBytes s.dd.addressWidth a
  let u : State := s.selected.pushedAll head
  have hhead : sendBytes head s.selected = .ok () u :=
    sendBytes_sink (s := s.selected) hxfer (addressed_sinks hnext a)
  have hphase : u.dev.phase = .readOut a.toNat := by
    refine (addressed_phase hnext a).trans ?_
    rw [Nat.mod_eq_of_lt (lt_of_fits hfits)]
    rfl
  -- the bytes of the array
  obtain ⟨t, evs, hrun, hframe, hexchanges, hsent, hreceived⟩ :=
    sendBytes_readOut (s := u) hxfer hclean hready hreadable hphase hcap
  have hdeselected : t.deselected = { t with
      cs := false, dev := { t.dev with phase := .off }, trace := .deselect :: t.trace } :=
    deselected_readOut (a := a.toNat + n) (by rw [hframe]; exact hclean) (by rw [hframe]; exact hready)
      (by rw [hframe]; exact hreadable) (by rw [hframe]) (by rw [hframe]; exact hcap)
  have htrace : t.deselected.trace = .deselect :: ((evs ++ pushTrace s.env.drawn head []) ++ .select :: s.trace) := by
    rw [State.deselected_trace, hframe, List.append_assoc]
    exact congrArg (fun tr => .deselect :: (evs ++ tr)) (pushedAll_trace s.selected head)
  have hframe' : t.deselected = { s with
      dev := { s.dev with phase := .off }, env := t.env, trace := t.deselected.trace } := by
    obtain ⟨-, hcs, -⟩ := hidle
    rw [hdeselected, hframe]
    simp only [u, State.pushedAll, State.selected, State.mapDev, hcs]
  have hdev : t.deselected.dev = { s.dev with phase := .off } := by rw [hframe']
  have henv : t.deselected.env = t.env := by rw [hframe']
  refine ⟨t.deselected, received (pushTrace s.env.drawn head []), ?runs, ⟨?_, ?sent, rfl⟩, hdev,
    flashByte_kept hclean (by rw [hdev]) (by rw [hdev]), ?length, ?received⟩
  case runs =>
    change bareTransaction (head ++ List.replicate n Config.dummyTx) s = _
    rw [bareTransaction_idle hidle, sendBytes_append_ok hhead, hrun]
  · rw [hdev, henv]
    exact hframe'
  case sent =>
    refine (Sends.transaction (evs := evs ++ pushTrace s.env.drawn head []) (fun e he => ?_) ?_ htrace).transactions_eq
    · exact (List.mem_append.1 he).elim (hexchanges e) (pushTrace_isXchg _ _ e)
    · rw [bytesSent_append, bytesSent_pushTrace, hsent]
      rfl
  case length =>
    rw [received_pushTrace_length, List.length_cons, addressBytes_length, Nat.add_comm]
  case received =>
    have hbytes : received evs = (List.range n).map fun i => s.flashByte (a.toNat + i) := by
      rw [hreceived, List.range'_eq_map_range, List.map_map]
      exact List.map_congr_left fun i _ => (State.flashByte_clean hclean _).symm
    rw [htrace, ← hbytes, received_transaction, received_append, List.append_assoc]

end Sys2Proof.Proofs
end

section
/-! Commands the device has no defined answer to: a busy device, the other addressing mode, a powered-down device, a
protected region, a clear latch. What bars the command holds until the device acts, or the device is POISONED before
that (46 R238, R241, R242, log 19). -/

open Sys2Proof Sys2Proof.Machine

namespace Sys2Proof.Proofs

/-! ### What a look leaves -/

theorem observe_own {s : State} (hclean : s.PClean) : OwnDevice s.dev s.observe.2.dev := by
  obtain ⟨w, -, hdev, -⟩ := observe_looked (s := s) (.inl hclean)
  rw [hdev]
  exact (looked_own s.dev w).1

/-- The device is busy for at least one more look. -/
def Outlasts (s : State) : Prop := s.dev.pend ≠ .none ∧ s.dev.busyFor ≠ some 0

/-- A look finds such a device busy. -/
theorem observe_outlasts {s : State} (hclean : s.PClean) (h : Outlasts s) : s.observe.1 = true := by
  obtain ⟨hpend, hfor⟩ := h
  obtain ⟨w, hbusy, -⟩ := observe_looked (s := s) (.inl hclean)
  rw [hbusy]
  rcases hk : s.dev.busyFor with _ | _ | k
  · rw [looked_stuck w hpend hk]
  · exact absurd hk hfor
  · rw [looked_runs w hpend hk]

/-! ### What bars a command -/

/-- A property of the device that the bytes of a transaction leave, and a look at an idle device too. -/
structure Barrier (B : State → Prop) : Prop where
  taken : ∀ {s t : State}, t.dd = s.dd → t.dev = { s.dev with phase := t.dev.phase } → B s → B t
  looked : ∀ {s : State}, s.PClean → s.observe.1 = false → B s → B s.observe.2

/-- The property holds, or the device is POISONED already. -/
def Barred (B : State → Prop) (s : State) : Prop := s.dev.poisoned = true ∨ B s

theorem barrier_outlasts : Barrier Outlasts where
  taken _ hdev h := by
    rw [Outlasts, hdev]
    exact h
  looked hclean hfree h := by
    rw [observe_outlasts hclean h] at hfree
    cases hfree

theorem barrier_unreadable : Barrier fun s => s.readable = false where
  taken hdd hdev h := by
    rw [State.readable, State.modeMatches, hdev, hdd]
    exact h
  looked {s} hclean _ h := by
    obtain ⟨-, hads, -, ⟨hasleep, -⟩, -⟩ := observe_own hclean
    rw [State.readable, State.modeMatches, hads, hasleep, onlyDevice_observe s]
    exact h

theorem barrier_unwritable : Barrier fun s => s.writable = false where
  taken hdd hdev h := by
    rw [State.writable, State.readable, State.modeMatches, hdev, hdd]
    exact h
  looked {s} hclean _ h := by
    obtain ⟨-, hads, -, ⟨hasleep, hguarded⟩, -⟩ := observe_own hclean
    rw [State.writable, State.readable, State.modeMatches, hads, hasleep, hguarded, onlyDevice_observe s]
    exact h

theorem barrier_unlatched : Barrier fun s => s.dev.pend = .none ∧ s.dev.wel = false where
  taken _ hdev h := by
    rw [hdev]
    exact h
  looked hclean _ h := by
    obtain ⟨hpend, hwel⟩ := h
    obtain ⟨-, -, -, -, hcycle⟩ := observe_own hclean
    obtain ⟨hpend', hwel'⟩ | ⟨hbusy, -⟩ := hcycle
    · exact ⟨hpend'.trans hpend, hwel'.trans hwel⟩
    · exact absurd hpend hbusy

/-! ### Bytes of a barred command -/

section Bytes
variable {B : State → Prop} {s t : State}

theorem Barred.taken (h : Barred B s) (hB : Barrier B) (hdd : t.dd = s.dd)
    (hdev : t.dev = { s.dev with phase := t.dev.phase }) : Barred B t := by
  obtain hpoisoned | hbars := h
  · left
    rw [hdev]
    exact hpoisoned
  · exact .inr (hB.taken hdd hdev hbars)

theorem Barred.drawByte (hB : Barrier B) (h : Barred B s) : Barred B s.drawByte.2 := h.taken hB rfl rfl

theorem Barred.driveFlash (hB : Barrier B) (a : Nat) (h : Barred B s) : Barred B (s.driveFlash a).2 := by
  unfold State.driveFlash
  split
  next => exact h.drawByte hB
  next hclean =>
    dsimp only
    split
    next => exact Barred.drawByte hB (.inl (poison_poisoned _))
    next hdriven =>
      have hfree : s.observe.1 = false := by
        simp only [Bool.or_eq_true, not_or, Bool.not_eq_true] at hdriven
        exact hdriven.1.1
      exact .inr (hB.looked (Bool.eq_false_iff.2 hclean) hfree (h.resolve_left hclean))

/-- The device is still decoding a command that is not a status read. -/
def actsAtEnd : Phase → Bool
  | .off | .command | .statusRead _ _ => false
  | .latch _ | .statusWrite _ _ | .address _ _ _ | .readOut _ | .dataIn _ _ | .eraseAt _ | .identity | .enable4
  | .undefinedCommand => true

theorem actsAtEnd_next {p : Phase} (h : actsAtEnd p = true) (aw : AddressWidth) (b : Byte) :
    actsAtEnd (p.next aw b) = true := by
  cases p with
  | off | command | statusRead => cases h
  | statusWrite r v => cases v <;> rfl
  | address c left acc =>
    rw [Phase.next]
    split
    · cases c <;> rfl
    · rfl
  | latch | readOut | dataIn | eraseAt | identity | enable4 | undefinedCommand => rfl

theorem actsAtEnd_after {p : Phase} (h : actsAtEnd p = true) (aw : AddressWidth) (bs : List Byte) :
    actsAtEnd (p.after aw bs) = true := by
  induction bs generalizing p with
  | nil => exact h
  | cons b bs ih => exact ih (actsAtEnd_next h aw b)

theorem Barred.exchanged (hB : Barrier B) (tx : Byte) (hphase : ∀ r, s.dev.phase ≠ .statusRead r false)
    (h : Barred B s) : Barred B (s.exchanged tx).2 := by
  have hdrive : Barred B s.drive.2 := by
    unfold State.drive
    split
    next r hstatus => exact absurd hstatus (hphase r)
    next a _ => exact h.driveFlash hB a
    next => exact h.drawByte hB
  exact hdrive.taken hB rfl rfl

theorem Barred.sendBytes (hB : Barrier B) {bs : List Byte} (hxfer : s.PXfer) (hacts : actsAtEnd s.dev.phase = true)
    (h : Barred B s) :
    ∃ t, sendBytes bs s = .ok () t ∧ Barred B t ∧ t.dev.phase = s.dev.phase.after s.dd.addressWidth bs := by
  induction bs generalizing s with
  | nil => exact ⟨s, rfl, h, rfl⟩
  | cons b bs ih =>
    have hnext : (s.exchanged b).2.dev.phase = s.dev.phase.next s.dd.addressWidth b := (exchanged_dev s b).2.1
    have hbarred := h.exchanged hB b fun r hr => by simp [hr, actsAtEnd] at hacts
    obtain ⟨t, hrun, ht, hphase⟩ := ih ((State.exchanged_xferFail s b).trans hxfer)
      (by rw [hnext]; exact actsAtEnd_next hacts _ b) hbarred
    refine ⟨t, ?_, ht, ?_⟩
    · rw [Machine.sendBytes, run_bind_ok (xchg_ok hxfer b)]
      exact hrun
    · rw [hphase, hnext, State.exchanged_dd]
      rfl

/-- A barred transaction leaves the device POISONED, if the device's act does. -/
theorem Barrier.exec_poisons (hB : Barrier B) {i : Instr} {c : Byte} {bs : List Byte}
    (hi : exec i s = bareTransaction (c :: bs) s) (hidle : s.PIdle) (hxfer : s.PXfer)
    (hc : actsAtEnd (Phase.next s.dd.addressWidth c .command) = true) (hbars : B s)
    (hact : ∀ t, Barred B t → t.dev.phase = Phase.command.after s.dd.addressWidth (c :: bs) →
      t.act.dev.poisoned = true) :
    ∃ t, exec i s = .next t ∧ t.dev.poisoned = true := by
  have hselected : Barred B s.selected := Barred.taken (s := s) (.inr hbars) hB rfl rfl
  have hbarred := hselected.exchanged hB c fun r hr => by cases hr
  have hphase : (s.selected.exchanged c).2.dev.phase = _ := (exchanged_dev s.selected c).2.1
  obtain ⟨t, hrun, ht, hafter⟩ := hbarred.sendBytes hB (bs := bs)
    ((State.exchanged_xferFail s.selected c).trans hxfer) (by rw [hphase]; exact hc)
  refine ⟨t.deselected, ?_, ?_⟩
  · rw [hi, bareTransaction_idle hidle, Machine.sendBytes, run_bind_ok (xchg_ok (s := s.selected) hxfer c), hrun]
  · refine hact t ht ?_
    rw [hafter, hphase, State.exchanged_dd]
    rfl

/-! ### The device's act on a barred command -/

theorem Barred.whenIdle (hB : Barrier B) {f : State → State} (hf : ∀ u, B u → (f u).dev.poisoned = true)
    (h : Barred B s) : (s.whenIdle f).dev.poisoned = true := by
  unfold State.whenIdle
  split
  next => exact poison_poisoned s
  next hclean =>
    dsimp only
    split
    next => exact poison_poisoned _
    next hfree =>
      exact hf _ (hB.looked (Bool.eq_false_iff.2 hclean) (Bool.eq_false_iff.2 hfree) (h.resolve_left hclean))

/-- No command that is defined for an idle device finds one. -/
theorem whenIdle_outlasts (f : State → State) (h : Barred Outlasts s) : (s.whenIdle f).dev.poisoned = true := by
  unfold State.whenIdle
  split
  next => exact poison_poisoned s
  next hclean =>
    dsimp only
    rw [observe_outlasts (Bool.eq_false_iff.2 hclean) (h.resolve_left hclean)]
    exact poison_poisoned _

theorem act_outlasts (hacts : actsAtEnd s.dev.phase = true) (h : Barred Outlasts s) : s.act.dev.poisoned = true := by
  cases hphase : s.dev.phase with
  | off | command | statusRead => rw [hphase] at hacts; cases hacts
  | latch v => rw [act_latch hphase]; exact whenIdle_outlasts _ h
  | statusWrite r v =>
    cases v with
    | none => unfold State.act; rw [hphase]; exact poison_poisoned s
    | some v => rw [act_statusWrite hphase]; exact whenIdle_outlasts _ h
  | address c left acc => unfold State.act; rw [hphase]; exact poison_poisoned s
  | readOut a => rw [act_readOut hphase]; exact whenIdle_outlasts _ h
  | dataIn a r => rw [act_dataIn hphase]; exact whenIdle_outlasts _ h
  | eraseAt a => rw [act_eraseAt hphase]; exact whenIdle_outlasts _ h
  | identity => rw [act_identity hphase]; exact whenIdle_outlasts _ h
  | enable4 => rw [act_enable4 hphase]; exact whenIdle_outlasts _ h
  | undefinedCommand => rw [act_undefinedCommand hphase]; exact poison_poisoned s

theorem actRead_unreadable {a : Nat} (h : s.readable = false) : (s.actRead a).dev.poisoned = true := by
  rw [State.actRead, h]
  exact poison_poisoned s

theorem actProgram_barred {a : Nat} {data : List Byte} (h : (!s.writable || !s.dev.wel) = true) :
    (s.actProgram a data).dev.poisoned = true := by
  rw [State.actProgram, h]
  exact poison_poisoned s

theorem actErase_barred {a : Nat} (h : (!s.writable || !s.dev.wel) = true) : (s.actErase a).dev.poisoned = true := by
  rw [State.actErase, h]
  exact poison_poisoned s

/-- PageProgram and SectorErase of a device that cannot be written or is not latched. -/
theorem Barrier.program_or_erase_poisons (hB : Barrier B) (hbars : ∀ u, B u → (!u.writable || !u.dev.wel) = true)
    {i : Instr} {a : Address} {data : List Byte} (hi : i ∈ [Instr.pageProgram a data, .sectorErase a])
    (hidle : s.PIdle) (hxfer : s.PXfer) (h : B s) : ∃ t, exec i s = .next t ∧ t.dev.poisoned = true := by
  simp only [List.mem_cons, List.not_mem_nil, or_false] at hi
  obtain rfl | rfl := hi
  · refine hB.exec_poisons (i := .pageProgram a data) rfl hidle hxfer rfl h fun t ht hphase => ?_
    rw [act_dataIn (hphase.trans (pageProgram_phase _ a data).2)]
    exact ht.whenIdle hB fun u hu => actProgram_barred (hbars u hu)
  · refine hB.exec_poisons (i := .sectorErase a) rfl hidle hxfer rfl h fun t ht hphase => ?_
    rw [act_eraseAt (hphase.trans (sectorErase_phase _ a).2)]
    exact ht.whenIdle hB fun u hu => actErase_barred (hbars u hu)

end Bytes

/-! ### The statements -/

/-- Settles O36: a clear latch on a device without a cycle stays clear until the device acts. -/
theorem programOrEraseWithoutLatchPoisons : Obligations.ProgramOrEraseWithoutLatchPoisons := by
  intro i a data s hi hidle hxfer hwel hready
  refine barrier_unlatched.program_or_erase_poisons (fun u hu => ?_) hi hidle hxfer ⟨hready, hwel⟩
  rw [hu.2, Bool.not_false, Bool.or_true]

/-- Every device command but a status read is a transaction on whose end the device acts. -/
theorem deviceCommand_meaning {i : Instr} (hcommand : isDeviceCommand i = true) (hstatus : isStatusRead i = false) :
    ∃ c bytes, meaning i = .transaction c bytes ∧ ∀ aw, actsAtEnd (Phase.next aw c .command) = true := by
  cases i with
  | readStatusReg1 | readStatusReg2 | readStatusReg3 => cases hstatus
  | writeEnable | writeDisable | writeStatusReg1 | writeStatusReg2 | writeStatusReg3 | readData | pageProgram
  | sectorErase | chipErase | powerDown | releasePowerDown | manufacturerDeviceID | enable4ByteAddr =>
    exact ⟨_, _, rfl, fun _ => rfl⟩
  | srRead | srWrite | srBusy | srWait | weEnable | weDisable | ppProgram | pswWriteBlank | semErase | fweWrite
  | fweReadSector | reservedOp0 | reservedOpB | reservedOpC | reservedOpD | reservedOpE | reservedOpF =>
    cases hcommand

/-- Settles O37: the cycle outlasts the command, so the device acts while it is busy. -/
theorem commandsToBusyDevicePoison : Obligations.CommandsToBusyDevicePoison := by
  intro i s hcommand hstatus hidle hxfer hpend hfor
  obtain ⟨c, bytes, hi, hc⟩ := deviceCommand_meaning hcommand hstatus
  have hexec : exec i s = bareTransaction (c :: bytes s.dd.addressWidth) s := by
    rw [exec_eq_run, hi]
    rfl
  refine barrier_outlasts.exec_poisons hexec hidle hxfer (hc _) ⟨hpend, hfor⟩ fun t ht hphase => ?_
  refine act_outlasts ?_ ht
  rw [hphase]
  exact actsAtEnd_after (hc s.dd.addressWidth) s.dd.addressWidth (bytes s.dd.addressWidth)

/-- Any number of bytes read leaves a read. -/
theorem readOut_after (aw : AddressWidth) (a : Nat) (bs : List Byte) :
    (Phase.readOut a).after aw bs = .readOut (a + bs.length) := by
  induction bs generalizing a with
  | nil => rfl
  | cons b bs ih =>
    refine (ih (a + 1)).trans ?_
    rw [List.length_cons, Nat.add_assoc, Nat.add_comm 1]

theorem readData_unreadable_poisons {s : State} {a : Address} {n : Nat} (hidle : s.PIdle) (hxfer : s.PXfer)
    (h : s.readable = false) : ∃ t, exec (.readData a n) s = .next t ∧ t.dev.poisoned = true := by
  refine barrier_unreadable.exec_poisons (i := .readData a n) rfl hidle hxfer rfl h fun t ht hphase => ?_
  rw [← List.cons_append, Phase.after_append, addressed_phase (next_readData _), addressedPhase,
    readOut_after] at hphase
  rw [act_readOut hphase]
  exact ht.whenIdle barrier_unreadable fun u hu => actRead_unreadable hu

/-- Settles O38: the device stays unreadable, or unwritable, until it acts. -/
theorem wrongAddressingModePoisons : Obligations.WrongAddressingModePoisons := by
  intro i a n data s hcase hidle hxfer
  have hwrites (hi : i ∈ [Instr.pageProgram a data, .sectorErase a]) (h : s.writable = false) :
      ∃ t, exec i s = .next t ∧ t.dev.poisoned = true :=
    barrier_unwritable.program_or_erase_poisons (fun u hu => by rw [hu]; rfl) hi hidle hxfer h
  obtain ⟨hi, hmode⟩ | ⟨hi, hguarded⟩ := hcase
  · have hunreadable : s.readable = false := by
      obtain h | h := hmode <;> simp [State.readable, h]
    obtain rfl | hi := List.mem_cons.1 hi
    · exact readData_unreadable_poisons hidle hxfer hunreadable
    · exact hwrites hi (by rw [State.writable, hunreadable]; rfl)
  · exact hwrites hi (by rw [State.writable, hguarded, Bool.not_true, Bool.and_false])

end Sys2Proof.Proofs
end
